-- ==== Sys2Proof/Word.lean ====
section
/-! DEFINITION. The word types of the CR16C (spec/00_scope.md R8: byte 8, word 16, double-word 32 bits;
spec/20_memory.md R80: addresses of 24 bits). -/

namespace Sys2Proof

/-- A byte, 8 bits (R8). -/
abbrev Byte := BitVec 8

/-- A word, 16 bits (R8). -/
abbrev Word := BitVec 16

/-- A double-word, 32 bits (R8). -/
abbrev DWord := BitVec 32

/-- A legal byte address, 24 bits (R80, R90). An address under computation is an `Int`. -/
abbrev Addr := BitVec 24

end Sys2Proof
end

