-- ==== Sys2Proof/Syntax.lean ====
section
/-! DEFINITION. The instructions of the CR16C as syntax: one constructor for each mnemonic of
spec/opcode_table.json, its operand types holding one constructor for each row of that mnemonic
(spec/30_encoding.md R122 to R143). Register numbers stay 4-bit numbers, because the pairing rules of
spec/10_state.md R22, R23, R25 count on them. -/

namespace Sys2Proof

/-- A `reg(4)` field: R0..R13, RA = 14, SP = 15 (R22). -/
abbrev RegNum := BitVec 4

/-- An `rp(4)` field (R23). -/
abbrev PairNum := BitVec 4

/-- An `rrp(4)` or `prp(4)` field (R25). -/
abbrev IndexNum := BitVec 4

/-- A `pr(4)` or `prd(4)` field (R42). -/
abbrev ProcRegNum := BitVec 4

/-- The condition codes in the order of their numbers 0..15 (R40). -/
inductive Cond where
  | eq | ne | cs | cc | hi | ls | gt | le | fs | fc | lo | hs | lt | ge | always | uc
  deriving DecidableEq, Repr

/-- The source of a byte or word operation: `$imm4`, `$imm16` or `reg` (R207). -/
inductive Src where
  /-- The field; 9 stands for -1, 11 is the escape and not allowed (R131). -/
  | imm4 (f : BitVec 4)
  | imm16 (w : Word)
  | reg (r : RegNum)
  deriving DecidableEq, Repr

/-- The source of MOVD and ADDD (R202, R222). -/
inductive SrcD where
  | imm4 (f : BitVec 4)
  | imm16 (w : Word)
  | imm20 (f : BitVec 20)
  | imm32 (v : DWord)
  | pair (p : PairNum)
  deriving DecidableEq, Repr

/-- The first operand of CMPD, which has no imm20 form (R262). -/
inductive SrcC where
  | imm4 (f : BitVec 4)
  | imm16 (w : Word)
  | imm32 (v : DWord)
  | pair (p : PairNum)
  deriving DecidableEq, Repr

/-- The source of SUBD, ANDD, ORD, XORD (R229, R272). -/
inductive SrcL where
  | imm32 (v : DWord)
  | pair (p : PairNum)
  deriving DecidableEq, Repr

/-- The count of ASHUi and ASHUD: an immediate of `w` field bits to the left or to the right, or a
register (R142, R289). -/
inductive Count (w : Nat) where
  | left (n : BitVec w)
  | right (n : BitVec w)
  | reg (r : RegNum)
  deriving DecidableEq, Repr

/-- The count of LSHi and LSHD, which have no left immediate form (R142, R293). -/
inductive RightCount (w : Nat) where
  | right (n : BitVec w)
  | reg (r : RegNum)
  deriving DecidableEq, Repr

/-- The address forms of LOADi and STORi (R395). -/
inductive MemAddr where
  /-- `disp4(rp)`, field 0..13 (R102). -/
  | disp4 (p : PairNum) (f : BitVec 4)
  /-- `0(prp)`, read by CFG.SR (R101). -/
  | prp0 (n : IndexNum)
  /-- `disp14(prp)`, read by CFG.SR (R101). -/
  | disp14 (n : IndexNum) (d : BitVec 14)
  | disp16 (p : PairNum) (d : Word)
  | disp20Reg (r : RegNum) (d : BitVec 20)
  | disp20Pair (p : PairNum) (d : BitVec 20)
  | disp20Index (n : IndexNum) (d : BitVec 20)
  /-- `-disp20(reg)`: the displacement is the field less 2^20 (R139). -/
  | negDisp20Reg (r : RegNum) (d : BitVec 20)
  | negDisp20Pair (p : PairNum) (d : BitVec 20)
  /-- `abs20`, remapped (R94). -/
  | abs20 (a : BitVec 20)
  /-- `[Rindex]abs20`: false is R12, true is R13 (R25). -/
  | abs20Index (r13 : Bool) (a : BitVec 20)
  | abs24 (a : Addr)
  deriving DecidableEq, Repr

/-- The nine address forms of CBITi, SBITi, TBITi and STOR-immediate (R308, R397). -/
inductive BitAddr where
  | disp14 (n : IndexNum) (d : BitVec 14)
  | disp20Reg (r : RegNum) (d : BitVec 20)
  | pair0 (p : PairNum)
  | disp16 (p : PairNum) (d : Word)
  | disp20Pair (p : PairNum) (d : BitVec 20)
  | disp20Index (n : IndexNum) (d : BitVec 20)
  | abs20 (a : BitVec 20)
  | abs20Index (r13 : Bool) (a : BitVec 20)
  | abs24 (a : Addr)
  deriving DecidableEq, Repr

/-- A branch displacement as stored, without its bit 0, which is 0 (R123, R137, R138). -/
inductive BranchDisp where
  /-- Bits 8:1; 0x80 is the escape and not allowed (R137). -/
  | disp9 (f : BitVec 8)
  /-- Bits 16:1. -/
  | disp17 (h : Word)
  /-- Bits 24:1. -/
  | disp25 (h : BitVec 24)
  deriving DecidableEq, Repr

/-- The link operand of BAL and JAL: the implied RA operand of the short form, or a pair (R352, R360). -/
inductive Link where
  | implied
  | pair (p : PairNum)
  deriving DecidableEq, Repr

/-- The options of CINV, one for each opcode (R450). -/
inductive CacheOpts where
  | i | iu | d | du | di | diu
  deriving DecidableEq, Repr

/-- The instructions. -/
inductive Instr where
  -- moves (spec/40_moves.md)
  | movb (src : Src) (dest : RegNum)
  | movw (src : Src) (dest : RegNum)
  | movd (src : SrcD) (dest : PairNum)
  | movxb (src dest : RegNum)
  | movxw (src : RegNum) (dest : PairNum)
  | movzb (src dest : RegNum)
  | movzw (src : RegNum) (dest : PairNum)
  -- integer arithmetic (spec/41_integer_arithmetic.md)
  | addb (src : Src) (dest : RegNum)
  | addw (src : Src) (dest : RegNum)
  | addd (src : SrcD) (dest : PairNum)
  | addub (src : Src) (dest : RegNum)
  | adduw (src : Src) (dest : RegNum)
  | addcb (src : Src) (dest : RegNum)
  | addcw (src : Src) (dest : RegNum)
  | subb (src : Src) (dest : RegNum)
  | subw (src : Src) (dest : RegNum)
  | subd (src : SrcL) (dest : PairNum)
  | subcb (src : Src) (dest : RegNum)
  | subcw (src : Src) (dest : RegNum)
  | mulb (src : Src) (dest : RegNum)
  | mulw (src : Src) (dest : RegNum)
  | mulsb (src dest : RegNum)
  | mulsw (src : RegNum) (dest : PairNum)
  | muluw (src : RegNum) (dest : PairNum)
  | macqw (src1 src2 : RegNum) (dest : PairNum)
  | macuw (src1 src2 : RegNum) (dest : PairNum)
  | macsw (src1 src2 : RegNum) (dest : PairNum)
  -- integer comparison (spec/42_integer_comparison.md)
  | cmpb (src1 : Src) (src2 : RegNum)
  | cmpw (src1 : Src) (src2 : RegNum)
  | cmpd (src1 : SrcC) (src2 : PairNum)
  -- logic (spec/43_logical_boolean.md)
  | andb (src : Src) (dest : RegNum)
  | andw (src : Src) (dest : RegNum)
  | andd (src : SrcL) (dest : PairNum)
  | orb (src : Src) (dest : RegNum)
  | orw (src : Src) (dest : RegNum)
  | ord (src : SrcL) (dest : PairNum)
  | xorb (src : Src) (dest : RegNum)
  | xorw (src : Src) (dest : RegNum)
  | xord (src : SrcL) (dest : PairNum)
  | scond (c : Cond) (dest : RegNum)
  | seq (dest : RegNum)
  | sne (dest : RegNum)
  | scs (dest : RegNum)
  | scc (dest : RegNum)
  | shi (dest : RegNum)
  | sls (dest : RegNum)
  | sgt (dest : RegNum)
  | sle (dest : RegNum)
  | sfs (dest : RegNum)
  | sfc (dest : RegNum)
  | slo (dest : RegNum)
  | shs (dest : RegNum)
  | slt (dest : RegNum)
  | sge (dest : RegNum)
  -- shifts (spec/44_shifts.md)
  | ashub (count : Count 3) (dest : RegNum)
  | ashuw (count : Count 4) (dest : RegNum)
  | ashud (count : Count 5) (dest : PairNum)
  | lshb (count : RightCount 3) (dest : RegNum)
  | lshw (count : RightCount 4) (dest : RegNum)
  | lshd (count : RightCount 5) (dest : PairNum)
  -- bit operations (spec/45_bit_operations.md)
  | cbitb (pos : BitVec 3) (dest : BitAddr)
  | cbitw (pos : BitVec 4) (dest : BitAddr)
  | sbitb (pos : BitVec 3) (dest : BitAddr)
  | sbitw (pos : BitVec 4) (dest : BitAddr)
  | tbitb (pos : BitVec 3) (src : BitAddr)
  | tbitw (pos : BitVec 4) (src : BitAddr)
  /-- TBIT with an immediate offset (`fromReg = false`) or an offset register (R314). -/
  | tbit (fromReg : Bool) (offset : BitVec 4) (src : RegNum)
  -- processor registers (spec/46_processor_register.md)
  | lpr (src : RegNum) (dest : ProcRegNum)
  | lprd (src : PairNum) (dest : ProcRegNum)
  | spr (src : ProcRegNum) (dest : RegNum)
  | sprd (src : ProcRegNum) (dest : PairNum)
  -- jumps and linkage (spec/47_jumps_linkage.md)
  | bcond (c : Cond) (dest : BranchDisp)
  | beq (dest : BranchDisp)
  | bne (dest : BranchDisp)
  | bcs (dest : BranchDisp)
  | bcc (dest : BranchDisp)
  | bhi (dest : BranchDisp)
  | bls (dest : BranchDisp)
  | bgt (dest : BranchDisp)
  | ble (dest : BranchDisp)
  | bfs (dest : BranchDisp)
  | bfc (dest : BranchDisp)
  | blo (dest : BranchDisp)
  | bhs (dest : BranchDisp)
  | blt (dest : BranchDisp)
  | bge (dest : BranchDisp)
  | br (dest : BranchDisp)
  | bal (link : Link) (disp : BitVec 24)
  | beq0b (src : RegNum) (disp : BitVec 4)
  | beq0w (src : RegNum) (disp : BitVec 4)
  | bne0b (src : RegNum) (disp : BitVec 4)
  | bne0w (src : RegNum) (disp : BitVec 4)
  | jcond (c : Cond) (dest : PairNum)
  | jeq (dest : PairNum)
  | jne (dest : PairNum)
  | jcs (dest : PairNum)
  | jcc (dest : PairNum)
  | jhi (dest : PairNum)
  | jls (dest : PairNum)
  | jgt (dest : PairNum)
  | jle (dest : PairNum)
  | jfs (dest : PairNum)
  | jfc (dest : PairNum)
  | jlo (dest : PairNum)
  | jhs (dest : PairNum)
  | jlt (dest : PairNum)
  | jge (dest : PairNum)
  | jump (dest : PairNum)
  | jusr (dest : PairNum)
  | jal (link : Link) (dest : PairNum)
  | excp (vector : BitVec 4)
  | retx
  /-- PUSH: the count field holds count - 1 (R141). -/
  | push (ra : Bool) (count : BitVec 3) (src : RegNum)
  | pop (ra : Bool) (count : BitVec 3) (dest : RegNum)
  | popret (ra : Bool) (count : BitVec 3) (dest : RegNum)
  -- load and store (spec/48_load_store.md)
  | loadb (src : MemAddr) (dest : RegNum)
  | loadw (src : MemAddr) (dest : RegNum)
  | loadd (src : MemAddr) (dest : PairNum)
  | storb (src : RegNum) (dest : MemAddr)
  | storw (src : RegNum) (dest : MemAddr)
  | stord (src : PairNum) (dest : MemAddr)
  | storbImm (imm : BitVec 4) (dest : BitAddr)
  | storwImm (imm : BitVec 4) (dest : BitAddr)
  | loadm (count : BitVec 3)
  | loadmp (count : BitVec 3)
  | storm (count : BitVec 3)
  | stormp (count : BitVec 3)
  -- miscellaneous (spec/49_miscellaneous.md)
  | cinv (opts : CacheOpts)
  | di
  | ei
  | eiwait
  | wait
  | nop
  /-- A reserved encoding that raises UND (R456): its first word and, for 0x0018 and 0x0019, its `ope`. -/
  | resUnd (first : Word) (ope : BitVec 4)
  /-- A reserved encoding that does nothing (R457): its escape word and its `ope`. -/
  | resNop (first : Word) (ope : BitVec 4)
  deriving DecidableEq, Repr

end Sys2Proof
end

