-- ==== Sys2Proof/WellFormed.lean ====
section
/-! DEFINITION. Which operand values the encodings admit (spec/30_encoding.md). -/

namespace Sys2Proof

/-- The imm4 field 11 is the escape to the imm16 form (R131). -/
def Src.wf : Src → Bool
  | .imm4 f => f != 11
  | .imm16 _ => true
  | .reg _ => true

/-- As `Src.wf` (R131). -/
def SrcD.wf : SrcD → Bool
  | .imm4 f => f != 11
  | .imm16 _ => true
  | .imm20 _ => true
  | .imm32 _ => true
  | .pair _ => true

/-- As `Src.wf` (R131). -/
def SrcC.wf : SrcC → Bool
  | .imm4 f => f != 11
  | .imm16 _ => true
  | .imm32 _ => true
  | .pair _ => true

/-- The disp4 fields 14 and 15 are escapes (R102, R136). -/
def MemAddr.wf : MemAddr → Bool
  | .disp4 _ f => f != 14 && f != 15
  | _ => true

/-- The disp9 field 0x80 is the escape to the disp17 form (R137). -/
def BranchDisp.wf : BranchDisp → Bool
  | .disp9 f => f != 0x80
  | .disp17 _ => true
  | .disp25 _ => true

/-- STORB `disp16(rp)` with source 15 and base 15 would be the word 0xFFFF, which is reserved (R160). -/
def storbWf (src : RegNum) : MemAddr → Bool
  | .disp16 p _ => !(src == 15 && p == 15)
  | _ => true

/-- The first words of R456 that are reserved whatever follows. -/
def reservedFirst (w : Word) : Bool :=
  w ≤ 0x0002 || (0x0008 ≤ w && w ≤ 0x0009) || (0x0015 ≤ w && w ≤ 0x0017) ||
  (0x001A ≤ w && w ≤ 0x001F) || (0x0080 ≤ w && w ≤ 0x008F) || (0x00E0 ≤ w && w ≤ 0x00FF) ||
  (0x0900 ≤ w && w ≤ 0x097F) || (0x8000 ≤ w && w ≤ 0x80FF) || w == 0xFFFF

/-- The `ope` values of the words 0x0018 and 0x0019 that are loads and stores (R158). -/
def negDispOpe (ope : BitVec 4) : Bool :=
  ope == 4 || ope == 5 || ope == 8 || ope == 9 || ope == 12 || ope == 13

/-- The reserved encodings that raise UND (R456). -/
def resUndWf (first : Word) (ope : BitVec 4) : Bool :=
  if first == 0x0018 || first == 0x0019 then !negDispOpe ope else reservedFirst first && ope == 0

/-- The reserved encodings that do nothing (R457). -/
def resNopWf (first : Word) (ope : BitVec 4) : Bool :=
  (first == 0x0010 && (ope == 1 || ope == 3)) || (first == 0x0011 && ope ≤ 3) ||
  (first == 0x0014 && 4 ≤ ope && ope ≤ 7)

/-- The operands are ones the encoding admits. Every constructor is named. -/
def Instr.wf : Instr → Bool
  | .movb s _ | .movw s _ | .addb s _ | .addw s _ | .addub s _ | .adduw s _ | .addcb s _ | .addcw s _
  | .subb s _ | .subw s _ | .subcb s _ | .subcw s _ | .mulb s _ | .mulw s _ | .cmpb s _ | .cmpw s _
  | .andb s _ | .andw s _ | .orb s _ | .orw s _ | .xorb s _ | .xorw s _ => s.wf
  | .movd s _ | .addd s _ => s.wf
  | .cmpd s _ => s.wf
  | .movxb _ _ | .movxw _ _ | .movzb _ _ | .movzw _ _ | .mulsb _ _ | .mulsw _ _ | .muluw _ _
  | .macqw _ _ _ | .macuw _ _ _ | .macsw _ _ _ | .subd _ _ | .andd _ _ | .ord _ _ | .xord _ _ => true
  | .scond _ _ | .seq _ | .sne _ | .scs _ | .scc _ | .shi _ | .sls _ | .sgt _ | .sle _ | .sfs _ | .sfc _
  | .slo _ | .shs _ | .slt _ | .sge _ => true
  | .ashub _ _ | .ashuw _ _ | .ashud _ _ | .lshb _ _ | .lshw _ _ | .lshd _ _ => true
  | .cbitb _ _ | .cbitw _ _ | .sbitb _ _ | .sbitw _ _ | .tbitb _ _ | .tbitw _ _ | .tbit _ _ _ => true
  | .lpr _ _ | .lprd _ _ | .spr _ _ | .sprd _ _ => true
  | .bcond _ d | .beq d | .bne d | .bcs d | .bcc d | .bhi d | .bls d | .bgt d | .ble d | .bfs d | .bfc d
  | .blo d | .bhs d | .blt d | .bge d | .br d => d.wf
  | .bal _ _ | .beq0b _ _ | .beq0w _ _ | .bne0b _ _ | .bne0w _ _ => true
  | .jcond _ _ | .jeq _ | .jne _ | .jcs _ | .jcc _ | .jhi _ | .jls _ | .jgt _ | .jle _ | .jfs _ | .jfc _
  | .jlo _ | .jhs _ | .jlt _ | .jge _ | .jump _ | .jusr _ | .jal _ _ => true
  | .excp _ | .retx | .push _ _ _ | .pop _ _ _ | .popret _ _ _ => true
  | .loadb a _ | .loadw a _ | .loadd a _ | .storw _ a | .stord _ a => a.wf
  | .storb s a => a.wf && storbWf s a
  | .storbImm _ _ | .storwImm _ _ | .loadm _ | .loadmp _ | .storm _ | .stormp _ => true
  | .cinv _ | .di | .ei | .eiwait | .wait | .nop => true
  | .resUnd first ope => resUndWf first ope
  | .resNop first ope => resNopWf first ope

end Sys2Proof
end

