-- ==== Sys2Proof/Decode.lean ====
section
/-! DEFINITION. The decoder (spec/30_encoding.md R150 to R161) and, after it, the encoder, written from
the same tables. The decoder is total: it names a truncated instruction, and every first word has a row
(R151). A word that one of the named-condition rows covers is decoded to that row's constructor, the most
specific row (R150, R168; log entry 8). -/

namespace Sys2Proof

/-- Why no instruction is read: the words given end before the instruction does (R150, R537). -/
inductive DecodeError where
  | truncated
  deriving DecidableEq, Repr

/-! ### Bit fields of a word (R120, R121) -/

/-- Bits 15:12 of a word. -/
def nib3 (w : Word) : BitVec 4 := w.extractLsb' 12 4
/-- Bits 11:8 of a word. -/
def nib2 (w : Word) : BitVec 4 := w.extractLsb' 8 4
/-- Bits 7:4 of a word. -/
def nib1 (w : Word) : BitVec 4 := w.extractLsb' 4 4
/-- Bits 3:0 of a word. -/
def nib0 (w : Word) : BitVec 4 := w.extractLsb' 0 4
/-- The word whose fields bits 15:12, 11:8, 7:4, 3:0 are the four given. -/
def mkWord (a b c d : BitVec 4) : Word := a ++ b ++ c ++ d

/-- Bit 3 of a 4-bit field. -/
def top1 (n : BitVec 4) : Bool := n.getLsbD 3
/-- Bits 2:0 of a 4-bit field. -/
def low3 (n : BitVec 4) : BitVec 3 := n.extractLsb' 0 3
/-- Bits 3:2 of a 4-bit field. -/
def top2 (n : BitVec 4) : BitVec 2 := n.extractLsb' 2 2
/-- Bits 1:0 of a 4-bit field. -/
def low2 (n : BitVec 4) : BitVec 2 := n.extractLsb' 0 2
/-- Bit 0 of a 4-bit field. -/
def low1 (n : BitVec 4) : Bool := n.getLsbD 0

/-- A field of 20 bits from its bits 19:16 and the next word (R123, formats 2, 7, 8, 12, 13). -/
def join20 (hi : BitVec 4) (w : Word) : BitVec 20 := hi ++ w
/-- abs24 of format 3: bits 23:20, bits 19:16, bits 15:0 (R123). -/
def join24 (hi mid : BitVec 4) (w : Word) : Addr := hi ++ mid ++ w
/-- imm32 of format 23, high word first (R134; log entry 11). -/
def join32 (hi lo : Word) : DWord := hi ++ lo
/-- disp14 of format 17: bits 13:8 and 7:6 and 3:0 from word 2, bits 5:4 from word 1 (R123). -/
def join14 (jj : BitVec 2) (w2 : Word) : BitVec 14 :=
  low2 (nib3 w2) ++ nib2 w2 ++ top2 (nib3 w2) ++ jj ++ nib0 w2
/-- Bits 16:1 of the displacement of format 22: bit 16 is bit 0 of word 2 (R123). -/
def join16 (w2 : Word) : Word := w2.extractLsb' 0 1 ++ w2.extractLsb' 1 15
/-- Bits 24:1 of the displacement of format 3a (R123). -/
def join25 (w2 w3 : Word) : BitVec 24 :=
  w3.extractLsb' 0 1 ++ nib0 w2 ++ nib2 w2 ++ w3.extractLsb' 1 15
/-- Bits 24:1 of the displacement of format 5 (R123). -/
def join25Short (n1 n0 : BitVec 4) (w2 : Word) : BitVec 24 :=
  w2.extractLsb' 0 1 ++ n1 ++ n0 ++ w2.extractLsb' 1 15

/-! ### Condition codes and the named spellings (R40, R166) -/

/-- The condition a `cond(4)` field names (R40, R128). -/
def condOf (n : BitVec 4) : Cond :=
  match n.toNat with
  | 0 => .eq | 1 => .ne | 2 => .cs | 3 => .cc | 4 => .hi | 5 => .ls | 6 => .gt | 7 => .le
  | 8 => .fs | 9 => .fc | 10 => .lo | 11 => .hs | 12 => .lt | 13 => .ge | 14 => .always | _ => .uc

/-- The `cond(4)` field of a condition (R40). -/
def condBits : Cond → BitVec 4
  | .eq => 0 | .ne => 1 | .cs => 2 | .cc => 3 | .hi => 4 | .ls => 5 | .gt => 6 | .le => 7
  | .fs => 8 | .fc => 9 | .lo => 10 | .hs => 11 | .lt => 12 | .ge => 13 | .always => 14 | .uc => 15

/-- The branch with this condition, by the name the table has for it; condition 15 has none (R350, R351). -/
def namedBranch (c : Cond) (d : BranchDisp) : Instr :=
  match c with
  | .eq => .beq d | .ne => .bne d | .cs => .bcs d | .cc => .bcc d | .hi => .bhi d | .ls => .bls d
  | .gt => .bgt d | .le => .ble d | .fs => .bfs d | .fc => .bfc d | .lo => .blo d | .hs => .bhs d
  | .lt => .blt d | .ge => .bge d | .always => .br d | .uc => .bcond .uc d

/-- The jump with this condition, by its name (R357 to R359). -/
def namedJump (c : Cond) (p : PairNum) : Instr :=
  match c with
  | .eq => .jeq p | .ne => .jne p | .cs => .jcs p | .cc => .jcc p | .hi => .jhi p | .ls => .jls p
  | .gt => .jgt p | .le => .jle p | .fs => .jfs p | .fc => .jfc p | .lo => .jlo p | .hs => .jhs p
  | .lt => .jlt p | .ge => .jge p | .always => .jump p | .uc => .jusr p

/-- Scond with this condition, by its name; conditions 14 and 15 have none (R279). -/
def namedSet (c : Cond) (r : RegNum) : Instr :=
  match c with
  | .eq => .seq r | .ne => .sne r | .cs => .scs r | .cc => .scc r | .hi => .shi r | .ls => .sls r
  | .gt => .sgt r | .le => .sle r | .fs => .sfs r | .fc => .sfc r | .lo => .slo r | .hs => .shs r
  | .lt => .slt r | .ge => .sge r | .always => .scond .always r | .uc => .scond .uc r

/-- The spelling the decoder gives an instruction: the general Bcond, Jcond and Scond take the name of
their condition, and NOP is ADDUB $0, r0 (R166, R455). Every other instruction is its own. -/
def Instr.named : Instr → Instr
  | .bcond c d => namedBranch c d
  | .jcond c p => namedJump c p
  | .scond c r => namedSet c r
  | .nop => .addub (.imm4 0) 0
  | i => i

/-! ### The decoder -/

/-- Read one more word. -/
def with1 (rest : List Word) (f : Word → Instr) : Except DecodeError Instr :=
  match rest with
  | w2 :: _ => .ok (f w2)
  | [] => .error .truncated

/-- Read two more words. -/
def with2 (rest : List Word) (f : Word → Word → Instr) : Except DecodeError Instr :=
  match rest with
  | w2 :: w3 :: _ => .ok (f w2 w3)
  | _ => .error .truncated

/-- A format-15 immediate row: the field, or the word that follows the escape 11 (R131). -/
def srcImm (n1 : BitVec 4) (rest : List Word) (f : Src → Instr) : Except DecodeError Instr :=
  if n1 = 11 then with1 rest (fun w => f (.imm16 w)) else .ok (f (.imm4 n1))

/-- The four 6-byte address forms of a bit operation or STOR-immediate by the low bits of `ope`
(R153 to R156). -/
def bitAddrLong (k : BitVec 2) (w2 w3 : Word) : BitAddr :=
  match k.toNat with
  | 0 => .disp20Reg (nib0 w2) (join20 (nib2 w2) w3)
  | 1 => .disp20Pair (nib0 w2) (join20 (nib2 w2) w3)
  | 2 => .disp20Index (nib0 w2) (join20 (nib2 w2) w3)
  | _ => .abs24 (join24 (nib0 w2) (nib2 w2) w3)

/-- The same four forms for a load or store (R155, R156). -/
def memAddrLong (k : BitVec 2) (w2 w3 : Word) : MemAddr :=
  match k.toNat with
  | 0 => .disp20Reg (nib0 w2) (join20 (nib2 w2) w3)
  | 1 => .disp20Pair (nib0 w2) (join20 (nib2 w2) w3)
  | 2 => .disp20Index (nib0 w2) (join20 (nib2 w2) w3)
  | _ => .abs24 (join24 (nib0 w2) (nib2 w2) w3)

/-- The negative-displacement form by the low bit of `ope` (R158). -/
def negAddr (pairForm : Bool) (w2 w3 : Word) : MemAddr :=
  if pairForm then .negDisp20Pair (nib0 w2) (join20 (nib2 w2) w3)
  else .negDisp20Reg (nib0 w2) (join20 (nib2 w2) w3)

/-- Escape word 0x0010 (R153). -/
def decode10 (w2 w3 : Word) : Instr :=
  let k := low2 (nib3 w2)
  match (top2 (nib3 w2)).toNat with
  | 0 => match k.toNat with
    | 0 => namedBranch (condOf (nib1 w2)) (.disp25 (join25 w2 w3))
    | 2 => .bal (.pair (nib1 w2)) (join25 w2 w3)
    | _ => .resNop 0x0010 (nib3 w2)
  | 1 => .cbitb (low3 (nib1 w2)) (bitAddrLong k w2 w3)
  | 2 => .sbitb (low3 (nib1 w2)) (bitAddrLong k w2 w3)
  | _ => .tbitb (low3 (nib1 w2)) (bitAddrLong k w2 w3)

/-- Escape word 0x0011 (R154). -/
def decode11 (w2 w3 : Word) : Instr :=
  let k := low2 (nib3 w2)
  match (top2 (nib3 w2)).toNat with
  | 0 => .resNop 0x0011 (nib3 w2)
  | 1 => .cbitw (nib1 w2) (bitAddrLong k w2 w3)
  | 2 => .sbitw (nib1 w2) (bitAddrLong k w2 w3)
  | _ => .tbitw (nib1 w2) (bitAddrLong k w2 w3)

/-- Escape word 0x0012 (R155). -/
def decode12 (w2 w3 : Word) : Instr :=
  let k := low2 (nib3 w2)
  match (top2 (nib3 w2)).toNat with
  | 0 => .storbImm (nib1 w2) (bitAddrLong k w2 w3)
  | 1 => .loadb (memAddrLong k w2 w3) (nib1 w2)
  | 2 => .loadd (memAddrLong k w2 w3) (nib1 w2)
  | _ => .loadw (memAddrLong k w2 w3) (nib1 w2)

/-- Escape word 0x0013 (R156). -/
def decode13 (w2 w3 : Word) : Instr :=
  let k := low2 (nib3 w2)
  match (top2 (nib3 w2)).toNat with
  | 0 => .storwImm (nib1 w2) (bitAddrLong k w2 w3)
  | 1 => .storb (nib1 w2) (memAddrLong k w2 w3)
  | 2 => .stord (nib1 w2) (memAddrLong k w2 w3)
  | _ => .storw (nib1 w2) (memAddrLong k w2 w3)

/-- Escape word 0x0014 (R157). -/
def decode14 (w2 : Word) : Instr :=
  match (nib3 w2).toNat with
  | 0 => .lpr (nib0 w2) (nib1 w2)
  | 1 => .lprd (nib0 w2) (nib1 w2)
  | 2 => .spr (nib1 w2) (nib0 w2)
  | 3 => .sprd (nib1 w2) (nib0 w2)
  | 8 => .jal (.pair (nib0 w2)) (nib1 w2)
  | 9 => .ord (.pair (nib1 w2)) (nib0 w2)
  | 10 => .xord (.pair (nib1 w2)) (nib0 w2)
  | 11 => .andd (.pair (nib1 w2)) (nib0 w2)
  | 12 => .subd (.pair (nib1 w2)) (nib0 w2)
  | 13 => .macqw (nib1 w2) (nib0 w2) (nib2 w2)
  | 14 => .macuw (nib1 w2) (nib0 w2) (nib2 w2)
  | 15 => .macsw (nib1 w2) (nib0 w2) (nib2 w2)
  | _ => .resNop 0x0014 (nib3 w2)

/-- Escape word 0x0018: three words, a reserved `ope` among them (R150 (a), R158). -/
def decode18 (w2 w3 : Word) : Instr :=
  match (nib3 w2).toNat with
  | 4 => .loadb (negAddr false w2 w3) (nib1 w2)
  | 5 => .loadb (negAddr true w2 w3) (nib1 w2)
  | 8 => .loadd (negAddr false w2 w3) (nib1 w2)
  | 9 => .loadd (negAddr true w2 w3) (nib1 w2)
  | 12 => .loadw (negAddr false w2 w3) (nib1 w2)
  | 13 => .loadw (negAddr true w2 w3) (nib1 w2)
  | _ => .resUnd 0x0018 (nib3 w2)

/-- Escape word 0x0019, of three words too (R150 (a), R158). -/
def decode19 (w2 w3 : Word) : Instr :=
  match (nib3 w2).toNat with
  | 4 => .storb (nib1 w2) (negAddr false w2 w3)
  | 5 => .storb (nib1 w2) (negAddr true w2 w3)
  | 8 => .stord (nib1 w2) (negAddr false w2 w3)
  | 9 => .stord (nib1 w2) (negAddr true w2 w3)
  | 12 => .storw (nib1 w2) (negAddr false w2 w3)
  | 13 => .storw (nib1 w2) (negAddr true w2 w3)
  | _ => .resUnd 0x0019 (nib3 w2)

/-- First words 0x0000 to 0x000F (R151). -/
def decode000 (w1 : Word) : Instr :=
  match (nib0 w1).toNat with
  | 3 => .retx
  | 4 => .di
  | 5 => .ei
  | 6 => .wait
  | 7 => .eiwait
  | 10 => .cinv .i
  | 11 => .cinv .iu
  | 12 => .cinv .d
  | 13 => .cinv .du
  | 14 => .cinv .di
  | 15 => .cinv .diu
  | _ => .resUnd w1 0

/-- First words 0x0010 to 0x001F: the escapes (R150, R151). -/
def decode001 (w1 : Word) (rest : List Word) : Except DecodeError Instr :=
  match (nib0 w1).toNat with
  | 0 => with2 rest decode10
  | 1 => with2 rest decode11
  | 2 => with2 rest decode12
  | 3 => with2 rest decode13
  | 4 => with1 rest decode14
  | 8 => with2 rest decode18
  | 9 => with2 rest decode19
  | _ => .ok (.resUnd w1 0)

/-- First words 0x00xx (R151). -/
def decode00 (w1 : Word) (rest : List Word) : Except DecodeError Instr :=
  let d := nib0 w1
  match (nib1 w1).toNat with
  | 0 => .ok (decode000 w1)
  | 1 => decode001 w1 rest
  | 2 => with2 rest (fun w2 w3 => .addd (.imm32 (join32 w2 w3)) d)
  | 3 => with2 rest (fun w2 w3 => .subd (.imm32 (join32 w2 w3)) d)
  | 4 => with2 rest (fun w2 w3 => .andd (.imm32 (join32 w2 w3)) d)
  | 5 => with2 rest (fun w2 w3 => .ord (.imm32 (join32 w2 w3)) d)
  | 6 => with2 rest (fun w2 w3 => .xord (.imm32 (join32 w2 w3)) d)
  | 7 => with2 rest (fun w2 w3 => .movd (.imm32 (join32 w2 w3)) d)
  | 9 => with2 rest (fun w2 w3 => .cmpd (.imm32 (join32 w2 w3)) d)
  | 10 => .ok (if top1 d then .loadmp (low3 d) else .loadm (low3 d))
  | 11 => .ok (if top1 d then .stormp (low3 d) else .storm (low3 d))
  | 12 => .ok (.excp d)
  | 13 => .ok (.jal .implied d)
  | _ => .ok (.resUnd w1 0)

/-- First words 0x0xxx (R151). -/
def decode0 (w1 : Word) (rest : List Word) : Except DecodeError Instr :=
  let n1 := nib1 w1
  let n0 := nib0 w1
  match (nib2 w1).toNat with
  | 0 => decode00 w1 rest
  | 1 => .ok (.push (top1 n1) (low3 n1) n0)
  | 2 => .ok (.pop (top1 n1) (low3 n1) n0)
  | 3 => .ok (.popret (top1 n1) (low3 n1) n0)
  | 4 => with1 rest (fun w2 => .addd (.imm20 (join20 n0 w2)) n1)
  | 5 => with1 rest (fun w2 => .movd (.imm20 (join20 n0 w2)) n1)
  | 6 => .ok (.tbit false n1 n0)
  | 7 => .ok (.tbit true n1 n0)
  | 8 => .ok (namedSet (condOf n1) n0)
  | 9 => .ok (if top1 n1 then .lshb (.right (low3 n1)) n0 else .resUnd w1 0)
  | 10 => .ok (namedJump (condOf n1) n0)
  | 11 => .ok (.mulsb n1 n0)
  | 12 => .ok (.beq0b n0 n1)
  | 13 => .ok (.bne0b n0 n1)
  | 14 => .ok (.beq0w n0 n1)
  | _ => .ok (.bne0w n0 n1)

/-- First words 0x1xxx: the branches of one and two words (R137, R150). -/
def decode1 (w1 : Word) (rest : List Word) : Except DecodeError Instr :=
  let c := condOf (nib1 w1)
  if nib2 w1 = 8 ∧ nib0 w1 = 0 then with1 rest (fun w2 => namedBranch c (.disp17 (join16 w2)))
  else .ok (namedBranch c (.disp9 (nib2 w1 ++ nib0 w1)))

/-- First words 0x2xxx (R151). -/
def decode2 (w1 : Word) (rest : List Word) : Except DecodeError Instr :=
  let s := nib1 w1
  let d := nib0 w1
  match (nib2 w1).toNat with
  | 0 => srcImm s rest (fun x => .andb x d)
  | 1 => .ok (.andb (.reg s) d)
  | 2 => srcImm s rest (fun x => .andw x d)
  | 3 => .ok (.andw (.reg s) d)
  | 4 => srcImm s rest (fun x => .orb x d)
  | 5 => .ok (.orb (.reg s) d)
  | 6 => srcImm s rest (fun x => .orw x d)
  | 7 => .ok (.orw (.reg s) d)
  | 8 => srcImm s rest (fun x => .xorb x d)
  | 9 => .ok (.xorb (.reg s) d)
  | 10 => srcImm s rest (fun x => .xorw x d)
  | 11 => .ok (.xorw (.reg s) d)
  | 12 => srcImm s rest (fun x => .addub x d)
  | 13 => .ok (.addub (.reg s) d)
  | 14 => srcImm s rest (fun x => .adduw x d)
  | _ => .ok (.adduw (.reg s) d)

/-- First words 0x3xxx (R151). -/
def decode3 (w1 : Word) (rest : List Word) : Except DecodeError Instr :=
  let s := nib1 w1
  let d := nib0 w1
  match (nib2 w1).toNat with
  | 0 => srcImm s rest (fun x => .addb x d)
  | 1 => .ok (.addb (.reg s) d)
  | 2 => srcImm s rest (fun x => .addw x d)
  | 3 => .ok (.addw (.reg s) d)
  | 4 => srcImm s rest (fun x => .addcb x d)
  | 5 => .ok (.addcb (.reg s) d)
  | 6 => srcImm s rest (fun x => .addcw x d)
  | 7 => .ok (.addcw (.reg s) d)
  | 8 => srcImm s rest (fun x => .subb x d)
  | 9 => .ok (.subb (.reg s) d)
  | 10 => srcImm s rest (fun x => .subw x d)
  | 11 => .ok (.subw (.reg s) d)
  | 12 => srcImm s rest (fun x => .subcb x d)
  | 13 => .ok (.subcb (.reg s) d)
  | 14 => srcImm s rest (fun x => .subcw x d)
  | _ => .ok (.subcw (.reg s) d)

/-- First words 0x4xxx: the shifts (R142, R151). -/
def decode4 (w1 : Word) : Instr :=
  let s := nib1 w1
  let d := nib0 w1
  match (nib2 w1).toNat with
  | 0 => if top1 s then .ashub (.right (low3 s)) d else .ashub (.left (low3 s)) d
  | 1 => .ashub (.reg s) d
  | 2 => .ashuw (.left s) d
  | 3 => .ashuw (.right s) d
  | 4 => .lshb (.reg s) d
  | 5 => .ashuw (.reg s) d
  | 6 => .lshw (.reg s) d
  | 7 => .lshd (.reg s) d
  | 8 => .ashud (.reg s) d
  | 9 => .lshw (.right s) d
  | 10 => .lshd (.right (BitVec.cons false s)) d
  | 11 => .lshd (.right (BitVec.cons true s)) d
  | 12 => .ashud (.left (BitVec.cons false s)) d
  | 13 => .ashud (.left (BitVec.cons true s)) d
  | 14 => .ashud (.right (BitVec.cons false s)) d
  | _ => .ashud (.right (BitVec.cons true s)) d

/-- First words 0x5xxx (R151). -/
def decode5 (w1 : Word) (rest : List Word) : Except DecodeError Instr :=
  let s := nib1 w1
  let d := nib0 w1
  match (nib2 w1).toNat with
  | 0 => srcImm s rest (fun x => .cmpb x d)
  | 1 => .ok (.cmpb (.reg s) d)
  | 2 => srcImm s rest (fun x => .cmpw x d)
  | 3 => .ok (.cmpw (.reg s) d)
  | 4 => if s = 11 then with1 rest (fun w => .movd (.imm16 w) d) else .ok (.movd (.imm4 s) d)
  | 5 => .ok (.movd (.pair s) d)
  | 6 => if s = 11 then with1 rest (fun w => .cmpd (.imm16 w) d) else .ok (.cmpd (.imm4 s) d)
  | 7 => .ok (.cmpd (.pair s) d)
  | 8 => srcImm s rest (fun x => .movb x d)
  | 9 => .ok (.movb (.reg s) d)
  | 10 => srcImm s rest (fun x => .movw x d)
  | 11 => .ok (.movw (.reg s) d)
  | 12 => .ok (.movxb s d)
  | 13 => .ok (.movzb s d)
  | 14 => .ok (.movxw s d)
  | _ => .ok (.movzw s d)

/-- The bit-operation rows, which CBIT, SBIT and TBIT share (R308): `k` is bits 10:8 of word 1. -/
def decodeBit (b : BitVec 3 → BitAddr → Instr) (w : BitVec 4 → BitAddr → Instr) (k : BitVec 3) (w1 : Word)
    (rest : List Word) : Except DecodeError Instr :=
  let n1 := nib1 w1
  let n0 := nib0 w1
  match k.toNat with
  | 0 => with1 rest (fun w2 => b (low3 n1) (.abs20Index (top1 n1) (join20 n0 w2)))
  | 1 => with1 rest (fun w2 => w n1 (.disp16 n0 w2))
  | 2 => match (top2 n1).toNat with
    | 2 => with1 rest (fun w2 => b (low3 (nib1 w2)) (.disp14 n0 (join14 (low2 n1) w2)))
    | 3 => with1 rest (fun w2 => w (nib1 w2) (.disp14 n0 (join14 (low2 n1) w2)))
    | _ => .ok (b (low3 n1) (.pair0 n0))
  | 3 => with1 rest (fun w2 =>
      b (low3 n1) (if top1 n1 then .abs20 (join20 n0 w2) else .disp16 n0 w2))
  | 4 => with1 rest (fun w2 => w n1 (.abs20Index false (join20 n0 w2)))
  | 5 => with1 rest (fun w2 => w n1 (.abs20Index true (join20 n0 w2)))
  | 6 => .ok (w n1 (.pair0 n0))
  | _ => with1 rest (fun w2 => w n1 (.abs20 (join20 n0 w2)))

/-- First words 0x6xxx (R151). -/
def decode6 (w1 : Word) (rest : List Word) : Except DecodeError Instr :=
  let s := nib1 w1
  let d := nib0 w1
  match (nib2 w1).toNat with
  | 0 => if s = 11 then with1 rest (fun w => .addd (.imm16 w) d) else .ok (.addd (.imm4 s) d)
  | 1 => .ok (.addd (.pair s) d)
  | 2 => .ok (.mulsw s d)
  | 3 => .ok (.muluw s d)
  | 4 => srcImm s rest (fun x => .mulb x d)
  | 5 => .ok (.mulb (.reg s) d)
  | 6 => srcImm s rest (fun x => .mulw x d)
  | 7 => .ok (.mulw (.reg s) d)
  | _ => decodeBit .cbitb .cbitw (low3 (nib2 w1)) w1 rest

/-- First words 0x7xxx (R151, R308). -/
def decode7 (w1 : Word) (rest : List Word) : Except DecodeError Instr :=
  if top1 (nib2 w1) then decodeBit .tbitb .tbitw (low3 (nib2 w1)) w1 rest
  else decodeBit .sbitb .sbitw (low3 (nib2 w1)) w1 rest

/-- First words 0x8xxx and 0xCxxx less 0x80xx and 0xC0xx: STOR-immediate and the transfers of one group,
loads or stores (R151, R395, R397). -/
def decodeMem (imm : BitVec 4 → BitAddr → Instr) (b w d : MemAddr → BitVec 4 → Instr) (w1 : Word)
    (rest : List Word) : Except DecodeError Instr :=
  let n1 := nib1 w1
  let n0 := nib0 w1
  match (nib2 w1).toNat with
  | 1 => with1 rest (fun w2 => imm n1 (.abs20 (join20 n0 w2)))
  | 2 => .ok (imm n1 (.pair0 n0))
  | 3 => with1 rest (fun w2 => imm n1 (.disp16 n0 w2))
  | 4 => with1 rest (fun w2 => imm n1 (.abs20Index false (join20 n0 w2)))
  | 5 => with1 rest (fun w2 => imm n1 (.abs20Index true (join20 n0 w2)))
  | 6 => match (top2 n1).toNat with
    | 0 => with1 rest (fun w2 => imm (nib1 w2) (.disp14 n0 (join14 (low2 n1) w2)))
    | 1 => with1 rest (fun w2 => b (.disp14 n0 (join14 (low2 n1) w2)) (nib1 w2))
    | 2 => with1 rest (fun w2 => d (.disp14 n0 (join14 (low2 n1) w2)) (nib1 w2))
    | _ => with1 rest (fun w2 => w (.disp14 n0 (join14 (low2 n1) w2)) (nib1 w2))
  | 7 => with1 rest (fun w2 => d (.abs20 (join20 n0 w2)) n1)
  | 8 => with1 rest (fun w2 => b (.abs20 (join20 n0 w2)) n1)
  | 9 => with1 rest (fun w2 => w (.abs20 (join20 n0 w2)) n1)
  | 10 => with1 rest (fun w2 => b (.abs20Index false (join20 n0 w2)) n1)
  | 11 => with1 rest (fun w2 => b (.abs20Index true (join20 n0 w2)) n1)
  | 12 => with1 rest (fun w2 => d (.abs20Index false (join20 n0 w2)) n1)
  | 13 => with1 rest (fun w2 => d (.abs20Index true (join20 n0 w2)) n1)
  | 14 => with1 rest (fun w2 => w (.abs20Index false (join20 n0 w2)) n1)
  | 15 => with1 rest (fun w2 => w (.abs20Index true (join20 n0 w2)) n1)
  | _ => .ok (.resUnd w1 0)

/-- The disp4 rows of format 18 and their two escapes (R136). -/
def decodeDisp4 (f : MemAddr → BitVec 4 → Instr) (w1 : Word) (rest : List Word) : Except DecodeError Instr :=
  if nib2 w1 = 15 then with1 rest (fun w2 => f (.disp16 (nib0 w1) w2) (nib1 w1))
  else if nib2 w1 = 14 then .ok (f (.prp0 (nib0 w1)) (nib1 w1))
  else .ok (f (.disp4 (nib0 w1) (nib2 w1)) (nib1 w1))

/-- The instruction whose first word is `w1`, the words after it being `rest` (R150). -/
def decodeFirst (w1 : Word) (rest : List Word) : Except DecodeError Instr :=
  match (nib3 w1).toNat with
  | 0 => decode0 w1 rest
  | 1 => decode1 w1 rest
  | 2 => decode2 w1 rest
  | 3 => decode3 w1 rest
  | 4 => .ok (decode4 w1)
  | 5 => decode5 w1 rest
  | 6 => decode6 w1 rest
  | 7 => decode7 w1 rest
  | 8 => decodeMem .storbImm .loadb .loadw .loadd w1 rest
  | 9 => decodeDisp4 .loadw w1 rest
  | 10 => decodeDisp4 .loadd w1 rest
  | 11 => decodeDisp4 .loadb w1 rest
  | 12 =>
    if nib2 w1 = 0 then with1 rest (fun w2 => .bal .implied (join25Short (nib1 w1) (nib0 w1) w2))
    else decodeMem .storwImm (fun a r => .storb r a) (fun a r => .storw r a) (fun a r => .stord r a) w1 rest
  | 13 => decodeDisp4 (fun a r => .storw r a) w1 rest
  | 14 => decodeDisp4 (fun a r => .stord r a) w1 rest
  | _ => if w1 = 0xFFFF then .ok (.resUnd w1 0) else decodeDisp4 (fun a r => .storb r a) w1 rest

/-- The instruction at the head of a list of words. -/
def decodeWords : List Word → Except DecodeError Instr
  | [] => .error .truncated
  | w1 :: rest => decodeFirst w1 rest

/-- The words stored by a list of bytes, the low byte at the lower address (R83, R120). -/
def wordsOfBytes : List Byte → List Word
  | lo :: hi :: more => (hi ++ lo) :: wordsOfBytes more
  | _ => []

/-- The bytes of a list of words, the low byte first (R83, R120). -/
def bytesOfWords : List Word → List Byte
  | w :: more => w.extractLsb' 0 8 :: w.extractLsb' 8 8 :: bytesOfWords more
  | [] => []

/-- The instruction at the head of a list of bytes. -/
def decodeBytes (bs : List Byte) : Except DecodeError Instr := decodeWords (wordsOfBytes bs)

/-! ### The encoder -/

/-- A word of one opcode nibble pair and the two low fields. -/
def opWord (n3 n2 p2 p1 : BitVec 4) : Word := mkWord n3 n2 p2 p1

/-- Bits 19:16 of a 20-bit field. -/
def hi20 (d : BitVec 20) : BitVec 4 := d.extractLsb' 16 4
/-- Bits 15:0 of a 20-bit field. -/
def lo20 (d : BitVec 20) : Word := d.extractLsb' 0 16

/-- Format 15 or 16 with an immediate or a register source: `n2` is the immediate row, the next opcode
the register row (R151). -/
def encSrc (n3 n2 : BitVec 4) (s : Src) (d : RegNum) : List Word :=
  match s with
  | .imm4 f => [opWord n3 n2 f d]
  | .imm16 w => [opWord n3 n2 11 d, w]
  | .reg r => [opWord n3 (n2 + 1) r d]

/-- Format 23 (R134). -/
def encImm32 (n1 : BitVec 4) (v : DWord) (d : PairNum) : List Word :=
  [opWord 0 0 n1 d, v.extractLsb' 16 16, v.extractLsb' 0 16]

/-- SUBD, ANDD, ORD, XORD: format 23 or format 1 (R157). -/
def encSrcL (n1 ope : BitVec 4) (s : SrcL) (d : PairNum) : List Word :=
  match s with
  | .imm32 v => encImm32 n1 v d
  | .pair p => [0x0014, opWord ope 0 p d]

/-- The second word of format 17 (R123). -/
def encDisp14 (d : BitVec 14) (data : BitVec 4) : Word :=
  opWord (d.extractLsb' 6 2 ++ d.extractLsb' 12 2) (d.extractLsb' 8 4) data (d.extractLsb' 0 4)

/-- Words 2 and 3 of format 3a, less `ope` (R123). -/
def encDisp25 (ope mid : BitVec 4) (h : BitVec 24) : List Word :=
  [opWord ope (h.extractLsb' 15 4) mid (h.extractLsb' 19 4), h.extractLsb' 0 15 ++ h.extractLsb' 23 1]

/-- The branches (R350). -/
def encBranch (c : Cond) (d : BranchDisp) : List Word :=
  match d with
  | .disp9 f => [opWord 1 (f.extractLsb' 4 4) (condBits c) (f.extractLsb' 0 4)]
  | .disp17 h => [opWord 1 8 (condBits c) 0, h.extractLsb' 0 15 ++ h.extractLsb' 15 1]
  | .disp25 h => 0x0010 :: encDisp25 0 (condBits c) h

/-- The two further words of a 6-byte address form (R123). -/
def encLong (ope data base : BitVec 4) (d : BitVec 20) : List Word := [opWord ope (hi20 d) data base, lo20 d]

/-- The same for abs24 (R123). -/
def encAbs24 (ope data : BitVec 4) (a : Addr) : List Word :=
  [opWord ope (a.extractLsb' 16 4) data (a.extractLsb' 20 4), a.extractLsb' 0 16]

/-- A byte bit operation: `n3 n2` is the opcode of its row 0, `ope` that of its `disp20(reg)` form (R308). -/
def encBitB (n3 n2 ope : BitVec 4) (pos : BitVec 3) (a : BitAddr) : List Word :=
  match a with
  | .disp14 n d => [opWord n3 (n2 + 2) (2#2 ++ d.extractLsb' 4 2) n, encDisp14 d (BitVec.cons false pos)]
  | .disp20Reg r d => 0x0010 :: encLong ope (BitVec.cons false pos) r d
  | .pair0 p => [opWord n3 (n2 + 2) (BitVec.cons false pos) p]
  | .disp16 p d => [opWord n3 (n2 + 3) (BitVec.cons false pos) p, d]
  | .disp20Pair p d => 0x0010 :: encLong (ope + 1) (BitVec.cons false pos) p d
  | .disp20Index n d => 0x0010 :: encLong (ope + 2) (BitVec.cons false pos) n d
  | .abs20 x => [opWord n3 (n2 + 3) (BitVec.cons true pos) (hi20 x), lo20 x]
  | .abs20Index rs x => [opWord n3 n2 (BitVec.cons rs pos) (hi20 x), lo20 x]
  | .abs24 x => 0x0010 :: encAbs24 (ope + 3) (BitVec.cons false pos) x

/-- A word bit operation (R308). -/
def encBitW (n3 n2 ope : BitVec 4) (pos : BitVec 4) (a : BitAddr) : List Word :=
  match a with
  | .disp14 n d => [opWord n3 (n2 + 2) (3#2 ++ d.extractLsb' 4 2) n, encDisp14 d pos]
  | .disp20Reg r d => 0x0011 :: encLong ope pos r d
  | .pair0 p => [opWord n3 (n2 + 6) pos p]
  | .disp16 p d => [opWord n3 (n2 + 1) pos p, d]
  | .disp20Pair p d => 0x0011 :: encLong (ope + 1) pos p d
  | .disp20Index n d => 0x0011 :: encLong (ope + 2) pos n d
  | .abs20 x => [opWord n3 (n2 + 7) pos (hi20 x), lo20 x]
  | .abs20Index rs x => [opWord n3 (if rs then n2 + 5 else n2 + 4) pos (hi20 x), lo20 x]
  | .abs24 x => 0x0011 :: encAbs24 (ope + 3) pos x

/-- STOR-immediate: opcode nibble 8 and escape 0x0012 for a byte, 12 and 0x0013 for a word (R397). -/
def encStorImm (n3 : BitVec 4) (esc : Word) (imm : BitVec 4) (a : BitAddr) : List Word :=
  match a with
  | .disp14 n d => [opWord n3 6 (0#2 ++ d.extractLsb' 4 2) n, encDisp14 d imm]
  | .disp20Reg r d => esc :: encLong 0 imm r d
  | .pair0 p => [opWord n3 2 imm p]
  | .disp16 p d => [opWord n3 3 imm p, d]
  | .disp20Pair p d => esc :: encLong 1 imm p d
  | .disp20Index n d => esc :: encLong 2 imm n d
  | .abs20 x => [opWord n3 1 imm (hi20 x), lo20 x]
  | .abs20Index rs x => [opWord n3 (if rs then 5 else 4) imm (hi20 x), lo20 x]
  | .abs24 x => esc :: encAbs24 3 imm x

/-- A load or store (R395): `short` is the opcode nibble of the disp4 row, `n3` that of the group 0x8 or
0xC, `ww` the size bits of format 17, `absOp` and `relOp` the opcodes of abs20 and of [R12]abs20, `esc` and
`neg` the escape words, `ope` that of the `disp20(reg)` form. -/
def encMem (short n3 : BitVec 4) (ww : BitVec 2) (absOp relOp : BitVec 4) (esc neg : Word) (ope data : BitVec 4)
    (a : MemAddr) : List Word :=
  match a with
  | .disp4 p f => [opWord short f data p]
  | .prp0 n => [opWord short 14 data n]
  | .disp14 n d => [opWord n3 6 (ww ++ d.extractLsb' 4 2) n, encDisp14 d data]
  | .disp16 p d => [opWord short 15 data p, d]
  | .disp20Reg r d => esc :: encLong ope data r d
  | .disp20Pair p d => esc :: encLong (ope + 1) data p d
  | .disp20Index n d => esc :: encLong (ope + 2) data n d
  | .negDisp20Reg r d => neg :: encLong ope data r d
  | .negDisp20Pair p d => neg :: encLong (ope + 1) data p d
  | .abs20 x => [opWord n3 absOp data (hi20 x), lo20 x]
  | .abs20Index rs x => [opWord n3 (if rs then relOp + 1 else relOp) data (hi20 x), lo20 x]
  | .abs24 x => esc :: encAbs24 (ope + 3) data x

/-- The word of a CINV (R450). -/
def encCinv : CacheOpts → Word
  | .i => 0x000A | .iu => 0x000B | .d => 0x000C | .du => 0x000D | .di => 0x000E | .diu => 0x000F

/-- The words of an instruction, first word first. Fields the table marks `res` are written 0 (R143). -/
def encode : Instr → List Word
  | .movb s d => encSrc 5 8 s d
  | .movw s d => encSrc 5 10 s d
  | .movd (.imm4 f) d => [opWord 5 4 f d]
  | .movd (.imm16 w) d => [opWord 5 4 11 d, w]
  | .movd (.imm20 x) d => [opWord 0 5 d (hi20 x), lo20 x]
  | .movd (.imm32 v) d => encImm32 7 v d
  | .movd (.pair p) d => [opWord 5 5 p d]
  | .movxb s d => [opWord 5 12 s d]
  | .movxw s d => [opWord 5 14 s d]
  | .movzb s d => [opWord 5 13 s d]
  | .movzw s d => [opWord 5 15 s d]
  | .addb s d => encSrc 3 0 s d
  | .addw s d => encSrc 3 2 s d
  | .addd (.imm4 f) d => [opWord 6 0 f d]
  | .addd (.imm16 w) d => [opWord 6 0 11 d, w]
  | .addd (.imm20 x) d => [opWord 0 4 d (hi20 x), lo20 x]
  | .addd (.imm32 v) d => encImm32 2 v d
  | .addd (.pair p) d => [opWord 6 1 p d]
  | .addub s d => encSrc 2 12 s d
  | .adduw s d => encSrc 2 14 s d
  | .addcb s d => encSrc 3 4 s d
  | .addcw s d => encSrc 3 6 s d
  | .subb s d => encSrc 3 8 s d
  | .subw s d => encSrc 3 10 s d
  | .subd s d => encSrcL 3 12 s d
  | .subcb s d => encSrc 3 12 s d
  | .subcw s d => encSrc 3 14 s d
  | .mulb s d => encSrc 6 4 s d
  | .mulw s d => encSrc 6 6 s d
  | .mulsb s d => [opWord 0 11 s d]
  | .mulsw s d => [opWord 6 2 s d]
  | .muluw s d => [opWord 6 3 s d]
  | .macqw s1 s2 d => [0x0014, opWord 13 d s1 s2]
  | .macuw s1 s2 d => [0x0014, opWord 14 d s1 s2]
  | .macsw s1 s2 d => [0x0014, opWord 15 d s1 s2]
  | .cmpb s d => encSrc 5 0 s d
  | .cmpw s d => encSrc 5 2 s d
  | .cmpd (.imm4 f) d => [opWord 5 6 f d]
  | .cmpd (.imm16 w) d => [opWord 5 6 11 d, w]
  | .cmpd (.imm32 v) d => encImm32 9 v d
  | .cmpd (.pair p) d => [opWord 5 7 p d]
  | .andb s d => encSrc 2 0 s d
  | .andw s d => encSrc 2 2 s d
  | .andd s d => encSrcL 4 11 s d
  | .orb s d => encSrc 2 4 s d
  | .orw s d => encSrc 2 6 s d
  | .ord s d => encSrcL 5 9 s d
  | .xorb s d => encSrc 2 8 s d
  | .xorw s d => encSrc 2 10 s d
  | .xord s d => encSrcL 6 10 s d
  | .scond c d => [opWord 0 8 (condBits c) d]
  | .seq d => [opWord 0 8 0 d]
  | .sne d => [opWord 0 8 1 d]
  | .scs d => [opWord 0 8 2 d]
  | .scc d => [opWord 0 8 3 d]
  | .shi d => [opWord 0 8 4 d]
  | .sls d => [opWord 0 8 5 d]
  | .sgt d => [opWord 0 8 6 d]
  | .sle d => [opWord 0 8 7 d]
  | .sfs d => [opWord 0 8 8 d]
  | .sfc d => [opWord 0 8 9 d]
  | .slo d => [opWord 0 8 10 d]
  | .shs d => [opWord 0 8 11 d]
  | .slt d => [opWord 0 8 12 d]
  | .sge d => [opWord 0 8 13 d]
  | .ashub (.left n) d => [opWord 4 0 (BitVec.cons false n) d]
  | .ashub (.right n) d => [opWord 4 0 (BitVec.cons true n) d]
  | .ashub (.reg r) d => [opWord 4 1 r d]
  | .ashuw (.left n) d => [opWord 4 2 n d]
  | .ashuw (.right n) d => [opWord 4 3 n d]
  | .ashuw (.reg r) d => [opWord 4 5 r d]
  | .ashud (.left n) d => [opWord 4 (if n.getLsbD 4 then 13 else 12) (n.extractLsb' 0 4) d]
  | .ashud (.right n) d => [opWord 4 (if n.getLsbD 4 then 15 else 14) (n.extractLsb' 0 4) d]
  | .ashud (.reg r) d => [opWord 4 8 r d]
  | .lshb (.right n) d => [opWord 0 9 (BitVec.cons true n) d]
  | .lshb (.reg r) d => [opWord 4 4 r d]
  | .lshw (.right n) d => [opWord 4 9 n d]
  | .lshw (.reg r) d => [opWord 4 6 r d]
  | .lshd (.right n) d => [opWord 4 (if n.getLsbD 4 then 11 else 10) (n.extractLsb' 0 4) d]
  | .lshd (.reg r) d => [opWord 4 7 r d]
  | .cbitb p a => encBitB 6 8 4 p a
  | .cbitw p a => encBitW 6 8 4 p a
  | .sbitb p a => encBitB 7 0 8 p a
  | .sbitw p a => encBitW 7 0 8 p a
  | .tbitb p a => encBitB 7 8 12 p a
  | .tbitw p a => encBitW 7 8 12 p a
  | .tbit false o s => [opWord 0 6 o s]
  | .tbit true o s => [opWord 0 7 o s]
  | .lpr s d => [0x0014, opWord 0 0 d s]
  | .lprd s d => [0x0014, opWord 1 0 d s]
  | .spr s d => [0x0014, opWord 2 0 s d]
  | .sprd s d => [0x0014, opWord 3 0 s d]
  | .bcond c d => encBranch c d
  | .beq d => encBranch .eq d
  | .bne d => encBranch .ne d
  | .bcs d => encBranch .cs d
  | .bcc d => encBranch .cc d
  | .bhi d => encBranch .hi d
  | .bls d => encBranch .ls d
  | .bgt d => encBranch .gt d
  | .ble d => encBranch .le d
  | .bfs d => encBranch .fs d
  | .bfc d => encBranch .fc d
  | .blo d => encBranch .lo d
  | .bhs d => encBranch .hs d
  | .blt d => encBranch .lt d
  | .bge d => encBranch .ge d
  | .br d => encBranch .always d
  | .bal .implied h => [opWord 12 0 (h.extractLsb' 19 4) (h.extractLsb' 15 4), h.extractLsb' 0 15 ++ h.extractLsb' 23 1]
  | .bal (.pair l) h => 0x0010 :: encDisp25 2 l h
  | .beq0b s j => [opWord 0 12 j s]
  | .beq0w s j => [opWord 0 14 j s]
  | .bne0b s j => [opWord 0 13 j s]
  | .bne0w s j => [opWord 0 15 j s]
  | .jcond c p => [opWord 0 10 (condBits c) p]
  | .jeq p => [opWord 0 10 0 p]
  | .jne p => [opWord 0 10 1 p]
  | .jcs p => [opWord 0 10 2 p]
  | .jcc p => [opWord 0 10 3 p]
  | .jhi p => [opWord 0 10 4 p]
  | .jls p => [opWord 0 10 5 p]
  | .jgt p => [opWord 0 10 6 p]
  | .jle p => [opWord 0 10 7 p]
  | .jfs p => [opWord 0 10 8 p]
  | .jfc p => [opWord 0 10 9 p]
  | .jlo p => [opWord 0 10 10 p]
  | .jhs p => [opWord 0 10 11 p]
  | .jlt p => [opWord 0 10 12 p]
  | .jge p => [opWord 0 10 13 p]
  | .jump p => [opWord 0 10 14 p]
  | .jusr p => [opWord 0 10 15 p]
  | .jal .implied p => [opWord 0 0 13 p]
  | .jal (.pair l) p => [0x0014, opWord 8 0 p l]
  | .excp v => [opWord 0 0 12 v]
  | .retx => [0x0003]
  | .push r n g => [opWord 0 1 (BitVec.cons r n) g]
  | .pop r n g => [opWord 0 2 (BitVec.cons r n) g]
  | .popret r n g => [opWord 0 3 (BitVec.cons r n) g]
  | .loadb a d => encMem 11 8 1 8 10 0x0012 0x0018 4 d a
  | .loadw a d => encMem 9 8 3 9 14 0x0012 0x0018 12 d a
  | .loadd a d => encMem 10 8 2 7 12 0x0012 0x0018 8 d a
  | .storb s a => encMem 15 12 1 8 10 0x0013 0x0019 4 s a
  | .storw s a => encMem 13 12 3 9 14 0x0013 0x0019 12 s a
  | .stord s a => encMem 14 12 2 7 12 0x0013 0x0019 8 s a
  | .storbImm x a => encStorImm 8 0x0012 x a
  | .storwImm x a => encStorImm 12 0x0013 x a
  | .loadm n => [opWord 0 0 10 (BitVec.cons false n)]
  | .loadmp n => [opWord 0 0 10 (BitVec.cons true n)]
  | .storm n => [opWord 0 0 11 (BitVec.cons false n)]
  | .stormp n => [opWord 0 0 11 (BitVec.cons true n)]
  | .cinv o => [encCinv o]
  | .di => [0x0004]
  | .ei => [0x0005]
  | .eiwait => [0x0007]
  | .wait => [0x0006]
  | .nop => [0x2C00]
  | .resUnd w ope => if w = 0x0018 ∨ w = 0x0019 then [w, opWord ope 0 0 0, 0] else [w]
  | .resNop w ope => if w = 0x0014 then [w, opWord ope 0 0 0] else [w, opWord ope 0 0 0, 0]

/-- The bytes of an instruction in memory order. -/
def encodeBytes (i : Instr) : List Byte := bytesOfWords (encode i)

/-! ### An instruction given as a number -/

/-- The three words of a number whose first word is its lowest. -/
def wordsLowFirst (w : Nat) : List Word :=
  [BitVec.ofNat 16 w, BitVec.ofNat 16 (w / 2 ^ 16), BitVec.ofNat 16 (w / 2 ^ 32)]

/-- The three words of a number of `nbits` bits whose first word is its highest, as the table's `match`
numbers a row of several words (R168); further words are 0. -/
def wordsHighFirst (nbits w : Nat) : List Word :=
  if nbits ≤ 16 then [BitVec.ofNat 16 w, 0, 0]
  else if nbits ≤ 32 then [BitVec.ofNat 16 (w / 2 ^ 16), BitVec.ofNat 16 w, 0]
  else [BitVec.ofNat 16 (w / 2 ^ 32), BitVec.ofNat 16 (w / 2 ^ 16), BitVec.ofNat 16 w]

/-- How many words the table gives the row of an instruction: all of them, but of a reserved encoding under 0x0018
or 0x0019 the two that tell which it is (R159). -/
def rowWords : Instr → Nat
  | .resUnd w _ => if w = 0x0018 ∨ w = 0x0019 then 2 else 1
  | i => (encode i).length

/-- Whether the words begin with an instruction whose row has exactly `nbits` bits. -/
def fillsBits (nbits : Nat) (ws : List Word) : Bool :=
  match decodeWords ws with
  | .ok i => rowWords i * 16 == nbits
  | .error _ => false

/-- The words of the instruction `w` of `nbits` bits: first word lowest, or, where that reading is no
instruction of `nbits` bits or the highest word is the escape 0x0014, first word highest, which is how the
table's `match` and `fixed` number the rows of several words (R168; log entry 7). -/
def tableWords (nbits w : Nat) : List Word :=
  if fillsBits nbits (wordsHighFirst nbits w) &&
      (!fillsBits nbits (wordsLowFirst w) || (wordsHighFirst nbits w).head? == some 0x0014) then
    wordsHighFirst nbits w
  else wordsLowFirst w

/-- The instruction the decoder reads from the table's number `w` of a row of `nbits` bits. -/
def decodeTableWord (nbits w : Nat) : Option Instr :=
  match decodeBytes (bytesOfWords (tableWords nbits w)) with
  | .ok i => some i
  | .error _ => none

end Sys2Proof
end

