-- ==== Sys2Proof/Config.lean ====
section
/-! DEFINITION. What a chip fixes (spec/00_scope.md R7) and the one source of free values. -/

namespace Sys2Proof

/-- What answers in a region of addresses where it is not RAM (spec/20_memory.md R81,
spec/92_eei_decisions.md D28; log entry 39). -/
inductive RegionKind where
  /-- Read-only memory: it answers reads and fetches with its contents, and a store leaves them. -/
  | rom
  /-- A device, or nothing: it answers every read and fetch as it likes, with a free value, and what a store
  does to it is not the core's state. -/
  | device
  deriving DecidableEq, Repr

/-- One region of the device map, both ends included. -/
structure Region where
  first : Addr
  last : Addr
  kind : RegionKind
  deriving DecidableEq, Repr

/-- The implementation parameters of R7. They are a field of the state, so that a claim over every state
covers every chip; no step changes them. N_DEBUG_BANKS is held as the number of the last bank, so that
every value of the field is one of 1 to 4 banks (spec/92_eei_decisions.md D18). -/
structure Config where
  /-- RESET_PC (R606): even, which `Config.wf` says. -/
  resetPc : Addr
  /-- MAC_PRESENT (R217). -/
  macPresent : Bool
  /-- HW_DEBUG_MODULE: present and enabled (R576). -/
  hwDebugModule : Bool
  /-- N_DEBUG_BANKS - 1 (R577). -/
  lastBank : BitVec 2
  /-- ICACHE_PRESENT (R110). -/
  icachePresent : Bool
  /-- DCACHE_PRESENT (R110). -/
  dcachePresent : Bool
  /-- EXT_IAD (R528). -/
  extIad : Bool
  /-- The device map: where the platform has no RAM. Of overlapping regions the first counts (D28 (b); log
  entry 39). -/
  regions : List Region
  deriving DecidableEq, Repr

/-- The defaults of R7. DESIGN CHOICE (log entry 5). -/
def Config.default : Config :=
  { resetPc := 0, macPresent := true, hwDebugModule := false, lastBank := 0,
    icachePresent := false, dcachePresent := false, extIad := false,
    regions := [] }

/-- RESET_PC "must be even" (R606). -/
def Config.wf (c : Config) : Bool := !c.resetPc.getLsbD 0

/-- The free values: what the spec calls `any` (R9). No body, so nothing can be proved of a value of it.
The n-th draw of a run is `freeBits n`, cut to the width needed (log entry 1). -/
opaque Config.freeBits : Nat → DWord

end Sys2Proof
end

