-- ==== Sys2Proof/Machine/State.lean ====
section
/-! DEFINITION. The state of the machine as plain data, and the machine right after reset
(spec/10_state.md R20 to R48, spec/60_exceptions.md R503, R504, spec/70_reset_and_hazards.md R601). -/

namespace Sys2Proof.Machine

/-- The general registers and the user stack pointer (R22, R27). -/
structure RegFile where
  /-- R0..R11, 16 bits each. -/
  r : Vector Word 12
  r12 : DWord
  /-- R13, also called ERA when CFG.SR = 1. -/
  r13 : DWord
  /-- RA, number 14. -/
  ra : DWord
  /-- SP, number 15 when PSR.U = 0. -/
  sp : DWord
  /-- USP, number 15 when PSR.U = 1 and processor register 14 (R27). -/
  usp : DWord
  deriving DecidableEq, Repr

/-- The bits of the PSR that hold something (R30). Bits 4 and 8 are the constant 0, bits 15:12 reserved
(R21; log entries 13 and 47). -/
structure Psr where
  c : Bool
  t : Bool
  l : Bool
  u : Bool
  f : Bool
  z : Bool
  n : Bool
  e : Bool
  p : Bool
  i : Bool
  deriving DecidableEq, Repr

/-- The bits of CFG that hold something (R35). -/
structure Cfg where
  dc : Bool
  ldc : Bool
  ic : Bool
  lic : Bool
  ed : Bool
  sr : Bool
  deriving DecidableEq, Repr

/-- One bank of debug registers (R36, R577). -/
structure DebugBank where
  /-- DCRb bits 15:0 (R39). -/
  dcrl : Word
  /-- DSRb bits 6:0 (R41): BPC0, BWR0, BRD0, EXF, BPC1, BWR1, BRD1 from bit 0 up. -/
  dsr : BitVec 7
  /-- CAR(2b), 24 significant bits (R38). -/
  car0 : Addr
  /-- CAR(2b+1). -/
  car1 : Addr
  /-- The breakpoint mask (R45, R566). -/
  bpMask : Bool
  /-- The first condition of a complex breakpoint was seen (R46, R565). -/
  seqArmed : Bool
  deriving DecidableEq, Repr

/-- The bits of DCR0 above bit 15 (R39). -/
structure DebugCtl where
  efb : Bool
  abpt : Bool
  atrc : Bool
  adbg : Bool
  aise : Bool
  dbgl : Bool
  deriving DecidableEq, Repr

/-- The debug registers and the pending DBG trap (R36 to R41, R44). -/
structure DebugUnit where
  /-- DBS.BANK (R37). -/
  bank : BitVec 2
  bank0 : DebugBank
  bank1 : DebugBank
  bank2 : DebugBank
  bank3 : DebugBank
  ctl : DebugCtl
  /-- A data match is waiting for the next boundary (R562). -/
  pending : Bool
  deriving DecidableEq, Repr

/-- Memory: the bytes that differ from what an unlisted address reads as, which is 0 (R80; log entry 4). -/
abbrev Memory := List Host.Cell

/-- The canonical form of memory: addresses strictly rising, all legal (R80), no byte 0 listed. -/
def Memory.wf (m : Memory) : Bool :=
  match m with
  | [] => true
  | (a, b) :: rest =>
    decide (a < 2 ^ 24) && b != 0 && (match rest with | [] => true | c :: _ => decide (a < c.1)) && Memory.wf rest

/-- Bytes overwritten by stores, with the contents a fetch may still see (R48, R621; log entries 17, 18), and what
tells which lines of the instruction cache can be locked (R35, R112). -/
structure Stale where
  /-- Overwritten since the last serializing operation (R622). -/
  prefetch : List Host.Cell
  /-- Overwritten while the instruction cache was present and enabled, not invalidated since (R113): contents that
  only an unlocked line can hold, since memory never held them while fetches locked the lines they placed. -/
  icache : List Host.Cell
  /-- The other contents overwritten so: a locked line may hold them. -/
  icacheLocked : List Host.Cell
  /-- Lines of the instruction cache may be locked: it was enabled with CFG.LIC = 1 since all of it was last
  invalidated (R35, R112). -/
  locked : Bool
  /-- While lines may be locked and CFG.LIC is 0: the bytes changed since it was 1, whose present contents no locked
  line holds. -/
  fresh : List Nat
  deriving DecidableEq, Repr

/-- What the environment presents at one instruction boundary (R503). -/
structure Inputs where
  reset : Bool
  nmi : Bool
  int : Bool
  ise : Bool
  brkl : Bool
  extIad : Bool
  /-- The byte an interrupt-acknowledge read answers (R521). -/
  ack : Byte
  deriving DecidableEq, Repr

/-- The machine. -/
structure State where
  regs : RegFile
  /-- PC, 24 bits, bit 0 is 0 (R26). -/
  pc : Addr
  /-- ISP, 24 significant bits, bit 0 is 0 (R28). -/
  isp : Addr
  /-- INTBASE, 24 significant bits, bit 0 is 0 (R29). -/
  intbase : Addr
  psr : Psr
  cfg : Cfg
  dbg : DebugUnit
  /-- A pending IAD trap (R44, R504). -/
  iadPending : Bool
  /-- The wait state (R43, R550). -/
  waiting : Bool
  /-- The previous PSR.E, for the one boundary after EI, DI, EIWAIT (R504, R624). -/
  eLag : Option Bool
  mem : Memory
  stale : Stale
  /-- The inputs of the coming boundaries, the next first; none left means all inactive. The model's own
  field (log entry 2). -/
  inputs : List Inputs
  /-- How many free values have been drawn. The model's own field (log entry 1). -/
  draws : Nat
  /-- What the chip fixes (R7; log entry 5). No step changes it. -/
  config : Config
  deriving DecidableEq, Repr

/-- Why a step stops with a fault. -/
inductive Fault where
  /-- Raised by `step` alone, in a state whose PC is odd, which R26 excludes; no step reaches such a state
  from one with an even PC (log entry 37). Safe. -/
  | oddPc
  deriving DecidableEq, Repr

/-- Why the model gives a run no meaning: the treatments "refuse" of spec/93_implementation_defined.md. -/
inductive Refusal where
  /-- Raised by an arm of `exec` whose instruction has no meaning yet; no arm does. Safe. -/
  | notModelled (mnemonic : String)
  /-- Raised by an instruction in a form that uses `rrp` or `rs` with CFG.SR = 1, "undefined behavior"
  (R25, I6; log entry 27). Safe. -/
  | indexFormWithShortRegisters
  /-- Raised by PUSH, POP, POPRET with parameters the validity table excludes (R348, I7; log entry 28). Safe. -/
  | invalidStackList
  /-- Raised by `step` while an enabled range breakpoint has a mask that is not 0 (R564, I16; log entry 24). Safe. -/
  | maskedRangeBreakpoint
  /-- Raised by `step` when the acknowledge byte of an accepted maskable interrupt is outside 16..127
  (R522, I19; log entry 26). Safe. -/
  | vectorOutOfRange
  /-- Raised by `EXCP BPT` and by a DBG event when the hardware debug module takes it (R576; log entry 25). Safe. -/
  | hardwareDebugMode
  deriving DecidableEq, Repr

/-- Every input inactive, the default of D28. -/
def Inputs.idle : Inputs :=
  { reset := false, nmi := false, int := false, ise := false, brkl := false, extIad := false, ack := 0 }

/-- A debug bank after reset: DCR and DSR are 0 (R601); the CARs, which R601 leaves open, are 0
(DESIGN CHOICE, log entry 3). -/
def DebugBank.reset : DebugBank :=
  { dcrl := 0, dsr := 0, car0 := 0, car1 := 0, bpMask := false, seqArmed := false }

/-- DCR0 bits 31:16 after reset (R601). -/
def DebugCtl.reset : DebugCtl :=
  { efb := false, abpt := false, atrc := false, adbg := false, aise := false, dbgl := false }

/-- The PSR after reset: 0x0200, E alone is 1 (R601). -/
def Psr.reset : Psr :=
  { c := false, t := false, l := false, u := false, f := false, z := false, n := false, e := true,
    p := false, i := false }

/-- CFG after reset: 0 (R601). -/
def Cfg.reset : Cfg := { dc := false, ldc := false, ic := false, lic := false, ed := false, sr := false }

/-- The debug unit after reset (R601). -/
def DebugUnit.reset : DebugUnit :=
  { bank := 0, bank0 := .reset, bank1 := .reset, bank2 := .reset, bank3 := .reset, ctl := .reset,
    pending := false }

/-- The general registers after power-up, which R601 leaves open: 0 (DESIGN CHOICE, log entry 3). -/
def RegFile.reset : RegFile :=
  { r := Vector.replicate 12 0, r12 := 0, r13 := 0, ra := 0, sp := 0, usp := 0 }

/-- The machine right after a power-up reset (R601): the PC at RESET_PC, PSR 0x0200, CFG 0, the debug
registers 0, nothing pending; every register R601 leaves open holds 0 (DESIGN CHOICE, log entry 3); no
memory listed (log entry 4), no input coming (log entry 2). -/
def State.reset : State :=
  { regs := .reset, pc := Config.default.resetPc, isp := 0, intbase := 0, psr := .reset, cfg := .reset,
    dbg := .reset, iadPending := false, waiting := false, eLag := none, mem := [],
    stale := { prefetch := [], icache := [], icacheLocked := [], locked := false, fresh := [] }
    inputs := [], draws := 0, config := .default }

end Sys2Proof.Machine
end

