-- ==== Sys2Proof/Machine/Flags.lean ====
section
/-! DEFINITION. Conditions and flag computations: CondTrue (spec/10_state.md R40), Add, Sub, saturation
(spec/41_integer_arithmetic.md R215, R216, R218), CmpFlags (spec/42_integer_comparison.md R263), Shift
(spec/44_shifts.md R288), and the PSR and CFG as words (R30, R35). Every number is computed exactly, as an
integer, and narrowed at the end. -/

namespace Sys2Proof.Machine

/-- CondTrue (R40). Conditions 14 and 15 are always true (D15; log entry 29). -/
def condTrue (c : Cond) (p : Psr) : Bool :=
  match c with
  | .eq => p.z
  | .ne => !p.z
  | .cs => p.c
  | .cc => !p.c
  | .hi => p.l
  | .ls => !p.l
  | .gt => p.n
  | .le => !p.n
  | .fs => p.f
  | .fc => !p.f
  | .lo => !p.z && !p.l
  | .hs => p.z || p.l
  | .lt => !p.z && !p.n
  | .ge => p.z || p.n
  | .always => true
  | .uc => true

/-- A result of N bits with the C and F it sets (R215, R216). -/
structure Sum (w : Nat) where
  res : BitVec w
  c : Bool
  f : Bool
  deriving DecidableEq, Repr

/-- An integer outside the signed range of N bits (R215, R216). -/
def overflows (w : Nat) (s : Int) : Bool := decide (s < -(2 ^ (w - 1)) ∨ 2 ^ (w - 1) - 1 < s)

/-- Add_N(a, b, cin) (R215). -/
def addWith {w : Nat} (a b : BitVec w) (cin : Bool) : Sum w :=
  { res := BitVec.ofNat w (a.toNat + b.toNat + cin.toNat)
    c := decide (2 ^ w ≤ a.toNat + b.toNat + cin.toNat)
    f := overflows w (a.toInt + b.toInt + cin.toNat) }

/-- Sub_N(a, b, bin) = a - b - bin; C is the borrow (R216). -/
def subWith {w : Nat} (a b : BitVec w) (bin : Bool) : Sum w :=
  { res := BitVec.ofInt w ((a.toNat : Int) - b.toNat - bin.toNat)
    c := decide (a.toNat < b.toNat + bin.toNat)
    f := overflows w (a.toInt - b.toInt - bin.toNat) }

/-- Sat_s32 (R218). -/
def satS32 (x : Int) : Int := if x < -2 ^ 31 then -2 ^ 31 else if 2 ^ 31 - 1 < x then 2 ^ 31 - 1 else x

/-- Sat_u32 (R218). -/
def satU32 (x : Nat) : Nat := if 2 ^ 32 - 1 < x then 2 ^ 32 - 1 else x

/-- The PSR with Z, N, L set by CmpFlags_N(a, b): what the first operand is to the second (R263). -/
def cmpFlags {w : Nat} (a b : BitVec w) (p : Psr) : Psr :=
  { p with z := decide (a = b), n := decide (b.toInt < a.toInt), l := decide (b.toNat < a.toNat) }

/-- Shift_N(kind, v, c) (R288): none where the manual calls the result unpredictable. -/
def shiftBy {w : Nat} (arith : Bool) (v : BitVec w) (c : Int) : Option (BitVec w) :=
  if (w : Int) - 1 < c ∨ c < 1 - (w : Int) then none
  else if 0 ≤ c then some (BitVec.ofNat w (v.toNat * 2 ^ c.toNat))
  else if arith then some (BitVec.ofInt w (v.toInt / 2 ^ (-c).toNat))
  else some (BitVec.ofNat w (v.toNat / 2 ^ (-c).toNat))

/-- One bit as a bit vector. -/
def bit (b : Bool) : BitVec 1 := BitVec.ofBool b

/-- The PSR as a word; `res` stands in bits 15:12 (R30). -/
def psrWord (p : Psr) (res : BitVec 4) : Word :=
  res ++ bit p.i ++ bit p.p ++ bit p.e ++ 0#1 ++ bit p.n ++ bit p.z ++ bit p.f ++ 0#1 ++ bit p.u ++ bit p.l ++
    bit p.t ++ bit p.c

/-- The PSR a word names: bits 4, 8 and 15:12 are ignored (R30, R362). -/
def psrOfWord (w : Word) : Psr :=
  { c := w.getLsbD 0, t := w.getLsbD 1, l := w.getLsbD 2, u := w.getLsbD 3, f := w.getLsbD 5,
    z := w.getLsbD 6, n := w.getLsbD 7, e := w.getLsbD 9, p := w.getLsbD 10, i := w.getLsbD 11 }

/-- CFG as a word; `res` stands in bits 15:10 (R35). -/
def cfgWord (c : Cfg) (res : BitVec 6) : Word :=
  res ++ bit c.sr ++ bit c.ed ++ 0#2 ++ bit c.lic ++ bit c.ic ++ bit c.ldc ++ bit c.dc ++ 0#2

/-- The CFG a word names (R326). -/
def cfgOfWord (w : Word) : Cfg :=
  { dc := w.getLsbD 2, ldc := w.getLsbD 3, ic := w.getLsbD 4, lic := w.getLsbD 5, ed := w.getLsbD 8,
    sr := w.getLsbD 9 }

/-- JumpTarget(v): bits 22:0 become bits 23:1, bit 0 is 0 (R346). -/
def jumpTarget (v : DWord) : Addr := v.extractLsb' 0 23 ++ 0#1

/-- LinkVal of an address: its bits 23:1, right justified in 32 bits (R346). -/
def linkVal (a : Addr) : DWord := 0#9 ++ a.extractLsb' 1 23

/-- Remap20(a): above 0xEFFFF the address is ORed with 0xF00000 (R94). -/
def remap20 (a : BitVec 20) : Addr := if 0xEFFFF < a.toNat then 0xF#4 ++ a else 0#4 ++ a

/-- PSR.C and PSR.F written, as addition and subtraction do (R30). -/
def State.setCF (s : State) (c f : Bool) : State := { s with psr := { s.psr with c := c, f := f } }

/-- PSR.F written, as the bit operations do (R30). -/
def State.setF (s : State) (f : Bool) : State := { s with psr := { s.psr with f := f } }

end Sys2Proof.Machine
end

