-- ==== Sys2Proof/Machine/Ops.lean ====
section
/-! DEFINITION. The operations the meanings share: memory and its accesses (spec/20_memory.md), the debug
comparators (spec/60_exceptions.md R561 to R568), registers (spec/10_state.md R22 to R24), the PC
(spec/47_jumps_linkage.md R345), processor registers (spec/46_processor_register.md R325 to R327), taking an
exception and returning from one (spec/60_exceptions.md R510, spec/47_jumps_linkage.md R362), and the
transfer lists (R347, R348, spec/48_load_store.md R398). -/

namespace Sys2Proof.Machine

/-- What a meaning and a step answer. -/
abbrev Result := Host.Outcome State Fault Refusal

/-! ### Free values (spec/00_scope.md R9; log entry 1) -/

/-- The free value of the k-th draw from here on, cut to `w` bits. -/
def State.free (s : State) (w k : Nat) : BitVec w := (Config.freeBits (s.draws + k)).setWidth w

/-- `k` free values have been drawn. -/
def State.drew (s : State) (k : Nat) : State := { s with draws := s.draws + k }

/-! ### Memory as data (R80, R83) -/

/-- The byte at an address; an unlisted one is 0 (log entry 4). -/
def Memory.byte (m : Memory) (a : Nat) : Byte :=
  match m with
  | [] => 0
  | c :: rest => if c.1 = a then c.2 else Memory.byte rest a

/-- The word at an address, low byte first (R83, R84). -/
def Memory.word (m : Memory) (a : Nat) : Word := m.byte (a + 1) ++ m.byte a

/-- The double-word at an address, low word first (R83, R84). -/
def Memory.dword (m : Memory) (a : Nat) : DWord := m.word (a + 2) ++ m.word a

/-- A cell put before the first one of a higher address. -/
def insertCell (c : Host.Cell) (m : Memory) : Memory :=
  match m with
  | [] => [c]
  | d :: rest => if c.1 < d.1 then c :: d :: rest else d :: insertCell c rest

/-- One byte written, in canonical form: a byte 0 is not listed. -/
def Memory.put (m : Memory) (a : Nat) (b : Byte) : Memory :=
  let rest := m.filter (fun c => c.1 != a)
  if b = 0 then rest else insertCell (a, b) rest

/-- The bytes of a word in memory order (R83). -/
def wordBytes (w : Word) : List Byte := [w.extractLsb' 0 8, w.extractLsb' 8 8]

/-- The bytes of a double-word in memory order (R83). -/
def dwordBytes (v : DWord) : List Byte :=
  [v.extractLsb' 0 8, v.extractLsb' 8 8, v.extractLsb' 16 8, v.extractLsb' 24 8]

/-! ### The device map (R7, R81; log entry 39) -/

/-- What the platform has at an address, where it is not RAM. -/
def State.regionAt (s : State) (a : Nat) : Option RegionKind :=
  (s.config.regions.find? (fun r => r.first.toNat ≤ a && a ≤ r.last.toNat)).map (fun r => r.kind)

/-- A store to the address is held: RAM is there. -/
def State.isRam (s : State) (a : Nat) : Bool := s.regionAt a == none

/-- A device answers at the address. -/
def State.isDevice (s : State) (a : Nat) : Bool := s.regionAt a == some .device

/-! ### Overwritten code bytes (R621; log entries 17, 18) -/

/-- A cell remembered once. -/
def remember (c : Host.Cell) (l : List Host.Cell) : List Host.Cell := if l.contains c then l else c :: l

/-- Every old content a fetch may see. -/
def Stale.olds (st : Stale) : List Host.Cell := st.prefetch ++ st.icache ++ st.icacheLocked

/-- A locked line may hold the present content of the byte at `a`: memory held it while fetches locked the lines
they placed (R35; log entry 18). -/
def Stale.mayLock (st : Stale) (a : Nat) : Bool := st.locked && !st.fresh.contains a

/-- The instruction cache is present and enabled (R110, R111). -/
def State.icacheOn (s : State) : Bool := s.config.icachePresent && s.cfg.ic

/-- What a store that changes the byte at `a` from `old` to `new` leaves for a later fetch to see. -/
def State.staleAfter (s : State) (a : Nat) (old new : Byte) : Stale :=
  let st := s.stale
  if old = new then st
  else
    { st with
      prefetch := remember (a, old) st.prefetch
      icache := if s.icacheOn && !st.mayLock a then remember (a, old) st.icache else st.icache
      icacheLocked := if s.icacheOn && st.mayLock a then remember (a, old) st.icacheLocked else st.icacheLocked
      fresh := if s.icacheOn && !s.cfg.lic && st.mayLock a then a :: st.fresh else st.fresh }

/-- A serializing operation: the prefetched words are discarded (R622). -/
def State.serialize (s : State) : State := { s with stale := { s.stale with prefetch := [] } }

/-- Fetches from here on lock the lines they miss (R35: CFG.LIC). -/
def State.lockingLines (s : State) : Bool := s.icacheOn && s.cfg.lic

/-- The whole instruction cache is invalidated, and a locked line that is becomes unlocked (R112, R450). What it
held may still be prefetched (R113). -/
def State.dropIcache (s : State) : State :=
  { s with stale :=
      { prefetch := (s.stale.icache ++ s.stale.icacheLocked).foldr remember s.stale.prefetch
        icache := [], icacheLocked := [], locked := s.lockingLines, fresh := [] } }

/-- Every line of the instruction cache that is not locked is invalidated (R450); what only such lines held may
still be prefetched. -/
def State.dropUnlocked (s : State) : State :=
  { s with stale := { s.stale with prefetch := s.stale.icache.foldr remember s.stale.prefetch, icache := [] } }

/-- The old contents a fetch of the byte at `a` may see instead of the byte itself. -/
def State.staleBytes (s : State) (a : Nat) : List Byte :=
  (s.stale.olds.filter (fun c => c.1 == a)).map (fun c => c.2)

/-- A fetched byte: the one in memory or, freely, one of its old contents (R621, I10); of a device a free one
(R7; log entry 39). -/
def State.fetchByte (s : State) (a k : Nat) : Byte :=
  let olds := s.staleBytes a
  if s.isDevice a then s.free 8 k
  else (olds[(s.free 32 k).toNat % (olds.length + 1)]?).getD (s.mem.byte a)

/-! ### The debug comparators (R561 to R568) -/

/-- Bit `i` of the DCR of a bank, or bit `i + 8` for channel 1: DEN at 7, PC at 4, CWR at 5, CRD at 6 (R39). -/
def DebugBank.dcrBit (b : DebugBank) (ch1 : Bool) (i : Nat) : Bool := b.dcrl.getLsbD (if ch1 then i + 8 else i)

/-- The compare address of a channel. -/
def DebugBank.car (b : DebugBank) (ch1 : Bool) : Addr := if ch1 then b.car1 else b.car0

/-- The address bits a channel masks: none, 1, 2 or 3 low bits (R563). -/
def DebugBank.maskBits (b : DebugBank) (ch1 : Bool) : Addr :=
  match (b.dcrl.extractLsb' (if ch1 then 8 else 0) 2).toNat with
  | 0 => 0
  | 1 => 1
  | 2 => 3
  | _ => 7

/-- DCR.EAR (R39). -/
def DebugBank.ear (b : DebugBank) : Bool := b.dcrl.getLsbD 2

/-- DCR.ESQ (R39). -/
def DebugBank.esq (b : DebugBank) : Bool := b.dcrl.getLsbD 10

/-- Match(k, a) (R563). -/
def DebugBank.matches (b : DebugBank) (ch1 : Bool) (a : Addr) : Bool :=
  (a &&& ~~~ b.maskBits ch1) == (b.car ch1 &&& ~~~ b.maskBits ch1)

/-- InRange(a) (R564). -/
def DebugBank.inRange (b : DebugBank) (a : Addr) : Bool := b.car0 ≤ a && a ≤ b.car1

/-- A channel is enabled for PC matches (R561). -/
def DebugBank.pcOn (b : DebugBank) (ch1 : Bool) : Bool := b.dcrBit ch1 7 && b.dcrBit ch1 4

/-- A channel is enabled for data writes or data reads (R562). -/
def DebugBank.dataOn (b : DebugBank) (ch1 write : Bool) : Bool :=
  b.dcrBit ch1 7 && !b.dcrBit ch1 4 && (if write then b.dcrBit ch1 5 else b.dcrBit ch1 6)

/-- PCHitCh(k, a) (R561). -/
def DebugBank.pcHitCh (b : DebugBank) (ch1 : Bool) (a : Addr) : Bool := b.pcOn ch1 && b.matches ch1 a

/-- DataHitCh(k, a, kind) (R562). -/
def DebugBank.dataHitCh (b : DebugBank) (ch1 : Bool) (a : Addr) (write : Bool) : Bool :=
  b.dataOn ch1 write && b.matches ch1 a

/-- The two hits of a bank in its mode: `on0` and `on1` are the channels' conditions, `range` that of a
range breakpoint (R561, R564, R565). A complex breakpoint hits in channel 1, while armed. -/
def DebugBank.hits (b : DebugBank) (on0 on1 range : Bool) : Bool × Bool :=
  if b.esq then (false, on1 && b.seqArmed) else if b.ear then (range, false) else (on0, on1)

/-- PCHit(a), for each channel (R561). -/
def DebugBank.pcHits (b : DebugBank) (a : Addr) : Bool × Bool :=
  b.hits (b.pcHitCh false a) (b.pcHitCh true a) (b.pcOn false && b.inRange a)

/-- The data hits of an access, for each channel (R562). -/
def DebugBank.dataHits (b : DebugBank) (a : Addr) (write : Bool) : Bool × Bool :=
  b.hits (b.dataHitCh false a write) (b.dataHitCh true a write) (b.dataOn false write && b.inRange a)

/-- The bank after its comparators saw an event: `c0` is condition 0 of a complex breakpoint, which arms
(R565); a hit sets the status bits `bits0`, `bits1` and clears DEN0 and DEN1 (R568). A PC match of condition 1 that
the breakpoint mask suppresses is no hit and leaves the sequencer armed: R565 names the mask for the DBG entry alone
(DESIGN CHOICE, log entry 52). -/
def DebugBank.record (b : DebugBank) (c0 : Bool) (h : Bool × Bool) (bits0 bits1 : BitVec 7) : DebugBank :=
  { b with
    dcrl := if h.1 || h.2 then b.dcrl &&& 0x7F7F else b.dcrl
    dsr := b.dsr ||| (if h.1 then bits0 else 0) ||| (if h.2 then bits1 else 0)
    seqArmed := if b.esq then (b.seqArmed || c0) && !h.2 else b.seqArmed }

/-- The bank after a data access (R562, R565, R568). -/
def DebugBank.afterData (b : DebugBank) (a : Addr) (write : Bool) : DebugBank :=
  b.record (b.dataHitCh false a write) (b.dataHits a write) (if write then 0x02 else 0x04)
    (if write then 0x20 else 0x40)

/-- The PC hits that trap: none while the breakpoint mask is set (R561, R566). -/
def DebugBank.tagHits (b : DebugBank) (a : Addr) : Bool × Bool := if b.bpMask then (false, false) else b.pcHits a

/-- The bank after the tag check of the instruction at `a`; a hit sets the breakpoint mask (R566). -/
def DebugBank.afterTag (b : DebugBank) (a : Addr) : DebugBank :=
  { b.record (b.pcHitCh false a) (b.tagHits a) 0x01 0x10 with
    bpMask := b.bpMask || (b.tagHits a).1 || (b.tagHits a).2 }

/-- The bank when the instruction at `a` starts (R566 (a)). With ESQ = 1 the PCHit that uses the mask up is condition
1 while the sequencer is armed, as it is for a trap (DESIGN CHOICE, log entry 53). -/
def DebugBank.afterStart (b : DebugBank) (a : Addr) : DebugBank :=
  { b with bpMask := b.bpMask && !((b.pcHits a).1 || (b.pcHits a).2) }

/-- The bank tagged by the external line: EXF set, DEN0 and DEN1 cleared (R567). -/
def DebugBank.afterBrkl (b : DebugBank) : DebugBank := { b with dcrl := b.dcrl &&& 0x7F7F, dsr := b.dsr ||| 0x08 }

/-- An enabled range breakpoint with a mask that is not 0 (R564, I16). -/
def DebugBank.maskedRange (b : DebugBank) : Bool :=
  b.ear && !b.esq && b.dcrBit false 7 && (b.maskBits false != 0 || b.maskBits true != 0)

/-- A bank by its number. -/
def DebugUnit.get (d : DebugUnit) (b : BitVec 2) : DebugBank :=
  match b.toNat with
  | 0 => d.bank0
  | 1 => d.bank1
  | 2 => d.bank2
  | _ => d.bank3

/-- A bank replaced. -/
def DebugUnit.set (d : DebugUnit) (b : BitVec 2) (x : DebugBank) : DebugUnit :=
  match b.toNat with
  | 0 => { d with bank0 := x }
  | 1 => { d with bank1 := x }
  | 2 => { d with bank2 := x }
  | _ => { d with bank3 := x }

/-- One update of every implemented bank (R577). -/
def DebugUnit.mapBanks (d : DebugUnit) (last : BitVec 2) (f : DebugBank → DebugBank) : DebugUnit :=
  { d with
    bank0 := f d.bank0
    bank1 := if 1 ≤ last then f d.bank1 else d.bank1
    bank2 := if 2 ≤ last then f d.bank2 else d.bank2
    bank3 := if 3 ≤ last then f d.bank3 else d.bank3 }

/-- Whether an implemented bank has a property (R577). -/
def DebugUnit.anyBank (d : DebugUnit) (last : BitVec 2) (p : DebugBank → Bool) : Bool :=
  p d.bank0 || (1 ≤ last && p d.bank1) || (2 ≤ last && p d.bank2) || (3 ≤ last && p d.bank3)

/-- The debug unit after a data access at `a`: a hit also clears EFB and makes DBG pending (R562, R568). -/
def DebugUnit.afterData (d : DebugUnit) (last : BitVec 2) (a : Addr) (write : Bool) : DebugUnit :=
  let hit := d.anyBank last (fun b => (b.dataHits a write).1 || (b.dataHits a write).2)
  { d.mapBanks last (fun b => b.afterData a write) with
    ctl := { d.ctl with efb := d.ctl.efb && !hit }
    pending := d.pending || hit }

/-- TagHit(a, brkl) (R561, R567). -/
def DebugUnit.tagHit (d : DebugUnit) (last : BitVec 2) (a : Addr) (brkl : Bool) : Bool :=
  d.anyBank last (fun b => (b.tagHits a).1 || (b.tagHits a).2) || (d.ctl.efb && brkl)

/-- The debug unit after the tag check of the instruction at `a` (R565 to R568). -/
def DebugUnit.afterTag (d : DebugUnit) (last : BitVec 2) (a : Addr) (brkl : Bool) : DebugUnit :=
  let d' := d.mapBanks last (fun b => b.afterTag a)
  { d' with
    bank0 := if d.ctl.efb && brkl then d'.bank0.afterBrkl else d'.bank0
    ctl := { d.ctl with efb := d.ctl.efb && !d.tagHit last a brkl } }

/-! ### Data accesses (R84 to R91) -/

/-- Every one of the `n` byte addresses from `a` on is legal (R90). -/
def legal (a : Int) (n : Nat) : Bool := decide (0 ≤ a ∧ a + n ≤ 2 ^ 24)

/-- An illegal address makes the IAD trap pending (R91). -/
def State.illegal (s : State) : State := { s with iadPending := true }

/-- The comparators see an access at `a`, its lowest address, where that is a 24-bit one (R562, D38; log entry
23). -/
def State.noteAccess (s : State) (a : Int) (write : Bool) : State :=
  if 0 ≤ a ∧ a < 2 ^ 24 then { s with dbg := s.dbg.afterData s.config.lastBank (BitVec.ofInt 24 a) write } else s

/-- Every byte of an access is memory that answers with its contents: none is illegal, none a device's. -/
def State.readable (s : State) (a : Int) (n : Nat) : Bool :=
  legal a n && (List.range n).all (fun k => !s.isDevice (a.toNat + k))

/-- What a read of `n` bytes at `a` does besides giving a value: the comparators see it (R562), at an illegal
address IAD is pending (R91), and where not all of it is memory a free value was drawn (D7, D28; log entries
15, 39). -/
def State.noteRead (s : State) (a : Int) (n : Nat) : State :=
  let s' := s.noteAccess a false
  let s' := if legal a n then s' else s'.illegal
  if s.readable a n then s' else s'.drew 1

/-- Byte `k` of an access at a legal address: what memory holds there, or of a device a free byte (R84; log entry
39). -/
def State.readByte (s : State) (a k : Nat) : Byte :=
  if s.isDevice (a + k) then (s.free 32 0).extractLsb' (8 * k) 8 else s.mem.byte (a + k)

/-- MemRead(a, 1) (R84); a free value at an illegal address (R91). -/
def State.loadB (s : State) (a : Int) : Byte := if legal a 1 then s.readByte a.toNat 0 else s.free 8 0

/-- MemRead(a, 2) (R84). -/
def State.loadW (s : State) (a : Int) : Word :=
  if legal a 2 then s.readByte a.toNat 1 ++ s.readByte a.toNat 0 else s.free 16 0

/-- MemRead(a, 4) (R84). -/
def State.loadD (s : State) (a : Int) : DWord :=
  if legal a 4 then
    s.readByte a.toNat 3 ++ s.readByte a.toNat 2 ++ s.readByte a.toNat 1 ++ s.readByte a.toNat 0
  else s.free 32 0

/-- One byte stored: RAM holds it, read-only memory and a device's address do not (R85, D28; log entry 39). -/
def State.putByte (s : State) (a : Nat) (b : Byte) : State :=
  if s.isRam a then { s with mem := s.mem.put a b, stale := s.staleAfter a (s.mem.byte a) b } else s

/-- Bytes written in ascending order (R86). -/
def State.putBytes (s : State) (a : Nat) (bs : List Byte) : State :=
  match bs with
  | [] => s
  | b :: rest => State.putBytes (s.putByte a b) (a + 1) rest

/-- MemWrite(a, n, v), the bytes of v given (R85): one access, which the comparators see (R562); at an
illegal address nothing is written and IAD is pending (R91, D7; log entry 15). -/
def State.storeBytes (s : State) (a : Int) (bs : List Byte) : State :=
  let s' := s.noteAccess a true
  if legal a bs.length then s'.putBytes a.toNat bs else s'.illegal

/-- MemWrite(a, 1, v). -/
def State.storeB (s : State) (a : Int) (v : Byte) : State := s.storeBytes a [v]

/-- MemWrite(a, 2, v). -/
def State.storeW (s : State) (a : Int) (v : Word) : State := s.storeBytes a (wordBytes v)

/-- MemWrite(a, 4, v). -/
def State.storeD (s : State) (a : Int) (v : DWord) : State := s.storeBytes a (dwordBytes v)

/-- An address that lies outside the space makes IAD pending, whatever is accessed (R92). -/
def State.checkAddress (s : State) (a : Int) : State := if legal a 1 then s else s.illegal

/-- Words written one after the other, each an access (R87, R363, R398). -/
def State.storeWords (s : State) (a : Int) (ws : List Word) : State :=
  match ws with
  | [] => s
  | w :: rest => State.storeWords (s.storeW a w) (a + 2) rest

/-! ### The PC (R345) -/

/-- `pc <- T`: the low 24 bits, and IAD pending if T is illegal (R345, D6; log entry 16). -/
def State.setPc (s : State) (t : Int) : State :=
  { s with pc := BitVec.ofInt 24 t, iadPending := s.iadPending || !legal t 1 }

/-- `pc <- next_pc` for an instruction of `n` bytes (R345, R536). -/
def State.advance (s : State) (n : Nat) : State := s.setPc ((s.pc.toNat : Int) + n)

/-! ### General registers (R22 to R24) -/

/-- The stack pointer in use: USP when PSR.U = 1 (R22, R27). -/
def State.spx (s : State) : DWord := if s.psr.u then s.regs.usp else s.regs.sp

/-- The 32-bit register a number 12..15 names (R22). -/
def State.wide (s : State) (n : RegNum) : DWord :=
  match n.toNat with
  | 12 => s.regs.r12
  | 13 => s.regs.r13
  | 14 => s.regs.ra
  | _ => s.spx

/-- A 32-bit register written. -/
def State.setWide (s : State) (n : RegNum) (v : DWord) : State :=
  match n.toNat with
  | 12 => { s with regs := { s.regs with r12 := v } }
  | 13 => { s with regs := { s.regs with r13 := v } }
  | 14 => { s with regs := { s.regs with ra := v } }
  | _ => if s.psr.u then { s with regs := { s.regs with usp := v } } else { s with regs := { s.regs with sp := v } }

/-- R[n] (R22). -/
def State.reg (s : State) (n : RegNum) : Word :=
  if h : n.toNat < 12 then s.regs.r[n.toNat] else (s.wide n).extractLsb' 0 16

/-- R[n] written: of a 32-bit register the upper half stays (R22). -/
def State.setReg (s : State) (n : RegNum) (v : Word) : State :=
  if h : n.toNat < 12 then { s with regs := { s.regs with r := s.regs.r.set n.toNat v } }
  else s.setWide n ((s.wide n).extractLsb' 16 16 ++ v)

/-- The upper half of a 32-bit register written (R347). -/
def State.setHigh (s : State) (n : RegNum) (v : Word) : State := s.setWide n (v ++ (s.wide n).extractLsb' 0 16)

/-- RB[n] (R22). -/
def State.regB (s : State) (n : RegNum) : Byte := (s.reg n).extractLsb' 0 8

/-- RB[n] written: bits 15:8 stay (R22). -/
def State.setRegB (s : State) (n : RegNum) (v : Byte) : State := s.setReg n ((s.reg n).extractLsb' 8 8 ++ v)

/-- Whether a pair number names one 32-bit register (R23). -/
def State.pairIsWide (s : State) (n : PairNum) : Bool := n == 15 || (12 ≤ n && !s.cfg.sr)

/-- RP[n] (R23). -/
def State.pair (s : State) (n : PairNum) : DWord :=
  if s.pairIsWide n then s.wide n else s.reg (n + 1) ++ s.reg n

/-- RP[n] written (R23). -/
def State.setPair (s : State) (n : PairNum) (v : DWord) : State :=
  if s.pairIsWide n then s.setWide n v
  else (s.setReg n (v.extractLsb' 0 16)).setReg (n + 1) (v.extractLsb' 16 16)

/-- The pair number of the implied RA operand: RA, or (RA, ERA) when CFG.SR = 1 (R24). -/
def State.raPair (s : State) : PairNum := if s.cfg.sr then 13 else 14

/-! ### Transfer lists (R347, R348, R398) -/

/-- One word of a transfer list: the low or the high half of a register. -/
structure Slot where
  reg : RegNum
  high : Bool
  deriving DecidableEq, Repr

/-- The `w` words from register `n` on: with CFG.SR = 0 a register from 12 on gives its low half, then its
high half (R347, D14; log entry 28). -/
def walkSlots (sr : Bool) (n : RegNum) (w : Nat) : List Slot :=
  match w with
  | 0 => []
  | 1 => [⟨n, false⟩]
  | w' + 2 =>
    if !sr && 12 ≤ n then ⟨n, false⟩ :: ⟨n, true⟩ :: walkSlots sr (n + 1) w'
    else ⟨n, false⟩ :: walkSlots sr (n + 1) (w' + 1)

/-- The two words of the implied RA operand (R24, R347). -/
def raSlots (sr : Bool) : List Slot := if sr then [⟨13, false⟩, ⟨14, false⟩] else [⟨14, false⟩, ⟨14, true⟩]

/-- StackList(src, count, ra); `count` is the field, one less than the count (R141, R347). -/
def stackSlots (sr ra : Bool) (count : BitVec 3) (n : RegNum) : List Slot :=
  walkSlots sr n (count.toNat + 1) ++ (if ra then raSlots sr else [])

/-- The parameters are valid: the walk does not reach register 15 (R348). -/
def stackValid (sr : Bool) (count : BitVec 3) (n : RegNum) : Bool :=
  (walkSlots sr n (count.toNat + 1)).all (fun x => x.reg != 15)

/-- The first `count + 1` entries of MList (R398). -/
def mSlots (count : BitVec 3) : List Slot :=
  [⟨2, false⟩, ⟨3, false⟩, ⟨4, false⟩, ⟨5, false⟩, ⟨8, false⟩, ⟨9, false⟩, ⟨10, false⟩, ⟨11, false⟩].take
    (count.toNat + 1)

/-- The word a slot holds. -/
def State.slot (s : State) (x : Slot) : Word := if x.high then (s.wide x.reg).extractLsb' 16 16 else s.reg x.reg

/-- A slot written. -/
def State.setSlot (s : State) (x : Slot) (v : Word) : State := if x.high then s.setHigh x.reg v else s.setReg x.reg v

/-- Slots loaded from ascending words, each an access (R87, R364, R398). -/
def State.loadSlots (s : State) (a : Int) (xs : List Slot) : State :=
  match xs with
  | [] => s
  | x :: rest => State.loadSlots ((s.noteRead a 2).setSlot x (s.loadW a)) (a + 2) rest

/-! ### Processor registers (R325 to R327) -/

/-- The PSR as a program reads it: bits 15:12 are free, T and P too with the hardware debug module
(R325, I3, I11; log entries 13, 25). -/
def State.psrRead (s : State) : Word :=
  let v : Word := s.free 16 0
  psrWord (if s.config.hwDebugModule then { s.psr with t := v.getLsbD 1, p := v.getLsbD 10 } else s.psr)
    (v.extractLsb' 12 4)

/-- DBS.EVT for the two channels of a bank: BRD, BWR or BPC (R37). -/
def DebugBank.events (b : DebugBank) : BitVec 2 :=
  bit (b.dsr.getLsbD 4 || b.dsr.getLsbD 5 || b.dsr.getLsbD 6) ++
    bit (b.dsr.getLsbD 0 || b.dsr.getLsbD 1 || b.dsr.getLsbD 2)

/-- DBS as a program reads it; EXF counts for channel 0; bits 7:2 are free (R37, R325, R570, I3; log entry 13). -/
def State.dbsRead (s : State) : Word :=
  let last := s.config.lastBank
  let d := s.dbg
  (if 3 ≤ last then d.bank3.events else 0) ++ (if 2 ≤ last then d.bank2.events else 0) ++
    (if 1 ≤ last then d.bank1.events else 0) ++ (d.bank0.events ||| (0#1 ++ bit (d.bank0.dsr.getLsbD 3))) ++
    s.free 6 0 ++ d.bank

/-- The bank DBS selects is implemented, and the core may access it (R36, R37). -/
def State.bankVisible (s : State) : Bool := !s.config.hwDebugModule && s.dbg.bank ≤ s.config.lastBank

/-- The bank DBS selects. -/
def State.curBank (s : State) : DebugBank := s.dbg.get s.dbg.bank

/-- A write to the bank DBS selects; ignored where it is not visible (R36, R326). -/
def State.setBank (s : State) (x : DebugBank) : State :=
  if s.bankVisible then { s with dbg := s.dbg.set s.dbg.bank x } else s

/-- DCRH as a program reads it: bank 0 has the bits of R39 and free reserved bits; the half has no defined
bits in another bank and is free there (R326; log entry 14). -/
def State.dcrhRead (s : State) : Word :=
  let v : Word := s.free 16 0
  let c := s.dbg.ctl
  if s.dbg.bank = 0 then
    v.extractLsb' 8 8 ++ bit c.dbgl ++ v.extractLsb' 6 1 ++ bit c.aise ++ bit c.adbg ++ bit c.atrc ++ bit c.abpt ++
      v.extractLsb' 1 1 ++ bit c.efb
  else v

/-- The high half of a 24-bit register: bits 15:8 are 0 (R325). -/
def highHalf (a : Addr) : Word := 0#8 ++ a.extractLsb' 16 8

/-- DSR of the bank DBS selects, as a program reads it: bits 15:7 are free (R325, I3; log entry 13), and so is bit 3
in a bank other than 0, where EXF does not exist and the spec gives the bit no value (R41; log entry 49). -/
def State.dsrRead (s : State) : Word :=
  let v : Word := s.free 16 0
  let d := s.curBank.dsr
  v.extractLsb' 7 9 ++ d.extractLsb' 4 3 ++ (if s.dbg.bank = 0 then d.extractLsb' 3 1 else v.extractLsb' 3 1) ++
    d.extractLsb' 0 3

/-- PRRead16(n) (R325). -/
def State.prRead16 (s : State) (n : ProcRegNum) : Word :=
  let debug (w : Word) : Word := if s.bankVisible then w else 0
  match n.toNat with
  | 0 => s.dbsRead
  | 1 => debug s.dsrRead
  | 2 => debug s.curBank.dcrl
  | 3 => debug s.dcrhRead
  | 4 => debug (s.curBank.car0.extractLsb' 0 16)
  | 5 => debug (highHalf s.curBank.car0)
  | 6 => debug (s.curBank.car1.extractLsb' 0 16)
  | 7 => debug (highHalf s.curBank.car1)
  | 8 => cfgWord s.cfg (s.free 6 0)
  | 9 => s.psrRead
  | 10 => s.intbase.extractLsb' 0 16
  | 11 => highHalf s.intbase
  | 12 => s.isp.extractLsb' 0 16
  | 13 => highHalf s.isp
  | 14 => s.regs.usp.extractLsb' 0 16
  | _ => s.regs.usp.extractLsb' 16 16

/-- A 24-bit register with its low half written. -/
def withLow (a : Addr) (v : Word) : Addr := a.extractLsb' 16 8 ++ v

/-- A 24-bit register with its high half written: only 8 bits of it are held (R326). -/
def withHigh (a : Addr) (v : Word) : Addr := v.extractLsb' 0 8 ++ a.extractLsb' 0 16

/-- A word with bit 0 cleared (R28, R29). -/
def evenWord (v : Word) : Word := v.extractLsb' 1 15 ++ 0#1

/-- DCRH of bank 0 written: the old DBGL locks ABPT, ATRC, ADBG, AISE and is itself set-once (R326; log entry 41). -/
def DebugCtl.write (c : DebugCtl) (v : Word) : DebugCtl :=
  { efb := v.getLsbD 0
    abpt := if c.dbgl then c.abpt else v.getLsbD 2
    atrc := if c.dbgl then c.atrc else v.getLsbD 3
    adbg := if c.dbgl then c.adbg else v.getLsbD 4
    aise := if c.dbgl then c.aise else v.getLsbD 5
    dbgl := c.dbgl || v.getLsbD 7 }

/-- DCRL written: the sequencer is disarmed, the breakpoint mask cleared if PC0 or PC1 is written 0 (R326, R566
(b), D39). Recipe 1 of R572 and the vector X11 keep the mask after 0x90, whose PC1 is 0: R326 is followed
(DEDUCED, log entry 48). -/
def DebugBank.writeDcrl (b : DebugBank) (v : Word) : DebugBank :=
  { b with dcrl := v, seqArmed := false, bpMask := b.bpMask && v.getLsbD 4 && v.getLsbD 12 }

/-- DSR written: EXF exists in DSR0 only (R326), so another bank stores no bit 3: its place holds 0, which no read
shows (DESIGN CHOICE, log entry 49). -/
def DebugBank.writeDsr (b : DebugBank) (isBank0 : Bool) (v : Word) : DebugBank :=
  { b with dsr := if isBank0 then v.extractLsb' 0 7 else v.extractLsb' 0 7 &&& 0x77 }

/-- DCRH written (R326). -/
def State.writeDcrh (s : State) (v : Word) : State :=
  let s' := s.setBank { s.curBank with seqArmed := false }
  if s.bankVisible && s.dbg.bank == 0 then { s' with dbg := { s'.dbg with ctl := s.dbg.ctl.write v } } else s'

/-- CFG written: a 1 to 0 change of IC invalidates the instruction cache (R112, R326); with IC and LIC 1, a
line that holds any present content may be locked from here on (R35). -/
def State.writeCfg (s : State) (v : Word) : State :=
  let s' := { s with cfg := cfgOfWord v }
  if s.cfg.ic && !s'.cfg.ic then s'.dropIcache
  else if s'.lockingLines then { s' with stale := { s.stale with locked := true, fresh := [] } } else s'

/-- PRWrite16(n, v) (R326). -/
def State.prWrite16 (s : State) (n : ProcRegNum) (v : Word) : State :=
  match n.toNat with
  | 0 => { s with dbg := { s.dbg with bank := v.extractLsb' 0 2 } }
  | 1 => s.setBank (s.curBank.writeDsr (s.dbg.bank == 0) v)
  | 2 => s.setBank (s.curBank.writeDcrl v)
  | 3 => s.writeDcrh v
  | 4 => s.setBank { s.curBank with car0 := withLow s.curBank.car0 v }
  | 5 => s.setBank { s.curBank with car0 := withHigh s.curBank.car0 v }
  | 6 => s.setBank { s.curBank with car1 := withLow s.curBank.car1 v }
  | 7 => s.setBank { s.curBank with car1 := withHigh s.curBank.car1 v }
  | 8 => s.writeCfg v
  | 9 => { s with psr := { psrOfWord v with u := s.psr.u } }
  | 10 => { s with intbase := withLow s.intbase (evenWord v) }
  | 11 => { s with intbase := withHigh s.intbase v }
  | 12 => { s with isp := withLow s.isp (evenWord v) }
  | 13 => { s with isp := withHigh s.isp v }
  | 14 => { s with regs := { s.regs with usp := s.regs.usp.extractLsb' 16 16 ++ v } }
  | _ => { s with regs := { s.regs with usp := 0#8 ++ v.extractLsb' 0 8 ++ s.regs.usp.extractLsb' 0 16 } }

/-- PRRead32(n); a reserved number gives a free value (R327, I14). -/
def State.prRead32 (s : State) (n : ProcRegNum) : DWord :=
  match n.toNat with
  | 0 | 1 | 8 | 9 => 0#16 ++ s.prRead16 n
  | 2 | 4 | 6 | 10 | 12 | 14 => s.prRead16 (n + 1) ++ s.prRead16 n
  | _ => s.free 32 0

/-- PRWrite32(n, v); a reserved number changes nothing (R327, I14; log entry 51). -/
def State.prWrite32 (s : State) (n : ProcRegNum) (v : DWord) : State :=
  match n.toNat with
  | 0 | 1 | 8 | 9 => s.prWrite16 n (v.extractLsb' 0 16)
  | 2 | 4 | 6 | 10 | 12 | 14 => (s.prWrite16 n (v.extractLsb' 0 16)).prWrite16 (n + 1) (v.extractLsb' 16 16)
  | _ => s

/-! ### Taking an exception and returning from one (R510 to R516, R362) -/

/-- The exceptions (R501). A maskable interrupt carries the byte its acknowledge read answered (R521). -/
inductive Exc where
  | nmi
  | int (vector : Byte)
  | ise
  | svc
  | dvz
  | flg
  | bpt
  | trc
  | und
  | iad
  | dbg
  deriving DecidableEq, Repr

/-- The dispatch-table vector number (R501, R510). -/
def Exc.vector : Exc → Nat
  | .nmi => 1
  | .int v => v.toNat
  | .ise => 15
  | .svc => 5
  | .dvz => 6
  | .flg => 7
  | .bpt => 8
  | .trc => 9
  | .und => 10
  | .iad => 12
  | .dbg => 14

/-- Whether the entry clears PSR.I (R511). -/
def Exc.clearsI : Exc → Bool
  | .nmi => true
  | .int _ => true
  | .ise => true
  | .dbg => true
  | _ => false

/-- The address of the interrupt-acknowledge read the entry makes, if it makes one (R510, R514, R521). -/
def Exc.ackAddr (x : Exc) (c : DebugCtl) : Option Int :=
  match x with
  | .int _ => some 0xFFFE00
  | .nmi => some 0xFFFF00
  | .ise => some 0xFFFC00
  | .dbg => if c.adbg then some 0xFFFC02 else none
  | .trc => if c.atrc then some 0xFFFC0C else none
  | .bpt => if c.abpt then some 0xFFFC0E else none
  | _ => none

/-- Whether the dispatch is the alternate one: INTBASE taken as 0, 32-bit entries (R514). -/
def Exc.alternate (x : Exc) (c : DebugCtl) : Bool :=
  match x with
  | .bpt => c.abpt
  | .trc => c.atrc
  | .dbg => c.adbg
  | .ise => c.aise
  | _ => false

/-- The frame is written below ISP: the PSR word first, then the PC as a double-word (R510, D36). -/
def State.pushFrame (s : State) (ret : Addr) : State :=
  let sp : Int := (s.isp.toNat : Int) - 6
  let s' := ((s.drew 1).storeW (sp + 4) s.psrRead).storeD sp (linkVal ret)
  { s' with isp := BitVec.ofInt 24 sp }

/-- The PSR after the frame is written: P, T, U are 0, and I for the interrupts and DBG (R511). -/
def Exc.psrAfter (x : Exc) (p : Psr) : Psr :=
  { p with p := false, t := false, u := false, i := p.i && !x.clearsI }

/-- The acknowledge read (R514, R521): what it does besides giving its byte. -/
def State.acknowledge (s : State) (x : Exc) : State :=
  match x.ackAddr s.dbg.ctl with
  | some a => s.noteRead a 1
  | none => s

/-- The address of the dispatch-table entry and whether it is a double-word (R510, R513). -/
def State.dispatchEntry (s : State) (x : Exc) : Int × Bool :=
  let alt := x.alternate s.dbg.ctl
  let base : Int := if alt then 0 else s.intbase.toNat
  if alt || s.cfg.ed then (base + 4 * x.vector, true) else (base + 2 * x.vector, false)

/-- The handler's address is read and becomes the PC (R510, R513). -/
def State.dispatch (s : State) (x : Exc) : State :=
  let (a, double) := s.dispatchEntry x
  if double then { s.noteRead a 4 with pc := jumpTarget (s.loadD a) }
  else { s.noteRead a 2 with pc := 0#7 ++ s.loadW a ++ 0#1 }

/-- Enter(X, ret) (R510), the one way an exception is taken. -/
def State.enter (s : State) (x : Exc) (ret : Addr) : State :=
  let s := if x = .trc then { s with psr := { s.psr with p := false } } else s
  let s := s.pushFrame ret
  let s := { s with psr := x.psrAfter s.psr }
  let s := (s.acknowledge x).dispatch x
  { s with waiting := false }.serialize

/-- The UND trap of the instruction at the PC (R527). -/
def State.enterUnd (s : State) : State := s.enter .und s.pc

/-- The return from an exception, RETX (R362, R515). -/
def State.returnFrom (s : State) : State :=
  let a : Int := s.isp.toNat
  let target := jumpTarget (s.loadD a)
  let s1 := s.noteRead a 4
  let psr := psrOfWord (s1.loadW (a + 4))
  let s2 := s1.noteRead (a + 4) 2
  { s2 with isp := s.isp + 6, psr := psr, pc := target }.serialize

end Sys2Proof.Machine
end

