-- ==== Sys2Proof/Machine/Operands.lean ====
section
/-! DEFINITION. Operand forms: source values (spec/40_moves.md R207), shift counts (spec/44_shifts.md R289,
spec/30_encoding.md R142), effective addresses (spec/20_memory.md R101 to R103), bit selection
(spec/45_bit_operations.md R309), branch displacements (spec/30_encoding.md R135, R137, R138), and how many
bytes each form takes (R120, R123). -/

namespace Sys2Proof.Machine

/-! ### Sources (R207) -/

/-- The value of an `$imm4` field at width `w`: 9 stands for -1 (R131, R207). -/
def imm4Value (w : Nat) (f : BitVec 4) : BitVec w := if f = 9 then BitVec.ofInt w (-1) else f.setWidth w

/-- Src_8 (R207); of an imm16 the low byte (D30; log entry 32). -/
def State.srcB (s : State) : Src → Byte
  | .imm4 f => imm4Value 8 f
  | .imm16 w => w.extractLsb' 0 8
  | .reg r => s.regB r

/-- Src_16 (R207). -/
def State.srcW (s : State) : Src → Word
  | .imm4 f => imm4Value 16 f
  | .imm16 w => w
  | .reg r => s.reg r

/-- Src_32 of MOVD and ADDD (R207). -/
def State.srcD (s : State) : SrcD → DWord
  | .imm4 f => imm4Value 32 f
  | .imm16 w => w.signExtend 32
  | .imm20 f => f.setWidth 32
  | .imm32 v => v
  | .pair p => s.pair p

/-- Src_32 of CMPD (R207). -/
def State.srcC (s : State) : SrcC → DWord
  | .imm4 f => imm4Value 32 f
  | .imm16 w => w.signExtend 32
  | .imm32 v => v
  | .pair p => s.pair p

/-- Src_32 of SUBD, ANDD, ORD, XORD (R207). -/
def State.srcL (s : State) : SrcL → DWord
  | .imm32 v => v
  | .pair p => s.pair p

/-- The bytes of a byte or word operation with this source. -/
def srcBytes : Src → Nat
  | .imm4 _ => 2
  | .imm16 _ => 4
  | .reg _ => 2

/-- The bytes of MOVD or ADDD with this source. -/
def srcDBytes : SrcD → Nat
  | .imm4 _ => 2
  | .imm16 _ => 4
  | .imm20 _ => 4
  | .imm32 _ => 6
  | .pair _ => 2

/-- The bytes of CMPD with this source. -/
def srcCBytes : SrcC → Nat
  | .imm4 _ => 2
  | .imm16 _ => 4
  | .imm32 _ => 6
  | .pair _ => 2

/-- The bytes of SUBD, ANDD, ORD, XORD with this source. -/
def srcLBytes : SrcL → Nat
  | .imm32 _ => 6
  | .pair _ => 4

/-! ### Shift counts (R142, R289) -/

/-- The count in a register: its low byte, signed (R289). -/
def State.regCount (s : State) (r : RegNum) : Int := (s.regB r).toInt

/-- The count of ASHU: +n, n - 2^w, or a register's (R142, D5; log entry 12). -/
def State.count {w : Nat} (s : State) : Count w → Int
  | .left n => n.toNat
  | .right n => (n.toNat : Int) - 2 ^ w
  | .reg r => s.regCount r

/-- The count of LSH (R142, R293). -/
def State.rightCount {w : Nat} (s : State) : RightCount w → Int
  | .right n => (n.toNat : Int) - 2 ^ w
  | .reg r => s.regCount r

/-! ### Effective addresses (R101 to R103) -/

/-- The index register an `rs` bit selects (R25). -/
def State.indexReg (s : State) (r13 : Bool) : DWord := if r13 then s.regs.r13 else s.regs.r12

/-- The base pair of an `rrp` number (R25). -/
def indexBase (n : IndexNum) : PairNum :=
  match (low3 n).toNat with
  | 0 => 0
  | 1 => 2
  | 2 => 4
  | 3 => 6
  | 4 => 8
  | 5 => 10
  | 6 => 3
  | _ => 5

/-- Rindex + RP[base] of an `rrp` number (R25, R101). -/
def State.indexed (s : State) (n : IndexNum) : Int :=
  (s.indexReg (top1 n)).toNat + (s.pair (indexBase n)).toNat

/-- The base of a `prp` form: the register when CFG.SR = 1, the index sum when CFG.SR = 0 (R25, R101). -/
def State.prpBase (s : State) (n : IndexNum) : Int := if s.cfg.sr then (s.reg n).toNat else s.indexed n

/-- The EA of a load or store, an unbounded integer (R90, R101); `scale` is 2 for word and double-word
operations and applies to disp4 alone (R102). None where the form needs index addressing and CFG.SR = 1
(R25, I6; log entry 27). -/
def State.ea (s : State) (scale : Nat) : MemAddr → Option Int
  | .disp4 p f => some ((s.pair p).toNat + scale * f.toNat)
  | .prp0 n => some (s.prpBase n)
  | .disp14 n d => some (s.prpBase n + d.toNat)
  | .disp16 p d => some ((s.pair p).toNat + d.toNat)
  | .disp20Reg r d => some ((s.reg r).toNat + d.toNat)
  | .disp20Pair p d => some ((s.pair p).toNat + d.toNat)
  | .disp20Index n d => if s.cfg.sr then none else some (s.indexed n + d.toNat)
  | .negDisp20Reg r d => some ((s.reg r).toNat + ((d.toNat : Int) - 2 ^ 20))
  | .negDisp20Pair p d => some ((s.pair p).toNat + ((d.toNat : Int) - 2 ^ 20))
  | .abs20 a => some (remap20 a).toNat
  | .abs20Index r13 a => if s.cfg.sr then none else some ((s.indexReg r13).toNat + a.toNat)
  | .abs24 a => some a.toNat

/-- The EA of a bit operation or STOR-immediate (R101, R308, R397). -/
def State.eaBit (s : State) : BitAddr → Option Int
  | .disp14 n d => some (s.prpBase n + d.toNat)
  | .disp20Reg r d => some ((s.reg r).toNat + d.toNat)
  | .pair0 p => some (s.pair p).toNat
  | .disp16 p d => some ((s.pair p).toNat + d.toNat)
  | .disp20Pair p d => some ((s.pair p).toNat + d.toNat)
  | .disp20Index n d => if s.cfg.sr then none else some (s.indexed n + d.toNat)
  | .abs20 a => some (remap20 a).toNat
  | .abs20Index r13 a => if s.cfg.sr then none else some ((s.indexReg r13).toNat + a.toNat)
  | .abs24 a => some a.toNat

/-- A meaning that goes on with an EA, refused where the form has none (I6). -/
def withEa (ea : Option Int) (f : Int → State) : Result :=
  match ea with
  | some a => .next (f a)
  | none => .refused .indexFormWithShortRegisters

/-- The bytes of a load or store with this address form (R395). -/
def memAddrBytes : MemAddr → Nat
  | .disp4 _ _ => 2
  | .prp0 _ => 2
  | .disp14 _ _ => 4
  | .disp16 _ _ => 4
  | .disp20Reg _ _ => 6
  | .disp20Pair _ _ => 6
  | .disp20Index _ _ => 6
  | .negDisp20Reg _ _ => 6
  | .negDisp20Pair _ _ => 6
  | .abs20 _ => 4
  | .abs20Index _ _ => 4
  | .abs24 _ => 6

/-- The bytes of a bit operation or STOR-immediate with this address form (R308, R397). -/
def bitAddrBytes : BitAddr → Nat
  | .disp14 _ _ => 4
  | .disp20Reg _ _ => 6
  | .pair0 _ => 2
  | .disp16 _ _ => 4
  | .disp20Pair _ _ => 6
  | .disp20Index _ _ => 6
  | .abs20 _ => 4
  | .abs20Index _ _ => 4
  | .abs24 _ => 6

/-! ### Bit selection (R309) -/

/-- BitSel for a word operation: the address, whether one byte alone is touched, and the bit (R309). -/
def bitSel (ea : Int) (pos : BitVec 4) : Int × Bool × Nat :=
  if ea % 2 = 0 then (ea, false, pos.toNat) else (ea + pos.toNat / 8, true, pos.toNat % 8)

/-- A value with bit `b` set or cleared (R310 to R313). -/
def withBit {w : Nat} (v : BitVec w) (b : Nat) (x : Bool) : BitVec w :=
  if x then v ||| (1#w <<< b) else v &&& ~~~(1#w <<< b)

/-- Bit `b` of the byte at `a` goes to F, and is then set or cleared (R310, R312). -/
def State.changeBitB (s : State) (a : Int) (b : Nat) (x : Bool) : State :=
  let v := s.loadB a
  ((s.noteRead a 1).setF (v.getLsbD b)).storeB a (withBit v b x)

/-- The same for the word at `a` (R311, R313). -/
def State.changeBitW (s : State) (a : Int) (b : Nat) (x : Bool) : State :=
  let v := s.loadW a
  ((s.noteRead a 2).setF (v.getLsbD b)).storeW a (withBit v b x)

/-- A word bit operation: of a word at an odd address one byte alone is touched (R309). -/
def State.changeBit (s : State) (ea : Int) (pos : BitVec 4) (x : Bool) : State :=
  let (a, one, b) := bitSel ea pos
  if one then s.changeBitB a b x else s.changeBitW a b x

/-- Bit `b` of the byte at `a` goes to F (R315). -/
def State.testBitB (s : State) (a : Int) (b : Nat) : State := (s.noteRead a 1).setF ((s.loadB a).getLsbD b)

/-- The same for the word at `a` (R316). -/
def State.testBitW (s : State) (a : Int) (b : Nat) : State := (s.noteRead a 2).setF ((s.loadW a).getLsbD b)

/-- A word bit test (R309, R316). -/
def State.testBit (s : State) (ea : Int) (pos : BitVec 4) : State :=
  let (a, one, b) := bitSel ea pos
  if one then s.testBitB a b else s.testBitW a b

/-! ### Conditional operations (R135, R137, R138, R279, R350, R357) -/

/-- The displacement in bytes of a branch: twice the signed field (R137, R138). -/
def branchDisp : BranchDisp → Int
  | .disp9 f => 2 * f.toInt
  | .disp17 h => 2 * h.toInt
  | .disp25 h => 2 * h.toInt

/-- The bytes of a branch (R350). -/
def branchBytes : BranchDisp → Nat
  | .disp9 _ => 2
  | .disp17 _ => 4
  | .disp25 _ => 6

/-- A branch, taken or not, from the address of the branch itself (R350). -/
def State.branchIf (s : State) (taken : Bool) (d : BranchDisp) : State :=
  if taken then s.setPc ((s.pc.toNat : Int) + branchDisp d) else s.advance (branchBytes d)

/-- The forward branch of a compare-and-branch: 2 * (field + 1) bytes (R135, R353). -/
def State.forwardIf (s : State) (taken : Bool) (j : BitVec 4) : State :=
  if taken then s.setPc ((s.pc.toNat : Int) + 2 * (j.toNat + 1)) else s.advance 2

/-- A jump through a pair, taken or not (R357). -/
def State.jumpIf (s : State) (taken : Bool) (p : PairNum) : State :=
  if taken then { s with pc := jumpTarget (s.pair p) } else s.advance 2

/-- The link value of an instruction of `n` bytes (R346). -/
def State.linkAfter (s : State) (n : Nat) : DWord := linkVal (BitVec.ofInt 24 ((s.pc.toNat : Int) + n))

/-- The pair a link operand names; the short forms name the implied RA operand (R24, R346). -/
def State.linkPair (s : State) : Link → PairNum
  | .implied => s.raPair
  | .pair p => p

/-- A register made 1 or 0 by a condition (R279). -/
def State.setIf (s : State) (c : Bool) (dest : RegNum) : State := (s.setReg dest (if c then 1 else 0)).advance 2

/-- A shifted value; where the manual calls it unpredictable, a free one (R288, I1; log entry 12). -/
def State.shifted {w : Nat} (s : State) (arith : Bool) (v : BitVec w) (c : Int) : BitVec w :=
  (shiftBy arith v c).getD (s.free w 0)

/-- The free value of an unpredictable shift has been drawn. -/
def State.drewShift (s : State) (w : Nat) (c : Int) : State :=
  if (shiftBy false (0 : BitVec w) c).isNone then s.drew 1 else s

/-- The bytes of a BAL (R352). -/
def balBytes : Link → Nat
  | .implied => 4
  | .pair _ => 6

/-- The bytes of a JAL (R360). -/
def jalBytes : Link → Nat
  | .implied => 2
  | .pair _ => 4

/-- The bytes of an instruction (R120, R123). -/
def instrBytes : Instr → Nat
  | .movb src _ => srcBytes src
  | .movw src _ => srcBytes src
  | .movd src _ => srcDBytes src
  | .movxb _ _ => 2
  | .movxw _ _ => 2
  | .movzb _ _ => 2
  | .movzw _ _ => 2
  | .addb src _ => srcBytes src
  | .addw src _ => srcBytes src
  | .addd src _ => srcDBytes src
  | .addub src _ => srcBytes src
  | .adduw src _ => srcBytes src
  | .addcb src _ => srcBytes src
  | .addcw src _ => srcBytes src
  | .subb src _ => srcBytes src
  | .subw src _ => srcBytes src
  | .subd src _ => srcLBytes src
  | .subcb src _ => srcBytes src
  | .subcw src _ => srcBytes src
  | .mulb src _ => srcBytes src
  | .mulw src _ => srcBytes src
  | .mulsb _ _ => 2
  | .mulsw _ _ => 2
  | .muluw _ _ => 2
  | .macqw _ _ _ => 4
  | .macuw _ _ _ => 4
  | .macsw _ _ _ => 4
  | .cmpb src1 _ => srcBytes src1
  | .cmpw src1 _ => srcBytes src1
  | .cmpd src1 _ => srcCBytes src1
  | .andb src _ => srcBytes src
  | .andw src _ => srcBytes src
  | .andd src _ => srcLBytes src
  | .orb src _ => srcBytes src
  | .orw src _ => srcBytes src
  | .ord src _ => srcLBytes src
  | .xorb src _ => srcBytes src
  | .xorw src _ => srcBytes src
  | .xord src _ => srcLBytes src
  | .scond _ _ => 2
  | .seq _ => 2
  | .sne _ => 2
  | .scs _ => 2
  | .scc _ => 2
  | .shi _ => 2
  | .sls _ => 2
  | .sgt _ => 2
  | .sle _ => 2
  | .sfs _ => 2
  | .sfc _ => 2
  | .slo _ => 2
  | .shs _ => 2
  | .slt _ => 2
  | .sge _ => 2
  | .ashub _ _ => 2
  | .ashuw _ _ => 2
  | .ashud _ _ => 2
  | .lshb _ _ => 2
  | .lshw _ _ => 2
  | .lshd _ _ => 2
  | .cbitb _ dest => bitAddrBytes dest
  | .cbitw _ dest => bitAddrBytes dest
  | .sbitb _ dest => bitAddrBytes dest
  | .sbitw _ dest => bitAddrBytes dest
  | .tbitb _ src => bitAddrBytes src
  | .tbitw _ src => bitAddrBytes src
  | .tbit _ _ _ => 2
  | .lpr _ _ => 4
  | .lprd _ _ => 4
  | .spr _ _ => 4
  | .sprd _ _ => 4
  | .bcond _ dest => branchBytes dest
  | .beq dest => branchBytes dest
  | .bne dest => branchBytes dest
  | .bcs dest => branchBytes dest
  | .bcc dest => branchBytes dest
  | .bhi dest => branchBytes dest
  | .bls dest => branchBytes dest
  | .bgt dest => branchBytes dest
  | .ble dest => branchBytes dest
  | .bfs dest => branchBytes dest
  | .bfc dest => branchBytes dest
  | .blo dest => branchBytes dest
  | .bhs dest => branchBytes dest
  | .blt dest => branchBytes dest
  | .bge dest => branchBytes dest
  | .br dest => branchBytes dest
  | .bal link _ => balBytes link
  | .beq0b _ _ => 2
  | .beq0w _ _ => 2
  | .bne0b _ _ => 2
  | .bne0w _ _ => 2
  | .jcond _ _ => 2
  | .jeq _ => 2
  | .jne _ => 2
  | .jcs _ => 2
  | .jcc _ => 2
  | .jhi _ => 2
  | .jls _ => 2
  | .jgt _ => 2
  | .jle _ => 2
  | .jfs _ => 2
  | .jfc _ => 2
  | .jlo _ => 2
  | .jhs _ => 2
  | .jlt _ => 2
  | .jge _ => 2
  | .jump _ => 2
  | .jusr _ => 2
  | .jal link _ => jalBytes link
  | .excp _ => 2
  | .retx => 2
  | .push _ _ _ => 2
  | .pop _ _ _ => 2
  | .popret _ _ _ => 2
  | .loadb src _ => memAddrBytes src
  | .loadw src _ => memAddrBytes src
  | .loadd src _ => memAddrBytes src
  | .storb _ dest => memAddrBytes dest
  | .storw _ dest => memAddrBytes dest
  | .stord _ dest => memAddrBytes dest
  | .storbImm _ dest => bitAddrBytes dest
  | .storwImm _ dest => bitAddrBytes dest
  | .loadm _ => 2
  | .loadmp _ => 2
  | .storm _ => 2
  | .stormp _ => 2
  | .cinv _ => 2
  | .di => 2
  | .ei => 2
  | .eiwait => 2
  | .wait => 2
  | .nop => 2
  | .resUnd first _ => if first = 0x0018 ∨ first = 0x0019 then 6 else 2
  | .resNop first _ => if first = 0x0014 then 4 else 6

end Sys2Proof.Machine
end

