-- ==== Sys2Proof/Machine/Arith.lean ====
section
/-! DEFINITION. Integer arithmetic (spec/41_integer_arithmetic.md). -/

namespace Sys2Proof.Machine

/-- ADDB (R220). -/
def execAddb (src : Src) (dest : RegNum) (s : State) : Result :=
  let r := addWith (s.regB dest) (s.srcB src) false
  .next (((s.setRegB dest r.res).setCF r.c r.f).advance (srcBytes src))

/-- ADDW (R221). -/
def execAddw (src : Src) (dest : RegNum) (s : State) : Result :=
  let r := addWith (s.reg dest) (s.srcW src) false
  .next (((s.setReg dest r.res).setCF r.c r.f).advance (srcBytes src))

/-- ADDD (R222). -/
def execAddd (src : SrcD) (dest : PairNum) (s : State) : Result :=
  let r := addWith (s.pair dest) (s.srcD src) false
  .next (((s.setPair dest r.res).setCF r.c r.f).advance (srcDBytes src))

/-- ADDUB, which writes no flag (R223). -/
def execAddub (src : Src) (dest : RegNum) (s : State) : Result :=
  .next ((s.setRegB dest (s.regB dest + s.srcB src)).advance (srcBytes src))

/-- ADDUW, which writes no flag (R224). -/
def execAdduw (src : Src) (dest : RegNum) (s : State) : Result :=
  .next ((s.setReg dest (s.reg dest + s.srcW src)).advance (srcBytes src))

/-- ADDCB (R225). -/
def execAddcb (src : Src) (dest : RegNum) (s : State) : Result :=
  let r := addWith (s.regB dest) (s.srcB src) s.psr.c
  .next (((s.setRegB dest r.res).setCF r.c r.f).advance (srcBytes src))

/-- ADDCW (R226). -/
def execAddcw (src : Src) (dest : RegNum) (s : State) : Result :=
  let r := addWith (s.reg dest) (s.srcW src) s.psr.c
  .next (((s.setReg dest r.res).setCF r.c r.f).advance (srcBytes src))

/-- SUBB (R227). -/
def execSubb (src : Src) (dest : RegNum) (s : State) : Result :=
  let r := subWith (s.regB dest) (s.srcB src) false
  .next (((s.setRegB dest r.res).setCF r.c r.f).advance (srcBytes src))

/-- SUBW (R228). -/
def execSubw (src : Src) (dest : RegNum) (s : State) : Result :=
  let r := subWith (s.reg dest) (s.srcW src) false
  .next (((s.setReg dest r.res).setCF r.c r.f).advance (srcBytes src))

/-- SUBD (R229). -/
def execSubd (src : SrcL) (dest : PairNum) (s : State) : Result :=
  let r := subWith (s.pair dest) (s.srcL src) false
  .next (((s.setPair dest r.res).setCF r.c r.f).advance (srcLBytes src))

/-- SUBCB (R230). -/
def execSubcb (src : Src) (dest : RegNum) (s : State) : Result :=
  let r := subWith (s.regB dest) (s.srcB src) s.psr.c
  .next (((s.setRegB dest r.res).setCF r.c r.f).advance (srcBytes src))

/-- SUBCW (R231). -/
def execSubcw (src : Src) (dest : RegNum) (s : State) : Result :=
  let r := subWith (s.reg dest) (s.srcW src) s.psr.c
  .next (((s.setReg dest r.res).setCF r.c r.f).advance (srcBytes src))

/-- MULB: the low byte of the product (R232). -/
def execMulb (src : Src) (dest : RegNum) (s : State) : Result :=
  .next ((s.setRegB dest (BitVec.ofInt 8 ((s.regB dest).toInt * (s.srcB src).toInt))).advance (srcBytes src))

/-- MULW: the low word of the product (R233). -/
def execMulw (src : Src) (dest : RegNum) (s : State) : Result :=
  .next ((s.setReg dest (BitVec.ofInt 16 ((s.reg dest).toInt * (s.srcW src).toInt))).advance (srcBytes src))

/-- MULSB: signed 8 x 8 to 16 (R234). -/
def execMulsb (src dest : RegNum) (s : State) : Result :=
  .next ((s.setReg dest (BitVec.ofInt 16 ((s.regB src).toInt * (s.regB dest).toInt))).advance 2)

/-- The multiplicand of MULSW and MULUW: the low word of the pair (R235). -/
def State.pairLow (s : State) (p : PairNum) : Word := (s.pair p).extractLsb' 0 16

/-- MULSW: signed 16 x 16 to 32 (R235). -/
def execMulsw (src : RegNum) (dest : PairNum) (s : State) : Result :=
  .next ((s.setPair dest (BitVec.ofInt 32 ((s.reg src).toInt * (s.pairLow dest).toInt))).advance 2)

/-- MULUW: unsigned 16 x 16 to 32 (R236). -/
def execMuluw (src : RegNum) (dest : PairNum) (s : State) : Result :=
  .next ((s.setPair dest (BitVec.ofNat 32 ((s.reg src).toNat * (s.pairLow dest).toNat))).advance 2)

/-- An instruction of the MAC unit: without the unit its encoding is undefined (R217, I20; log entry 38). -/
def State.withMac (s : State) (dest : PairNum) (v : DWord) : Result :=
  if s.config.macPresent then .next ((s.setPair dest v).advance 4) else .next s.enterUnd

/-- MACQW: the Q15 product doubled and saturated, then added with saturation (R237, D33; log entry 30). -/
def execMacqw (src1 src2 : RegNum) (dest : PairNum) (s : State) : Result :=
  let p := satS32 (2 * (s.reg src1).toInt * (s.reg src2).toInt)
  s.withMac dest (BitVec.ofInt 32 (satS32 ((s.pair dest).toInt + p)))

/-- MACUW: the unsigned product added with saturation (R239). -/
def execMacuw (src1 src2 : RegNum) (dest : PairNum) (s : State) : Result :=
  s.withMac dest (BitVec.ofNat 32 (satU32 ((s.pair dest).toNat + (s.reg src1).toNat * (s.reg src2).toNat)))

/-- MACSW: the signed product added with saturation (R238). -/
def execMacsw (src1 src2 : RegNum) (dest : PairNum) (s : State) : Result :=
  s.withMac dest (BitVec.ofInt 32 (satS32 ((s.pair dest).toInt + (s.reg src1).toInt * (s.reg src2).toInt)))

end Sys2Proof.Machine
end

