-- ==== Sys2Proof/Machine/Bits.lean ====
section
/-! DEFINITION. Bit operations (spec/45_bit_operations.md). -/

namespace Sys2Proof.Machine

/-- CBITB (R310). -/
def execCbitb (pos : BitVec 3) (dest : BitAddr) (s : State) : Result :=
  withEa (s.eaBit dest) (fun a => (s.changeBitB a pos.toNat false).advance (bitAddrBytes dest))

/-- CBITW (R311). -/
def execCbitw (pos : BitVec 4) (dest : BitAddr) (s : State) : Result :=
  withEa (s.eaBit dest) (fun a => (s.changeBit a pos false).advance (bitAddrBytes dest))

/-- SBITB (R312). -/
def execSbitb (pos : BitVec 3) (dest : BitAddr) (s : State) : Result :=
  withEa (s.eaBit dest) (fun a => (s.changeBitB a pos.toNat true).advance (bitAddrBytes dest))

/-- SBITW (R313). -/
def execSbitw (pos : BitVec 4) (dest : BitAddr) (s : State) : Result :=
  withEa (s.eaBit dest) (fun a => (s.changeBit a pos true).advance (bitAddrBytes dest))

/-- TBITB (R315). -/
def execTbitb (pos : BitVec 3) (src : BitAddr) (s : State) : Result :=
  withEa (s.eaBit src) (fun a => (s.testBitB a pos.toNat).advance (bitAddrBytes src))

/-- TBITW (R316). -/
def execTbitw (pos : BitVec 4) (src : BitAddr) (s : State) : Result :=
  withEa (s.eaBit src) (fun a => (s.testBit a pos).advance (bitAddrBytes src))

/-- TBIT: an offset above 15 makes F a free value (R314, I2; log entry 1). -/
def execTbit (fromReg : Bool) (offset : BitVec 4) (src : RegNum) (s : State) : Result :=
  let o := if fromReg then (s.reg offset).toNat else offset.toNat
  if o ≤ 15 then .next ((s.setF ((s.reg src).getLsbD o)).advance 2)
  else .next (((s.drew 1).setF ((s.free 1 0).getLsbD 0)).advance 2)

end Sys2Proof.Machine
end

