-- ==== Sys2Proof/Machine/Compare.lean ====
section
/-! DEFINITION. Integer comparison (spec/42_integer_comparison.md). -/

namespace Sys2Proof.Machine

/-- CMPB (R260). -/
def execCmpb (src1 : Src) (src2 : RegNum) (s : State) : Result :=
  .next ({ s with psr := cmpFlags (s.srcB src1) (s.regB src2) s.psr }.advance (srcBytes src1))

/-- CMPW (R261). -/
def execCmpw (src1 : Src) (src2 : RegNum) (s : State) : Result :=
  .next ({ s with psr := cmpFlags (s.srcW src1) (s.reg src2) s.psr }.advance (srcBytes src1))

/-- CMPD (R262). -/
def execCmpd (src1 : SrcC) (src2 : PairNum) (s : State) : Result :=
  .next ({ s with psr := cmpFlags (s.srcC src1) (s.pair src2) s.psr }.advance (srcCBytes src1))

end Sys2Proof.Machine
end

