-- ==== Sys2Proof/Machine/Jumps.lean ====
section
/-! DEFINITION. Jumps and linkage (spec/47_jumps_linkage.md). -/

namespace Sys2Proof.Machine

/-- Bcond with any condition; 15 is always true and leaves U (R350, D15; log entry 29). -/
def execBcond (c : Cond) (dest : BranchDisp) (s : State) : Result := .next (s.branchIf (condTrue c s.psr) dest)

/-- BEQ (R350). -/
def execBeq (dest : BranchDisp) (s : State) : Result := .next (s.branchIf (condTrue .eq s.psr) dest)

/-- BNE (R350). -/
def execBne (dest : BranchDisp) (s : State) : Result := .next (s.branchIf (condTrue .ne s.psr) dest)

/-- BCS (R350). -/
def execBcs (dest : BranchDisp) (s : State) : Result := .next (s.branchIf (condTrue .cs s.psr) dest)

/-- BCC (R350). -/
def execBcc (dest : BranchDisp) (s : State) : Result := .next (s.branchIf (condTrue .cc s.psr) dest)

/-- BHI (R350). -/
def execBhi (dest : BranchDisp) (s : State) : Result := .next (s.branchIf (condTrue .hi s.psr) dest)

/-- BLS (R350). -/
def execBls (dest : BranchDisp) (s : State) : Result := .next (s.branchIf (condTrue .ls s.psr) dest)

/-- BGT (R350). -/
def execBgt (dest : BranchDisp) (s : State) : Result := .next (s.branchIf (condTrue .gt s.psr) dest)

/-- BLE (R350). -/
def execBle (dest : BranchDisp) (s : State) : Result := .next (s.branchIf (condTrue .le s.psr) dest)

/-- BFS (R350). -/
def execBfs (dest : BranchDisp) (s : State) : Result := .next (s.branchIf (condTrue .fs s.psr) dest)

/-- BFC (R350). -/
def execBfc (dest : BranchDisp) (s : State) : Result := .next (s.branchIf (condTrue .fc s.psr) dest)

/-- BLO (R350). -/
def execBlo (dest : BranchDisp) (s : State) : Result := .next (s.branchIf (condTrue .lo s.psr) dest)

/-- BHS (R350). -/
def execBhs (dest : BranchDisp) (s : State) : Result := .next (s.branchIf (condTrue .hs s.psr) dest)

/-- BLT (R350). -/
def execBlt (dest : BranchDisp) (s : State) : Result := .next (s.branchIf (condTrue .lt s.psr) dest)

/-- BGE (R350). -/
def execBge (dest : BranchDisp) (s : State) : Result := .next (s.branchIf (condTrue .ge s.psr) dest)

/-- BR (R351). -/
def execBr (dest : BranchDisp) (s : State) : Result := .next (s.branchIf true dest)

/-- BAL: the link is written even if the target is illegal (R352). -/
def execBal (link : Link) (disp : BitVec 24) (s : State) : Result :=
  .next ((s.setPair (s.linkPair link) (s.linkAfter (balBytes link))).setPc ((s.pc.toNat : Int) + 2 * disp.toInt))

/-- BEQ0B (R353). -/
def execBeq0b (src : RegNum) (disp : BitVec 4) (s : State) : Result := .next (s.forwardIf (s.regB src == 0) disp)

/-- BEQ0W (R354). -/
def execBeq0w (src : RegNum) (disp : BitVec 4) (s : State) : Result := .next (s.forwardIf (s.reg src == 0) disp)

/-- BNE0B (R355). -/
def execBne0b (src : RegNum) (disp : BitVec 4) (s : State) : Result := .next (s.forwardIf (s.regB src != 0) disp)

/-- BNE0W (R356). -/
def execBne0w (src : RegNum) (disp : BitVec 4) (s : State) : Result := .next (s.forwardIf (s.reg src != 0) disp)

/-- JUSR: the jump, then U is set (R359). -/
def State.jumpUser (s : State) (p : PairNum) : State :=
  { s with pc := jumpTarget (s.pair p), psr := { s.psr with u := true } }

/-- Jcond with any condition; 15 is JUSR (R357). -/
def execJcond (c : Cond) (dest : PairNum) (s : State) : Result :=
  match c with
  | .uc => .next (s.jumpUser dest)
  | c => .next (s.jumpIf (condTrue c s.psr) dest)

/-- JEQ (R357). -/
def execJeq (dest : PairNum) (s : State) : Result := .next (s.jumpIf (condTrue .eq s.psr) dest)

/-- JNE (R357). -/
def execJne (dest : PairNum) (s : State) : Result := .next (s.jumpIf (condTrue .ne s.psr) dest)

/-- JCS (R357). -/
def execJcs (dest : PairNum) (s : State) : Result := .next (s.jumpIf (condTrue .cs s.psr) dest)

/-- JCC (R357). -/
def execJcc (dest : PairNum) (s : State) : Result := .next (s.jumpIf (condTrue .cc s.psr) dest)

/-- JHI (R357). -/
def execJhi (dest : PairNum) (s : State) : Result := .next (s.jumpIf (condTrue .hi s.psr) dest)

/-- JLS (R357). -/
def execJls (dest : PairNum) (s : State) : Result := .next (s.jumpIf (condTrue .ls s.psr) dest)

/-- JGT (R357). -/
def execJgt (dest : PairNum) (s : State) : Result := .next (s.jumpIf (condTrue .gt s.psr) dest)

/-- JLE (R357). -/
def execJle (dest : PairNum) (s : State) : Result := .next (s.jumpIf (condTrue .le s.psr) dest)

/-- JFS (R357). -/
def execJfs (dest : PairNum) (s : State) : Result := .next (s.jumpIf (condTrue .fs s.psr) dest)

/-- JFC (R357). -/
def execJfc (dest : PairNum) (s : State) : Result := .next (s.jumpIf (condTrue .fc s.psr) dest)

/-- JLO (R357). -/
def execJlo (dest : PairNum) (s : State) : Result := .next (s.jumpIf (condTrue .lo s.psr) dest)

/-- JHS (R357). -/
def execJhs (dest : PairNum) (s : State) : Result := .next (s.jumpIf (condTrue .hs s.psr) dest)

/-- JLT (R357). -/
def execJlt (dest : PairNum) (s : State) : Result := .next (s.jumpIf (condTrue .lt s.psr) dest)

/-- JGE (R357). -/
def execJge (dest : PairNum) (s : State) : Result := .next (s.jumpIf (condTrue .ge s.psr) dest)

/-- JUMP (R358). -/
def execJump (dest : PairNum) (s : State) : Result := .next (s.jumpIf true dest)

/-- JUSR (R359). -/
def execJusr (dest : PairNum) (s : State) : Result := .next (s.jumpUser dest)

/-- JAL: the target is read before the link is written (R360). -/
def execJal (link : Link) (dest : PairNum) (s : State) : Result :=
  .next { s.setPair (s.linkPair link) (s.linkAfter (jalBytes link)) with pc := jumpTarget (s.pair dest) }

/-- EXCP: the trap its vector names, UND for any other (R361, I18). With the hardware debug module BPT
enters hardware debug mode instead, which the spec leaves out (R574, R576; log entry 25). -/
def execExcp (vector : BitVec 4) (s : State) : Result :=
  match vector.toNat with
  | 5 => .next (s.enter .svc s.pc)
  | 6 => .next (s.enter .dvz s.pc)
  | 7 => .next (s.enter .flg s.pc)
  | 8 => if s.config.hwDebugModule then .refused .hardwareDebugMode else .next (s.enter .bpt s.pc)
  | _ => .next s.enterUnd

/-- RETX, in either mode (R362, D25; log entry 33). -/
def execRetx (s : State) : Result := .next s.returnFrom

/-- PUSH (R363); a stack pointer that points outside the space makes IAD pending even where every word stored lies
inside (R92; log entry 50); invalid parameters are refused (R348, I7; log entry 28). -/
def execPush (ra : Bool) (count : BitVec 3) (src : RegNum) (s : State) : Result :=
  if stackValid s.cfg.sr count src then
    let words := (stackSlots s.cfg.sr ra count src).map s.slot
    let base : Int := ((s.pair 15).toNat : Int) - 2 * words.length
    .next ((((s.checkAddress (s.pair 15).toNat).storeWords base words).setPair 15 (BitVec.ofInt 32 base)).advance 2)
  else .refused .invalidStackList

/-- The pops of POP and POPRET (R364). The first word read is the one the stack pointer points to, so a pointer
outside the space makes IAD pending (R92). -/
def State.popSlots (s : State) (ra : Bool) (count : BitVec 3) (n : RegNum) : State :=
  let slots := stackSlots s.cfg.sr ra count n
  let base : Int := (s.pair 15).toNat
  (s.loadSlots base slots).setPair 15 (BitVec.ofInt 32 (base + 2 * slots.length))

/-- POP (R364); invalid parameters are refused (R348, I7; log entry 28). -/
def execPop (ra : Bool) (count : BitVec 3) (dest : RegNum) (s : State) : Result :=
  if stackValid s.cfg.sr count dest then .next ((s.popSlots ra count dest).advance 2)
  else .refused .invalidStackList

/-- POPRET: the jump uses the RA operand as it is after the pops (R365). -/
def execPopret (ra : Bool) (count : BitVec 3) (dest : RegNum) (s : State) : Result :=
  if stackValid s.cfg.sr count dest then
    let s' := s.popSlots ra count dest
    .next { s' with pc := jumpTarget (s'.pair s'.raPair) }
  else .refused .invalidStackList

end Sys2Proof.Machine
end

