-- ==== Sys2Proof/Machine/LoadStore.lean ====
section
/-! DEFINITION. Loads and stores (spec/48_load_store.md). -/

namespace Sys2Proof.Machine

/-- LOADB: bits 7:0 of the destination alone (R400). -/
def execLoadb (src : MemAddr) (dest : RegNum) (s : State) : Result :=
  withEa (s.ea 1 src) (fun a => ((s.noteRead a 1).setRegB dest (s.loadB a)).advance (memAddrBytes src))

/-- LOADW (R401). -/
def execLoadw (src : MemAddr) (dest : RegNum) (s : State) : Result :=
  withEa (s.ea 2 src) (fun a => ((s.noteRead a 2).setReg dest (s.loadW a)).advance (memAddrBytes src))

/-- LOADD (R402). -/
def execLoadd (src : MemAddr) (dest : PairNum) (s : State) : Result :=
  withEa (s.ea 2 src) (fun a => ((s.noteRead a 4).setPair dest (s.loadD a)).advance (memAddrBytes src))

/-- STORB of a register (R403). -/
def execStorb (src : RegNum) (dest : MemAddr) (s : State) : Result :=
  withEa (s.ea 1 dest) (fun a => (s.storeB a (s.regB src)).advance (memAddrBytes dest))

/-- STORW of a register (R404). -/
def execStorw (src : RegNum) (dest : MemAddr) (s : State) : Result :=
  withEa (s.ea 2 dest) (fun a => (s.storeW a (s.reg src)).advance (memAddrBytes dest))

/-- STORD (R405). -/
def execStord (src : PairNum) (dest : MemAddr) (s : State) : Result :=
  withEa (s.ea 2 dest) (fun a => (s.storeD a (s.pair src)).advance (memAddrBytes dest))

/-- STORB of an immediate (R406). -/
def execStorbImm (imm : BitVec 4) (dest : BitAddr) (s : State) : Result :=
  withEa (s.eaBit dest) (fun a => (s.storeB a (imm.setWidth 8)).advance (bitAddrBytes dest))

/-- STORW of an immediate (R407). -/
def execStorwImm (imm : BitVec 4) (dest : BitAddr) (s : State) : Result :=
  withEa (s.eaBit dest) (fun a => (s.storeW a (imm.setWidth 16)).advance (bitAddrBytes dest))

/-- The bytes a transfer of `field + 1` words moves (R141, R398). -/
def transferBytes (count : BitVec 3) : Nat := 2 * (count.toNat + 1)

/-- LOADM: the pointer R0 keeps its low 16 bits (R398, R408, D34; log entry 31). -/
def execLoadm (count : BitVec 3) (s : State) : Result :=
  .next (((s.loadSlots (s.reg 0).toNat (mSlots count)).setReg 0
    (s.reg 0 + BitVec.ofNat 16 (transferBytes count))).advance 2)

/-- LOADMP (R398, R409). -/
def execLoadmp (count : BitVec 3) (s : State) : Result :=
  .next (((s.loadSlots (s.pair 0).toNat (mSlots count)).setPair 0
    (s.pair 0 + BitVec.ofNat 32 (transferBytes count))).advance 2)

/-- STORM: the pointer R1 keeps its low 16 bits (R398, R410, D34; log entry 31). -/
def execStorm (count : BitVec 3) (s : State) : Result :=
  .next (((s.storeWords (s.reg 1).toNat ((mSlots count).map s.slot)).setReg 1
    (s.reg 1 + BitVec.ofNat 16 (transferBytes count))).advance 2)

/-- STORMP (R398, R411). -/
def execStormp (count : BitVec 3) (s : State) : Result :=
  .next (((s.storeWords (s.pair 6).toNat ((mSlots count).map s.slot)).setPair 6
    (s.pair 6 + BitVec.ofNat 32 (transferBytes count))).advance 2)

end Sys2Proof.Machine
end

