-- ==== Sys2Proof/Machine/Logic.lean ====
section
/-! DEFINITION. Logic and Scond (spec/43_logical_boolean.md). -/

namespace Sys2Proof.Machine

/-- ANDB (R270). -/
def execAndb (src : Src) (dest : RegNum) (s : State) : Result :=
  .next ((s.setRegB dest (s.regB dest &&& s.srcB src)).advance (srcBytes src))

/-- ANDW (R271). -/
def execAndw (src : Src) (dest : RegNum) (s : State) : Result :=
  .next ((s.setReg dest (s.reg dest &&& s.srcW src)).advance (srcBytes src))

/-- ANDD (R272). -/
def execAndd (src : SrcL) (dest : PairNum) (s : State) : Result :=
  .next ((s.setPair dest (s.pair dest &&& s.srcL src)).advance (srcLBytes src))

/-- ORB (R273). -/
def execOrb (src : Src) (dest : RegNum) (s : State) : Result :=
  .next ((s.setRegB dest (s.regB dest ||| s.srcB src)).advance (srcBytes src))

/-- ORW (R274). -/
def execOrw (src : Src) (dest : RegNum) (s : State) : Result :=
  .next ((s.setReg dest (s.reg dest ||| s.srcW src)).advance (srcBytes src))

/-- ORD (R275). -/
def execOrd (src : SrcL) (dest : PairNum) (s : State) : Result :=
  .next ((s.setPair dest (s.pair dest ||| s.srcL src)).advance (srcLBytes src))

/-- XORB (R276). -/
def execXorb (src : Src) (dest : RegNum) (s : State) : Result :=
  .next ((s.setRegB dest (s.regB dest ^^^ s.srcB src)).advance (srcBytes src))

/-- XORW (R277). -/
def execXorw (src : Src) (dest : RegNum) (s : State) : Result :=
  .next ((s.setReg dest (s.reg dest ^^^ s.srcW src)).advance (srcBytes src))

/-- XORD (R278). -/
def execXord (src : SrcL) (dest : PairNum) (s : State) : Result :=
  .next ((s.setPair dest (s.pair dest ^^^ s.srcL src)).advance (srcLBytes src))

/-- Scond with any condition; 14 and 15 are always true (R279, D15; log entry 29). -/
def execScond (c : Cond) (dest : RegNum) (s : State) : Result := .next (s.setIf (condTrue c s.psr) dest)

/-- SEQ (R279). -/
def execSeq (dest : RegNum) (s : State) : Result := .next (s.setIf (condTrue .eq s.psr) dest)

/-- SNE (R279). -/
def execSne (dest : RegNum) (s : State) : Result := .next (s.setIf (condTrue .ne s.psr) dest)

/-- SCS (R279). -/
def execScs (dest : RegNum) (s : State) : Result := .next (s.setIf (condTrue .cs s.psr) dest)

/-- SCC (R279). -/
def execScc (dest : RegNum) (s : State) : Result := .next (s.setIf (condTrue .cc s.psr) dest)

/-- SHI (R279). -/
def execShi (dest : RegNum) (s : State) : Result := .next (s.setIf (condTrue .hi s.psr) dest)

/-- SLS (R279). -/
def execSls (dest : RegNum) (s : State) : Result := .next (s.setIf (condTrue .ls s.psr) dest)

/-- SGT (R279). -/
def execSgt (dest : RegNum) (s : State) : Result := .next (s.setIf (condTrue .gt s.psr) dest)

/-- SLE (R279). -/
def execSle (dest : RegNum) (s : State) : Result := .next (s.setIf (condTrue .le s.psr) dest)

/-- SFS (R279). -/
def execSfs (dest : RegNum) (s : State) : Result := .next (s.setIf (condTrue .fs s.psr) dest)

/-- SFC (R279). -/
def execSfc (dest : RegNum) (s : State) : Result := .next (s.setIf (condTrue .fc s.psr) dest)

/-- SLO (R279). -/
def execSlo (dest : RegNum) (s : State) : Result := .next (s.setIf (condTrue .lo s.psr) dest)

/-- SHS (R279). -/
def execShs (dest : RegNum) (s : State) : Result := .next (s.setIf (condTrue .hs s.psr) dest)

/-- SLT (R279). -/
def execSlt (dest : RegNum) (s : State) : Result := .next (s.setIf (condTrue .lt s.psr) dest)

/-- SGE (R279). -/
def execSge (dest : RegNum) (s : State) : Result := .next (s.setIf (condTrue .ge s.psr) dest)

end Sys2Proof.Machine
end

