-- ==== Sys2Proof/Machine/Misc.lean ====
section
/-! DEFINITION. Miscellaneous instructions and reserved encodings (spec/49_miscellaneous.md). -/

namespace Sys2Proof.Machine

/-- Whether the option invalidates every line of the instruction cache that is not locked, and whether locked
lines too (R450). -/
def dropsIcache : CacheOpts → Bool × Bool
  | .i => (true, true)
  | .iu => (true, false)
  | .d => (false, false)
  | .du => (false, false)
  | .di => (true, true)
  | .diu => (true, false)

/-- CINV (R450). With U the contents that only unlocked lines can hold are dropped (log entry 18). The data cache is
write-through and holds nothing the model has (R111). -/
def execCinv (opts : CacheOpts) (s : State) : Result :=
  let (unlocked, locked) := dropsIcache opts
  let s' := if locked then s.dropIcache else s.dropUnlocked
  .next ((if s.config.icachePresent && unlocked then s' else s).advance 2)

/-- PSR.E written by EI, DI, EIWAIT: the old value may still count at the next boundary (R624). -/
def State.setE (s : State) (e : Bool) : State := { s with psr := { s.psr with e := e }, eLag := some s.psr.e }

/-- DI (R451). -/
def execDi (s : State) : Result := .next ((s.setE false).advance 2)

/-- EI (R452). -/
def execEi (s : State) : Result := .next ((s.setE true).advance 2)

/-- EIWAIT (R453). -/
def execEiwait (s : State) : Result := .next { (s.setE true).advance 2 with waiting := true }

/-- WAIT (R454). -/
def execWait (s : State) : Result := .next { s.advance 2 with waiting := true }

/-- NOP, which is ADDUB $0, r0: R0 gets the value it has (R455). -/
def execNop (s : State) : Result := .next ((s.setRegB 0 (s.regB 0 + 0)).advance 2)

/-- A reserved encoding that raises UND; which one it is makes no difference (R456, I17). -/
def execResUnd (_first : Word) (_ope : BitVec 4) (s : State) : Result := .next s.enterUnd

/-- A reserved encoding that does nothing: 4 bytes under the escape 0x0014, else 6 (R457, D21; log entry 32). -/
def execResNop (first : Word) (_ope : BitVec 4) (s : State) : Result :=
  .next (s.advance (if first = 0x0014 then 4 else 6))

end Sys2Proof.Machine
end

