-- ==== Sys2Proof/Machine/Moves.lean ====
section
/-! DEFINITION. The moves (spec/40_moves.md). -/

namespace Sys2Proof.Machine

/-- MOVB (R200). -/
def execMovb (src : Src) (dest : RegNum) (s : State) : Result :=
  .next ((s.setRegB dest (s.srcB src)).advance (srcBytes src))

/-- MOVW (R201). -/
def execMovw (src : Src) (dest : RegNum) (s : State) : Result :=
  .next ((s.setReg dest (s.srcW src)).advance (srcBytes src))

/-- MOVD (R202). -/
def execMovd (src : SrcD) (dest : PairNum) (s : State) : Result :=
  .next ((s.setPair dest (s.srcD src)).advance (srcDBytes src))

/-- MOVXB (R203). -/
def execMovxb (src dest : RegNum) (s : State) : Result :=
  .next ((s.setReg dest ((s.regB src).signExtend 16)).advance 2)

/-- MOVXW (R204). -/
def execMovxw (src : RegNum) (dest : PairNum) (s : State) : Result :=
  .next ((s.setPair dest ((s.reg src).signExtend 32)).advance 2)

/-- MOVZB (R205). -/
def execMovzb (src dest : RegNum) (s : State) : Result :=
  .next ((s.setReg dest ((s.regB src).setWidth 16)).advance 2)

/-- MOVZW (R206). -/
def execMovzw (src : RegNum) (dest : PairNum) (s : State) : Result :=
  .next ((s.setPair dest ((s.reg src).setWidth 32)).advance 2)

end Sys2Proof.Machine
end

