-- ==== Sys2Proof/Machine/ProcRegs.lean ====
section
/-! DEFINITION. Processor registers (spec/46_processor_register.md). -/

namespace Sys2Proof.Machine

/-- LPR: UND in user mode (R328, R330); serializing (R329). -/
def execLpr (src : RegNum) (dest : ProcRegNum) (s : State) : Result :=
  if s.psr.u then .next s.enterUnd else .next ((s.prWrite16 dest (s.reg src)).serialize.advance 4)

/-- LPRD: UND in user mode (R328, R331); serializing (R329). -/
def execLprd (src : PairNum) (dest : ProcRegNum) (s : State) : Result :=
  if s.psr.u then .next s.enterUnd else .next ((s.prWrite32 dest (s.pair src)).serialize.advance 4)

/-- SPR, in either mode (R332, D25; log entry 33). -/
def execSpr (src : ProcRegNum) (dest : RegNum) (s : State) : Result :=
  .next (((s.setReg dest (s.prRead16 src)).drew 1).advance 4)

/-- SPRD, in either mode (R333, D25; log entry 33). -/
def execSprd (src : ProcRegNum) (dest : PairNum) (s : State) : Result :=
  .next (((s.setPair dest (s.prRead32 src)).drew 1).advance 4)

end Sys2Proof.Machine
end

