-- ==== Sys2Proof/Machine/Shifts.lean ====
section
/-! DEFINITION. Shifts (spec/44_shifts.md). -/

namespace Sys2Proof.Machine

/-- ASHUB (R290). -/
def execAshub (count : Count 3) (dest : RegNum) (s : State) : Result :=
  let c := s.count count
  .next (((s.setRegB dest (s.shifted true (s.regB dest) c)).drewShift 8 c).advance 2)

/-- ASHUW (R291). -/
def execAshuw (count : Count 4) (dest : RegNum) (s : State) : Result :=
  let c := s.count count
  .next (((s.setReg dest (s.shifted true (s.reg dest) c)).drewShift 16 c).advance 2)

/-- ASHUD (R292). -/
def execAshud (count : Count 5) (dest : PairNum) (s : State) : Result :=
  let c := s.count count
  .next (((s.setPair dest (s.shifted true (s.pair dest) c)).drewShift 32 c).advance 2)

/-- LSHB (R293). -/
def execLshb (count : RightCount 3) (dest : RegNum) (s : State) : Result :=
  let c := s.rightCount count
  .next (((s.setRegB dest (s.shifted false (s.regB dest) c)).drewShift 8 c).advance 2)

/-- LSHW (R294). -/
def execLshw (count : RightCount 4) (dest : RegNum) (s : State) : Result :=
  let c := s.rightCount count
  .next (((s.setReg dest (s.shifted false (s.reg dest) c)).drewShift 16 c).advance 2)

/-- LSHD (R295). -/
def execLshd (count : RightCount 5) (dest : PairNum) (s : State) : Result :=
  let c := s.rightCount count
  .next (((s.setPair dest (s.shifted false (s.pair dest) c)).drewShift 32 c).advance 2)

end Sys2Proof.Machine
end

