-- ==== Sys2Proof/Machine/Dispatch.lean ====
section
/-! DEFINITION. One arm for each instruction: a direct call of its meaning. -/

namespace Sys2Proof.Machine

/-- The meaning of every instruction. -/
def exec (i : Instr) (s : State) : Host.Outcome State Fault Refusal :=
  match i with
  | .movb src dest => Sys2Proof.Machine.execMovb src dest s
  | .movw src dest => Sys2Proof.Machine.execMovw src dest s
  | .movd src dest => Sys2Proof.Machine.execMovd src dest s
  | .movxb src dest => Sys2Proof.Machine.execMovxb src dest s
  | .movxw src dest => Sys2Proof.Machine.execMovxw src dest s
  | .movzb src dest => Sys2Proof.Machine.execMovzb src dest s
  | .movzw src dest => Sys2Proof.Machine.execMovzw src dest s
  | .addb src dest => Sys2Proof.Machine.execAddb src dest s
  | .addw src dest => Sys2Proof.Machine.execAddw src dest s
  | .addd src dest => Sys2Proof.Machine.execAddd src dest s
  | .addub src dest => Sys2Proof.Machine.execAddub src dest s
  | .adduw src dest => Sys2Proof.Machine.execAdduw src dest s
  | .addcb src dest => Sys2Proof.Machine.execAddcb src dest s
  | .addcw src dest => Sys2Proof.Machine.execAddcw src dest s
  | .subb src dest => Sys2Proof.Machine.execSubb src dest s
  | .subw src dest => Sys2Proof.Machine.execSubw src dest s
  | .subd src dest => Sys2Proof.Machine.execSubd src dest s
  | .subcb src dest => Sys2Proof.Machine.execSubcb src dest s
  | .subcw src dest => Sys2Proof.Machine.execSubcw src dest s
  | .mulb src dest => Sys2Proof.Machine.execMulb src dest s
  | .mulw src dest => Sys2Proof.Machine.execMulw src dest s
  | .mulsb src dest => Sys2Proof.Machine.execMulsb src dest s
  | .mulsw src dest => Sys2Proof.Machine.execMulsw src dest s
  | .muluw src dest => Sys2Proof.Machine.execMuluw src dest s
  | .macqw src1 src2 dest => Sys2Proof.Machine.execMacqw src1 src2 dest s
  | .macuw src1 src2 dest => Sys2Proof.Machine.execMacuw src1 src2 dest s
  | .macsw src1 src2 dest => Sys2Proof.Machine.execMacsw src1 src2 dest s
  | .cmpb src1 src2 => Sys2Proof.Machine.execCmpb src1 src2 s
  | .cmpw src1 src2 => Sys2Proof.Machine.execCmpw src1 src2 s
  | .cmpd src1 src2 => Sys2Proof.Machine.execCmpd src1 src2 s
  | .andb src dest => Sys2Proof.Machine.execAndb src dest s
  | .andw src dest => Sys2Proof.Machine.execAndw src dest s
  | .andd src dest => Sys2Proof.Machine.execAndd src dest s
  | .orb src dest => Sys2Proof.Machine.execOrb src dest s
  | .orw src dest => Sys2Proof.Machine.execOrw src dest s
  | .ord src dest => Sys2Proof.Machine.execOrd src dest s
  | .xorb src dest => Sys2Proof.Machine.execXorb src dest s
  | .xorw src dest => Sys2Proof.Machine.execXorw src dest s
  | .xord src dest => Sys2Proof.Machine.execXord src dest s
  | .scond c dest => Sys2Proof.Machine.execScond c dest s
  | .seq dest => Sys2Proof.Machine.execSeq dest s
  | .sne dest => Sys2Proof.Machine.execSne dest s
  | .scs dest => Sys2Proof.Machine.execScs dest s
  | .scc dest => Sys2Proof.Machine.execScc dest s
  | .shi dest => Sys2Proof.Machine.execShi dest s
  | .sls dest => Sys2Proof.Machine.execSls dest s
  | .sgt dest => Sys2Proof.Machine.execSgt dest s
  | .sle dest => Sys2Proof.Machine.execSle dest s
  | .sfs dest => Sys2Proof.Machine.execSfs dest s
  | .sfc dest => Sys2Proof.Machine.execSfc dest s
  | .slo dest => Sys2Proof.Machine.execSlo dest s
  | .shs dest => Sys2Proof.Machine.execShs dest s
  | .slt dest => Sys2Proof.Machine.execSlt dest s
  | .sge dest => Sys2Proof.Machine.execSge dest s
  | .ashub count dest => Sys2Proof.Machine.execAshub count dest s
  | .ashuw count dest => Sys2Proof.Machine.execAshuw count dest s
  | .ashud count dest => Sys2Proof.Machine.execAshud count dest s
  | .lshb count dest => Sys2Proof.Machine.execLshb count dest s
  | .lshw count dest => Sys2Proof.Machine.execLshw count dest s
  | .lshd count dest => Sys2Proof.Machine.execLshd count dest s
  | .cbitb pos dest => Sys2Proof.Machine.execCbitb pos dest s
  | .cbitw pos dest => Sys2Proof.Machine.execCbitw pos dest s
  | .sbitb pos dest => Sys2Proof.Machine.execSbitb pos dest s
  | .sbitw pos dest => Sys2Proof.Machine.execSbitw pos dest s
  | .tbitb pos src => Sys2Proof.Machine.execTbitb pos src s
  | .tbitw pos src => Sys2Proof.Machine.execTbitw pos src s
  | .tbit fromReg offset src => Sys2Proof.Machine.execTbit fromReg offset src s
  | .lpr src dest => Sys2Proof.Machine.execLpr src dest s
  | .lprd src dest => Sys2Proof.Machine.execLprd src dest s
  | .spr src dest => Sys2Proof.Machine.execSpr src dest s
  | .sprd src dest => Sys2Proof.Machine.execSprd src dest s
  | .bcond c dest => Sys2Proof.Machine.execBcond c dest s
  | .beq dest => Sys2Proof.Machine.execBeq dest s
  | .bne dest => Sys2Proof.Machine.execBne dest s
  | .bcs dest => Sys2Proof.Machine.execBcs dest s
  | .bcc dest => Sys2Proof.Machine.execBcc dest s
  | .bhi dest => Sys2Proof.Machine.execBhi dest s
  | .bls dest => Sys2Proof.Machine.execBls dest s
  | .bgt dest => Sys2Proof.Machine.execBgt dest s
  | .ble dest => Sys2Proof.Machine.execBle dest s
  | .bfs dest => Sys2Proof.Machine.execBfs dest s
  | .bfc dest => Sys2Proof.Machine.execBfc dest s
  | .blo dest => Sys2Proof.Machine.execBlo dest s
  | .bhs dest => Sys2Proof.Machine.execBhs dest s
  | .blt dest => Sys2Proof.Machine.execBlt dest s
  | .bge dest => Sys2Proof.Machine.execBge dest s
  | .br dest => Sys2Proof.Machine.execBr dest s
  | .bal link disp => Sys2Proof.Machine.execBal link disp s
  | .beq0b src disp => Sys2Proof.Machine.execBeq0b src disp s
  | .beq0w src disp => Sys2Proof.Machine.execBeq0w src disp s
  | .bne0b src disp => Sys2Proof.Machine.execBne0b src disp s
  | .bne0w src disp => Sys2Proof.Machine.execBne0w src disp s
  | .jcond c dest => Sys2Proof.Machine.execJcond c dest s
  | .jeq dest => Sys2Proof.Machine.execJeq dest s
  | .jne dest => Sys2Proof.Machine.execJne dest s
  | .jcs dest => Sys2Proof.Machine.execJcs dest s
  | .jcc dest => Sys2Proof.Machine.execJcc dest s
  | .jhi dest => Sys2Proof.Machine.execJhi dest s
  | .jls dest => Sys2Proof.Machine.execJls dest s
  | .jgt dest => Sys2Proof.Machine.execJgt dest s
  | .jle dest => Sys2Proof.Machine.execJle dest s
  | .jfs dest => Sys2Proof.Machine.execJfs dest s
  | .jfc dest => Sys2Proof.Machine.execJfc dest s
  | .jlo dest => Sys2Proof.Machine.execJlo dest s
  | .jhs dest => Sys2Proof.Machine.execJhs dest s
  | .jlt dest => Sys2Proof.Machine.execJlt dest s
  | .jge dest => Sys2Proof.Machine.execJge dest s
  | .jump dest => Sys2Proof.Machine.execJump dest s
  | .jusr dest => Sys2Proof.Machine.execJusr dest s
  | .jal link dest => Sys2Proof.Machine.execJal link dest s
  | .excp vector => Sys2Proof.Machine.execExcp vector s
  | .retx => Sys2Proof.Machine.execRetx s
  | .push ra count src => Sys2Proof.Machine.execPush ra count src s
  | .pop ra count dest => Sys2Proof.Machine.execPop ra count dest s
  | .popret ra count dest => Sys2Proof.Machine.execPopret ra count dest s
  | .loadb src dest => Sys2Proof.Machine.execLoadb src dest s
  | .loadw src dest => Sys2Proof.Machine.execLoadw src dest s
  | .loadd src dest => Sys2Proof.Machine.execLoadd src dest s
  | .storb src dest => Sys2Proof.Machine.execStorb src dest s
  | .storw src dest => Sys2Proof.Machine.execStorw src dest s
  | .stord src dest => Sys2Proof.Machine.execStord src dest s
  | .storbImm imm dest => Sys2Proof.Machine.execStorbImm imm dest s
  | .storwImm imm dest => Sys2Proof.Machine.execStorwImm imm dest s
  | .loadm count => Sys2Proof.Machine.execLoadm count s
  | .loadmp count => Sys2Proof.Machine.execLoadmp count s
  | .storm count => Sys2Proof.Machine.execStorm count s
  | .stormp count => Sys2Proof.Machine.execStormp count s
  | .cinv opts => Sys2Proof.Machine.execCinv opts s
  | .di => Sys2Proof.Machine.execDi s
  | .ei => Sys2Proof.Machine.execEi s
  | .eiwait => Sys2Proof.Machine.execEiwait s
  | .wait => Sys2Proof.Machine.execWait s
  | .nop => Sys2Proof.Machine.execNop s
  | .resUnd first ope => Sys2Proof.Machine.execResUnd first ope s
  | .resNop first ope => Sys2Proof.Machine.execResNop first ope s

end Sys2Proof.Machine
end

