-- ==== Sys2Proof/Machine/Boundary.lean ====
section
/-! DEFINITION. The step of spec/60_exceptions.md R530: the reset input (spec/70_reset_and_hazards.md R600),
the checks at an instruction boundary in their order, the fetch (R621), and the start of an instruction
(R505). `step` calls it. -/

namespace Sys2Proof.Machine

/-! ### Fetching (R83, R621) -/

/-- The k-th fetched word of the instruction at the PC, if it lies below 2^24 (R537). -/
def State.fetchWord (s : State) (k : Nat) : Option Word :=
  let a := s.pc.toNat + 2 * k
  if a + 2 ≤ 2 ^ 24 then some (s.fetchByte (a + 1) (2 * k + 1) ++ s.fetchByte a (2 * k)) else none

/-- The words at the PC, as many of three as lie below 2^24 (R120, R537). -/
def State.fetchWords (s : State) : List Word :=
  (s.fetchWord 0).toList ++ (s.fetchWord 1).toList ++ (s.fetchWord 2).toList

/-- How many free values the fetch draws: none where no fetched byte was overwritten or is a device's (R621). -/
def State.fetchDraws (s : State) : Nat :=
  if [0, 1, 2, 3, 4, 5].all (fun k => (s.staleBytes (s.pc.toNat + k)).isEmpty && !s.isDevice (s.pc.toNat + k))
  then 0 else 6

/-- An instruction starts: T is copied to P (R505), unless the hardware debug module rules tracing (R576),
and the breakpoint mask is used up where the instruction's address hits (R566). -/
def State.start (s : State) : State :=
  { s with
    psr := if s.config.hwDebugModule then s.psr else { s.psr with p := s.psr.t }
    dbg := s.dbg.mapBanks s.config.lastBank (fun b => b.afterStart s.pc) }

/-- Lines 9 to 12 of R530: fetch, decode, and run the instruction; one that does not fit below 2^24 is an
IAD (R537, D37; log entry 35). -/
def State.runInstr (s : State) : Result :=
  match decodeWords s.fetchWords with
  | .error _ => .next ((s.drew s.fetchDraws).enter .iad s.pc)
  | .ok i => exec i (s.drew s.fetchDraws).start

/-! ### The reset input (R600 to R603; log entry 20) -/

/-- The PC a reset captures: that of the instruction about to run, of the next one in sequence, or of the
one that follows it when run, freely (R602, I8). Where the words at the PC make no instruction, cut off by the top of
memory, there is no choice but the PC itself, and where the instruction would be refused the PC stands for the third
candidate too: R602 names neither case (DESIGN CHOICE, log entry 54). -/
def State.capturedPc (s : State) (choice : Nat) : Addr :=
  match decodeWords s.fetchWords with
  | .error _ => s.pc
  | .ok i =>
    match choice % 3 with
    | 0 => s.pc
    | 1 => s.pc + BitVec.ofNat 24 (instrBytes i)
    | _ => match exec i s with
      | .next t => t.pc
      | _ => s.pc

/-- The debug unit after a reset input: the CARs are free; with the hardware debug module its other
registers are not the core's to reset (R600, R601, R576). -/
def State.resetDebug (s : State) : DebugUnit :=
  let d := s.dbg
  let bank (b : DebugBank) (k : Nat) : DebugBank :=
    { dcrl := if s.config.hwDebugModule then b.dcrl else 0
      dsr := if s.config.hwDebugModule then b.dsr else 0
      car0 := s.free 24 k, car1 := s.free 24 (k + 1), bpMask := false, seqArmed := false }
  { bank := if s.config.hwDebugModule then d.bank else 0
    bank0 := bank d.bank0 19, bank1 := bank d.bank1 21, bank2 := bank d.bank2 23, bank3 := bank d.bank3 25
    ctl := if s.config.hwDebugModule then d.ctl else .reset
    pending := false }

/-- An address with bit 0 cleared (R28, R29). -/
def evenAddr (a : Addr) : Addr := a.extractLsb' 1 23 ++ 0#1

/-- Reset() (R600): R0, R1, R2 capture the PC and the PSR (R602), every other register the spec leaves open
holds a free value (I4), memory stays. The instruction cache is invalid (R601); R622 does not list reset among the
serializing operations, so what was prefetched may still be seen (DEDUCED, log entry 20). -/
def State.resetInput (s : State) : State :=
  let old := (s.drew 32).capturedPc (s.free 32 0).toNat
  { s with
    regs :=
      { r := #v[old.extractLsb' 1 16, 0#9 ++ old.extractLsb' 17 7, (s.drew 1).psrRead, s.free 16 3, s.free 16 4,
          s.free 16 5, s.free 16 6, s.free 16 7, s.free 16 8, s.free 16 9, s.free 16 10, s.free 16 11]
        r12 := s.free 32 12, r13 := s.free 32 13, ra := s.free 32 14, sp := s.free 32 15, usp := s.free 32 16 }
    pc := s.config.resetPc
    isp := evenAddr (s.free 24 17)
    intbase := evenAddr (s.free 24 18)
    psr := .reset
    cfg := .reset
    dbg := s.resetDebug
    iadPending := false
    waiting := false
    eLag := none
    stale := { s.dropIcache.stale with locked := false }
    draws := s.draws + 64 }

/-! ### The boundary checks (R530) -/

/-- Eeff(): PSR.E or, for one boundary after EI, DI, EIWAIT, freely the old one (R624, I12; log entry 19). -/
def State.effectiveE (s : State) : Bool :=
  match s.eLag with
  | none => s.psr.e
  | some old => if (s.free 1 0).getLsbD 0 then s.psr.e else old

/-- The latency is over after one boundary, whatever its outcome (R624). -/
def State.endLag (s : State) : State := { s with eLag := none, draws := if s.eLag.isSome then s.draws + 1 else s.draws }

/-- The inputs of the coming boundary (R503). -/
def State.nextInputs (s : State) : Inputs := s.inputs.head?.getD .idle

/-- An enabled range breakpoint with a mask that is not 0 in an implemented bank (R564, I16). -/
def State.maskedRange (s : State) : Bool := s.dbg.anyBank s.config.lastBank (fun b => b.maskedRange)

/-- Whether the tag check of line 3 finds a hit; it is not made while waiting (R530, R533). -/
def State.tagged (s : State) (inp : Inputs) : Bool :=
  !s.waiting && s.dbg.tagHit s.config.lastBank s.pc inp.brkl

/-- The debug unit after the tag check of line 3. -/
def State.afterTag (s : State) (inp : Inputs) : State :=
  if s.waiting then s else { s with dbg := s.dbg.afterTag s.config.lastBank s.pc inp.brkl }

/-- A DBG event: a trap, or, with the hardware debug module, a stop the spec leaves out (R576; log entry 25). -/
def State.enterDbg (s : State) : Result :=
  if s.config.hwDebugModule then .refused .hardwareDebugMode else .next (s.enter .dbg s.pc)

/-- A maskable interrupt is accepted: the byte read is the vector, 16..127 (R521, R522, I19; log entry 26). -/
def State.enterInt (s : State) (v : Byte) : Result :=
  if 16 ≤ v && v ≤ 127 then .next (s.enter (.int v) s.pc) else .refused .vectorOutOfRange

/-- Lines 4 to 12 of R530: the interrupts in order of priority, the wait, the trace trap, the instruction. -/
def State.afterChecks (s : State) (inp : Inputs) (e : Bool) : Result :=
  if inp.nmi then .next (s.enter .nmi s.pc)
  else if inp.int && s.psr.i && e then s.enterInt inp.ack
  else if inp.ise then .next (s.enter .ise s.pc)
  else if s.waiting then .next s
  else if s.psr.p && !s.config.hwDebugModule then .next (s.enter .trc s.pc)
  else s.runInstr

/-- Lines 1 to 12 of R530. -/
def State.checks (s : State) (inp : Inputs) (e : Bool) : Result :=
  if s.maskedRange then .refused .maskedRangeBreakpoint
  else if s.dbg.pending then { s with dbg := { s.dbg with pending := false } }.enterDbg
  else if s.iadPending then .next ({ s with iadPending := false }.enter .iad s.pc)
  else if s.tagged inp then (s.afterTag inp).enterDbg
  else (s.afterTag inp).afterChecks inp e

/-- What the boundary takes from outside before its checks: the inputs are used up, and the external
illegal-address line makes IAD pending (R503, R528; log entry 46). -/
def State.takeInputs (s : State) : State :=
  let s' := { s with inputs := s.inputs.tail }
  if s.config.extIad && s.nextInputs.extIad then s'.illegal else s'

/-- One step (R530). -/
def State.boundary (s : State) : Result :=
  if s.nextInputs.reset then .next { s with inputs := s.inputs.tail }.resetInput
  else (s.takeInputs.endLag).checks s.nextInputs s.effectiveE

end Sys2Proof.Machine
end

