-- ==== Sys2Proof/Machine/Step.lean ====
section
/-! DEFINITION. One step of the machine, and the state in which a given instruction is the next to run. -/

namespace Sys2Proof.Machine

/-- One step: the boundary of R530. A state with an odd PC, which R26 excludes, is the one fault (log entry 37). -/
def step (s : State) : Host.Outcome State Fault Refusal :=
  if s.pc.getLsbD 0 then .fault .oddPc else s.boundary

/-- The bytes of one instruction placed in memory from an address on; no old content is left to fetch. -/
def State.placeCode (s : State) (a : Nat) (bs : List Byte) : State :=
  match bs with
  | [] => { s with stale := { s.stale with prefetch := [], icache := [], icacheLocked := [] } }
  | b :: rest => State.placeCode { s with mem := s.mem.put a b } (a + 1) rest

/-- The state with the instruction `w` of `nbits` bits at the PC, where the next fetch reads it (log entries
6 and 7). -/
def State.withFetchWord (s : State) (nbits w : Nat) : State :=
  s.placeCode s.pc.toNat (bytesOfWords (tableWords nbits w))

end Sys2Proof.Machine
end

