-- ==== Sys2Proof/Safety.lean ====
section
/-! DEFINITION. The terms the statements use: the invariant of the machine, and what an instruction leaves
unchanged. -/

namespace Sys2Proof.Machine

/-- What every step keeps: PC, ISP, INTBASE even (R26, R28, R29), RESET_PC even (R606), memory in canonical form
(R80), EXF in DSR0 only (R326; its place in another bank holds 0, log entry 49), lines that may be locked known to
be so while the instruction cache locks them (R35), nothing noted of locked lines where there are none, and nothing
held by an instruction cache that is absent or off (R110, R112; log entry 18). -/
def State.Inv (s : State) : Prop :=
  s.pc.getLsbD 0 = false ∧ s.isp.getLsbD 0 = false ∧ s.intbase.getLsbD 0 = false ∧ s.config.wf = true ∧
    s.mem.wf = true ∧
    s.dbg.bank1.dsr.getLsbD 3 = false ∧ s.dbg.bank2.dsr.getLsbD 3 = false ∧ s.dbg.bank3.dsr.getLsbD 3 = false ∧
    (s.lockingLines = true → s.stale.locked = true ∧ s.stale.fresh = []) ∧
    (s.stale.locked = false → s.stale.icacheLocked = [] ∧ s.stale.fresh = []) ∧
    (s.config.icachePresent = false ∨ s.cfg.ic = false → s.stale.icache = [] ∧ s.stale.locked = false)

/-- The upper half of the 32-bit register a number 12..15 names (R22). -/
def State.high (s : State) (n : RegNum) : Word := (s.wide n).extractLsb' 16 16

/-- The stack pointer not in use: SP in user mode, USP in supervisor mode (R22, R27). -/
def State.idleSp (s : State) : DWord := if s.psr.u then s.regs.sp else s.regs.usp

/-- The halves of registers that a write of pair `n` writes (R23). -/
def State.pairSlots (s : State) (n : PairNum) : List Slot :=
  if s.pairIsWide n then [⟨n, false⟩, ⟨n, true⟩] else [⟨n, false⟩, ⟨n + 1, false⟩]

/-- Every half of every register is unchanged except those listed, the idle stack pointer included. -/
def RegsKept (w : List Slot) (s t : State) : Prop :=
  (∀ n : RegNum, ⟨n, false⟩ ∉ w → t.reg n = s.reg n) ∧
    (∀ n : RegNum, 12 ≤ n → ⟨n, true⟩ ∉ w → t.high n = s.high n) ∧ t.idleSp = s.idleSp

/-- The special registers, the debug registers, the wait state and the model's own fields are unchanged. -/
def SystemKept (s t : State) : Prop :=
  t.isp = s.isp ∧ t.intbase = s.intbase ∧ t.cfg = s.cfg ∧ t.dbg = s.dbg ∧ t.waiting = s.waiting ∧
    t.eLag = s.eLag ∧ t.inputs = s.inputs ∧ t.config = s.config

/-- Every byte of memory is unchanged, and what a fetch may see of it. -/
def MemoryKept (s t : State) : Prop := (∀ a : Nat, t.mem.byte a = s.mem.byte a) ∧ t.stale = s.stale

/-- Every byte of memory outside the `n` bytes from address `a` on is unchanged. -/
def MemoryKeptOutside (a : Int) (n : Nat) (s t : State) : Prop :=
  ∀ x : Nat, (x : Int) < a ∨ a + n ≤ x → t.mem.byte x = s.mem.byte x

/-- The PC moved on by `n` bytes, and IAD is pending where that leaves the address space (R345, R536). Which PC
is held then is decision D6 (log entry 16), and no statement about an instruction's result speaks of it. -/
def Advanced (n : Nat) (s t : State) : Prop :=
  (s.pc.toNat + n < 2 ^ 24 → t.pc.toNat = s.pc.toNat + n) ∧
    (t.iadPending = true ↔ s.iadPending = true ∨ 2 ^ 24 ≤ s.pc.toNat + n)

/-- The frame of an instruction of `n` bytes that writes no memory and, of the registers, the listed halves
alone. The PSR is left to the statement. -/
def RegisterFrame (w : List Slot) (n : Nat) (s t : State) : Prop :=
  RegsKept w s t ∧ MemoryKept s t ∧ SystemKept s t ∧ Advanced n s t

/-- No debug condition is enabled in any bank, so that data accesses leave the debug unit as it is (R562). -/
def Undebugged (s : State) : Prop :=
  ∀ b : BitVec 2, (s.dbg.get b).dcrl.getLsbD 7 = false ∧ (s.dbg.get b).dcrl.getLsbD 15 = false

/-- The special registers, the wait state and the model's own fields are unchanged, and so are the debug
registers unless a debug condition is enabled (R562). -/
def AccessKept (s t : State) : Prop :=
  t.isp = s.isp ∧ t.intbase = s.intbase ∧ t.cfg = s.cfg ∧ (Undebugged s → t.dbg = s.dbg) ∧
    t.waiting = s.waiting ∧ t.eLag = s.eLag ∧ t.inputs = s.inputs ∧ t.config = s.config

/-- All `n` byte addresses from `a` on lie in the address space (R90). -/
def Addressable (a : Int) (n : Nat) : Prop := 0 ≤ a ∧ a + n ≤ 2 ^ 24

/-- The bytes of `v`, low byte first, are those memory holds from `a` on; of an access outside the address space,
and of a byte a device answers, nothing is said (R84, R91, D28). -/
def BytesLoaded (a : Int) (m v : Nat) (s : State) : Prop :=
  Addressable a m → ∀ k : Nat, k < m → s.isDevice (a.toNat + k) = false →
    v / 256 ^ k % 256 = (s.mem.byte (a.toNat + k)).toNat

/-- RAM from `a` on holds the `m` bytes of `v`, low byte first (R85). -/
def BytesStored (a : Int) (m v : Nat) (s t : State) : Prop :=
  Addressable a m → ∀ k : Nat, k < m → s.isRam (a.toNat + k) = true →
    (t.mem.byte (a.toNat + k)).toNat = v / 256 ^ k % 256

/-- What is not RAM holds no store (D28; log entry 39). -/
def NotRamKept (s t : State) : Prop := ∀ x : Nat, s.isRam x = false → t.mem.byte x = s.mem.byte x

/-- None of the six bytes at the PC was overwritten since it could be fetched, and none is a device's, so that a
fetch sees memory (R621). -/
def CodeKnown (s : State) : Prop :=
  ∀ k : Nat, k < 6 → s.staleBytes (s.pc.toNat + k) = [] ∧ s.isDevice (s.pc.toNat + k) = false

/-- The PC moved on by `n` bytes; IAD is pending also where the instruction made a bad access (R91). -/
def AdvancedOr (bad : Prop) (n : Nat) (s t : State) : Prop :=
  (s.pc.toNat + n < 2 ^ 24 → t.pc.toNat = s.pc.toNat + n) ∧
    (t.iadPending = true ↔ s.iadPending = true ∨ bad ∨ 2 ^ 24 ≤ s.pc.toNat + n)

/-- CondTrue as the table of R40 has it. -/
def CondHolds (c : Cond) (p : Psr) : Prop :=
  match c with
  | .eq => p.z = true
  | .ne => p.z = false
  | .cs => p.c = true
  | .cc => p.c = false
  | .hi => p.l = true
  | .ls => p.l = false
  | .gt => p.n = true
  | .le => p.n = false
  | .fs => p.f = true
  | .fc => p.f = false
  | .lo => p.z = false ∧ p.l = false
  | .hs => p.z = true ∨ p.l = true
  | .lt => p.z = false ∧ p.n = false
  | .ge => p.z = true ∨ p.n = true
  | .always => True
  | .uc => True

/-- The PC went to an address computed without wrapping; outside the address space IAD is pending (R345). -/
def WentTo (target : Int) (s t : State) : Prop :=
  (0 ≤ target → target < 2 ^ 24 → (t.pc.toNat : Int) = target) ∧
    (t.iadPending = true ↔ s.iadPending = true ∨ target < 0 ∨ 2 ^ 24 ≤ target)

/-- The PC is the low 24 bits of an address computed without wrapping, and IAD is pending where that address is
outside the address space (R345, D6; log entry 16). -/
def WrappedTo (target : Int) (s t : State) : Prop :=
  (t.pc.toNat : Int) = target % 2 ^ 24 ∧ (t.iadPending = true ↔ s.iadPending = true ∨ target < 0 ∨ 2 ^ 24 ≤ target)

/-- Nothing but the PC and IAD changed. -/
def OnlyPc (s t : State) : Prop := t = { s with pc := t.pc, iadPending := t.iadPending }

/-- The words of memory at the PC, as many of three as lie in the address space (R120, R537). -/
def State.codeWords (s : State) : List Word :=
  ((List.range 3).filter (fun k => s.pc.toNat + 2 * k + 2 ≤ 2 ^ 24)).map (fun k => s.mem.word (s.pc.toNat + 2 * k))

/-- The coming boundary has no reset, no external tag or illegal-address line, no trap pending and no enabled
debug condition, and PSR.E is definite (R503, R530, R624). -/
def Calm (s : State) : Prop :=
  s.pc.getLsbD 0 = false ∧ s.nextInputs.reset = false ∧ s.nextInputs.extIad = false ∧ s.nextInputs.brkl = false ∧
    s.dbg.pending = false ∧ s.iadPending = false ∧ s.eLag = none ∧ Undebugged s

/-- Nothing is asked of the coming boundary but to run the instruction at the PC (R530). -/
def Quiet (s : State) : Prop :=
  Calm s ∧ s.nextInputs.nmi = false ∧ s.nextInputs.int = false ∧ s.nextInputs.ise = false ∧ s.waiting = false ∧
    s.psr.p = false

/-- The instructions that write Z, N and L (R30). -/
def setsZNL : Instr → Bool
  | .cmpb _ _ | .cmpw _ _ | .cmpd _ _ | .lpr _ _ | .lprd _ _ | .retx => true
  | _ => false

/-- The instructions that write C (R30). -/
def setsC : Instr → Bool
  | .addb _ _ | .addw _ _ | .addd _ _ | .addcb _ _ | .addcw _ _ | .subb _ _ | .subw _ _ | .subd _ _ | .subcb _ _
  | .subcw _ _ | .lpr _ _ | .lprd _ _ | .retx => true
  | _ => false

/-- The instructions that write F (R30). -/
def setsF : Instr → Bool
  | .cbitb _ _ | .cbitw _ _ | .sbitb _ _ | .sbitw _ _ | .tbitb _ _ | .tbitw _ _ | .tbit _ _ _ => true
  | i => setsC i

/-- The instructions that write E (R30). -/
def setsE : Instr → Bool
  | .di | .ei | .eiwait | .lpr _ _ | .lprd _ _ | .retx => true
  | _ => false

/-- The instructions that write I other than by an exception entry (R30). -/
def setsI : Instr → Bool
  | .lpr _ _ | .lprd _ _ | .retx => true
  | _ => false

/-- The instructions that write T and P other than by an exception entry and the copy at their start (R30). -/
def setsT : Instr → Bool
  | .lpr _ _ | .lprd _ _ | .retx => true
  | _ => false

/-- The instruction takes an exception instead of, or as, its effect: EXCP, a reserved encoding, LPR and LPRD in user
mode, a multiply-accumulate on a chip without the unit (R328, R361, R456, R527, D11). -/
def traps (i : Instr) (s : State) : Bool :=
  match i with
  | .excp _ | .resUnd _ _ => true
  | .lpr _ _ | .lprd _ _ => s.psr.u
  | .macqw _ _ _ | .macuw _ _ _ | .macsw _ _ _ => !s.config.macPresent
  | _ => false

/-- The instruction runs to its end and leaves the PC to advance in sequence: no branch, jump, trap or return, and
none that traps in this mode or on this chip (R345, R536). -/
def runsOn (i : Instr) (s : State) : Bool :=
  match i with
  | .bcond _ _ | .beq _ | .bne _ | .bcs _ | .bcc _ | .bhi _ | .bls _ | .bgt _ | .ble _ | .bfs _ | .bfc _ | .blo _
  | .bhs _ | .blt _ | .bge _ | .br _ | .bal _ _ | .beq0b _ _ | .beq0w _ _ | .bne0b _ _ | .bne0w _ _ => false
  | .jcond _ _ | .jeq _ | .jne _ | .jcs _ | .jcc _ | .jhi _ | .jls _ | .jgt _ | .jle _ | .jfs _ | .jfc _ | .jlo _
  | .jhs _ | .jlt _ | .jge _ | .jump _ | .jusr _ | .jal _ _ => false
  | .excp _ | .retx | .popret _ _ _ | .resUnd _ _ => false
  | .lpr _ _ | .lprd _ _ => !s.psr.u
  | .macqw _ _ _ | .macuw _ _ _ | .macsw _ _ _ => s.config.macPresent
  | _ => true

/-- The instructions that enter user mode (R33). -/
def entersUser : Instr → Bool
  | .jusr _ | .retx => true
  | .jcond .uc _ => true
  | _ => false

/-- The `n` bytes from address `a` on as a number, low byte first (R83, R84). -/
def Memory.littleEndian (m : Memory) (a n : Nat) : Nat :=
  match n with
  | 0 => 0
  | k + 1 => (m.byte a).toNat + 256 * Memory.littleEndian m (a + 1) k

/-- The low byte of register `n` became `v` and its high byte stayed (R22). -/
def LowByte (n : RegNum) (v : Nat) (s t : State) : Prop :=
  v < 256 ∧ (t.reg n).toNat = 256 * ((s.reg n).toNat / 256) + v

/-- `r` is the sum of `w` bits, C its carry, F its signed overflow, and the other bits of the PSR stay (R215). -/
def SumOf {w : Nat} (a b : BitVec w) (cin : Bool) (r : Nat) (p q : Psr) : Prop :=
  r < 2 ^ w ∧ r + 2 ^ w * q.c.toNat = a.toNat + b.toNat + cin.toNat ∧
    (q.f = true ↔
      a.toInt + b.toInt + cin.toNat < -(2 ^ (w - 1)) ∨ 2 ^ (w - 1) ≤ a.toInt + b.toInt + cin.toNat) ∧
    q = { p with c := q.c, f := q.f }

/-- `r` is the difference of `w` bits, C its borrow, F its signed overflow, and the other bits of the PSR stay
(R216). -/
def DifferenceOf {w : Nat} (a b : BitVec w) (bin : Bool) (r : Nat) (p q : Psr) : Prop :=
  r < 2 ^ w ∧ r + b.toNat + bin.toNat = a.toNat + 2 ^ w * q.c.toNat ∧
    (q.f = true ↔
      a.toInt - b.toInt - bin.toNat < -(2 ^ (w - 1)) ∨ 2 ^ (w - 1) ≤ a.toInt - b.toInt - bin.toNat) ∧
    q = { p with c := q.c, f := q.f }

/-- Z, N, L say how `b` stands to `a`, and the other bits of the PSR stay (R31, R263). -/
def ComparedAs {w : Nat} (a b : BitVec w) (p q : Psr) : Prop :=
  (q.z = true ↔ a.toNat = b.toNat) ∧ (q.n = true ↔ b.toInt < a.toInt) ∧ (q.l = true ↔ b.toNat < a.toNat) ∧
    q = { p with z := q.z, n := q.n, l := q.l }

/-- The frame of a load of `m` bytes from `a` by an instruction of `n` bytes into the listed halves. -/
def LoadFrame (w : List Slot) (a : Int) (m n : Nat) (s t : State) : Prop :=
  t.psr = s.psr ∧ RegsKept w s t ∧ MemoryKept s t ∧ AccessKept s t ∧ AdvancedOr (¬ Addressable a m) n s t

/-- A store of the value `v` of `m` bytes to `a` by an instruction of `n` bytes, with its frame: RAM holds the
bytes, and at an illegal address nothing is written (R85, R91). -/
def Stored (a : Int) (m v n : Nat) (s t : State) : Prop :=
  BytesStored a m v s t ∧ NotRamKept s t ∧ MemoryKeptOutside a m s t ∧
    (¬ Addressable a m → ∀ x : Nat, t.mem.byte x = s.mem.byte x) ∧
    t.psr = s.psr ∧ t.regs = s.regs ∧ AccessKept s t ∧ AdvancedOr (¬ Addressable a m) n s t

/-- The words `ws` stored one after the other from `a` on, with the frame of memory: a word at an illegal
address is not written (R87, R91). -/
def WordsStored (a : Int) (ws : List Word) (s t : State) : Prop :=
  (∀ k : Nat, k < ws.length → BytesStored (a + 2 * k) 2 (ws.getD k 0).toNat s t) ∧
    (∀ k : Nat, k < ws.length → ¬ Addressable (a + 2 * k) 2 → ∀ x : Nat, a + 2 * k ≤ (x : Int) →
      (x : Int) < a + 2 * k + 2 → t.mem.byte x = s.mem.byte x) ∧
    NotRamKept s t ∧ MemoryKeptOutside a (2 * ws.length) s t

/-- The slots loaded one after the other from the words from `a` on; of a slot listed twice the last counts
(R347, R364). -/
def SlotsLoaded (a : Int) (xs : List Slot) (s t : State) : Prop :=
  ∀ k : Nat, k < xs.length → (xs.getD k ⟨0, false⟩) ∉ xs.drop (k + 1) →
    BytesLoaded (a + 2 * k) 2 (t.slot (xs.getD k ⟨0, false⟩)).toNat s

/-- The outcome of a taken or not taken transfer of control of `n` bytes. -/
def BranchedTo (taken : Prop) (target : Int) (n : Nat) (s t : State) : Prop :=
  OnlyPc s t ∧ (taken → WentTo target s t) ∧ (¬ taken → Advanced n s t)

/-- What a write of the word `v` to processor register `n` leaves of the registers other than the debug banks
(R326, R330). -/
def ControlWritten (n : ProcRegNum) (v : Word) (s t : State) : Prop :=
  t.psr = (if n = 9 then
      { c := v.getLsbD 0, t := v.getLsbD 1, l := v.getLsbD 2, u := s.psr.u, f := v.getLsbD 5, z := v.getLsbD 6,
        n := v.getLsbD 7, e := v.getLsbD 9, p := v.getLsbD 10, i := v.getLsbD 11 }
    else s.psr) ∧
  t.cfg = (if n = 8 then
      { dc := v.getLsbD 2, ldc := v.getLsbD 3, ic := v.getLsbD 4, lic := v.getLsbD 5, ed := v.getLsbD 8,
        sr := v.getLsbD 9 }
    else s.cfg) ∧
  t.intbase.toNat = (if n = 10 then 65536 * (s.intbase.toNat / 65536) + 2 * (v.toNat / 2)
    else if n = 11 then 65536 * (v.toNat % 256) + s.intbase.toNat % 65536 else s.intbase.toNat) ∧
  t.isp.toNat = (if n = 12 then 65536 * (s.isp.toNat / 65536) + 2 * (v.toNat / 2)
    else if n = 13 then 65536 * (v.toNat % 256) + s.isp.toNat % 65536 else s.isp.toNat) ∧
  t.regs.usp.toNat = (if n = 14 then 65536 * (s.regs.usp.toNat / 65536) + v.toNat
    else if n = 15 then 65536 * (v.toNat % 256) + s.regs.usp.toNat % 65536 else s.regs.usp.toNat) ∧
  t.dbg.bank.toNat = (if n = 0 then v.toNat % 4 else s.dbg.bank.toNat)

/-- What a write of the word `v` to processor register `n` leaves of debug bank `b` (R36, R326). -/
def BankWritten (n : ProcRegNum) (v : Word) (b : BitVec 2) (s t : State) : Prop :=
  let x := s.dbg.get b
  let y := t.dbg.get b
  if s.config.hwDebugModule = false ∧ b = s.dbg.bank ∧ b ≤ s.config.lastBank then
    (∀ k : Nat, k < 7 → y.dsr.getLsbD k =
      (if n = 1 then v.getLsbD k && (k != 3 || b == 0) else x.dsr.getLsbD k)) ∧
    y.dcrl = (if n = 2 then v else x.dcrl) ∧
    y.car0.toNat = (if n = 4 then 65536 * (x.car0.toNat / 65536) + v.toNat
      else if n = 5 then 65536 * (v.toNat % 256) + x.car0.toNat % 65536 else x.car0.toNat) ∧
    y.car1.toNat = (if n = 6 then 65536 * (x.car1.toNat / 65536) + v.toNat
      else if n = 7 then 65536 * (v.toNat % 256) + x.car1.toNat % 65536 else x.car1.toNat) ∧
    (y.seqArmed = true ↔ n ≠ 2 ∧ n ≠ 3 ∧ x.seqArmed = true) ∧
    (y.bpMask = true ↔ x.bpMask = true ∧ (n = 2 → v.getLsbD 4 = true ∧ v.getLsbD 12 = true))
  else y = x

/-- What a write of the word `v` to processor register `n` leaves of DCR0 above bit 15 (R326). -/
def DcrhWritten (n : ProcRegNum) (v : Word) (s t : State) : Prop :=
  if n = 3 ∧ s.config.hwDebugModule = false ∧ s.dbg.bank = 0 then
    t.dbg.ctl.efb = v.getLsbD 0 ∧
    (t.dbg.ctl.dbgl = true ↔ s.dbg.ctl.dbgl = true ∨ v.getLsbD 7 = true) ∧
    (if s.dbg.ctl.dbgl then
      t.dbg.ctl.abpt = s.dbg.ctl.abpt ∧ t.dbg.ctl.atrc = s.dbg.ctl.atrc ∧ t.dbg.ctl.adbg = s.dbg.ctl.adbg ∧
        t.dbg.ctl.aise = s.dbg.ctl.aise
    else
      t.dbg.ctl.abpt = v.getLsbD 2 ∧ t.dbg.ctl.atrc = v.getLsbD 3 ∧ t.dbg.ctl.adbg = v.getLsbD 4 ∧
        t.dbg.ctl.aise = v.getLsbD 5)
  else t.dbg.ctl = s.dbg.ctl

/-- A write of the word `v` to processor register `n`, whole (R326). -/
def PrWritten (n : ProcRegNum) (v : Word) (s t : State) : Prop :=
  ControlWritten n v s t ∧ (∀ b : BitVec 2, BankWritten n v b s t) ∧ DcrhWritten n v s t ∧
    t.dbg.pending = s.dbg.pending ∧ t.regs = { s.regs with usp := t.regs.usp } ∧ t.waiting = s.waiting ∧
    t.eLag = s.eLag ∧ t.mem = s.mem ∧ t.inputs = s.inputs ∧ t.config = s.config

/-- The event bit of one channel of a bank: BRD, BWR or BPC (R37). -/
def DebugBank.event (b : DebugBank) (ch1 : Bool) : Bool :=
  if ch1 then b.dsr.getLsbD 4 || b.dsr.getLsbD 5 || b.dsr.getLsbD 6
  else b.dsr.getLsbD 0 || b.dsr.getLsbD 1 || b.dsr.getLsbD 2

/-- The bits of the PSR at their places in a word; bits 15:12 are not spoken of, and T and P only without the
hardware debug module (R30, R33, I11). -/
def PsrAt (hw : Bool) (p : Psr) (v : Word) : Prop :=
  v.getLsbD 0 = p.c ∧ (hw = false → v.getLsbD 1 = p.t) ∧ v.getLsbD 2 = p.l ∧ v.getLsbD 3 = p.u ∧
    v.getLsbD 4 = false ∧ v.getLsbD 5 = p.f ∧ v.getLsbD 6 = p.z ∧ v.getLsbD 7 = p.n ∧ v.getLsbD 8 = false ∧
    v.getLsbD 9 = p.e ∧ (hw = false → v.getLsbD 10 = p.p) ∧ v.getLsbD 11 = p.i

/-- What a read of processor register `n` answers (R37, R325); reserved bits are not spoken of, nor is bit 3 of the
DSR of a bank other than 0 (R41; log entry 49). -/
def PrReads (n : ProcRegNum) (v : Word) (s : State) : Prop :=
  let b := s.dbg.get s.dbg.bank
  let seen := s.config.hwDebugModule = false ∧ s.dbg.bank ≤ s.config.lastBank
  (n = 0 → v.toNat % 4 = s.dbg.bank.toNat ∧
    (∀ c : BitVec 2, ∀ ch1 : Bool, v.getLsbD (8 + 2 * c.toNat + ch1.toNat) =
      (decide (c ≤ s.config.lastBank) && (s.dbg.get c).event ch1 ||
        (c == 0 && !ch1 && s.dbg.bank0.dsr.getLsbD 3)))) ∧
  (1 ≤ n → n ≤ 7 → ¬ seen → v = 0) ∧
  (n = 1 → seen → ∀ k : Nat, k < 7 → k ≠ 3 ∨ s.dbg.bank = 0 → v.getLsbD k = b.dsr.getLsbD k) ∧
  (n = 2 → seen → v = b.dcrl) ∧
  (n = 3 → seen → s.dbg.bank = 0 → v.getLsbD 0 = s.dbg.ctl.efb ∧ v.getLsbD 2 = s.dbg.ctl.abpt ∧
    v.getLsbD 3 = s.dbg.ctl.atrc ∧ v.getLsbD 4 = s.dbg.ctl.adbg ∧ v.getLsbD 5 = s.dbg.ctl.aise ∧
    v.getLsbD 7 = s.dbg.ctl.dbgl) ∧
  (n = 4 → seen → v.toNat = b.car0.toNat % 65536) ∧
  (n = 5 → seen → v.toNat = b.car0.toNat / 65536) ∧
  (n = 6 → seen → v.toNat = b.car1.toNat % 65536) ∧
  (n = 7 → seen → v.toNat = b.car1.toNat / 65536) ∧
  (n = 8 → v.toNat % 4 = 0 ∧ v.getLsbD 2 = s.cfg.dc ∧ v.getLsbD 3 = s.cfg.ldc ∧ v.getLsbD 4 = s.cfg.ic ∧
    v.getLsbD 5 = s.cfg.lic ∧ v.getLsbD 6 = false ∧ v.getLsbD 7 = false ∧ v.getLsbD 8 = s.cfg.ed ∧
    v.getLsbD 9 = s.cfg.sr) ∧
  (n = 9 → PsrAt s.config.hwDebugModule s.psr v) ∧
  (n = 10 → v.toNat = s.intbase.toNat % 65536) ∧ (n = 11 → v.toNat = s.intbase.toNat / 65536) ∧
  (n = 12 → v.toNat = s.isp.toNat % 65536) ∧ (n = 13 → v.toNat = s.isp.toNat / 65536) ∧
  (n = 14 → v.toNat = s.regs.usp.toNat % 65536) ∧ (n = 15 → v.toNat = s.regs.usp.toNat / 65536)

/-- Nothing old is left in the instruction cache, and no line of it is locked (R112). -/
def State.IcacheEmpty (s : State) : Prop :=
  s.stale.icache = [] ∧ s.stale.icacheLocked = [] ∧ s.stale.locked = false ∧ s.stale.fresh = []

/-- A channel's compare address is the address `a` but for the masked low bits (R563). -/
def DebugBank.At (b : DebugBank) (ch1 : Bool) (a : Nat) : Prop :=
  let k := b.dcrl.toNat / (if ch1 then 256 else 1) % 4
  a / 2 ^ k = (b.car ch1).toNat / 2 ^ k

/-- A channel is enabled for data reads or writes (R39, R562). -/
def DebugBank.OnData (b : DebugBank) (write ch1 : Bool) : Prop :=
  let k := if ch1 then 8 else 0
  b.dcrl.getLsbD (k + 7) = true ∧ b.dcrl.getLsbD (k + 4) = false ∧
    b.dcrl.getLsbD (k + if write then 5 else 6) = true

/-- A channel is enabled for PC matches (R39, R561). -/
def DebugBank.OnPc (b : DebugBank) (ch1 : Bool) : Prop :=
  let k := if ch1 then 8 else 0
  b.dcrl.getLsbD (k + 7) = true ∧ b.dcrl.getLsbD (k + 4) = true

/-- A hit of a channel at the address `a`, `on` telling which channels look at the event: with ESQ of channel 1
alone and only while armed (R565), with EAR of channel 0 alone and for the range (R564), else of each channel by
itself (R561, R562). -/
def DebugBank.Hit (b : DebugBank) (on : Bool → Prop) (a : Nat) (ch1 : Bool) : Prop :=
  if b.dcrl.getLsbD 10 then ch1 = true ∧ b.seqArmed = true ∧ on true ∧ b.At true a
  else if b.dcrl.getLsbD 2 then ch1 = false ∧ on false ∧ b.car0.toNat ≤ a ∧ a ≤ b.car1.toNat
  else on ch1 ∧ b.At ch1 a

/-- A hit of either channel. -/
def DebugBank.AnyHit (b : DebugBank) (on : Bool → Prop) (a : Nat) : Prop := b.Hit on a false ∨ b.Hit on a true

/-- Bank `x` became `y` at an event at `a`: a hit, unless masked, sets the channel's bit of DSR and clears DEN0 and
DEN1 (R568); of a complex breakpoint the first condition arms and the hit disarms (R565). -/
def DebugBank.Recorded (on : Bool → Prop) (a : Nat) (masked : Bool) (bit0 bit1 : Nat) (x y : DebugBank) : Prop :=
  (masked = false → x.AnyHit on a → y.dcrl = x.dcrl &&& 0x7F7F) ∧
    (masked = true ∨ ¬ x.AnyHit on a → y.dcrl = x.dcrl) ∧
    (∀ k : Nat, y.dsr.getLsbD k = true ↔ x.dsr.getLsbD k = true ∨
      (masked = false ∧ (k = bit0 ∧ x.Hit on a false ∨ k = bit1 ∧ x.Hit on a true))) ∧
    y.car0 = x.car0 ∧ y.car1 = x.car1 ∧
    (y.seqArmed = true ↔ if x.dcrl.getLsbD 10 then
        (x.seqArmed = true ∨ (on false ∧ x.At false a)) ∧ ¬ (masked = false ∧ x.Hit on a true)
      else x.seqArmed = true)

/-- One data access, `x.1` its lowest address and `x.2` whether it writes, took the debug unit from `d` to `e`: every
implemented bank recorded it, a hit makes DBG pending and clears EFB, and nothing else changed (R562, R568, R577). An
address outside 24 bits is not compared (log entry 23). -/
def DebugUnit.Saw (last : BitVec 2) (x : Int × Bool) (d e : DebugUnit) : Prop :=
  let hit := ∃ b : BitVec 2, b ≤ last ∧ (d.get b).AnyHit ((d.get b).OnData x.2) x.1.toNat
  (0 ≤ x.1 ∧ x.1 < 2 ^ 24 →
    (∀ b : BitVec 2, b ≤ last → (e.get b).bpMask = (d.get b).bpMask ∧
      DebugBank.Recorded ((d.get b).OnData x.2) x.1.toNat false (if x.2 then 1 else 2) (if x.2 then 5 else 6)
        (d.get b) (e.get b)) ∧
      (∀ b : BitVec 2, last < b → e.get b = d.get b) ∧ e.bank = d.bank ∧
      (e.pending = true ↔ d.pending = true ∨ hit) ∧ e.ctl = { d.ctl with efb := e.ctl.efb } ∧
      (e.ctl.efb = true ↔ d.ctl.efb = true ∧ ¬ hit)) ∧
    (¬ (0 ≤ x.1 ∧ x.1 < 2 ^ 24) → e = d)

/-- Data accesses one after the other took the debug unit from `d` to `e`. -/
def DebugUnit.SawAll (last : BitVec 2) (l : List (Int × Bool)) (d e : DebugUnit) : Prop :=
  match l with
  | [] => e = d
  | x :: rest => ∃ m : DebugUnit, DebugUnit.Saw last x d m ∧ DebugUnit.SawAll last rest m e

/-- The accesses of `n` words from `a` on, ascending, each of two bytes (R87). -/
def wordAccesses (a : Int) (n : Nat) (write : Bool) : List (Int × Bool) :=
  match n with
  | 0 => []
  | n + 1 => (a, write) :: wordAccesses (a + 2) n write

/-- Bank `x` tagged by the external line, bank 0 alone: EXF set, DEN0 and DEN1 cleared (R567). -/
def DebugBank.tagged (x : DebugBank) : DebugBank := { x with dcrl := x.dcrl &&& 0x7F7F, dsr := x.dsr ||| 0x08 }

/-- Some implemented bank has an unmasked PC hit at the PC, or the external line tags with EFB set (R561, R567). -/
def Tagged (s : State) : Prop :=
  (∃ b : BitVec 2, b ≤ s.config.lastBank ∧ (s.dbg.get b).bpMask = false ∧
      (s.dbg.get b).AnyHit (s.dbg.get b).OnPc s.pc.toNat) ∨
    (s.dbg.ctl.efb = true ∧ s.nextInputs.brkl = true)

/-- The coming boundary reaches the tag check (R530). -/
def AtTagCheck (s : State) : Prop :=
  s.pc.getLsbD 0 = false ∧ s.nextInputs.reset = false ∧ s.nextInputs.extIad = false ∧ s.dbg.pending = false ∧
    s.iadPending = false ∧ s.waiting = false ∧ s.maskedRange = false ∧ s.config.hwDebugModule = false

/-- The state that fetches at the coming boundary, once lines 1 to 8 of R530 have passed: inputs taken, latency
over, the tag check made. -/
def State.atFetch (s : State) : State := (s.takeInputs.endLag).afterTag s.nextInputs

/-- The state of the coming boundary once its inputs are taken, when nothing external is asked. -/
def State.afterInputs (s : State) : State := { s with inputs := s.inputs.tail }

end Sys2Proof.Machine
end

