-- ==== Sys2Proof/Certificates/Slice0/Obligations.lean ====
section
/-! DEFINITION. The statements for the provers. Each says which rules of spec/ it rests on; where a clause
rests on a decision of the spec or of the model, its docstring names the log entry. -/

section

open Sys2Proof Sys2Proof.Machine

/-- For every well-formed instruction, with every operand at every value its encoding admits and whatever words
follow, decoding its words gives the instruction in its decoder's spelling, which for every mnemonic but an
alias is the instruction itself. The count fields and the word order of imm32 are decisions D3 and D4 (log
entries 10 and 11). (R122, R123, R150, R166) -/
def Obligations.DecodeEncode : Prop :=
  ∀ (i : Instr) (rest : List Word), i.wf = true → decodeWords (encode i ++ rest) = .ok i.named

/-- Whenever the decoder reads an instruction, the instruction is well formed and in its own spelling, no longer
than the words given, and the same is read when the words after it are left out or replaced. (R120, R131, R136,
R137, R150, R160) -/
def Obligations.DecodeReads : Prop :=
  ∀ (ws rest : List Word) (i : Instr), decodeWords ws = .ok i →
    i.wf = true ∧ i.named = i ∧ (encode i).length ≤ ws.length ∧
      decodeWords (ws.take (encode i).length ++ rest) = .ok i

/-- Every value of every word decodes: whatever three words stand at the PC, the decoder reads an instruction of
one, two or three words from them, a reserved encoding included. (R120, R150, R151, R159) -/
def Obligations.DecodeTotal : Prop :=
  ∀ (w1 w2 w3 : Word) (rest : List Word), ∃ i : Instr, decodeWords (w1 :: w2 :: w3 :: rest) = .ok i ∧
    1 ≤ (encode i).length ∧ (encode i).length ≤ 3

/-- The words the spec prints in its examples decode to the instructions it prints them for, one or more of every
family: moves, integer arithmetic, comparison, logic and conditional sets, shifts, bit operations, processor
registers, jumps and linkage, loads and stores, and the miscellaneous instructions (the words of R201, R230 and
R364 among them). The count field and the word order of imm32 in two of them are decisions D3 and D4 (log
entries 10 and 11). (R202, R226, R261, R271, R279, R290, R312, R331, R350, R352, R401, R450) -/
def Obligations.DecodesWrittenWords : Prop :=
  decodeWords [0x5B06] = .ok (.movw (.reg 0) 6) ∧
  decodeWords [0x0078, 0x0017, 0x00A7] = .ok (.movd (.imm32 0x001700A7) 8) ∧
  decodeWords [0x3750] = .ok (.addcw (.reg 5) 0) ∧
  decodeWords [0x3CB1, 0x0020] = .ok (.subcb (.imm16 0x20) 1) ∧
  decodeWords [0x5250] = .ok (.cmpw (.imm4 5) 0) ∧
  decodeWords [0x22B1, 0x00F0] = .ok (.andw (.imm16 0x00F0) 1) ∧
  decodeWords [0x0800] = .ok (.seq 0) ∧
  decodeWords [0x4146] = .ok (.ashub (.reg 4) 6) ∧
  decodeWords [0x73B3, 0x0002] = .ok (.sbitb 3 (.abs20 0x30002)) ∧
  decodeWords [0x0014, 0x10C0] = .ok (.lprd 0 12) ∧
  decodeWords [0x0010, 0x0711, 0x0010] = .ok (.bne (.disp25 0x0B8008)) ∧
  decodeWords [0xC000, 0x0F6C] = .ok (.bal .implied 0x0007B6) ∧
  decodeWords [0x0223] = .ok (.pop false 2 3) ∧
  decodeWords [0x8990, 0x0632] = .ok (.loadw (.abs20 0x00632) 9) ∧
  decodeWords [0x000B] = .ok (.cinv .iu)

/-- After reset the PC is the default RESET_PC 0, of the PSR E alone is 1, CFG is 0, DBS, every DCR and every DSR
are 0, nothing is pending and the core does not wait. RESET_PC 0 is the default the model takes (log entry 5).
(R600, R601, R606) -/
def Obligations.ResetState : Prop :=
  State.reset.pc = 0 ∧ psrWord State.reset.psr 0 = 0x0200 ∧ cfgWord State.reset.cfg 0 = 0 ∧
    State.reset.dbg.bank = 0 ∧
    (∀ b : BitVec 2, (State.reset.dbg.get b).dcrl = 0 ∧ (State.reset.dbg.get b).dsr = 0 ∧
      (State.reset.dbg.get b).bpMask = false ∧ (State.reset.dbg.get b).seqArmed = false) ∧
    State.reset.dbg.ctl = ⟨false, false, false, false, false, false⟩ ∧ State.reset.dbg.pending = false ∧
    State.reset.iadPending = false ∧ State.reset.waiting = false ∧ State.reset.eLag = none

/-- A reset input is honoured in every state, ahead of every exception: the PC is RESET_PC, of the PSR E alone is 1,
CFG is 0, without a hardware debug module DBS, DCR and DSR are 0, nothing is pending, memory is untouched, the
instruction cache holds nothing (what it held, and what was prefetched, may still be fetched: log entry 20), R2
holds the old PSR, R0 and R1 hold bits 16:1 and 23:17 of the old PC, which is that of the instruction at the PC,
of the one after it, or of the one it goes to (decision D32, log entry 20). That the PC itself is captured where
the words there make no instruction, and stands for the address gone to where the instruction would be refused,
is the model's choice (log entry 54). (R600, R601, R602) -/
def Obligations.ResetInputEvent : Prop :=
  ∀ s : State, s.pc.getLsbD 0 = false → s.nextInputs.reset = true → ∃ (t : State) (old : Addr),
    step s = .next t ∧ t.pc = s.config.resetPc ∧
    t.psr = ⟨false, false, false, false, false, false, false, true, false, false⟩ ∧
    t.cfg = ⟨false, false, false, false, false, false⟩ ∧
    (s.config.hwDebugModule = false → t.dbg.bank = 0 ∧ t.dbg.ctl = ⟨false, false, false, false, false, false⟩ ∧
      ∀ b : BitVec 2, (t.dbg.get b).dcrl = 0 ∧ (t.dbg.get b).dsr = 0) ∧
    (∀ b : BitVec 2, (t.dbg.get b).bpMask = false ∧ (t.dbg.get b).seqArmed = false) ∧
    t.dbg.pending = false ∧ t.iadPending = false ∧ t.waiting = false ∧ t.eLag = none ∧ t.mem = s.mem ∧
    (∃ l : List Host.Cell, t.stale = { prefetch := l, icache := [], icacheLocked := [], locked := false, fresh := [] } ∧
      ∀ c : Host.Cell, c ∈ l ↔ c ∈ s.stale.olds) ∧
    (t.reg 0).toNat = old.toNat / 2 % 65536 ∧ (t.reg 1).toNat = old.toNat / 131072 ∧
    PsrAt s.config.hwDebugModule s.psr (t.reg 2) ∧
    (old = s.pc ∨ ∃ i : Instr, decodeWords (s.afterInputs.drew 32).fetchWords = .ok i ∧
      (old = s.pc + BitVec.ofNat 24 (instrBytes i) ∨
        ∃ u : State, exec i (s.afterInputs.drew 32) = .next u ∧ old = u.pc))

/-- Where nothing is asked of the boundary and none of the bytes at the PC was overwritten since it could be fetched
or is a device's, a step is exec of the instruction the words at the PC decode to, in the same state with the
inputs of the boundary used up and PSR.T copied to PSR.P (T and P have no effect with the hardware debug
module); where the words do not make an instruction because they end at the top of memory, the step takes the
IAD trap. That an instruction cut off by the top of memory takes IAD is decision D37 (log entry 35). (R505,
R530, R537) -/
def Obligations.StepRunsDecoded : Prop :=
  ∀ s : State, Quiet s → CodeKnown s →
    (∀ i : Instr, decodeWords s.codeWords = .ok i →
      step s = exec i { s.afterInputs with
        psr := if s.config.hwDebugModule then s.psr else { s.psr with p := s.psr.t } }) ∧
    (∀ e : DecodeError, decodeWords s.codeWords = .error e → step s = .next (s.afterInputs.enter .iad s.pc))

/-- A fetched byte is the byte in memory, one of the contents held as overwritten, or what a device answers; where
none is held and no device stands at the PC the fetched words are those in memory. What is held is old content:
whatever a step adds to it is what memory held before the step at an address the step changed. A step that
changes a byte leaves its old content to be fetched from the prefetch, unless it serializes, which leaves none
there, and from an instruction cache that is present and enabled, which alone adds to what that cache holds:
among the contents a locked line may hold where memory held the content while fetches locked the lines they
placed, else among those of its unlocked lines; a byte changed while lines may be locked and CFG.LIC is 0 has
from then on a content that no locked line holds, and lines are locked only with CFG.IC and CFG.LIC both 1 (log
entry 18). The choice among the contents is decision D10 (log entry 17), the device map log entry 39. (R35,
R106, R112, R113, R621, R622) -/
def Obligations.FetchSeesMemory : Prop :=
  (∀ (s : State) (a k : Nat), s.fetchByte a k = s.mem.byte a ∨ (a, s.fetchByte a k) ∈ s.stale.olds ∨
      s.isDevice a = true) ∧
  (∀ s : State, s.stale.olds = [] → (∀ k : Nat, k < 6 → s.isDevice (s.pc.toNat + k) = false) →
      s.fetchWords = s.codeWords) ∧
  (∀ s t : State, step s = .next t →
      (∀ c ∈ t.stale.olds, c ∈ s.stale.olds ∨ (c.2 = s.mem.byte c.1 ∧ t.mem.byte c.1 ≠ c.2)) ∧
      (∀ a : Nat, t.mem.byte a ≠ s.mem.byte a → t.stale.prefetch = [] ∨ (a, s.mem.byte a) ∈ t.stale.prefetch) ∧
      (∀ a : Nat, s.icacheOn = true → t.mem.byte a ≠ s.mem.byte a →
        (s.stale.mayLock a = true → (a, s.mem.byte a) ∈ t.stale.icacheLocked ∧
          (s.cfg.lic = false → t.stale.mayLock a = false)) ∧
        (s.stale.mayLock a = false → (a, s.mem.byte a) ∈ t.stale.icache)) ∧
      (∀ c ∈ t.stale.icache, c ∈ s.stale.icache ∨ (s.icacheOn = true ∧ s.stale.mayLock c.1 = false)) ∧
      (∀ c ∈ t.stale.icacheLocked, c ∈ s.stale.icacheLocked ∨ (s.icacheOn = true ∧ s.stale.mayLock c.1 = true)) ∧
      (∀ a : Nat, t.stale.mayLock a = true → s.stale.mayLock a = true ∨ t.lockingLines = true))

/-- After LPR, LPRD, RETX, EXCP, and after the entry of any exception, no prefetched content from before is left to
run. (R107, R622) -/
def Obligations.SerializingInstructions : Prop :=
  ∀ s t : State,
    (∀ (r : RegNum) (n : ProcRegNum), exec (.lpr r n) s = .next t → t.stale.prefetch = []) ∧
    (∀ (p : PairNum) (n : ProcRegNum), exec (.lprd p n) s = .next t → t.stale.prefetch = []) ∧
    (exec .retx s = .next t → t.stale.prefetch = []) ∧
    (∀ v : BitVec 4, exec (.excp v) s = .next t → t.stale.prefetch = []) ∧
    (∀ (x : Exc) (ret : Addr), (s.enter x ret).stale.prefetch = [])

/-- From every state that meets the invariant, every step ends in one that meets it: the PC, ISP, INTBASE and
RESET_PC are even, memory keeps its canonical form within the 24-bit space, EXF exists in DSR0 only, an
instruction cache that locks the lines it fills is known to hold locked lines of any present content, one that
holds no locked line has nothing noted of such, and one that is absent or off holds nothing. The canonical form
of memory, in which an unlisted byte reads 0 (log entry 4), what is noted of the instruction cache, whose
organisation the spec leaves out (log entry 18), and the 0 in the place of EXF in another bank (log entry 49)
are the model's choices. (R26, R28, R29, R35, R41, R80, R110, R112, R326, R606) -/
def Obligations.StepKeepsInvariant : Prop :=
  ∀ s t : State, s.Inv → step s = .next t → t.Inv

/-- The invariant that every step keeps holds of the state after reset, so it holds of every state a run reaches.
ISP and INTBASE, to which the spec gives no reset value, and the empty memory are the model's choice (log
entries 3 and 4), as are what is noted of the instruction cache (log entry 18) and the 0 in the place of EXF in
another bank (log entry 49). (R26, R28, R29, R601) -/
def Obligations.ResetMeetsInvariant : Prop :=
  State.reset.Inv

/-- No step changes the parameters of the chip, and every step that ends in a next state uses up the inputs of
exactly one boundary. That the parameters are a field of the state is log entry 5, that the inputs are a list
with one record for each boundary log entry 2 (decision D31): both the model's choice. (R7, R503, R530) -/
def Obligations.StepKeepsChip : Prop :=
  ∀ s t : State, step s = .next t → t.config = s.config ∧ t.inputs = s.inputs.tail

/-- A step that goes from supervisor mode to user mode runs, from the state it fetches in, the instruction its
fetched words decode to, and that is JUSR, Jcond with condition 15, which is JUSR, or RETX. (R33, R541, R542) -/
def Obligations.UserModeEntered : Prop :=
  ∀ s t : State, s.psr.u = false → step s = .next t → t.psr.u = true →
    let v := s.atFetch
    let u := (v.drew v.fetchDraws).start
    ∃ i : Instr, decodeWords v.fetchWords = .ok i ∧ entersUser i = true ∧ exec i u = .next t ∧ u.pc = s.pc ∧
      u.regs = s.regs ∧ u.mem = s.mem ∧ u.isp = s.isp

/-- While PSR.U is 1, no step but a reset changes CFG, INTBASE, the supervisor stack pointer, DBS.BANK, a compare
address or the alternate-behaviour and lock bits of DCR0. (R33, R328, R540, R543) -/
def Obligations.UserModeKeepsSystem : Prop :=
  ∀ s t : State, s.psr.u = true → s.nextInputs.reset = false → step s = .next t →
    t.cfg = s.cfg ∧ t.intbase = s.intbase ∧ t.regs.sp = s.regs.sp ∧ t.dbg.bank = s.dbg.bank ∧
    t.dbg.ctl = { s.dbg.ctl with efb := t.dbg.ctl.efb } ∧
    ∀ b : BitVec 2, (t.dbg.get b).car0 = (s.dbg.get b).car0 ∧ (t.dbg.get b).car1 = (s.dbg.get b).car1

/-- Whatever instruction runs, and whether it completes or traps, it leaves Z, N and L unless it is one that R30
names as writing them, and so for C, for F, for E and for I; one that does not trap leaves T and P unless it is
LPR, LPRD or RETX, and U unless it is JUSR, Jcond with condition 15, which is JUSR, or RETX; one that traps
clears T, P and U; at the start of each instruction T is copied to P and no other status bit changes (with the
hardware debug module T and P have no effect and are left, log entry 25). (R30, R33, R505, R511) -/
def Obligations.StatusBitWriters : Prop :=
  (∀ (i : Instr) (s t : State), exec i s = .next t →
    (setsZNL i = false → t.psr.z = s.psr.z ∧ t.psr.n = s.psr.n ∧ t.psr.l = s.psr.l) ∧
    (setsC i = false → t.psr.c = s.psr.c) ∧ (setsF i = false → t.psr.f = s.psr.f) ∧
    (setsE i = false → t.psr.e = s.psr.e) ∧ (setsI i = false → t.psr.i = s.psr.i) ∧
    (traps i s = false → setsT i = false → t.psr.t = s.psr.t ∧ t.psr.p = s.psr.p) ∧
    (traps i s = false → entersUser i = false → t.psr.u = s.psr.u) ∧
    (traps i s = true → t.psr.t = false ∧ t.psr.p = false ∧ t.psr.u = false)) ∧
  (∀ s : State, s.start.psr = if s.config.hwDebugModule then s.psr else { s.psr with p := s.psr.t })

/-- Once DCR0.DBGL is 1, no step but a reset clears it or changes ABPT, ATRC, ADBG or AISE. (R39, R326, R600) -/
def Obligations.DebugLockHolds : Prop :=
  ∀ s t : State, s.dbg.ctl.dbgl = true → s.nextInputs.reset = false → step s = .next t →
    t.dbg.ctl.dbgl = true ∧ t.dbg.ctl.abpt = s.dbg.ctl.abpt ∧ t.dbg.ctl.atrc = s.dbg.ctl.atrc ∧
      t.dbg.ctl.adbg = s.dbg.ctl.adbg ∧ t.dbg.ctl.aise = s.dbg.ctl.aise

/-- Taking an exception writes the frame of R518 below ISP: the return address shifted right by one in the first
double-word (bits 31:23 zero), the PSR in the word above it (P cleared first for TRC); ISP goes down by 6 modulo
2^24, P, T and U are cleared, and I for the interrupts and DBG; the wait ends; every general register, INTBASE,
CFG, and every byte of memory outside the frame stay. With ISP below 6 the double-word is not written and IAD is
pending, with ISP below 2 the PSR is not written either; all the rest is the same (decision D24, log entry 36).
What is not RAM holds no store (log entry 39). The order and the zero bits of the frame are decision D36 (log
entry 36). (R510, R511, R516, R518) -/
def Obligations.EntryFrame : Prop :=
  ∀ (s : State) (x : Exc) (ret : Addr),
    let t := s.enter x ret
    let sp : Int := (s.isp.toNat : Int) - 6
    (t.isp.toNat : Int) = sp % 2 ^ 24 ∧
    BytesStored sp 4 (ret.toNat / 2) s t ∧
    (∃ v : Word, PsrAt s.config.hwDebugModule (if x = .trc then { s.psr with p := false } else s.psr) v ∧
      BytesStored (sp + 4) 2 v.toNat s t) ∧
    NotRamKept s t ∧ MemoryKeptOutside sp 6 s t ∧ (sp < 0 → MemoryKeptOutside (sp + 4) 2 s t) ∧
    (sp + 4 < 0 → ∀ a : Nat, t.mem.byte a = s.mem.byte a) ∧ (sp < 0 → t.iadPending = true) ∧
    t.psr = { s.psr with p := false, t := false, u := false, i := t.psr.i } ∧
    (t.psr.i = true ↔ s.psr.i = true ∧ x ≠ .nmi ∧ (∀ v : Byte, x ≠ .int v) ∧ x ≠ .ise ∧ x ≠ .dbg) ∧
    t.waiting = false ∧ t.regs = s.regs ∧ t.intbase = s.intbase ∧ t.cfg = s.cfg ∧ t.eLag = s.eLag ∧
    t.inputs = s.inputs ∧ t.config = s.config ∧ (Undebugged s → t.dbg = s.dbg)

/-- The PC after an entry is twice the dispatch-table entry of the exception's vector: a word at INTBASE + 2v with
CFG.ED = 0, bits 22:0 of a double-word at INTBASE + 4v with CFG.ED = 1, and of the double-word at 4v when the
alternate-behaviour bit of BPT, TRC, DBG or ISE is set, whatever INTBASE and ED hold; the entry is read after
the frame is written. A read above the top of memory gives an unspecified entry, so an unspecified even PC, and
leaves IAD pending, as a frame below address 0 does (decision D24, log entry 36). Which bits of a double-word
entry count is decision D19 (log entry 36). (R501, R510, R513, R514, R516) -/
def Obligations.EntryDispatch : Prop :=
  ∀ (s : State) (x : Exc) (ret : Addr) (v : Nat),
    ((x, v) ∈ [(Exc.nmi, 1), (.svc, 5), (.dvz, 6), (.flg, 7), (.bpt, 8), (.trc, 9), (.und, 10), (.iad, 12),
      (.dbg, 14), (.ise, 15)] ∨ ∃ b : Byte, x = .int b ∧ v = b.toNat) →
    let t := s.enter x ret
    let alt := (x = .bpt ∧ s.dbg.ctl.abpt = true) ∨ (x = .trc ∧ s.dbg.ctl.atrc = true) ∨
      (x = .dbg ∧ s.dbg.ctl.adbg = true) ∨ (x = .ise ∧ s.dbg.ctl.aise = true)
    (alt → ∃ e : Nat, BytesLoaded (4 * v : Nat) 4 e t ∧ t.pc.toNat = 2 * (e % 2 ^ 23)) ∧
    (¬ alt → s.cfg.ed = true → ∃ e : Nat, BytesLoaded (s.intbase.toNat + 4 * v : Nat) 4 e t ∧
      t.pc.toNat = 2 * (e % 2 ^ 23)) ∧
    (¬ alt → s.cfg.ed = false → ∃ e : Nat, BytesLoaded (s.intbase.toNat + 2 * v : Nat) 2 e t ∧
      t.pc.toNat = 2 * (e % 2 ^ 16)) ∧
    (t.iadPending = true ↔ s.iadPending = true ∨ s.isp.toNat < 6 ∨
      (¬ alt ∧ s.cfg.ed = true ∧ 2 ^ 24 < s.intbase.toNat + 4 * v + 4) ∨
      (¬ alt ∧ s.cfg.ed = false ∧ 2 ^ 24 < s.intbase.toNat + 2 * v + 2))

/-- A return right after an entry gives the PC, the whole PSR, ISP, every general register, CFG and INTBASE back as
they were (P cleared for TRC), without the hardware debug module and with room for the frame in RAM. The order
and the zero bits of the frame are decision D36 (log entry 36), what is RAM log entry 39. (R362, R510, R515) -/
def Obligations.EntryThenReturn : Prop :=
  ∀ (s : State) (x : Exc) (ret : Addr), 6 ≤ s.isp.toNat → ret.getLsbD 0 = false →
    s.config.hwDebugModule = false →
    (∀ k : Nat, k < 6 → s.isRam (s.isp.toNat - 6 + k) = true) → ∃ t : State, exec .retx (s.enter x ret) = .next t ∧
      t.pc = ret ∧ t.psr = (if x = .trc then { s.psr with p := false } else s.psr) ∧ t.isp = s.isp ∧
      t.regs = s.regs ∧ t.cfg = s.cfg ∧ t.intbase = s.intbase ∧ t.waiting = false

/-- At a boundary without reset and without a masked range breakpoint, a pending DBG trap is taken ahead of
everything else, and a pending IAD trap (or the external illegal-address line, where the chip has it) ahead of
every tag, interrupt and TRC trap; each saves the PC and is no longer pending when it is entered. That DBG and
IAD stand ahead of the tag check is decision D35 (log entry 21), that the external line is taken at the boundary
it is sampled in decision D43 (log entry 46). (R528, R530, R531, R533) -/
def Obligations.PendingTrapsFirst : Prop :=
  ∀ s : State, s.pc.getLsbD 0 = false → s.nextInputs.reset = false → s.maskedRange = false →
    let bad := s.iadPending || (s.config.extIad && s.nextInputs.extIad)
    ∃ d : Nat,
      (s.dbg.pending = true → s.config.hwDebugModule = false → step s =
        .next (State.enter { s.afterInputs with
          eLag := none, draws := d, iadPending := bad, dbg := { s.dbg with pending := false } } .dbg s.pc)) ∧
      (s.dbg.pending = false → bad = true → step s =
        .next (State.enter { s.afterInputs with eLag := none, draws := d, iadPending := false } .iad s.pc))

/-- At a calm boundary an NMI request is accepted whatever the masks are; a maskable request when there is no NMI
and I and E are 1, with the acknowledge byte 16..127 as its vector (another byte is outside the model, log entry
26); an ISE request when neither is accepted. (R501, R520, R521, R522, R530, R532) -/
def Obligations.InterruptsAccepted : Prop :=
  ∀ s : State, Calm s →
    (s.nextInputs.nmi = true → step s = .next (s.afterInputs.enter .nmi s.pc)) ∧
    (s.nextInputs.nmi = false → s.nextInputs.int = true → s.psr.i = true → s.psr.e = true →
      (16 ≤ s.nextInputs.ack.toNat → s.nextInputs.ack.toNat ≤ 127 →
        step s = .next (s.afterInputs.enter (.int s.nextInputs.ack) s.pc)) ∧
      (s.nextInputs.ack.toNat < 16 ∨ 127 < s.nextInputs.ack.toNat → step s = .refused .vectorOutOfRange)) ∧
    (s.nextInputs.nmi = false → s.nextInputs.int = false ∨ s.psr.i = false ∨ s.psr.e = false →
      s.nextInputs.ise = true → step s = .next (s.afterInputs.enter .ise s.pc))

/-- With I = 0, or with E = 0 and no change of E just made, a step is the same whether or not a maskable interrupt
is requested; right after EI, DI or EIWAIT a requested maskable interrupt with I = 1 is accepted or ignored as
the new E or the old E has it (decision D16, log entry 19). That a masked request does not end the wait either
is decision D12 (log entry 34). (R34, R520, R552, R624) -/
def Obligations.InterruptEnable : Prop :=
  ∀ s : State,
    let ignored (u : State) : State := { u with inputs := { s.nextInputs with int := false } :: s.inputs.tail }
    (s.psr.i = false ∨ (s.psr.e = false ∧ s.eLag = none) → step s = step (ignored s)) ∧
    (∀ old : Bool, s.eLag = some old → Calm { s with eLag := none } → s.nextInputs.nmi = false →
      s.nextInputs.int = true → s.psr.i = true → 16 ≤ s.nextInputs.ack.toNat → s.nextInputs.ack.toNat ≤ 127 →
      ∃ (e : Bool) (d : Nat), (e = s.psr.e ∨ e = old) ∧
        step s = if e then .next (State.enter { s.afterInputs with eLag := none, draws := d }
            (.int s.nextInputs.ack) s.pc)
          else step (ignored { s with eLag := none, draws := d }))

/-- At a calm boundary where no interrupt is requested, a waiting core stays as it is but for the inputs used up,
and a core that does not wait and holds P = 1 takes the TRC trap instead of the instruction. That only an
accepted request ends the wait is decision D12 (log entry 34). (R530, R534, R550, R552) -/
def Obligations.WaitAndTrace : Prop :=
  ∀ s : State, Calm s → s.nextInputs.nmi = false → s.nextInputs.int = false → s.nextInputs.ise = false →
    (s.waiting = true → step s = .next s.afterInputs) ∧
    (s.waiting = false → s.psr.p = true → s.config.hwDebugModule = false →
      step s = .next (s.afterInputs.enter .trc s.pc))

/-- Every data access of an instruction, and of an exception entry, is seen one after the other by both channels of
every implemented bank, at its lowest address and for a read or for a write: a load, a store or a bit test makes
one, CBITi and SBITi a read and then a write (of the one byte BitSel names where a word lies at an odd address),
PUSH, POP, POPRET and the multiple transfers one for each word, ascending, RETX the two reads of the frame; an
entry writes the PSR and then the PC of the frame, makes the acknowledge read of an interrupt or of DBG, TRC,
BPT with their alternate-behaviour bit, and reads the dispatch table. A channel hits by its masked address, in a
range with EAR, as the second of two conditions with ESQ; a hit sets the channel's BRD or BWR, clears DEN0, DEN1
of its bank and EFB, makes the DBG trap pending, and the access is performed; without a hit nothing is recorded
but the first condition of a complex breakpoint. Without the hardware debug module (R576, log entry 25) and
without a masked range (log entry 24). The address compared, and that none outside 24 bits is, is decision D38
(log entry 23), the sequence of a complex breakpoint decision D40 (log entry 21), the order of the frame
decision D36 (log entry 36), the lists and counts of PUSH, POP, POPRET and the multiple transfers decisions D3
and D14 (log entries 10 and 28), the addresses of LOADM and STORM past 0xFFFF decision D34 (log entry 31), the
number of banks log entry 5. (R41, R87, R309, R362, R363, R510, R562, R563, R564, R565, R568, R577) -/
def Obligations.DataBreakpoint : Prop :=
  (∀ (s : State) (r : RegNum) (p : PairNum) (b3 : BitVec 3) (b4 : BitVec 4) (m : MemAddr) (d : BitAddr) (ra : Bool)
      (a : Int) (i : Instr) (l : List (Int × Bool)), s.config.hwDebugModule = false → s.maskedRange = false →
    let bit : Int := if a % 2 = 0 then a else a + b4.toNat / 8
    let n := b3.toNat + 1
    let k := (stackSlots s.cfg.sr ra b3 r).length
    (s.ea 1 m = some a ∧ (i, l) ∈ [(Instr.loadb m r, [(a, false)]), (.storb r m, [(a, true)])] ∨
      s.ea 2 m = some a ∧ (i, l) ∈ [(Instr.loadw m r, [(a, false)]), (.loadd m p, [(a, false)]),
        (.storw r m, [(a, true)]), (.stord p m, [(a, true)])] ∨
      s.eaBit d = some a ∧ (i, l) ∈ [(Instr.tbitb b3 d, [(a, false)]), (.tbitw b4 d, [(bit, false)]),
        (.storbImm b4 d, [(a, true)]), (.storwImm b4 d, [(a, true)]),
        (.cbitb b3 d, [(a, false), (a, true)]), (.sbitb b3 d, [(a, false), (a, true)]),
        (.cbitw b4 d, [(bit, false), (bit, true)]), (.sbitw b4 d, [(bit, false), (bit, true)])]) ∨
    ((i, l) ∈ [(Instr.loadm b3, wordAccesses (s.reg 0).toNat n false),
        (.loadmp b3, wordAccesses (s.pair 0).toNat n false), (.storm b3, wordAccesses (s.reg 1).toNat n true),
        (.stormp b3, wordAccesses (s.pair 6).toNat n true)]) ∨
    (stackValid s.cfg.sr b3 r = true ∧
        (i, l) ∈ [(Instr.push ra b3 r, wordAccesses (((s.pair 15).toNat : Int) - 2 * k) k true),
          (.pop ra b3 r, wordAccesses (s.pair 15).toNat k false),
          (.popret ra b3 r, wordAccesses (s.pair 15).toNat k false)]) ∨
    (i, l) = (.retx, [((s.isp.toNat : Int), false), ((s.isp.toNat : Int) + 4, false)]) →
    ∃ t : State, exec i s = .next t ∧ DebugUnit.SawAll s.config.lastBank l s.dbg t.dbg ∧
      (i = .storb r m → 0 ≤ a → a < 2 ^ 24 → s.isRam a.toNat = true → t.mem.byte a.toNat = s.regB r)) ∧
  (∀ (s : State) (x : Exc) (ret : Addr) (v : Nat) (ack : List (Int × Bool)), s.config.hwDebugModule = false →
    s.maskedRange = false →
    ((x, v, ack) ∈ [(Exc.nmi, 1, [((0xFFFF00 : Int), false)]), (.ise, 15, [(0xFFFC00, false)]), (.svc, 5, []),
        (.dvz, 6, []), (.flg, 7, []), (.und, 10, []), (.iad, 12, []),
        (.bpt, 8, if s.dbg.ctl.abpt then [(0xFFFC0E, false)] else []),
        (.trc, 9, if s.dbg.ctl.atrc then [(0xFFFC0C, false)] else []),
        (.dbg, 14, if s.dbg.ctl.adbg then [(0xFFFC02, false)] else [])] ∨
      ∃ b : Byte, (x, v, ack) = (.int b, b.toNat, [((0xFFFE00 : Int), false)])) →
    let alt := (x = .bpt ∧ s.dbg.ctl.abpt = true) ∨ (x = .trc ∧ s.dbg.ctl.atrc = true) ∨
      (x = .dbg ∧ s.dbg.ctl.adbg = true) ∨ (x = .ise ∧ s.dbg.ctl.aise = true)
    ∃ entry : Int, (alt → entry = 4 * v) ∧ (¬ alt → s.cfg.ed = true → entry = s.intbase.toNat + 4 * v) ∧
      (¬ alt → s.cfg.ed = false → entry = s.intbase.toNat + 2 * v) ∧
      DebugUnit.SawAll s.config.lastBank
        ([((s.isp.toNat : Int) - 2, true), ((s.isp.toNat : Int) - 6, true)] ++ ack ++ [(entry, false)]) s.dbg
        (s.enter x ret).dbg)

/-- At a boundary that reaches the tag check, where an implemented bank whose breakpoint mask is clear has a hit at
the PC (by the masked address of either channel, in a range with EAR, as the second condition with ESQ), or the
external line tags with EFB set, the step takes the DBG trap with the PC saved, ahead of every interrupt: each
bank with a hit has its BPC bit and its mask set and its DEN0, DEN1 cleared, a tagged bank 0 has EXF set and
DEN0, DEN1 cleared, EFB is cleared. Where there is no such hit, no interrupt and no trace, the instruction runs,
and a set mask at whose PC the bank does hit is used up. The mask is decision D39 (log entries 22 and 48), the
place of the check ahead of the interrupts D35, the sequence of a complex breakpoint D40 (log entry 21 for
both). That the address of the first word alone is compared, so that a match on a later word does not tag, is
decision D38 (log entry 23). Without the hardware debug module (R576, log entry 25) and without a masked range
(log entry 24). That a match the mask suppresses leaves the sequencer armed (log entry 52), and that with ESQ
only a hit of the armed sequencer uses the mask up (log entry 53), are the model's choices. (R505, R530, R533,
R561, R563, R564, R565, R566, R567, R568, R577) -/
def Obligations.PcBreakpoint : Prop :=
  ∀ s : State, AtTagCheck s →
    (Tagged s → ∃ u t : State, step s = .next t ∧ t = u.enter .dbg s.pc ∧
      u = { s.afterInputs with dbg := u.dbg, eLag := none, draws := u.draws } ∧
      u.dbg.bank = s.dbg.bank ∧ u.dbg.pending = false ∧ u.dbg.ctl = { s.dbg.ctl with efb := false } ∧
      t.dbg.ctl = u.dbg.ctl ∧
      (∀ b : BitVec 2, s.config.lastBank < b → u.dbg.get b = s.dbg.get b) ∧
      (∀ b : BitVec 2, b ≤ s.config.lastBank → ∃ y : DebugBank,
        DebugBank.Recorded (s.dbg.get b).OnPc s.pc.toNat (s.dbg.get b).bpMask 0 4 (s.dbg.get b) y ∧
        (y.bpMask = true ↔ (s.dbg.get b).bpMask = true ∨ (s.dbg.get b).AnyHit (s.dbg.get b).OnPc s.pc.toNat) ∧
        u.dbg.get b = (if b = 0 ∧ s.dbg.ctl.efb = true ∧ s.nextInputs.brkl = true then y.tagged else y) ∧
        ((s.dbg.get b).bpMask = false → (s.dbg.get b).AnyHit (s.dbg.get b).OnPc s.pc.toNat →
          t.dbg.get b = u.dbg.get b))) ∧
    (¬ Tagged s → s.nextInputs.nmi = false → s.nextInputs.int = false → s.nextInputs.ise = false →
      s.psr.p = false → s.eLag = none → CodeKnown s → ∀ i : Instr, decodeWords s.codeWords = .ok i →
      ∃ u : State, step s = exec i u ∧
        u = { s.afterInputs with dbg := u.dbg, psr := { s.psr with p := s.psr.t } } ∧
        u.dbg.bank = s.dbg.bank ∧ u.dbg.pending = false ∧ u.dbg.ctl = s.dbg.ctl ∧
        (∀ b : BitVec 2, s.config.lastBank < b → u.dbg.get b = s.dbg.get b) ∧
        (∀ b : BitVec 2, b ≤ s.config.lastBank →
          DebugBank.Recorded (s.dbg.get b).OnPc s.pc.toNat (s.dbg.get b).bpMask 0 4 (s.dbg.get b) (u.dbg.get b) ∧
          ((u.dbg.get b).bpMask = true ↔ (s.dbg.get b).bpMask = true ∧
            ¬ (u.dbg.get b).AnyHit (u.dbg.get b).OnPc s.pc.toNat)))

/-- A pair number names two adjacent 16-bit registers, or one 32-bit register: 15 always, 12 to 14 when CFG.SR is 0;
with CFG.SR 1, 12 to 14 name low halves of adjacent 32-bit registers; number 15 is SP, or USP in user mode; the
implied RA operand is RA, or the pair of RA and R13 when CFG.SR is 1. (R22, R23, R24, R27) -/
def Obligations.RegisterPairs : Prop :=
  ∀ s : State,
    (∀ n : PairNum, n ≤ 11 → s.pair n = s.reg (n + 1) ++ s.reg n) ∧
    (s.cfg.sr = false → s.pair 12 = s.regs.r12 ∧ s.pair 13 = s.regs.r13 ∧ s.pair 14 = s.regs.ra ∧
      s.pair s.raPair = s.regs.ra) ∧
    (s.cfg.sr = true → s.pair 12 = s.reg 13 ++ s.reg 12 ∧ s.pair 13 = s.reg 14 ++ s.reg 13 ∧
      s.pair 14 = s.reg 15 ++ s.reg 14 ∧ s.pair s.raPair = s.reg 14 ++ s.reg 13) ∧
    s.pair 15 = (if s.psr.u then s.regs.usp else s.regs.sp) ∧
    s.reg 12 = s.regs.r12.extractLsb' 0 16 ∧ s.reg 13 = s.regs.r13.extractLsb' 0 16 ∧
    s.reg 14 = s.regs.ra.extractLsb' 0 16 ∧
    s.reg 15 = (if s.psr.u then s.regs.usp else s.regs.sp).extractLsb' 0 16

/-- An imm4 field is its value, 9 being -1; an imm16 is sign-extended to a double-word and cut to its low byte for a
byte (decision D30, log entry 32); an imm20 is zero-extended; a shift count is n to the left, n less the width
to the right (log entry 12), or the signed low byte of a register; a branch displacement is twice its signed
field. (R131, R133, R135, R137, R138, R142, R207, R289) -/
def Obligations.OperandValues : Prop :=
  ∀ (s : State) (f : BitVec 4) (w : Word) (g : BitVec 20) (v : DWord) (r : RegNum) (p : PairNum),
    (f ≠ 9 → (s.srcB (.imm4 f)).toNat = f.toNat ∧ (s.srcW (.imm4 f)).toNat = f.toNat ∧
      (s.srcD (.imm4 f)).toNat = f.toNat ∧ (s.srcC (.imm4 f)).toNat = f.toNat) ∧
    ((s.srcB (.imm4 9)).toInt = -1 ∧ (s.srcW (.imm4 9)).toInt = -1 ∧ (s.srcD (.imm4 9)).toInt = -1 ∧
      (s.srcC (.imm4 9)).toInt = -1) ∧
    ((s.srcB (.imm16 w)).toNat = w.toNat % 256 ∧ s.srcW (.imm16 w) = w ∧ (s.srcD (.imm16 w)).toInt = w.toInt ∧
      (s.srcC (.imm16 w)).toInt = w.toInt) ∧
    (s.srcD (.imm20 g)).toNat = g.toNat ∧ s.srcD (.imm32 v) = v ∧ s.srcC (.imm32 v) = v ∧ s.srcL (.imm32 v) = v ∧
    ((s.srcB (.reg r)).toNat = (s.reg r).toNat % 256 ∧ s.srcW (.reg r) = s.reg r ∧ s.srcD (.pair p) = s.pair p ∧
      s.srcC (.pair p) = s.pair p ∧ s.srcL (.pair p) = s.pair p) ∧
    (∀ n : BitVec 3, s.count (.left n) = n.toNat ∧ s.count (.right n) = (n.toNat : Int) - 8 ∧
      s.rightCount (.right n) = (n.toNat : Int) - 8) ∧
    (∀ n : BitVec 4, s.count (.left n) = n.toNat ∧ s.count (.right n) = (n.toNat : Int) - 16 ∧
      s.rightCount (.right n) = (n.toNat : Int) - 16) ∧
    (∀ n : BitVec 5, s.count (.left n) = n.toNat ∧ s.count (.right n) = (n.toNat : Int) - 32 ∧
      s.rightCount (.right n) = (n.toNat : Int) - 32) ∧
    (s.count (w := 3) (.reg r) = ((s.reg r).setWidth 8).toInt ∧ s.count (w := 4) (.reg r) = ((s.reg r).setWidth 8).toInt ∧
      s.count (w := 5) (.reg r) = ((s.reg r).setWidth 8).toInt ∧
      s.rightCount (w := 3) (.reg r) = ((s.reg r).setWidth 8).toInt ∧
      s.rightCount (w := 4) (.reg r) = ((s.reg r).setWidth 8).toInt ∧
      s.rightCount (w := 5) (.reg r) = ((s.reg r).setWidth 8).toInt) ∧
    (∀ h : BitVec 8, branchDisp (.disp9 h) = 2 * h.toInt) ∧ branchDisp (.disp17 w) = 2 * w.toInt ∧
    (∀ h : BitVec 24, branchDisp (.disp25 h) = 2 * h.toInt)

/-- Each addressing form of the loads, stores and bit operations computes the address of R101, an unbounded integer:
a base register or pair, or an index register plus a base pair, plus an unsigned displacement; disp4 doubled for
words; -disp20 the field less 2^20; abs20 above 0xEFFFF remapped; the forms read by CFG.SR use a register with
SR 1 and an index register plus a base pair with SR 0. (R25, R94, R101, R102, R103) -/
def Obligations.EffectiveAddresses : Prop :=
  ∀ (s : State) (k : Nat) (p : PairNum) (r : RegNum) (n : IndexNum) (f : BitVec 4) (d14 : BitVec 14) (d16 : Word)
      (d20 : BitVec 20) (a24 : Addr) (rs : Bool),
    let base : PairNum := [0, 2, 4, 6, 8, 10, 3, 5].getD (n.toNat % 8) 0
    let sum : Int := (if n.toNat < 8 then s.regs.r12 else s.regs.r13).toNat + (s.pair base).toNat
    let byMode : Int := if s.cfg.sr then (s.reg n).toNat else sum
    let absolute : Int := if d20.toNat ≤ 0xEFFFF then d20.toNat else (0xF00000 ||| d20.toNat : Nat)
    let index : Int := (if rs then s.regs.r13 else s.regs.r12).toNat
    s.ea k (.disp4 p f) = some (((s.pair p).toNat : Int) + k * f.toNat) ∧
    s.ea k (.prp0 n) = some byMode ∧
    s.ea k (.disp14 n d14) = some (byMode + d14.toNat) ∧ s.eaBit (.disp14 n d14) = some (byMode + d14.toNat) ∧
    s.ea k (.disp16 p d16) = some (((s.pair p).toNat : Int) + d16.toNat) ∧
    s.eaBit (.disp16 p d16) = some (((s.pair p).toNat : Int) + d16.toNat) ∧
    s.eaBit (.pair0 p) = some ((s.pair p).toNat : Int) ∧
    s.ea k (.disp20Reg r d20) = some (((s.reg r).toNat : Int) + d20.toNat) ∧
    s.eaBit (.disp20Reg r d20) = some (((s.reg r).toNat : Int) + d20.toNat) ∧
    s.ea k (.disp20Pair p d20) = some (((s.pair p).toNat : Int) + d20.toNat) ∧
    s.eaBit (.disp20Pair p d20) = some (((s.pair p).toNat : Int) + d20.toNat) ∧
    s.ea k (.negDisp20Reg r d20) = some (((s.reg r).toNat : Int) + ((d20.toNat : Int) - 2 ^ 20)) ∧
    s.ea k (.negDisp20Pair p d20) = some (((s.pair p).toNat : Int) + ((d20.toNat : Int) - 2 ^ 20)) ∧
    s.ea k (.abs20 d20) = some absolute ∧ s.eaBit (.abs20 d20) = some absolute ∧
    s.ea k (.abs24 a24) = some (a24.toNat : Int) ∧ s.eaBit (.abs24 a24) = some (a24.toNat : Int) ∧
    (s.cfg.sr = false →
      s.ea k (.disp20Index n d20) = some (sum + d20.toNat) ∧ s.eaBit (.disp20Index n d20) = some (sum + d20.toNat) ∧
      s.ea k (.abs20Index rs d20) = some (index + d20.toNat) ∧
      s.eaBit (.abs20Index rs d20) = some (index + d20.toNat))

/-- With CFG.SR 1 the list is the 16-bit registers from the first on; with CFG.SR 0 a register from R12 on gives its
low half and then its high half; the RA bit adds the two halves of the implied RA operand; the parameters are
valid as the table of R348 has them. Counts and lists are decisions D3 and D14 (log entries 10 and 28). (R141,
R347, R348) -/
def Obligations.StackLists : Prop :=
  ∀ (ra : Bool) (count : BitVec 3) (n : RegNum),
    (stackValid true count n = true ↔ count.toNat + 1 + n.toNat ≤ 15) ∧
    (stackValid false count n = true ↔ n.toNat ≤ 10 ∨ n.toNat = 11 ∧ count.toNat + 1 ≤ 7 ∨
      n.toNat = 12 ∧ count.toNat + 1 ≤ 6 ∨ n.toNat = 13 ∧ count.toNat + 1 ≤ 4 ∨ n.toNat = 14 ∧ count.toNat + 1 ≤ 2) ∧
    stackSlots true ra count n = (List.range (count.toNat + 1)).map (fun k => ⟨n + BitVec.ofNat 4 k, false⟩) ++
      (if ra then [⟨13, false⟩, ⟨14, false⟩] else []) ∧
    (stackValid false count n = true → stackSlots false ra count n = (List.range (count.toNat + 1)).map (fun k =>
        if n.toNat + k < 12 then ⟨n + BitVec.ofNat 4 k, false⟩
        else if n.toNat < 12 then ⟨BitVec.ofNat 4 (12 + (n.toNat + k - 12) / 2), (n.toNat + k - 12) % 2 == 1⟩
        else ⟨n + BitVec.ofNat 4 (k / 2), k % 2 == 1⟩) ++
      (if ra then [⟨14, false⟩, ⟨14, true⟩] else []))

/-- MOVB writes the source to the low byte of its destination and leaves the high byte, MOVW writes the word, MOVXB
the sign-extended and MOVZB the zero-extended low byte; the PSR, every other register, memory and the special
registers stay. (R200, R201, R203, R205) -/
def Obligations.MovesToRegisters : Prop :=
  ∀ (s : State) (src : Src) (r d : RegNum),
    (∃ t : State, exec (.movb src d) s = .next t ∧ LowByte d (s.srcB src).toNat s t ∧ t.psr = s.psr ∧
      RegisterFrame [⟨d, false⟩] (srcBytes src) s t) ∧
    (∃ t : State, exec (.movw src d) s = .next t ∧ t.reg d = s.srcW src ∧ t.psr = s.psr ∧
      RegisterFrame [⟨d, false⟩] (srcBytes src) s t) ∧
    (∃ t : State, exec (.movxb r d) s = .next t ∧ (t.reg d).toInt = ((s.reg r).setWidth 8).toInt ∧ t.psr = s.psr ∧
      RegisterFrame [⟨d, false⟩] 2 s t) ∧
    (∃ t : State, exec (.movzb r d) s = .next t ∧ (t.reg d).toNat = (s.reg r).toNat % 256 ∧ t.psr = s.psr ∧
      RegisterFrame [⟨d, false⟩] 2 s t)

/-- MOVD writes the double-word source to the pair, MOVXW the sign-extended and MOVZW the zero-extended word; the
PSR, every half of a register outside the pair, memory and the special registers stay. (R202, R204, R206) -/
def Obligations.MovesToPairs : Prop :=
  ∀ (s : State) (src : SrcD) (r : RegNum) (d : PairNum),
    (∃ t : State, exec (.movd src d) s = .next t ∧ t.pair d = s.srcD src ∧ t.psr = s.psr ∧
      RegisterFrame (s.pairSlots d) (srcDBytes src) s t) ∧
    (∃ t : State, exec (.movxw r d) s = .next t ∧ (t.pair d).toInt = (s.reg r).toInt ∧ t.psr = s.psr ∧
      RegisterFrame (s.pairSlots d) 2 s t) ∧
    (∃ t : State, exec (.movzw r d) s = .next t ∧ (t.pair d).toNat = (s.reg r).toNat ∧ t.psr = s.psr ∧
      RegisterFrame (s.pairSlots d) 2 s t)

/-- The sum, with the carry in for ADDC, is written modulo 2^N, C is the carry out, F the signed overflow; no other
status bit, no other register, no memory and no special register changes. (R215, R220, R221, R222, R225, R226) -/
def Obligations.AdditionsWithFlags : Prop :=
  ∀ (s : State) (src : Src) (srcD : SrcD) (d : RegNum) (p : PairNum),
    (∃ t : State, exec (.addb src d) s = .next t ∧ ∃ r : Nat, LowByte d r s t ∧
      SumOf (s.regB d) (s.srcB src) false r s.psr t.psr ∧ RegisterFrame [⟨d, false⟩] (srcBytes src) s t) ∧
    (∃ t : State, exec (.addw src d) s = .next t ∧
      SumOf (s.reg d) (s.srcW src) false (t.reg d).toNat s.psr t.psr ∧
      RegisterFrame [⟨d, false⟩] (srcBytes src) s t) ∧
    (∃ t : State, exec (.addd srcD p) s = .next t ∧
      SumOf (s.pair p) (s.srcD srcD) false (t.pair p).toNat s.psr t.psr ∧
      RegisterFrame (s.pairSlots p) (srcDBytes srcD) s t) ∧
    (∃ t : State, exec (.addcb src d) s = .next t ∧ ∃ r : Nat, LowByte d r s t ∧
      SumOf (s.regB d) (s.srcB src) s.psr.c r s.psr t.psr ∧ RegisterFrame [⟨d, false⟩] (srcBytes src) s t) ∧
    (∃ t : State, exec (.addcw src d) s = .next t ∧
      SumOf (s.reg d) (s.srcW src) s.psr.c (t.reg d).toNat s.psr t.psr ∧
      RegisterFrame [⟨d, false⟩] (srcBytes src) s t)

/-- The difference destination less source, less the borrow in for SUBC, is written modulo 2^N, C is the borrow, F
the signed overflow; nothing else changes. (R216, R227, R228, R229, R230, R231) -/
def Obligations.SubtractionsWithFlags : Prop :=
  ∀ (s : State) (src : Src) (srcL : SrcL) (d : RegNum) (p : PairNum),
    (∃ t : State, exec (.subb src d) s = .next t ∧ ∃ r : Nat, LowByte d r s t ∧
      DifferenceOf (s.regB d) (s.srcB src) false r s.psr t.psr ∧ RegisterFrame [⟨d, false⟩] (srcBytes src) s t) ∧
    (∃ t : State, exec (.subw src d) s = .next t ∧
      DifferenceOf (s.reg d) (s.srcW src) false (t.reg d).toNat s.psr t.psr ∧
      RegisterFrame [⟨d, false⟩] (srcBytes src) s t) ∧
    (∃ t : State, exec (.subd srcL p) s = .next t ∧
      DifferenceOf (s.pair p) (s.srcL srcL) false (t.pair p).toNat s.psr t.psr ∧
      RegisterFrame (s.pairSlots p) (srcLBytes srcL) s t) ∧
    (∃ t : State, exec (.subcb src d) s = .next t ∧ ∃ r : Nat, LowByte d r s t ∧
      DifferenceOf (s.regB d) (s.srcB src) s.psr.c r s.psr t.psr ∧
      RegisterFrame [⟨d, false⟩] (srcBytes src) s t) ∧
    (∃ t : State, exec (.subcw src d) s = .next t ∧
      DifferenceOf (s.reg d) (s.srcW src) s.psr.c (t.reg d).toNat s.psr t.psr ∧
      RegisterFrame [⟨d, false⟩] (srcBytes src) s t)

/-- The sum is written modulo 2^N and no status bit changes, nor anything else. (R223, R224) -/
def Obligations.AdditionsWithoutFlags : Prop :=
  ∀ (s : State) (src : Src) (d : RegNum),
    (∃ t : State, exec (.addub src d) s = .next t ∧
      LowByte d (((s.reg d).toNat % 256 + (s.srcB src).toNat) % 256) s t ∧ t.psr = s.psr ∧
      RegisterFrame [⟨d, false⟩] (srcBytes src) s t) ∧
    (∃ t : State, exec (.adduw src d) s = .next t ∧
      (t.reg d).toNat = ((s.reg d).toNat + (s.srcW src).toNat) % 65536 ∧ t.psr = s.psr ∧
      RegisterFrame [⟨d, false⟩] (srcBytes src) s t)

/-- MULB and MULW keep the low byte and word of the product, which is the same for signed and unsigned operands;
MULSB and MULSW give the exact signed product of the low halves in twice the width, MULUW the exact unsigned
one; no status bit and nothing else changes. (R232, R233, R234, R235, R236) -/
def Obligations.Products : Prop :=
  ∀ (s : State) (src : Src) (r d : RegNum) (p : PairNum),
    (∃ t : State, exec (.mulb src d) s = .next t ∧
      LowByte d ((s.reg d).toNat * (s.srcB src).toNat % 256) s t ∧ t.psr = s.psr ∧
      RegisterFrame [⟨d, false⟩] (srcBytes src) s t) ∧
    (∃ t : State, exec (.mulw src d) s = .next t ∧
      (t.reg d).toNat = (s.reg d).toNat * (s.srcW src).toNat % 65536 ∧ t.psr = s.psr ∧
      RegisterFrame [⟨d, false⟩] (srcBytes src) s t) ∧
    (∃ t : State, exec (.mulsb r d) s = .next t ∧
      (t.reg d).toInt = ((s.reg r).setWidth 8).toInt * ((s.reg d).setWidth 8).toInt ∧ t.psr = s.psr ∧
      RegisterFrame [⟨d, false⟩] 2 s t) ∧
    (∃ t : State, exec (.mulsw r p) s = .next t ∧
      (t.pair p).toInt = (s.reg r).toInt * ((s.pair p).setWidth 16).toInt ∧ t.psr = s.psr ∧
      RegisterFrame (s.pairSlots p) 2 s t) ∧
    (∃ t : State, exec (.muluw r p) s = .next t ∧
      (t.pair p).toNat = (s.reg r).toNat * ((s.pair p).toNat % 65536) ∧ t.psr = s.psr ∧
      RegisterFrame (s.pairSlots p) 2 s t)

/-- With the MAC unit present, MACSW and MACUW add the product to the pair and saturate to the signed and unsigned
32-bit range; MACQW doubles the product, saturates it, adds it and saturates again (the doubling is decision
D33, log entry 30); no status bit and nothing else changes. Without the unit each takes the UND trap (decision
D11, log entry 38). (R217, R218, R237, R238, R239) -/
def Obligations.MultiplyAccumulates : Prop :=
  ∀ (s : State) (a b : RegNum) (p : PairNum),
    let clamp (x : Int) : Int := max (-2 ^ 31) (min (2 ^ 31 - 1) x)
    (s.config.macPresent = true →
      (∃ t : State, exec (.macsw a b p) s = .next t ∧
        (t.pair p).toInt = clamp ((s.pair p).toInt + (s.reg a).toInt * (s.reg b).toInt) ∧ t.psr = s.psr ∧
        RegisterFrame (s.pairSlots p) 4 s t) ∧
      (∃ t : State, exec (.macuw a b p) s = .next t ∧
        (t.pair p).toNat = min (2 ^ 32 - 1) ((s.pair p).toNat + (s.reg a).toNat * (s.reg b).toNat) ∧
        t.psr = s.psr ∧ RegisterFrame (s.pairSlots p) 4 s t) ∧
      (∃ t : State, exec (.macqw a b p) s = .next t ∧
        (t.pair p).toInt = clamp ((s.pair p).toInt + clamp (2 * ((s.reg a).toInt * (s.reg b).toInt))) ∧
        t.psr = s.psr ∧ RegisterFrame (s.pairSlots p) 4 s t)) ∧
    (s.config.macPresent = false →
      ∀ i ∈ [Instr.macsw a b p, .macuw a b p, .macqw a b p], exec i s = .next (s.enter .und s.pc))

/-- Z says whether the operands are equal, N whether the second is the lower as a signed number, L as an unsigned
one; no other status bit, no register, no memory and no special register changes. (R31, R260, R261, R262, R263) -/
def Obligations.Comparisons : Prop :=
  ∀ (s : State) (src : Src) (srcC : SrcC) (r : RegNum) (p : PairNum),
    (∃ t : State, exec (.cmpb src r) s = .next t ∧ ComparedAs (s.srcB src) (s.regB r) s.psr t.psr ∧
      RegisterFrame [] (srcBytes src) s t) ∧
    (∃ t : State, exec (.cmpw src r) s = .next t ∧ ComparedAs (s.srcW src) (s.reg r) s.psr t.psr ∧
      RegisterFrame [] (srcBytes src) s t) ∧
    (∃ t : State, exec (.cmpd srcC p) s = .next t ∧ ComparedAs (s.srcC srcC) (s.pair p) s.psr t.psr ∧
      RegisterFrame [] (srcCBytes srcC) s t)

/-- Each bit of the result is the AND, OR or exclusive OR of the bits of the destination and the source; a byte
operation leaves bits 15:8; no status bit and nothing else changes. (R270, R271, R272, R273, R274, R275, R276,
R277, R278) -/
def Obligations.LogicOperations : Prop :=
  ∀ (s : State) (src : Src) (srcL : SrcL) (d : RegNum) (p : PairNum),
    (∃ t : State, exec (.andb src d) s = .next t ∧
      (∀ k : Nat, (t.reg d).getLsbD k = if k < 8 then ((s.reg d).getLsbD k && (s.srcB src).getLsbD k)
        else (s.reg d).getLsbD k) ∧ t.psr = s.psr ∧ RegisterFrame [⟨d, false⟩] (srcBytes src) s t) ∧
    (∃ t : State, exec (.andw src d) s = .next t ∧
      (∀ k : Nat, (t.reg d).getLsbD k = ((s.reg d).getLsbD k && (s.srcW src).getLsbD k)) ∧ t.psr = s.psr ∧
      RegisterFrame [⟨d, false⟩] (srcBytes src) s t) ∧
    (∃ t : State, exec (.andd srcL p) s = .next t ∧
      (∀ k : Nat, (t.pair p).getLsbD k = ((s.pair p).getLsbD k && (s.srcL srcL).getLsbD k)) ∧
      t.psr = s.psr ∧ RegisterFrame (s.pairSlots p) (srcLBytes srcL) s t) ∧
    (∃ t : State, exec (.orb src d) s = .next t ∧
      (∀ k : Nat, (t.reg d).getLsbD k = if k < 8 then ((s.reg d).getLsbD k || (s.srcB src).getLsbD k)
        else (s.reg d).getLsbD k) ∧ t.psr = s.psr ∧ RegisterFrame [⟨d, false⟩] (srcBytes src) s t) ∧
    (∃ t : State, exec (.orw src d) s = .next t ∧
      (∀ k : Nat, (t.reg d).getLsbD k = ((s.reg d).getLsbD k || (s.srcW src).getLsbD k)) ∧ t.psr = s.psr ∧
      RegisterFrame [⟨d, false⟩] (srcBytes src) s t) ∧
    (∃ t : State, exec (.ord srcL p) s = .next t ∧
      (∀ k : Nat, (t.pair p).getLsbD k = ((s.pair p).getLsbD k || (s.srcL srcL).getLsbD k)) ∧
      t.psr = s.psr ∧ RegisterFrame (s.pairSlots p) (srcLBytes srcL) s t) ∧
    (∃ t : State, exec (.xorb src d) s = .next t ∧
      (∀ k : Nat, (t.reg d).getLsbD k = if k < 8 then ((s.reg d).getLsbD k ^^ (s.srcB src).getLsbD k)
        else (s.reg d).getLsbD k) ∧ t.psr = s.psr ∧ RegisterFrame [⟨d, false⟩] (srcBytes src) s t) ∧
    (∃ t : State, exec (.xorw src d) s = .next t ∧
      (∀ k : Nat, (t.reg d).getLsbD k = ((s.reg d).getLsbD k ^^ (s.srcW src).getLsbD k)) ∧ t.psr = s.psr ∧
      RegisterFrame [⟨d, false⟩] (srcBytes src) s t) ∧
    (∃ t : State, exec (.xord srcL p) s = .next t ∧
      (∀ k : Nat, (t.pair p).getLsbD k = ((s.pair p).getLsbD k ^^ (s.srcL srcL).getLsbD k)) ∧
      t.psr = s.psr ∧ RegisterFrame (s.pairSlots p) (srcLBytes srcL) s t)

/-- Each of the fourteen mnemonics writes 1 to its 16-bit destination if its condition of R40 holds and 0 if not;
the encoding with any condition does the same (conditions 14 and 15 hold always: decision D15, log entry 29); no
status bit and nothing else changes. (R40, R279) -/
def Obligations.ConditionalSets : Prop :=
  ∀ (s : State) (d : RegNum) (c : Cond) (i : Instr),
    (i, c) ∈ [(Instr.seq d, Cond.eq), (.sne d, .ne), (.scs d, .cs), (.scc d, .cc), (.shi d, .hi),
        (.sls d, .ls), (.sgt d, .gt), (.sle d, .le), (.sfs d, .fs), (.sfc d, .fc),
        (.slo d, .lo), (.shs d, .hs), (.slt d, .lt), (.sge d, .ge)] ∨
      i = .scond c d →
    ∃ t : State, exec i s = .next t ∧ (CondHolds c s.psr → t.reg d = 1) ∧ (¬ CondHolds c s.psr → t.reg d = 0) ∧
      t.psr = s.psr ∧ RegisterFrame [⟨d, false⟩] 2 s t

/-- With a count from -(N-1) to N-1 an arithmetic or logical shift to the left multiplies by a power of two modulo
2^N, to the right divides, rounding down, the signed value (arithmetic) or the unsigned value (logical); a byte
shift leaves bits 15:8; no status bit and nothing else changes. The immediate counts to the right are decision
D5 (log entry 12). (R288, R289, R290, R291, R292, R293, R294, R295) -/
def Obligations.ShiftsInRange : Prop :=
  ∀ (s : State) (d : RegNum) (p : PairNum),
    (∀ n : Count 3, -7 ≤ s.count n → s.count n ≤ 7 → ∃ t : State, exec (.ashub n d) s = .next t ∧
      ∃ r : Nat, LowByte d r s t ∧ (0 ≤ s.count n → r = (s.regB d).toNat * 2 ^ (s.count n).toNat % 2 ^ 8) ∧
      (s.count n < 0 → (BitVec.ofNat 8 r).toInt = (s.regB d).toInt / 2 ^ (-(s.count n)).toNat) ∧
      t.psr = s.psr ∧ RegisterFrame [⟨d, false⟩] 2 s t) ∧
    (∀ n : Count 4, -15 ≤ s.count n → s.count n ≤ 15 → ∃ t : State, exec (.ashuw n d) s = .next t ∧
      (0 ≤ s.count n → (t.reg d).toNat = (s.reg d).toNat * 2 ^ (s.count n).toNat % 2 ^ 16) ∧
      (s.count n < 0 → (BitVec.ofNat 16 (t.reg d).toNat).toInt = (s.reg d).toInt / 2 ^ (-(s.count n)).toNat) ∧
      t.psr = s.psr ∧ RegisterFrame [⟨d, false⟩] 2 s t) ∧
    (∀ n : Count 5, -31 ≤ s.count n → s.count n ≤ 31 → ∃ t : State, exec (.ashud n p) s = .next t ∧
      (0 ≤ s.count n → (t.pair p).toNat = (s.pair p).toNat * 2 ^ (s.count n).toNat % 2 ^ 32) ∧
      (s.count n < 0 → (BitVec.ofNat 32 (t.pair p).toNat).toInt = (s.pair p).toInt / 2 ^ (-(s.count n)).toNat) ∧
      t.psr = s.psr ∧ RegisterFrame (s.pairSlots p) 2 s t) ∧
    (∀ n : RightCount 3, -7 ≤ s.rightCount n → s.rightCount n ≤ 7 → ∃ t : State, exec (.lshb n d) s = .next t ∧
      ∃ r : Nat, LowByte d r s t ∧ (0 ≤ s.rightCount n → r = (s.regB d).toNat * 2 ^ (s.rightCount n).toNat % 2 ^ 8) ∧
      (s.rightCount n < 0 → r = (s.regB d).toNat / 2 ^ (-(s.rightCount n)).toNat) ∧
      t.psr = s.psr ∧ RegisterFrame [⟨d, false⟩] 2 s t) ∧
    (∀ n : RightCount 4, -15 ≤ s.rightCount n → s.rightCount n ≤ 15 → ∃ t : State, exec (.lshw n d) s = .next t ∧
      (0 ≤ s.rightCount n → (t.reg d).toNat = (s.reg d).toNat * 2 ^ (s.rightCount n).toNat % 2 ^ 16) ∧
      (s.rightCount n < 0 → (t.reg d).toNat = (s.reg d).toNat / 2 ^ (-(s.rightCount n)).toNat) ∧
      t.psr = s.psr ∧ RegisterFrame [⟨d, false⟩] 2 s t) ∧
    (∀ n : RightCount 5, -31 ≤ s.rightCount n → s.rightCount n ≤ 31 → ∃ t : State, exec (.lshd n p) s = .next t ∧
      (0 ≤ s.rightCount n → (t.pair p).toNat = (s.pair p).toNat * 2 ^ (s.rightCount n).toNat % 2 ^ 32) ∧
      (s.rightCount n < 0 → (t.pair p).toNat = (s.pair p).toNat / 2 ^ (-(s.rightCount n)).toNat) ∧
      t.psr = s.psr ∧ RegisterFrame (s.pairSlots p) 2 s t)

/-- With a count outside the legal range a shift completes: its destination holds an unspecified value, of which
nothing is said, and nothing else changes, no flag and, for a byte, no bit above the byte (decision D27, log
entry 12). (R288, R289) -/
def Obligations.ShiftsOutOfRange : Prop :=
  ∀ (s : State) (d : RegNum) (p : PairNum),
    (∀ n : Count 3, s.count n < -7 ∨ 7 < s.count n → ∃ t : State, exec (.ashub n d) s = .next t ∧
      (t.reg d).toNat / 256 = (s.reg d).toNat / 256 ∧ t.psr = s.psr ∧ RegisterFrame [⟨d, false⟩] 2 s t) ∧
    (∀ n : Count 4, s.count n < -15 ∨ 15 < s.count n → ∃ t : State, exec (.ashuw n d) s = .next t ∧
      t.psr = s.psr ∧ RegisterFrame [⟨d, false⟩] 2 s t) ∧
    (∀ n : Count 5, s.count n < -31 ∨ 31 < s.count n → ∃ t : State, exec (.ashud n p) s = .next t ∧
      t.psr = s.psr ∧ RegisterFrame (s.pairSlots p) 2 s t) ∧
    (∀ n : RightCount 3, s.rightCount n < -7 ∨ 7 < s.rightCount n → ∃ t : State, exec (.lshb n d) s = .next t ∧
      (t.reg d).toNat / 256 = (s.reg d).toNat / 256 ∧ t.psr = s.psr ∧ RegisterFrame [⟨d, false⟩] 2 s t) ∧
    (∀ n : RightCount 4, s.rightCount n < -15 ∨ 15 < s.rightCount n → ∃ t : State, exec (.lshw n d) s = .next t ∧
      t.psr = s.psr ∧ RegisterFrame [⟨d, false⟩] 2 s t) ∧
    (∀ n : RightCount 5, s.rightCount n < -31 ∨ 31 < s.rightCount n → ∃ t : State, exec (.lshd n p) s = .next t ∧
      t.psr = s.psr ∧ RegisterFrame (s.pairSlots p) 2 s t)

/-- The bit of the memory operand is cleared or set, its old value goes to F, and every other bit of memory, every
register and every other status bit stays; a word operation at an odd address touches the one byte that holds
the bit; at an illegal address nothing is written and IAD is pending (log entry 15). Read-only memory keeps its
bit, a device answers as it likes (log entry 39). (R87, R91, R309, R310, R311, R312, R313) -/
def Obligations.MemoryBitChanges : Prop :=
  ∀ (s : State) (b3 : BitVec 3) (b4 : BitVec 4) (dest : BitAddr) (a x : Int) (b : Nat) (v : Bool) (i : Instr),
    s.eaBit dest = some a →
    (i, x, b, v) ∈ [(Instr.cbitb b3 dest, a, b3.toNat, false), (.sbitb b3 dest, a, b3.toNat, true),
      (.cbitw b4 dest, a + b4.toNat / 8, b4.toNat % 8, false), (.sbitw b4 dest, a + b4.toNat / 8, b4.toNat % 8, true)] →
    ∃ t : State, exec i s = .next t ∧
      (Addressable x 1 → (s.isDevice x.toNat = false → t.psr.f = (s.mem.byte x.toNat).getLsbD b) ∧
        (s.isRam x.toNat = true → ∀ k : Nat,
          (t.mem.byte x.toNat).getLsbD k = if k = b then v else (s.mem.byte x.toNat).getLsbD k)) ∧
      NotRamKept s t ∧ MemoryKeptOutside x 1 s t ∧ (¬ Addressable x 1 → ∀ y : Nat, t.mem.byte y = s.mem.byte y) ∧
      t.psr = { s.psr with f := t.psr.f } ∧ t.regs = s.regs ∧ AccessKept s t ∧
      AdvancedOr (¬ Addressable x 1) (bitAddrBytes dest) s t

/-- The tested bit of the memory operand or of the register goes to F; no other status bit, no register and no
memory changes. With an offset register above 15 TBIT completes, F holds an unspecified value and nothing else
changes (log entry 1). Of a byte a device answers nothing is said (log entry 39). The illegal access is decision
D7 (log entry 15). (R91, R309, R314, R315, R316) -/
def Obligations.BitTests : Prop :=
  ∀ (s : State) (b3 : BitVec 3) (b4 : BitVec 4) (src : BitAddr) (r : RegNum) (fromReg : Bool),
    (∀ (a x : Int) (b : Nat) (i : Instr), s.eaBit src = some a →
      (i, x, b) ∈ [(Instr.tbitb b3 src, a, b3.toNat), (.tbitw b4 src, a + b4.toNat / 8, b4.toNat % 8)] →
      ∃ t : State, exec i s = .next t ∧ (Addressable x 1 → s.isDevice x.toNat = false →
          t.psr.f = (s.mem.byte x.toNat).getLsbD b) ∧
        t.psr = { s.psr with f := t.psr.f } ∧ t.regs = s.regs ∧ MemoryKept s t ∧ AccessKept s t ∧
        AdvancedOr (¬ Addressable x 1) (bitAddrBytes src) s t) ∧
    (∃ t : State, exec (.tbit fromReg b4 r) s = .next t ∧
      (fromReg = false → t.psr.f = (s.reg r).getLsbD b4.toNat) ∧
      (fromReg = true → (s.reg b4).toNat ≤ 15 → t.psr.f = (s.reg r).getLsbD (s.reg b4).toNat) ∧
      t.psr = { s.psr with f := t.psr.f } ∧ RegisterFrame [] 2 s t)

/-- In supervisor mode LPR writes the 16-bit register as the table of R326 has it: reserved bits and constant bits
ignored, U unchanged, DBGL set once and locking, the debug registers of the bank DBS selects; LPRD writes a
16-bit register by the low word, a 32-bit register as its low half and then its high half (ISP and INTBASE even
and of 24 bits, USP of 24 bits), and a reserved number changes no register; no general register but USP and no
memory changes; clearing CFG.IC, by either, invalidates the whole instruction cache. That a DCRL write with PC0
or PC1 0 clears the breakpoint mask is the model's choice between R326 and R572 (log entry 48); that LPRD of a
reserved number changes nothing is the spec's own treatment I14 of what its source leaves open (log entry 51).
Ignored reserved bits, the lock in its own write and the 24 bits of USP are log entries 13, 41 and 44; that a
bank other than 0 stores 0 for bit 3 of its DSR is log entry 49. (R42, R112, R326, R327, R330, R331) -/
def Obligations.LoadsProcessorRegister : Prop :=
  ∀ (s : State) (r : RegNum) (p : PairNum) (n : ProcRegNum), s.psr.u = false →
    (∃ t : State, exec (.lpr r n) s = .next t ∧ PrWritten n (s.reg r) s t ∧ Advanced 4 s t ∧
      (n = 8 → s.cfg.ic = true → (s.reg r).getLsbD 4 = false → t.IcacheEmpty)) ∧
    (∃ t : State, exec (.lprd p n) s = .next t ∧ Advanced 4 s t ∧
      (n ∈ [(0 : ProcRegNum), 1, 8, 9] → PrWritten n ((s.pair p).setWidth 16) s t) ∧
      (n ∈ [(2 : ProcRegNum), 4, 6, 10, 12, 14] → ∃ u : State, PrWritten n ((s.pair p).setWidth 16) s u ∧
        PrWritten (n + 1) ((s.pair p).extractLsb' 16 16) u t) ∧
      (n ∈ [(3 : ProcRegNum), 5, 7, 11, 13, 15] → t = { s with
        pc := t.pc, iadPending := t.iadPending, stale := t.stale }) ∧
      (n = 8 → s.cfg.ic = true → (s.pair p).getLsbD 4 = false → t.IcacheEmpty) ∧
      (n = 10 → t.intbase.toNat = 2 * ((s.pair p).toNat % 2 ^ 24 / 2)) ∧
      (n = 12 → t.isp.toNat = 2 * ((s.pair p).toNat % 2 ^ 24 / 2)) ∧
      (n = 14 → t.regs.usp.toNat = (s.pair p).toNat % 2 ^ 24))

/-- With PSR.U = 1 LPR and LPRD take the UND trap at their own address instead of executing: the frame holds the
address of the instruction, U is cleared, and no register they name is changed. The frame's place and its zero
bits 31:23 are decision D36, one that does not fit below ISP decision D24 (log entry 36 for both); what is not
RAM holds no store (log entry 39). (R328, R330, R331, R510, R518, R527) -/
def Obligations.PrivilegedLoads : Prop :=
  ∀ (s : State) (r : RegNum) (p : PairNum) (n : ProcRegNum), s.psr.u = true →
    ∀ i ∈ [Instr.lpr r n, .lprd p n], ∃ t : State, exec i s = .next t ∧ t = s.enter .und s.pc ∧
      t.regs = s.regs ∧ t.cfg = s.cfg ∧ t.intbase = s.intbase ∧ t.dbg.bank = s.dbg.bank ∧ t.psr.u = false ∧
      BytesStored ((s.isp.toNat : Int) - 6) 4 (s.pc.toNat / 2) s t

/-- In either mode SPR writes the 16-bit value of the processor register to its destination, and SPRD the
zero-extended value of a 16-bit register or both halves of a 32-bit one; no status bit, no other register, no
memory and no special register changes. That they run in either mode is decision D25 (log entry 33); reserved
bits are log entry 13, bit 3 of the DSR of a bank other than 0 is log entry 49. (R21, R37, R325, R327, R332,
R333) -/
def Obligations.StoresProcessorRegister : Prop :=
  ∀ (s : State) (n : ProcRegNum) (d : RegNum) (p : PairNum),
    (∃ t : State, exec (.spr n d) s = .next t ∧ PrReads n (t.reg d) s ∧ t.psr = s.psr ∧
      RegisterFrame [⟨d, false⟩] 4 s t) ∧
    (∃ t : State, exec (.sprd n p) s = .next t ∧ t.psr = s.psr ∧ RegisterFrame (s.pairSlots p) 4 s t ∧
      (n ∈ [(0 : ProcRegNum), 1, 8, 9] → (t.pair p).toNat < 65536 ∧ PrReads n ((t.pair p).setWidth 16) s) ∧
      (n ∈ [(2 : ProcRegNum), 4, 6, 10, 12, 14] → PrReads n ((t.pair p).setWidth 16) s ∧
        PrReads (n + 1) ((t.pair p).extractLsb' 16 16) s))

/-- A branch whose condition of R40 holds goes to its own address plus its displacement, and to the next instruction
otherwise; outside the address space IAD is pending; nothing else changes. BR holds always, and so does the
encoding with condition 15 (decision D15, log entry 29). (R40, R345, R350, R351) -/
def Obligations.Branches : Prop :=
  ∀ (s : State) (dest : BranchDisp) (c : Cond) (i : Instr),
    (i, c) ∈ [(Instr.beq dest, Cond.eq), (.bne dest, .ne), (.bcs dest, .cs), (.bcc dest, .cc), (.bhi dest, .hi),
        (.bls dest, .ls), (.bgt dest, .gt), (.ble dest, .le), (.bfs dest, .fs), (.bfc dest, .fc),
        (.blo dest, .lo), (.bhs dest, .hs), (.blt dest, .lt), (.bge dest, .ge),
      (.br dest, .always)] ∨ i = .bcond c dest →
    ∃ t : State, exec i s = .next t ∧
      BranchedTo (CondHolds c s.psr) (s.pc.toNat + branchDisp dest) (branchBytes dest) s t

/-- The low byte or the word of the register is compared with 0, and the branch goes 2 to 32 bytes forward if the
condition holds; nothing but the PC changes, the PSR least of all. (R353, R354, R355, R356) -/
def Obligations.CompareBranches : Prop :=
  ∀ (s : State) (r : RegNum) (j : BitVec 4) (i : Instr) (taken : Prop),
    (i = .beq0b r j ∧ (taken ↔ (s.reg r).toNat % 256 = 0)) ∨ (i = .beq0w r j ∧ (taken ↔ (s.reg r).toNat = 0)) ∨
      (i = .bne0b r j ∧ (taken ↔ (s.reg r).toNat % 256 ≠ 0)) ∨ (i = .bne0w r j ∧ (taken ↔ (s.reg r).toNat ≠ 0)) →
    ∃ t : State, exec i s = .next t ∧ BranchedTo taken (s.pc.toNat + 2 * (j.toNat + 1)) 2 s t

/-- A register jump whose condition of R40 holds goes to twice the low 23 bits of its pair, and to the next
instruction otherwise; JUMP jumps always; JUSR jumps always and sets U, its pair read before U changes; nothing
else changes. (R40, R357, R358, R359) -/
def Obligations.RegisterJumps : Prop :=
  ∀ (s : State) (dest : PairNum) (c : Cond) (i : Instr),
    ((i, c) ∈ [(Instr.jeq dest, Cond.eq), (.jne dest, .ne), (.jcs dest, .cs), (.jcc dest, .cc), (.jhi dest, .hi),
        (.jls dest, .ls), (.jgt dest, .gt), (.jle dest, .le), (.jfs dest, .fs), (.jfc dest, .fc),
        (.jlo dest, .lo), (.jhs dest, .hs), (.jlt dest, .lt), (.jge dest, .ge),
        (.jump dest, .always)] ∨ (i = .jcond c dest ∧ c ≠ .uc) →
      ∃ t : State, exec i s = .next t ∧
        BranchedTo (CondHolds c s.psr) (2 * ((s.pair dest).toNat % 2 ^ 23) : Nat) 2 s t) ∧
    (i = .jusr dest ∨ i = .jcond .uc dest →
      ∃ t : State, exec i s = .next t ∧ t = { s with pc := t.pc, psr := { s.psr with u := true } } ∧
        t.pc.toNat = 2 * ((s.pair dest).toNat % 2 ^ 23))

/-- BAL and JAL write the address of the next instruction shifted right by one to their link operand, RA (or the
pair of RA and R13 with CFG.SR 1) in the short form; BAL goes to its own address plus the displacement, JAL to
twice the low 23 bits its pair held before the link was written; no status bit and nothing else changes. That
JAL jumps by the value its pair held before the link was written is decision D26 (log entry 40). (R24, R345,
R346, R352, R360) -/
def Obligations.Links : Prop :=
  ∀ (s : State) (link : Link) (h : BitVec 24) (dest l : PairNum),
    (link = .implied ∧ l = (if s.cfg.sr then 13 else 14)) ∨ link = .pair l →
    (∃ t : State, exec (.bal link h) s = .next t ∧
      (t.pair l).toNat = (s.pc.toNat + balBytes link) % 2 ^ 24 / 2 ∧ t.psr = s.psr ∧ RegsKept (s.pairSlots l) s t ∧
      MemoryKept s t ∧ SystemKept s t ∧ WentTo (s.pc.toNat + 2 * h.toInt) s t) ∧
    (∃ t : State, exec (.jal link dest) s = .next t ∧
      (t.pair l).toNat = (s.pc.toNat + jalBytes link) % 2 ^ 24 / 2 ∧ t.psr = s.psr ∧ RegsKept (s.pairSlots l) s t ∧
      MemoryKept s t ∧ SystemKept s t ∧ WentTo (2 * ((s.pair dest).toNat % 2 ^ 23) : Nat) s t)

/-- EXCP takes SVC, DVZ, FLG or BPT as its vector says and UND for any other; a reserved encoding takes UND; the
entry saves the address of the instruction itself. With the hardware debug module EXCP BPT enters hardware debug
mode instead, which the spec leaves out: a refusal (log entry 25). (R361, R456, R523, R524, R525, R526, R527,
R574) -/
def Obligations.TrapInstructions : Prop :=
  ∀ (s : State) (v : BitVec 4) (w : Word) (ope : BitVec 4),
    (v = 5 → exec (.excp v) s = .next (s.enter .svc s.pc)) ∧
    (v = 6 → exec (.excp v) s = .next (s.enter .dvz s.pc)) ∧
    (v = 7 → exec (.excp v) s = .next (s.enter .flg s.pc)) ∧
    (v = 8 → s.config.hwDebugModule = false → exec (.excp v) s = .next (s.enter .bpt s.pc)) ∧
    (v = 8 → s.config.hwDebugModule = true → exec (.excp v) s = .refused .hardwareDebugMode) ∧
    (v ≠ 5 → v ≠ 6 → v ≠ 7 → v ≠ 8 → exec (.excp v) s = .next (s.enter .und s.pc)) ∧
    exec (.resUnd w ope) s = .next (s.enter .und s.pc)

/-- RETX reads the frame at ISP in either mode: the PC becomes twice the low 23 bits of the double-word there, every
defined bit of the PSR, U included, comes from the word above it, ISP goes up by 6; no general register, no
memory, CFG and INTBASE stay. An access outside the address space leaves IAD pending. That RETX runs in either
mode is decision D25 (log entry 33), the access outside the address space and ISP modulo 2^24 decision D24 (log
entry 36); a device answers as it likes (log entry 39). (R362, R515, R516) -/
def Obligations.ReturnFromException : Prop :=
  ∀ s : State, ∃ t : State, exec .retx s = .next t ∧
    (∃ (e : Nat) (w : Word), BytesLoaded s.isp.toNat 4 e s ∧ t.pc.toNat = 2 * (e % 2 ^ 23) ∧
      BytesLoaded (s.isp.toNat + 4) 2 w.toNat s ∧ PsrAt false t.psr (w &&& 0xFEEF)) ∧
    t.isp.toNat = (s.isp.toNat + 6) % 2 ^ 24 ∧ t.regs = s.regs ∧ t.mem = s.mem ∧ t.cfg = s.cfg ∧
    t.intbase = s.intbase ∧ (Undebugged s → t.dbg = s.dbg) ∧ t.waiting = s.waiting ∧ t.eLag = s.eLag ∧
    t.inputs = s.inputs ∧ t.config = s.config ∧
    (t.iadPending = true ↔ s.iadPending = true ∨ 2 ^ 24 < s.isp.toNat + 6)

/-- PUSH with valid parameters stores the words of its transfer list, as they were before, ascending from the stack
pointer less twice their number, which becomes the stack pointer (SP, or USP in user mode); a word at an illegal
address is not written and leaves IAD pending, and so does a stack pointer above 0x00FFFFFF before the
instruction, the words at legal addresses below it still written (log entry 50); no other register, no other
byte of memory and no status bit changes. What is not RAM holds no store (log entry 39). That a count which ends
in the low half of a 32-bit register stores that half alone, and that the validity table of POP holds for PUSH,
is decision D14 (log entry 28). The illegal access is decision D7 (log entry 15), the count decision D3 (log
entry 10). (R87, R92, R347, R348, R363) -/
def Obligations.Pushes : Prop :=
  ∀ (s : State) (ra : Bool) (count : BitVec 3) (src : RegNum), stackValid s.cfg.sr count src = true →
    let words := (stackSlots s.cfg.sr ra count src).map s.slot
    let base : Int := ((s.pair 15).toNat : Int) - 2 * words.length
    ∃ t : State, exec (.push ra count src) s = .next t ∧ WordsStored base words s t ∧
      (t.pair 15).toNat = (base % 2 ^ 32).toNat ∧ RegsKept (s.pairSlots 15) s t ∧ t.psr = s.psr ∧
      AccessKept s t ∧ AdvancedOr (2 ^ 24 ≤ (s.pair 15).toNat ∨ ¬ Addressable base (2 * words.length)) 2 s t

/-- POP with valid parameters loads its transfer list from ascending words at the stack pointer, which goes up by
twice their number; POPRET then jumps to twice the low 23 bits of the implied RA operand as it is after the
pops; a read at an illegal address gives an unspecified word and leaves IAD pending; no other register, no
memory and no status bit changes. Of a byte a device answers nothing is said (log entry 39). The illegal access
is decision D7 (log entry 15), the count decision D3 (log entry 10), the list decision D14 (log entry 28); that
the sequential advance of POPRET leaves no IAD pending is log entry 16. (R87, R92, R347, R348, R364, R365) -/
def Obligations.Pops : Prop :=
  ∀ (s : State) (ra : Bool) (count : BitVec 3) (dest : RegNum), stackValid s.cfg.sr count dest = true →
    let slots := stackSlots s.cfg.sr ra count dest
    let base : Nat := (s.pair 15).toNat
    let popped (t : State) : Prop := SlotsLoaded base slots s t ∧
      (t.pair 15).toNat = (base + 2 * slots.length) % 2 ^ 32 ∧ RegsKept (slots ++ s.pairSlots 15) s t ∧
      t.psr = s.psr ∧ MemoryKept s t ∧ AccessKept s t
    (∃ t : State, exec (.pop ra count dest) s = .next t ∧ popped t ∧
      AdvancedOr (¬ Addressable base (2 * slots.length)) 2 s t) ∧
    (∃ t : State, exec (.popret ra count dest) s = .next t ∧ popped t ∧
      t.pc.toNat = 2 * ((t.pair (if s.cfg.sr then 13 else 14)).toNat % 2 ^ 23) ∧
      (t.iadPending = true ↔ s.iadPending = true ∨ ¬ Addressable base (2 * slots.length)))

/-- A load writes the bytes at its effective address, low byte first, to the low byte of its register, to the
register or to the pair; an illegal address gives an unspecified value and leaves IAD pending; no other half of
a register, no memory and no status bit changes. Of a byte a device answers nothing is said (log entry 39). That
a load whose destination is also its base or index uses the old value for the address is decision D26 (log entry
40). The illegal access is decision D7 (log entry 15). (R84, R91, R395, R396, R400, R401, R402) -/
def Obligations.Loads : Prop :=
  ∀ (s : State) (src : MemAddr) (d : RegNum) (p : PairNum) (a : Int),
    (s.ea 1 src = some a → ∃ t : State, exec (.loadb src d) s = .next t ∧
      BytesLoaded a 1 ((t.reg d).toNat % 256) s ∧
      (t.reg d).toNat / 256 = (s.reg d).toNat / 256 ∧ LoadFrame [⟨d, false⟩] a 1 (memAddrBytes src) s t) ∧
    (s.ea 2 src = some a → ∃ t : State, exec (.loadw src d) s = .next t ∧
      BytesLoaded a 2 (t.reg d).toNat s ∧
      LoadFrame [⟨d, false⟩] a 2 (memAddrBytes src) s t) ∧
    (s.ea 2 src = some a → ∃ t : State, exec (.loadd src p) s = .next t ∧
      BytesLoaded a 4 (t.pair p).toNat s ∧
      LoadFrame (s.pairSlots p) a 4 (memAddrBytes src) s t)

/-- A store writes the low byte of its register, the register, the pair or its zero-extended 4-bit immediate to its
effective address, low byte first; every byte outside, every register and every status bit stays; at an illegal
address nothing is written and IAD is pending. What is not RAM holds no store (log entry 39). That a store whose
source is also its base stores the old value is decision D26 (log entry 40). The illegal access is decision D7
(log entry 15). (R85, R91, R395, R396, R397, R403, R404, R405, R406, R407) -/
def Obligations.Stores : Prop :=
  ∀ (s : State) (dest : MemAddr) (bdest : BitAddr) (r : RegNum) (p : PairNum) (imm : BitVec 4) (a : Int),
    (s.ea 1 dest = some a → ∃ t : State, exec (.storb r dest) s = .next t ∧
      Stored a 1 ((s.reg r).toNat % 256) (memAddrBytes dest) s t) ∧
    (s.ea 2 dest = some a → ∃ t : State, exec (.storw r dest) s = .next t ∧
      Stored a 2 (s.reg r).toNat (memAddrBytes dest) s t) ∧
    (s.ea 2 dest = some a → ∃ t : State, exec (.stord p dest) s = .next t ∧
      Stored a 4 (s.pair p).toNat (memAddrBytes dest) s t) ∧
    (s.eaBit bdest = some a → ∃ t : State, exec (.storbImm imm bdest) s = .next t ∧
      Stored a 1 imm.toNat (bitAddrBytes bdest) s t) ∧
    (s.eaBit bdest = some a → ∃ t : State, exec (.storwImm imm bdest) s = .next t ∧
      Stored a 2 imm.toNat (bitAddrBytes bdest) s t)

/-- Each moves the first registers of R2, R3, R4, R5, R8, R9, R10, R11 from or to ascending words at its pointer and
moves the pointer on: R0 and R1 modulo 2^16 (decision D34, log entry 31), (R1,R0) and (R7,R6) modulo 2^32; the
addresses do not wrap; nothing else changes. The device map is log entry 39. The count is decision D3 (log entry
10), the illegal access decision D7 (log entry 15). (R87, R141, R398, R408, R409, R410, R411) -/
def Obligations.MultipleTransfers : Prop :=
  ∀ (s : State) (count : BitVec 3),
    let n : Nat := count.toNat + 1
    let list : List RegNum := [(2 : RegNum), 3, 4, 5, 8, 9, 10, 11].take n
    let words : List Word := list.map s.reg
    let loaded (a : Nat) (t : State) : Prop := SlotsLoaded a (list.map (fun r => ⟨r, false⟩)) s t ∧
      t.psr = s.psr ∧ MemoryKept s t ∧ AccessKept s t ∧ AdvancedOr (¬ Addressable a (2 * n)) 2 s t
    let stored (a : Nat) (t : State) : Prop := WordsStored a words s t ∧
      t.psr = s.psr ∧ AccessKept s t ∧ AdvancedOr (¬ Addressable a (2 * n)) 2 s t
    (∃ t : State, exec (.loadm count) s = .next t ∧ loaded (s.reg 0).toNat t ∧
      (t.reg 0).toNat = ((s.reg 0).toNat + 2 * n) % 65536 ∧
      RegsKept (⟨0, false⟩ :: list.map (fun r => ⟨r, false⟩)) s t) ∧
    (∃ t : State, exec (.loadmp count) s = .next t ∧ loaded (s.pair 0).toNat t ∧
      (t.pair 0).toNat = ((s.pair 0).toNat + 2 * n) % 2 ^ 32 ∧
      RegsKept (⟨0, false⟩ :: ⟨1, false⟩ :: list.map (fun r => ⟨r, false⟩)) s t) ∧
    (∃ t : State, exec (.storm count) s = .next t ∧ stored (s.reg 1).toNat t ∧
      (t.reg 1).toNat = ((s.reg 1).toNat + 2 * n) % 65536 ∧ RegsKept [⟨1, false⟩] s t) ∧
    (∃ t : State, exec (.stormp count) s = .next t ∧ stored (s.pair 6).toNat t ∧
      (t.pair 6).toNat = ((s.pair 6).toNat + 2 * n) % 2 ^ 32 ∧ RegsKept [⟨6, false⟩, ⟨7, false⟩] s t)

/-- DI clears and EI and EIWAIT set PSR.E, the old value kept for the next boundary; WAIT and EIWAIT enter the wait
state; NOP and the reserved no-operations change the PC alone, by 2, and by 4 or 6; CINV changes only what a
fetch may see, and nothing on a chip without an instruction cache; naming a present instruction cache it leaves
that cache nothing old, and with U nothing but what a locked line may hold; naming the data cache alone it
changes nothing (which lines may be locked is log entry 18; the old value of E kept is log entry 19). The
reserved no-operations are decision D21 (log entry 32). (R110, R112, R450, R451, R452, R453, R454, R455, R457,
R624) -/
def Obligations.Miscellaneous : Prop :=
  ∀ (s : State) (o : CacheOpts) (first : Word) (ope : BitVec 4),
    (∃ t : State, exec .di s = .next t ∧ Advanced 2 s t ∧ t = { s with
      pc := t.pc, iadPending := t.iadPending, psr := { s.psr with e := false }, eLag := some s.psr.e }) ∧
    (∃ t : State, exec .ei s = .next t ∧ Advanced 2 s t ∧ t = { s with
      pc := t.pc, iadPending := t.iadPending, psr := { s.psr with e := true }, eLag := some s.psr.e }) ∧
    (∃ t : State, exec .eiwait s = .next t ∧ Advanced 2 s t ∧ t = { s with
      pc := t.pc, iadPending := t.iadPending, psr := { s.psr with e := true }, eLag := some s.psr.e,
      waiting := true }) ∧
    (∃ t : State, exec .wait s = .next t ∧ Advanced 2 s t ∧ t = { s with
      pc := t.pc, iadPending := t.iadPending, waiting := true }) ∧
    (∃ t : State, exec .nop s = .next t ∧ Advanced 2 s t ∧ OnlyPc s t) ∧
    (∃ t : State, exec (.resNop first ope) s = .next t ∧ OnlyPc s t ∧
      Advanced (if first = 0x0014 then 4 else 6) s t) ∧
    (∃ t : State, exec (.cinv o) s = .next t ∧ Advanced 2 s t ∧ t = { s with
        pc := t.pc, iadPending := t.iadPending, stale := t.stale } ∧
      (s.config.icachePresent = false → t.stale = s.stale) ∧
      (s.config.icachePresent = true →
        (o = .i ∨ o = .di → t.stale.icache = [] ∧ t.stale.icacheLocked = [] ∧
          t.stale.locked = s.lockingLines ∧ t.stale.fresh = [] ∧
          ∀ c : Host.Cell, c ∈ t.stale.prefetch ↔ c ∈ s.stale.olds) ∧
        (o = .iu ∨ o = .diu → t.stale = { s.stale with prefetch := t.stale.prefetch, icache := [] } ∧
          ∀ c : Host.Cell, c ∈ t.stale.prefetch ↔ c ∈ s.stale.prefetch ∨ c ∈ s.stale.icache) ∧
        (o = .d ∨ o = .du → t.stale = s.stale)))

/-- A branch taken past either end of the address space, and an instruction that ends at its top, a branch or a
register jump not taken among them, leaves the low 24 bits of the computed address in the PC with IAD pending
(decision D6, log entry 16). (R90, R345, R536) -/
def Obligations.PcLeavesMemory : Prop :=
  ∀ (s : State) (dest : BranchDisp) (link : Link) (h : BitVec 24) (c : Cond) (r : RegNum) (j : BitVec 4)
      (p : PairNum) (i : Instr),
    ((i, c) ∈ [(Instr.beq dest, Cond.eq), (.bne dest, .ne), (.bcs dest, .cs), (.bcc dest, .cc), (.bhi dest, .hi),
        (.bls dest, .ls), (.bgt dest, .gt), (.ble dest, .le), (.bfs dest, .fs), (.bfc dest, .fc),
        (.blo dest, .lo), (.bhs dest, .hs), (.blt dest, .lt), (.bge dest, .ge),
        (.br dest, .always)] ∨ i = .bcond c dest →
      ∃ t : State, exec i s = .next t ∧
        (CondHolds c s.psr → WrappedTo (s.pc.toNat + branchDisp dest) s t) ∧
        (¬ CondHolds c s.psr → WrappedTo ((s.pc.toNat + branchBytes dest : Nat) : Int) s t)) ∧
    (∀ taken : Prop, (i = .beq0b r j ∧ (taken ↔ (s.reg r).toNat % 256 = 0)) ∨
        (i = .beq0w r j ∧ (taken ↔ (s.reg r).toNat = 0)) ∨
        (i = .bne0b r j ∧ (taken ↔ (s.reg r).toNat % 256 ≠ 0)) ∨
        (i = .bne0w r j ∧ (taken ↔ (s.reg r).toNat ≠ 0)) →
      ∃ t : State, exec i s = .next t ∧
        (taken → WrappedTo ((s.pc.toNat + 2 * (j.toNat + 1) : Nat) : Int) s t) ∧
        (¬ taken → WrappedTo ((s.pc.toNat + 2 : Nat) : Int) s t)) ∧
    (∃ t : State, exec (.bal link h) s = .next t ∧ WrappedTo ((s.pc.toNat : Int) + 2 * h.toInt) s t) ∧
    ((i, c) ∈ [(Instr.jeq p, Cond.eq), (.jne p, .ne), (.jcs p, .cs), (.jcc p, .cc), (.jhi p, .hi), (.jls p, .ls),
        (.jgt p, .gt), (.jle p, .le), (.jfs p, .fs), (.jfc p, .fc), (.jlo p, .lo), (.jhs p, .hs), (.jlt p, .lt),
        (.jge p, .ge)] ∨ i = .jcond c p →
      ¬ CondHolds c s.psr → ∃ t : State, exec i s = .next t ∧ WrappedTo ((s.pc.toNat + 2 : Nat) : Int) s t) ∧
    (∃ t : State, exec .nop s = .next t ∧ WrappedTo ((s.pc.toNat + 2 : Nat) : Int) s t) ∧
    (runsOn i s = true → ∀ t : State, exec i s = .next t →
      t.pc.toNat = (s.pc.toNat + instrBytes i) % 2 ^ 24 ∧
        (2 ^ 24 ≤ s.pc.toNat + instrBytes i → t.iadPending = true))

/-- With CFG.SR = 1 an instruction in a form that needs index addressing is refused (log entry 27), and PUSH, POP,
POPRET with parameters the validity table excludes are refused (log entry 28); these are the treatments I6 and
I7 of the spec. (R25, R101, R348, R396) -/
def Obligations.FormsRefused : Prop :=
  ∀ (s : State) (m : MemAddr) (b : BitAddr) (n : IndexNum) (d : BitVec 20) (rs : Bool) (r : RegNum) (p : PairNum)
      (b3 : BitVec 3) (b4 : BitVec 4) (ra : Bool),
    (s.cfg.sr = true → m = .disp20Index n d ∨ m = .abs20Index rs d →
      ∀ i ∈ [Instr.loadb m r, .loadw m r, .loadd m p, .storb r m, .storw r m, .stord p m],
        exec i s = .refused .indexFormWithShortRegisters) ∧
    (s.cfg.sr = true → b = .disp20Index n d ∨ b = .abs20Index rs d →
      ∀ i ∈ [Instr.cbitb b3 b, .cbitw b4 b, .sbitb b3 b, .sbitw b4 b, .tbitb b3 b, .tbitw b4 b, .storbImm b4 b,
        .storwImm b4 b], exec i s = .refused .indexFormWithShortRegisters) ∧
    (stackValid s.cfg.sr b3 r = false → ∀ i ∈ [Instr.push ra b3 r, .pop ra b3 r, .popret ra b3 r],
      exec i s = .refused .invalidStackList)

end
end

