-- ==== Sys2Proof/Laws/State.lean ====
section
/-! SUPPORT. What each named update of the state does to each field, true by unfolding. -/

namespace Sys2Proof.Laws

open Sys2Proof.Machine

variable (s : State)

/-! ### drew -/

@[simp] theorem drew_regs (k : Nat) : (s.drew k).regs = s.regs := rfl
@[simp] theorem drew_pc (k : Nat) : (s.drew k).pc = s.pc := rfl
@[simp] theorem drew_isp (k : Nat) : (s.drew k).isp = s.isp := rfl
@[simp] theorem drew_intbase (k : Nat) : (s.drew k).intbase = s.intbase := rfl
@[simp] theorem drew_psr (k : Nat) : (s.drew k).psr = s.psr := rfl
@[simp] theorem drew_cfg (k : Nat) : (s.drew k).cfg = s.cfg := rfl
@[simp] theorem drew_dbg (k : Nat) : (s.drew k).dbg = s.dbg := rfl
@[simp] theorem drew_iadPending (k : Nat) : (s.drew k).iadPending = s.iadPending := rfl
@[simp] theorem drew_waiting (k : Nat) : (s.drew k).waiting = s.waiting := rfl
@[simp] theorem drew_eLag (k : Nat) : (s.drew k).eLag = s.eLag := rfl
@[simp] theorem drew_mem (k : Nat) : (s.drew k).mem = s.mem := rfl
@[simp] theorem drew_stale (k : Nat) : (s.drew k).stale = s.stale := rfl
@[simp] theorem drew_inputs (k : Nat) : (s.drew k).inputs = s.inputs := rfl
@[simp] theorem drew_draws (k : Nat) : (s.drew k).draws = s.draws + k := rfl
@[simp] theorem drew_config (k : Nat) : (s.drew k).config = s.config := rfl

/-! ### serialize -/

@[simp] theorem serialize_regs : (s.serialize).regs = s.regs := rfl
@[simp] theorem serialize_pc : (s.serialize).pc = s.pc := rfl
@[simp] theorem serialize_isp : (s.serialize).isp = s.isp := rfl
@[simp] theorem serialize_intbase : (s.serialize).intbase = s.intbase := rfl
@[simp] theorem serialize_psr : (s.serialize).psr = s.psr := rfl
@[simp] theorem serialize_cfg : (s.serialize).cfg = s.cfg := rfl
@[simp] theorem serialize_dbg : (s.serialize).dbg = s.dbg := rfl
@[simp] theorem serialize_iadPending : (s.serialize).iadPending = s.iadPending := rfl
@[simp] theorem serialize_waiting : (s.serialize).waiting = s.waiting := rfl
@[simp] theorem serialize_eLag : (s.serialize).eLag = s.eLag := rfl
@[simp] theorem serialize_mem : (s.serialize).mem = s.mem := rfl
@[simp] theorem serialize_stale : (s.serialize).stale = { s.stale with prefetch := [] } := rfl
@[simp] theorem serialize_inputs : (s.serialize).inputs = s.inputs := rfl
@[simp] theorem serialize_draws : (s.serialize).draws = s.draws := rfl
@[simp] theorem serialize_config : (s.serialize).config = s.config := rfl

/-! ### dropIcache -/

@[simp] theorem dropIcache_regs : (s.dropIcache).regs = s.regs := rfl
@[simp] theorem dropIcache_pc : (s.dropIcache).pc = s.pc := rfl
@[simp] theorem dropIcache_isp : (s.dropIcache).isp = s.isp := rfl
@[simp] theorem dropIcache_intbase : (s.dropIcache).intbase = s.intbase := rfl
@[simp] theorem dropIcache_psr : (s.dropIcache).psr = s.psr := rfl
@[simp] theorem dropIcache_cfg : (s.dropIcache).cfg = s.cfg := rfl
@[simp] theorem dropIcache_dbg : (s.dropIcache).dbg = s.dbg := rfl
@[simp] theorem dropIcache_iadPending : (s.dropIcache).iadPending = s.iadPending := rfl
@[simp] theorem dropIcache_waiting : (s.dropIcache).waiting = s.waiting := rfl
@[simp] theorem dropIcache_eLag : (s.dropIcache).eLag = s.eLag := rfl
@[simp] theorem dropIcache_mem : (s.dropIcache).mem = s.mem := rfl
@[simp] theorem dropIcache_stale : (s.dropIcache).stale =
    { prefetch := (s.stale.icache ++ s.stale.icacheLocked).foldr remember s.stale.prefetch
      icache := [], icacheLocked := [], locked := s.lockingLines, fresh := [] } := rfl
@[simp] theorem dropIcache_inputs : (s.dropIcache).inputs = s.inputs := rfl
@[simp] theorem dropIcache_draws : (s.dropIcache).draws = s.draws := rfl
@[simp] theorem dropIcache_config : (s.dropIcache).config = s.config := rfl

/-! ### dropUnlocked -/

@[simp] theorem dropUnlocked_regs : (s.dropUnlocked).regs = s.regs := rfl
@[simp] theorem dropUnlocked_pc : (s.dropUnlocked).pc = s.pc := rfl
@[simp] theorem dropUnlocked_isp : (s.dropUnlocked).isp = s.isp := rfl
@[simp] theorem dropUnlocked_intbase : (s.dropUnlocked).intbase = s.intbase := rfl
@[simp] theorem dropUnlocked_psr : (s.dropUnlocked).psr = s.psr := rfl
@[simp] theorem dropUnlocked_cfg : (s.dropUnlocked).cfg = s.cfg := rfl
@[simp] theorem dropUnlocked_dbg : (s.dropUnlocked).dbg = s.dbg := rfl
@[simp] theorem dropUnlocked_iadPending : (s.dropUnlocked).iadPending = s.iadPending := rfl
@[simp] theorem dropUnlocked_waiting : (s.dropUnlocked).waiting = s.waiting := rfl
@[simp] theorem dropUnlocked_eLag : (s.dropUnlocked).eLag = s.eLag := rfl
@[simp] theorem dropUnlocked_mem : (s.dropUnlocked).mem = s.mem := rfl
@[simp] theorem dropUnlocked_stale : (s.dropUnlocked).stale =
    { s.stale with prefetch := s.stale.icache.foldr remember s.stale.prefetch, icache := [] } := rfl
@[simp] theorem dropUnlocked_inputs : (s.dropUnlocked).inputs = s.inputs := rfl
@[simp] theorem dropUnlocked_draws : (s.dropUnlocked).draws = s.draws := rfl
@[simp] theorem dropUnlocked_config : (s.dropUnlocked).config = s.config := rfl

/-! ### illegal -/

@[simp] theorem illegal_regs : (s.illegal).regs = s.regs := rfl
@[simp] theorem illegal_pc : (s.illegal).pc = s.pc := rfl
@[simp] theorem illegal_isp : (s.illegal).isp = s.isp := rfl
@[simp] theorem illegal_intbase : (s.illegal).intbase = s.intbase := rfl
@[simp] theorem illegal_psr : (s.illegal).psr = s.psr := rfl
@[simp] theorem illegal_cfg : (s.illegal).cfg = s.cfg := rfl
@[simp] theorem illegal_dbg : (s.illegal).dbg = s.dbg := rfl
@[simp] theorem illegal_iadPending : (s.illegal).iadPending = true := rfl
@[simp] theorem illegal_waiting : (s.illegal).waiting = s.waiting := rfl
@[simp] theorem illegal_eLag : (s.illegal).eLag = s.eLag := rfl
@[simp] theorem illegal_mem : (s.illegal).mem = s.mem := rfl
@[simp] theorem illegal_stale : (s.illegal).stale = s.stale := rfl
@[simp] theorem illegal_inputs : (s.illegal).inputs = s.inputs := rfl
@[simp] theorem illegal_draws : (s.illegal).draws = s.draws := rfl
@[simp] theorem illegal_config : (s.illegal).config = s.config := rfl

/-! ### putByte -/

@[simp] theorem putByte_regs (a : Nat) (b : Byte) : (s.putByte a b).regs = s.regs := by
  unfold State.putByte; split <;> rfl
@[simp] theorem putByte_pc (a : Nat) (b : Byte) : (s.putByte a b).pc = s.pc := by
  unfold State.putByte; split <;> rfl
@[simp] theorem putByte_isp (a : Nat) (b : Byte) : (s.putByte a b).isp = s.isp := by
  unfold State.putByte; split <;> rfl
@[simp] theorem putByte_intbase (a : Nat) (b : Byte) : (s.putByte a b).intbase = s.intbase := by
  unfold State.putByte; split <;> rfl
@[simp] theorem putByte_psr (a : Nat) (b : Byte) : (s.putByte a b).psr = s.psr := by
  unfold State.putByte; split <;> rfl
@[simp] theorem putByte_cfg (a : Nat) (b : Byte) : (s.putByte a b).cfg = s.cfg := by
  unfold State.putByte; split <;> rfl
@[simp] theorem putByte_dbg (a : Nat) (b : Byte) : (s.putByte a b).dbg = s.dbg := by
  unfold State.putByte; split <;> rfl
@[simp] theorem putByte_iadPending (a : Nat) (b : Byte) : (s.putByte a b).iadPending = s.iadPending := by
  unfold State.putByte; split <;> rfl
@[simp] theorem putByte_waiting (a : Nat) (b : Byte) : (s.putByte a b).waiting = s.waiting := by
  unfold State.putByte; split <;> rfl
@[simp] theorem putByte_eLag (a : Nat) (b : Byte) : (s.putByte a b).eLag = s.eLag := by
  unfold State.putByte; split <;> rfl
@[simp] theorem putByte_mem (a : Nat) (b : Byte) : (s.putByte a b).mem =
    if s.isRam a then s.mem.put a b else s.mem := by
  unfold State.putByte; split <;> rfl
@[simp] theorem putByte_stale (a : Nat) (b : Byte) : (s.putByte a b).stale =
    if s.isRam a then s.staleAfter a (s.mem.byte a) b else s.stale := by
  unfold State.putByte; split <;> rfl
@[simp] theorem putByte_inputs (a : Nat) (b : Byte) : (s.putByte a b).inputs = s.inputs := by
  unfold State.putByte; split <;> rfl
@[simp] theorem putByte_draws (a : Nat) (b : Byte) : (s.putByte a b).draws = s.draws := by
  unfold State.putByte; split <;> rfl
@[simp] theorem putByte_config (a : Nat) (b : Byte) : (s.putByte a b).config = s.config := by
  unfold State.putByte; split <;> rfl

/-! ### noteAccess -/

@[simp] theorem noteAccess_regs (a : Int) (w : Bool) : (s.noteAccess a w).regs = s.regs := by
  unfold State.noteAccess; split <;> rfl
@[simp] theorem noteAccess_pc (a : Int) (w : Bool) : (s.noteAccess a w).pc = s.pc := by
  unfold State.noteAccess; split <;> rfl
@[simp] theorem noteAccess_isp (a : Int) (w : Bool) : (s.noteAccess a w).isp = s.isp := by
  unfold State.noteAccess; split <;> rfl
@[simp] theorem noteAccess_intbase (a : Int) (w : Bool) : (s.noteAccess a w).intbase = s.intbase := by
  unfold State.noteAccess; split <;> rfl
@[simp] theorem noteAccess_psr (a : Int) (w : Bool) : (s.noteAccess a w).psr = s.psr := by
  unfold State.noteAccess; split <;> rfl
@[simp] theorem noteAccess_cfg (a : Int) (w : Bool) : (s.noteAccess a w).cfg = s.cfg := by
  unfold State.noteAccess; split <;> rfl
@[simp] theorem noteAccess_dbg (a : Int) (w : Bool) : (s.noteAccess a w).dbg =
    if 0 ≤ a ∧ a < 2 ^ 24 then s.dbg.afterData s.config.lastBank (BitVec.ofInt 24 a) w else s.dbg := by
  unfold State.noteAccess; split <;> rfl
@[simp] theorem noteAccess_iadPending (a : Int) (w : Bool) : (s.noteAccess a w).iadPending = s.iadPending := by
  unfold State.noteAccess; split <;> rfl
@[simp] theorem noteAccess_waiting (a : Int) (w : Bool) : (s.noteAccess a w).waiting = s.waiting := by
  unfold State.noteAccess; split <;> rfl
@[simp] theorem noteAccess_eLag (a : Int) (w : Bool) : (s.noteAccess a w).eLag = s.eLag := by
  unfold State.noteAccess; split <;> rfl
@[simp] theorem noteAccess_mem (a : Int) (w : Bool) : (s.noteAccess a w).mem = s.mem := by
  unfold State.noteAccess; split <;> rfl
@[simp] theorem noteAccess_stale (a : Int) (w : Bool) : (s.noteAccess a w).stale = s.stale := by
  unfold State.noteAccess; split <;> rfl
@[simp] theorem noteAccess_inputs (a : Int) (w : Bool) : (s.noteAccess a w).inputs = s.inputs := by
  unfold State.noteAccess; split <;> rfl
@[simp] theorem noteAccess_draws (a : Int) (w : Bool) : (s.noteAccess a w).draws = s.draws := by
  unfold State.noteAccess; split <;> rfl
@[simp] theorem noteAccess_config (a : Int) (w : Bool) : (s.noteAccess a w).config = s.config := by
  unfold State.noteAccess; split <;> rfl

/-! ### The device map, which no update changes -/

/-- What stands at an address depends on the chip alone. -/
theorem regionAt_congr {s t : State} (h : t.config = s.config) (a : Nat) : t.regionAt a = s.regionAt a := by
  unfold State.regionAt
  rw [h]

theorem isRam_congr {s t : State} (h : t.config = s.config) (a : Nat) : t.isRam a = s.isRam a := by
  unfold State.isRam
  rw [regionAt_congr h]

theorem isDevice_congr {s t : State} (h : t.config = s.config) (a : Nat) : t.isDevice a = s.isDevice a := by
  unfold State.isDevice
  rw [regionAt_congr h]

/-- RAM answers with its contents. -/
theorem not_isDevice_of_isRam {a : Nat} (h : s.isRam a = true) : s.isDevice a = false := by
  unfold State.isRam at h
  unfold State.isDevice
  rw [eq_of_beq h]
  rfl

/-! ### setPc -/

@[simp] theorem setPc_regs (a : Int) : (s.setPc a).regs = s.regs := rfl
@[simp] theorem setPc_pc (a : Int) : (s.setPc a).pc = BitVec.ofInt 24 a := rfl
@[simp] theorem setPc_isp (a : Int) : (s.setPc a).isp = s.isp := rfl
@[simp] theorem setPc_intbase (a : Int) : (s.setPc a).intbase = s.intbase := rfl
@[simp] theorem setPc_psr (a : Int) : (s.setPc a).psr = s.psr := rfl
@[simp] theorem setPc_cfg (a : Int) : (s.setPc a).cfg = s.cfg := rfl
@[simp] theorem setPc_dbg (a : Int) : (s.setPc a).dbg = s.dbg := rfl
@[simp] theorem setPc_iadPending (a : Int) : (s.setPc a).iadPending = (s.iadPending || !legal a 1) := rfl
@[simp] theorem setPc_waiting (a : Int) : (s.setPc a).waiting = s.waiting := rfl
@[simp] theorem setPc_eLag (a : Int) : (s.setPc a).eLag = s.eLag := rfl
@[simp] theorem setPc_mem (a : Int) : (s.setPc a).mem = s.mem := rfl
@[simp] theorem setPc_stale (a : Int) : (s.setPc a).stale = s.stale := rfl
@[simp] theorem setPc_inputs (a : Int) : (s.setPc a).inputs = s.inputs := rfl
@[simp] theorem setPc_draws (a : Int) : (s.setPc a).draws = s.draws := rfl
@[simp] theorem setPc_config (a : Int) : (s.setPc a).config = s.config := rfl

/-! ### setCF -/

@[simp] theorem setCF_regs (c f : Bool) : (s.setCF c f).regs = s.regs := rfl
@[simp] theorem setCF_pc (c f : Bool) : (s.setCF c f).pc = s.pc := rfl
@[simp] theorem setCF_isp (c f : Bool) : (s.setCF c f).isp = s.isp := rfl
@[simp] theorem setCF_intbase (c f : Bool) : (s.setCF c f).intbase = s.intbase := rfl
@[simp] theorem setCF_psr (c f : Bool) : (s.setCF c f).psr = { s.psr with c := c, f := f } := rfl
@[simp] theorem setCF_cfg (c f : Bool) : (s.setCF c f).cfg = s.cfg := rfl
@[simp] theorem setCF_dbg (c f : Bool) : (s.setCF c f).dbg = s.dbg := rfl
@[simp] theorem setCF_iadPending (c f : Bool) : (s.setCF c f).iadPending = s.iadPending := rfl
@[simp] theorem setCF_waiting (c f : Bool) : (s.setCF c f).waiting = s.waiting := rfl
@[simp] theorem setCF_eLag (c f : Bool) : (s.setCF c f).eLag = s.eLag := rfl
@[simp] theorem setCF_mem (c f : Bool) : (s.setCF c f).mem = s.mem := rfl
@[simp] theorem setCF_stale (c f : Bool) : (s.setCF c f).stale = s.stale := rfl
@[simp] theorem setCF_inputs (c f : Bool) : (s.setCF c f).inputs = s.inputs := rfl
@[simp] theorem setCF_draws (c f : Bool) : (s.setCF c f).draws = s.draws := rfl
@[simp] theorem setCF_config (c f : Bool) : (s.setCF c f).config = s.config := rfl

/-! ### setF -/

@[simp] theorem setF_regs (f : Bool) : (s.setF f).regs = s.regs := rfl
@[simp] theorem setF_pc (f : Bool) : (s.setF f).pc = s.pc := rfl
@[simp] theorem setF_isp (f : Bool) : (s.setF f).isp = s.isp := rfl
@[simp] theorem setF_intbase (f : Bool) : (s.setF f).intbase = s.intbase := rfl
@[simp] theorem setF_psr (f : Bool) : (s.setF f).psr = { s.psr with f := f } := rfl
@[simp] theorem setF_cfg (f : Bool) : (s.setF f).cfg = s.cfg := rfl
@[simp] theorem setF_dbg (f : Bool) : (s.setF f).dbg = s.dbg := rfl
@[simp] theorem setF_iadPending (f : Bool) : (s.setF f).iadPending = s.iadPending := rfl
@[simp] theorem setF_waiting (f : Bool) : (s.setF f).waiting = s.waiting := rfl
@[simp] theorem setF_eLag (f : Bool) : (s.setF f).eLag = s.eLag := rfl
@[simp] theorem setF_mem (f : Bool) : (s.setF f).mem = s.mem := rfl
@[simp] theorem setF_stale (f : Bool) : (s.setF f).stale = s.stale := rfl
@[simp] theorem setF_inputs (f : Bool) : (s.setF f).inputs = s.inputs := rfl
@[simp] theorem setF_draws (f : Bool) : (s.setF f).draws = s.draws := rfl
@[simp] theorem setF_config (f : Bool) : (s.setF f).config = s.config := rfl

/-! ### setE -/

@[simp] theorem setE_regs (e : Bool) : (s.setE e).regs = s.regs := rfl
@[simp] theorem setE_pc (e : Bool) : (s.setE e).pc = s.pc := rfl
@[simp] theorem setE_isp (e : Bool) : (s.setE e).isp = s.isp := rfl
@[simp] theorem setE_intbase (e : Bool) : (s.setE e).intbase = s.intbase := rfl
@[simp] theorem setE_psr (e : Bool) : (s.setE e).psr = { s.psr with e := e } := rfl
@[simp] theorem setE_cfg (e : Bool) : (s.setE e).cfg = s.cfg := rfl
@[simp] theorem setE_dbg (e : Bool) : (s.setE e).dbg = s.dbg := rfl
@[simp] theorem setE_iadPending (e : Bool) : (s.setE e).iadPending = s.iadPending := rfl
@[simp] theorem setE_waiting (e : Bool) : (s.setE e).waiting = s.waiting := rfl
@[simp] theorem setE_eLag (e : Bool) : (s.setE e).eLag = some s.psr.e := rfl
@[simp] theorem setE_mem (e : Bool) : (s.setE e).mem = s.mem := rfl
@[simp] theorem setE_stale (e : Bool) : (s.setE e).stale = s.stale := rfl
@[simp] theorem setE_inputs (e : Bool) : (s.setE e).inputs = s.inputs := rfl
@[simp] theorem setE_draws (e : Bool) : (s.setE e).draws = s.draws := rfl
@[simp] theorem setE_config (e : Bool) : (s.setE e).config = s.config := rfl

/-! ### jumpUser -/

@[simp] theorem jumpUser_regs (p : PairNum) : (s.jumpUser p).regs = s.regs := rfl
@[simp] theorem jumpUser_pc (p : PairNum) : (s.jumpUser p).pc = jumpTarget (s.pair p) := rfl
@[simp] theorem jumpUser_isp (p : PairNum) : (s.jumpUser p).isp = s.isp := rfl
@[simp] theorem jumpUser_intbase (p : PairNum) : (s.jumpUser p).intbase = s.intbase := rfl
@[simp] theorem jumpUser_psr (p : PairNum) : (s.jumpUser p).psr = { s.psr with u := true } := rfl
@[simp] theorem jumpUser_cfg (p : PairNum) : (s.jumpUser p).cfg = s.cfg := rfl
@[simp] theorem jumpUser_dbg (p : PairNum) : (s.jumpUser p).dbg = s.dbg := rfl
@[simp] theorem jumpUser_iadPending (p : PairNum) : (s.jumpUser p).iadPending = s.iadPending := rfl
@[simp] theorem jumpUser_waiting (p : PairNum) : (s.jumpUser p).waiting = s.waiting := rfl
@[simp] theorem jumpUser_eLag (p : PairNum) : (s.jumpUser p).eLag = s.eLag := rfl
@[simp] theorem jumpUser_mem (p : PairNum) : (s.jumpUser p).mem = s.mem := rfl
@[simp] theorem jumpUser_stale (p : PairNum) : (s.jumpUser p).stale = s.stale := rfl
@[simp] theorem jumpUser_inputs (p : PairNum) : (s.jumpUser p).inputs = s.inputs := rfl
@[simp] theorem jumpUser_draws (p : PairNum) : (s.jumpUser p).draws = s.draws := rfl
@[simp] theorem jumpUser_config (p : PairNum) : (s.jumpUser p).config = s.config := rfl

/-! ### start -/

@[simp] theorem start_regs : (s.start).regs = s.regs := rfl
@[simp] theorem start_pc : (s.start).pc = s.pc := rfl
@[simp] theorem start_isp : (s.start).isp = s.isp := rfl
@[simp] theorem start_intbase : (s.start).intbase = s.intbase := rfl
@[simp] theorem start_psr : (s.start).psr = if s.config.hwDebugModule then s.psr else { s.psr with p := s.psr.t } := rfl
@[simp] theorem start_cfg : (s.start).cfg = s.cfg := rfl
@[simp] theorem start_dbg : (s.start).dbg = s.dbg.mapBanks s.config.lastBank (fun b => b.afterStart s.pc) := rfl
@[simp] theorem start_iadPending : (s.start).iadPending = s.iadPending := rfl
@[simp] theorem start_waiting : (s.start).waiting = s.waiting := rfl
@[simp] theorem start_eLag : (s.start).eLag = s.eLag := rfl
@[simp] theorem start_mem : (s.start).mem = s.mem := rfl
@[simp] theorem start_stale : (s.start).stale = s.stale := rfl
@[simp] theorem start_inputs : (s.start).inputs = s.inputs := rfl
@[simp] theorem start_draws : (s.start).draws = s.draws := rfl
@[simp] theorem start_config : (s.start).config = s.config := rfl

/-! ### endLag -/

@[simp] theorem endLag_regs : (s.endLag).regs = s.regs := rfl
@[simp] theorem endLag_pc : (s.endLag).pc = s.pc := rfl
@[simp] theorem endLag_isp : (s.endLag).isp = s.isp := rfl
@[simp] theorem endLag_intbase : (s.endLag).intbase = s.intbase := rfl
@[simp] theorem endLag_psr : (s.endLag).psr = s.psr := rfl
@[simp] theorem endLag_cfg : (s.endLag).cfg = s.cfg := rfl
@[simp] theorem endLag_dbg : (s.endLag).dbg = s.dbg := rfl
@[simp] theorem endLag_iadPending : (s.endLag).iadPending = s.iadPending := rfl
@[simp] theorem endLag_waiting : (s.endLag).waiting = s.waiting := rfl
@[simp] theorem endLag_eLag : (s.endLag).eLag = none := rfl
@[simp] theorem endLag_mem : (s.endLag).mem = s.mem := rfl
@[simp] theorem endLag_stale : (s.endLag).stale = s.stale := rfl
@[simp] theorem endLag_inputs : (s.endLag).inputs = s.inputs := rfl
@[simp] theorem endLag_draws : (s.endLag).draws = if s.eLag.isSome then s.draws + 1 else s.draws := rfl
@[simp] theorem endLag_config : (s.endLag).config = s.config := rfl

end Sys2Proof.Laws
end

