-- ==== Sys2Proof/Laws/Memory.lean ====
section
/-! SUPPORT. What memory operations can do (spec/20_memory.md R80 to R91): reading after a write, the
canonical form, and one lemma for each access. -/

namespace Sys2Proof.Laws

open Sys2Proof.Machine

variable (s : State)

/-! ### Memory as data -/

theorem byte_filter (m : Memory) (a x : Nat) :
    Memory.byte (m.filter (fun c => c.1 != a)) x = if x = a then 0 else m.byte x := by
  induction m with
  | nil => simp [Memory.byte]
  | cons c rest ih =>
    by_cases h : c.1 = a
    · simp only [List.filter_cons, h, bne_self_eq_false, Bool.false_eq_true, if_false, ih, Memory.byte]
      by_cases hx : x = a
      · simp [hx]
      · simp [hx, Ne.symm hx]
    · simp only [List.filter_cons, bne_iff_ne, ne_eq, h, not_false_eq_true, if_true, Memory.byte, ih]
      by_cases hx : x = a
      · subst hx
        simp [h]
      · simp [hx]

theorem byte_insertCell (m : Memory) (c : Host.Cell) (h : m.byte c.1 = 0) (x : Nat)
    (hm : ∀ d ∈ m, d.1 ≠ c.1) : (insertCell c m).byte x = if x = c.1 then c.2 else m.byte x := by
  induction m with
  | nil =>
    by_cases hx : x = c.1
    · simp [insertCell, Memory.byte, hx]
    · simp [insertCell, Memory.byte, hx, Ne.symm hx]
  | cons d rest ih =>
    have hd : d.1 ≠ c.1 := hm d List.mem_cons_self
    unfold insertCell
    split
    · by_cases hx : x = c.1
      · simp [Memory.byte, hx]
      · simp [Memory.byte, hx, Ne.symm hx]
    · have hr : Memory.byte rest c.1 = 0 := by simpa [Memory.byte, hd] using h
      have := ih hr (fun e he => hm e (List.mem_cons_of_mem _ he))
      simp only [Memory.byte, this]
      by_cases hx : x = c.1
      · subst hx
        simp [hd]
      · simp [hx]

/-- A byte read after a byte written: the byte written at that address, every other as before. -/
theorem byte_put (m : Memory) (a : Nat) (b : Byte) (x : Nat) :
    (m.put a b).byte x = if x = a then b else m.byte x := by
  unfold Memory.put
  simp only
  split
  · rename_i h
    rw [byte_filter, h]
  · rw [byte_insertCell _ _ (by rw [byte_filter]; simp)]
    · rw [byte_filter]
      by_cases hx : x = a <;> simp [hx]
    · intro d hd
      have := (List.mem_filter.1 hd).2
      simpa using this

theorem wf_cons (c : Host.Cell) (m : Memory) :
    Memory.wf (c :: m) = true ↔
      c.1 < 2 ^ 24 ∧ c.2 ≠ 0 ∧ (∀ d, m.head? = some d → c.1 < d.1) ∧ Memory.wf m = true := by
  cases m with
  | nil => simp [Memory.wf]
  | cons d rest => simp [Memory.wf, and_assoc]

theorem wf_filter (m : Memory) (h : m.wf = true) (a : Nat) (lo : Nat) (hlo : ∀ d, m.head? = some d → lo < d.1) :
    Memory.wf (m.filter (fun c => c.1 != a)) = true ∧
      ∀ d, (m.filter (fun c => c.1 != a)).head? = some d → lo < d.1 := by
  induction m generalizing lo with
  | nil => simp [Memory.wf]
  | cons c rest ih =>
    obtain ⟨h1, h2, h3, h4⟩ := (wf_cons c rest).1 h
    have hc : lo < c.1 := hlo c rfl
    by_cases hca : c.1 = a
    · have := ih h4 lo (fun d hd => lt_trans hc (h3 d hd))
      simpa [List.filter_cons, hca] using this
    · have := ih h4 c.1 h3
      have hb : (c.1 != a) = true := by simpa using hca
      rw [List.filter_cons, if_pos hb]
      refine ⟨(wf_cons _ _).2 ⟨h1, h2, this.2, this.1⟩, ?_⟩
      intro d hd
      simp only [List.head?_cons, Option.some.injEq] at hd
      exact hd ▸ hc

theorem wf_insertCell (m : Memory) (c : Host.Cell) (h : m.wf = true) (hc : c.1 < 2 ^ 24) (hb : c.2 ≠ 0)
    (hne : ∀ d ∈ m, d.1 ≠ c.1) :
    Memory.wf (insertCell c m) = true ∧
      ∀ lo, lo < c.1 → (∀ d, m.head? = some d → lo < d.1) → ∀ d, (insertCell c m).head? = some d → lo < d.1 := by
  induction m with
  | nil =>
    refine ⟨(wf_cons c []).2 ⟨hc, hb, by simp, rfl⟩, fun lo hlo _ d hd => ?_⟩
    simp only [insertCell, List.head?_cons, Option.some.injEq] at hd
    exact hd ▸ hlo
  | cons e rest ih =>
    obtain ⟨h1, h2, h3, h4⟩ := (wf_cons e rest).1 h
    have hec : e.1 ≠ c.1 := hne e List.mem_cons_self
    unfold insertCell
    split
    · rename_i hlt
      refine ⟨(wf_cons _ _).2 ⟨hc, hb, ?_, h⟩, fun lo hlo _ d hd => ?_⟩
      · intro d hd
        simp only [List.head?_cons, Option.some.injEq] at hd
        exact hd ▸ hlt
      · simp only [List.head?_cons, Option.some.injEq] at hd
        exact hd ▸ hlo
    · rename_i hnlt
      have hlt : e.1 < c.1 := by omega
      obtain ⟨w, hw⟩ := ih h4 (fun d hd => hne d (List.mem_cons_of_mem _ hd))
      refine ⟨(wf_cons _ _).2 ⟨h1, h2, hw e.1 hlt h3, w⟩, fun lo _ hlo d hd => ?_⟩
      simp only [List.head?_cons, Option.some.injEq] at hd
      exact hd ▸ hlo e rfl

/-- A write keeps the canonical form. -/
theorem wf_put (m : Memory) (h : m.wf = true) (a : Nat) (ha : a < 2 ^ 24) (b : Byte) : (m.put a b).wf = true := by
  have hf : Memory.wf (m.filter (fun c => c.1 != a)) = true := by
    cases m with
    | nil => rfl
    | cons c rest =>
      obtain ⟨h1, h2, h3, h4⟩ := (wf_cons c rest).1 h
      by_cases hca : c.1 = a
      · have := (wf_filter rest h4 a c.1 h3).1
        simpa [List.filter_cons, hca] using this
      · have hb : (c.1 != a) = true := by simpa using hca
        rw [List.filter_cons, if_pos hb]
        exact (wf_cons _ _).2 ⟨h1, h2, (wf_filter rest h4 a c.1 h3).2, (wf_filter rest h4 a c.1 h3).1⟩
  unfold Memory.put
  simp only
  split
  · exact hf
  · rename_i hb
    refine (wf_insertCell _ (a, b) hf ha hb ?_).1
    intro d hd
    have := (List.mem_filter.1 hd).2
    simpa using this

/-! ### Accesses -/

/-- What writing bytes can do: memory and the overwritten bytes change, nothing else; the bytes written to RAM read
as written, every other as before; the canonical form stays. -/
theorem putBytes_spec (bs : List Byte) : ∀ (s : State) (a : Nat),
    s.putBytes a bs = { s with mem := (s.putBytes a bs).mem, stale := (s.putBytes a bs).stale } ∧
      (∀ x, (s.putBytes a bs).mem.byte x =
        if a ≤ x ∧ x < a + bs.length ∧ s.isRam x = true then bs.getD (x - a) 0 else s.mem.byte x) ∧
      (s.mem.wf = true → a + bs.length ≤ 2 ^ 24 → (s.putBytes a bs).mem.wf = true) := by
  induction bs with
  | nil =>
    intro s a
    refine ⟨rfl, fun x => ?_, fun h _ => h⟩
    have : ¬(a ≤ x ∧ x < a + ([] : List Byte).length ∧ s.isRam x = true) := by simp; omega
    rw [if_neg this]
    rfl
  | cons b rest ih =>
    intro s a
    obtain ⟨h1, h2, h3⟩ := ih (s.putByte a b) (a + 1)
    have he : s.putBytes a (b :: rest) = (s.putByte a b).putBytes (a + 1) rest := rfl
    refine ⟨?_, fun x => ?_, fun h hl => ?_⟩
    · rw [he, h1]
      unfold State.putByte
      split <;> rfl
    · have hp : (s.putByte a b).mem.byte x = if x = a ∧ s.isRam x = true then b else s.mem.byte x := by
        rw [putByte_mem]
        by_cases hx : x = a
        · subst hx
          cases hr : s.isRam x <;> simp [byte_put]
        · cases hr : s.isRam a <;> simp [byte_put, hx]
      rw [he, h2 x, hp, isRam_congr (putByte_config s a b)]
      simp only [List.length_cons]
      by_cases hr : s.isRam x = true
      · simp only [hr, and_true]
        by_cases hx : x = a
        · subst hx
          have h4 : ¬(x + 1 ≤ x ∧ x < x + 1 + rest.length) := by omega
          have h5 : x ≤ x ∧ x < x + (rest.length + 1) := by omega
          rw [if_neg h4, if_pos h5]
          simp
        · by_cases hr : a + 1 ≤ x ∧ x < a + 1 + rest.length
          · have h5 : a ≤ x ∧ x < a + (rest.length + 1) := by omega
            have h6 : x - a = (x - (a + 1)) + 1 := by omega
            rw [if_pos hr, if_pos h5, h6]
            simp
          · have h5 : ¬(a ≤ x ∧ x < a + (rest.length + 1)) := by omega
            rw [if_neg hr, if_neg h5, if_neg hx]
      · simp [hr]
    · rw [he]
      simp only [List.length_cons] at hl
      refine h3 ?_ (by omega)
      rw [putByte_mem]
      split
      · exact wf_put _ h _ (by omega) _
      · exact h

theorem legal_iff (a : Int) (n : Nat) : legal a n = true ↔ 0 ≤ a ∧ a + n ≤ 2 ^ 24 := by simp [legal]

/-- What bytes written leave of memory depends on memory, the overwritten bytes, CFG and the chip alone. -/
theorem putBytes_dbg (bs : List Byte) : ∀ (s t : State) (a : Nat), s.mem = t.mem → s.stale = t.stale →
    s.config = t.config → s.cfg = t.cfg →
    (s.putBytes a bs).mem = (t.putBytes a bs).mem ∧ (s.putBytes a bs).stale = (t.putBytes a bs).stale := by
  induction bs with
  | nil => exact fun s t a hm hs _ _ => ⟨hm, hs⟩
  | cons b rest ih =>
    intro s t a hm hs hc hg
    refine ih (s.putByte a b) (t.putByte a b) (a + 1) ?_ ?_ ?_ ?_
    · simp [isRam_congr hc, hm]
    · simp [isRam_congr hc, hm, hs, State.staleAfter, State.icacheOn, hc, hg]
    · simp [hc]
    · simp [hg]

/-- What the comparators' look at an access can do: the debug unit changes, nothing else. -/
theorem noteAccess_eq (a : Int) (w : Bool) : s.noteAccess a w = { s with dbg := (s.noteAccess a w).dbg } := by
  unfold State.noteAccess
  split <;> rfl

/-- What a read can do besides giving its value: the debug unit changes, IAD is pending at an illegal address, and a
free value was drawn where not all of it is memory. -/
theorem noteRead_spec (a : Int) (n : Nat) :
    s.noteRead a n = { s with
      dbg := (s.noteAccess a false).dbg
      iadPending := s.iadPending || !legal a n
      draws := s.draws + if s.readable a n then 0 else 1 } := by
  unfold State.noteRead
  simp only
  rw [noteAccess_eq]
  cases legal a n <;> cases s.readable a n <;> simp [State.drew, State.illegal]

/-- What a write can do: at a legal address the bytes are stored, else IAD is pending and nothing is stored; the
debug unit sees it. -/
theorem storeBytes_spec (a : Int) (bs : List Byte) :
    s.storeBytes a bs = { s with
      mem := if legal a bs.length then (s.putBytes a.toNat bs).mem else s.mem
      stale := if legal a bs.length then (s.putBytes a.toNat bs).stale else s.stale
      dbg := (s.noteAccess a true).dbg
      iadPending := s.iadPending || !legal a bs.length } := by
  unfold State.storeBytes
  simp only
  rw [noteAccess_eq]
  cases legal a bs.length
  · simp [State.illegal]
  · simp only [if_true, Bool.not_true, Bool.or_false]
    have h := putBytes_dbg bs { s with dbg := (s.noteAccess a true).dbg } s a.toNat rfl rfl rfl rfl
    rw [(putBytes_spec bs _ a.toNat).1, h.1, h.2]

/-- A write keeps the canonical form. -/
theorem wf_storeBytes (a : Int) (bs : List Byte) (h : s.mem.wf = true) : (s.storeBytes a bs).mem.wf = true := by
  rw [storeBytes_spec]
  cases hl : legal a bs.length
  · exact h
  · obtain ⟨h0, h1⟩ := (legal_iff _ _).1 hl
    exact (putBytes_spec bs s a.toNat).2.2 h (by omega)

/-- A sequence of word writes keeps the canonical form. -/
theorem wf_storeWords (ws : List Word) : ∀ (s : State) (a : Int), s.mem.wf = true → (s.storeWords a ws).mem.wf = true := by
  induction ws with
  | nil => exact fun s a h => h
  | cons w rest ih => exact fun s a h => ih _ _ (wf_storeBytes s a _ h)

/-- A read leaves memory. -/
theorem noteRead_mem (a : Int) (n : Nat) : (s.noteRead a n).mem = s.mem := by rw [noteRead_spec]

end Sys2Proof.Laws
end

