-- ==== Sys2Proof/Laws/Bits.lean ====
section
/-! SUPPORT. Bit vectors joined and cut. -/

namespace Sys2Proof.Laws

/-- The low part of a join. -/
theorem low_of_join {a b : Nat} (x : BitVec a) (y : BitVec b) : (x ++ y).extractLsb' 0 b = y := by
  apply BitVec.eq_of_getLsbD_eq
  intro i hi
  simp only [BitVec.getLsbD_extractLsb', BitVec.getLsbD_append]
  simp [hi]

/-- The high part of a join. -/
theorem high_of_join {a b : Nat} (x : BitVec a) (y : BitVec b) : (x ++ y).extractLsb' b a = x := by
  apply BitVec.eq_of_getLsbD_eq
  intro i hi
  simp only [BitVec.getLsbD_extractLsb', BitVec.getLsbD_append]
  simp [hi]

/-- A value is the join of its two parts. -/
theorem join_of_parts {a b : Nat} (v : BitVec (a + b)) : v.extractLsb' b a ++ v.extractLsb' 0 b = v := by
  apply BitVec.eq_of_getLsbD_eq
  intro i hi
  simp only [BitVec.getLsbD_extractLsb', BitVec.getLsbD_append]
  by_cases h : i < b
  · simp [h]
  · have h1 : i - b < a := by omega
    have h2 : b + (i - b) = i := by omega
    simp [h, h1, h2]

/-- The value of a join. -/
theorem toNat_join {a b : Nat} (x : BitVec a) (y : BitVec b) : (x ++ y).toNat = x.toNat * 2 ^ b + y.toNat := by
  rw [BitVec.toNat_append, Nat.shiftLeft_eq, Nat.mul_comm, Nat.two_pow_add_eq_or_of_lt y.isLt]

end Sys2Proof.Laws
end

