-- ==== Sys2Proof/Laws/Regs.lean ====
section
/-! SUPPORT. What a register write can do, said once for each of `setWide`, `setReg`, `setHigh`, `setRegB`,
`setPair` and `setSlot` (spec/10_state.md R22, R23). -/

namespace Sys2Proof.Laws

open Sys2Proof.Machine

variable (s : State)

theorem regNum_cases (n : RegNum) (h : 12 ≤ n) : n = 12 ∨ n = 13 ∨ n = 14 ∨ n = 15 := by
  have h1 : 12 ≤ n.toNat := by simpa [BitVec.le_def] using h
  have h2 := n.isLt
  have : n.toNat = 12 ∨ n.toNat = 13 ∨ n.toNat = 14 ∨ n.toNat = 15 := by omega
  rcases this with h | h | h | h
  · exact .inl (BitVec.eq_of_toNat_eq h)
  · exact .inr (.inl (BitVec.eq_of_toNat_eq h))
  · exact .inr (.inr (.inl (BitVec.eq_of_toNat_eq h)))
  · exact .inr (.inr (.inr (BitVec.eq_of_toNat_eq h)))

theorem regNum_lt (n : RegNum) : n.toNat < 12 ↔ ¬ 12 ≤ n := by
  rw [BitVec.le_def]
  have : (12 : RegNum).toNat = 12 := rfl
  omega

/-- `setWide` writes the register file alone. -/
theorem setWide_eq (n : RegNum) (v : DWord) : s.setWide n v = { s with regs := (s.setWide n v).regs } := by
  unfold State.setWide
  split <;> first | rfl | (split <;> rfl)

theorem setWide_r (n : RegNum) (v : DWord) : (s.setWide n v).regs.r = s.regs.r := by
  unfold State.setWide
  split <;> first | rfl | (split <;> rfl)

theorem setWide_psr (n : RegNum) (v : DWord) : (s.setWide n v).psr = s.psr := by rw [setWide_eq]

/-- A 32-bit register reads as it was written. -/
theorem wide_setWide (n : RegNum) (v : DWord) : (s.setWide n v).wide n = v := by
  unfold State.setWide State.wide
  split
  · rfl
  · rfl
  · rfl
  · cases h : s.psr.u <;> simp [State.spx, h]

/-- Another 32-bit register stays. -/
theorem wide_setWide_ne {n m : RegNum} (hn : 12 ≤ n) (hm : 12 ≤ m) (h : m ≠ n) (v : DWord) :
    (s.setWide n v).wide m = s.wide m := by
  rcases regNum_cases n hn with rfl | rfl | rfl | rfl <;>
    rcases regNum_cases m hm with rfl | rfl | rfl | rfl <;>
    first
      | exact absurd rfl h
      | rfl
      | (cases hu : s.psr.u <;> simp [State.setWide, State.wide, hu])

theorem idleSp_setWide (n : RegNum) (v : DWord) : (s.setWide n v).idleSp = s.idleSp := by
  unfold State.setWide State.idleSp
  split
  · rfl
  · rfl
  · rfl
  · cases h : s.psr.u <;> simp [h]

/-- The low half of a register number 12..15 is that of its 32-bit register. -/
theorem reg_wide {n : RegNum} (h : 12 ≤ n) : s.reg n = (s.wide n).extractLsb' 0 16 := by
  unfold State.reg
  rw [dif_neg ((not_congr (regNum_lt n)).2 (not_not_intro h))]

theorem reg_low {n : RegNum} (h : n.toNat < 12) : s.reg n = s.regs.r[n.toNat] := by
  unfold State.reg
  rw [dif_pos h]

/-- `setReg` writes the register file alone. -/
theorem setReg_eq (n : RegNum) (v : Word) : s.setReg n v = { s with regs := (s.setReg n v).regs } := by
  unfold State.setReg
  split
  · rfl
  · exact setWide_eq s n _

/-- R[n] reads as it was written. -/
theorem reg_setReg (n : RegNum) (v : Word) : (s.setReg n v).reg n = v := by
  by_cases h : n.toNat < 12
  · simp [State.reg, State.setReg, h]
  · have h' : 12 ≤ n := by_contra fun c => h ((regNum_lt n).2 c)
    rw [reg_wide _ h']
    unfold State.setReg
    rw [dif_neg h, wide_setWide]
    exact low_of_join _ _

/-- The upper half of a 32-bit register stays (R22). -/
theorem high_setReg {m : RegNum} (n : RegNum) (hm : 12 ≤ m) (v : Word) : (s.setReg n v).high m = s.high m := by
  unfold State.setReg
  split
  · rfl
  · rename_i h
    have hn : 12 ≤ n := by_contra fun c => h ((regNum_lt n).2 c)
    unfold State.high
    by_cases hmn : m = n
    · subst hmn
      rw [wide_setWide]
      exact high_of_join _ _
    · rw [wide_setWide_ne s hn hm hmn]

/-- Every other register stays. -/
theorem reg_setReg_ne {n m : RegNum} (h : m ≠ n) (v : Word) : (s.setReg n v).reg m = s.reg m := by
  unfold State.setReg
  split
  · rename_i hn
    by_cases hm : m.toNat < 12
    · rw [reg_low _ hm, reg_low _ hm]
      exact Vector.getElem_set_ne hn hm (fun c => h (BitVec.eq_of_toNat_eq c.symm))
    · have hm' : 12 ≤ m := by_contra fun c => hm ((regNum_lt m).2 c)
      rw [reg_wide _ hm', reg_wide _ hm']
      rfl
  · rename_i hn
    have hn' : 12 ≤ n := by_contra fun c => hn ((regNum_lt n).2 c)
    by_cases hm : m.toNat < 12
    · rw [reg_low _ hm, reg_low _ hm]
      simp only [setWide_r]
    · have hm' : 12 ≤ m := by_contra fun c => hm ((regNum_lt m).2 c)
      rw [reg_wide _ hm', reg_wide _ hm', wide_setWide_ne s hn' hm' h]

theorem idleSp_setReg (n : RegNum) (v : Word) : (s.setReg n v).idleSp = s.idleSp := by
  unfold State.setReg
  split
  · rfl
  · exact idleSp_setWide s n _

/-- What `setReg` can do, at once. -/
theorem setReg_spec (n : RegNum) (v : Word) :
    (s.setReg n v).reg n = v ∧ RegsKept [⟨n, false⟩] s (s.setReg n v) ∧
      s.setReg n v = { s with regs := (s.setReg n v).regs } :=
  ⟨reg_setReg s n v,
    ⟨fun m h => reg_setReg_ne s (fun c => h (by simp [c])) v, fun m hm _ => high_setReg s n hm v, idleSp_setReg s n v⟩,
    setReg_eq s n v⟩

/-- `setRegB`: the low byte as written, the high byte as before, nothing else (R22). -/
theorem setRegB_spec (n : RegNum) (v : Byte) :
    (s.setRegB n v).reg n = (s.reg n).extractLsb' 8 8 ++ v ∧ RegsKept [⟨n, false⟩] s (s.setRegB n v) ∧
      s.setRegB n v = { s with regs := (s.setRegB n v).regs } :=
  setReg_spec s n _

/-- What `setWide` can do, at once. -/
theorem setWide_spec {n : RegNum} (hn : 12 ≤ n) (v : DWord) :
    (s.setWide n v).wide n = v ∧ RegsKept [⟨n, false⟩, ⟨n, true⟩] s (s.setWide n v) ∧
      s.setWide n v = { s with regs := (s.setWide n v).regs } := by
  refine ⟨wide_setWide s n v, ⟨fun m h => ?_, fun m hm h => ?_, idleSp_setWide s n v⟩, setWide_eq s n v⟩
  · have hne : m ≠ n := fun c => h (by simp [c])
    by_cases hm : m.toNat < 12
    · rw [reg_low _ hm, reg_low _ hm]
      simp only [setWide_r]
    · have hm' : 12 ≤ m := by_contra fun c => hm ((regNum_lt m).2 c)
      rw [reg_wide _ hm', reg_wide _ hm', wide_setWide_ne s hn hm' hne]
  · have hne : m ≠ n := fun c => h (by simp [c])
    unfold State.high
    rw [wide_setWide_ne s hn hm hne]

theorem pairIsWide_ge {n : PairNum} (h : s.pairIsWide n = true) : 12 ≤ n := by
  simp only [State.pairIsWide, Bool.or_eq_true, beq_iff_eq, Bool.and_eq_true, decide_eq_true_eq] at h
  rcases h with rfl | h
  · decide
  · exact h.1

theorem pairIsWide_regs (n : PairNum) (r : RegFile) : ({ s with regs := r }).pairIsWide n = s.pairIsWide n := rfl

theorem succ_ne (n : BitVec 4) : n + 1 ≠ n := by
  intro h
  have : (1 : BitVec 4) = 0 := by simp at h
  exact absurd this (by decide)

theorem setPair_eq (n : PairNum) (v : DWord) : s.setPair n v = { s with regs := (s.setPair n v).regs } := by
  unfold State.setPair
  split
  · exact setWide_eq s n v
  · rw [setReg_eq (s.setReg n _), setReg_eq s n]

/-- What `setPair` can do, at once: the pair reads as written, every half outside it as before (R23). -/
theorem setPair_spec (n : PairNum) (v : DWord) :
    (s.setPair n v).pair n = v ∧ RegsKept (s.pairSlots n) s (s.setPair n v) ∧
      s.setPair n v = { s with regs := (s.setPair n v).regs } := by
  refine ⟨?_, ?_, setPair_eq s n v⟩
  · unfold State.pair
    have hw : (s.setPair n v).pairIsWide n = s.pairIsWide n := by rw [setPair_eq]; rfl
    rw [hw]
    unfold State.setPair
    split
    · exact wide_setWide s n v
    · rw [reg_setReg, reg_setReg_ne _ (succ_ne n).symm, reg_setReg]
      exact join_of_parts (a := 16) (b := 16) v
  · unfold State.setPair State.pairSlots
    split
    · rename_i h
      exact (setWide_spec s (pairIsWide_ge s h) v).2.1
    · refine ⟨fun m h => ?_, fun m hm h => ?_, ?_⟩
      · rw [reg_setReg_ne _ (fun c => h (by simp [c])), reg_setReg_ne _ (fun c => h (by simp [c]))]
      · rw [high_setReg _ _ hm, high_setReg _ _ hm]
      · rw [idleSp_setReg, idleSp_setReg]

end Sys2Proof.Laws
end

