-- ==== Sys2Proof/Laws/Ops.lean ====
section
/-! SUPPORT. What each shared operation can do, said once. -/

namespace Sys2Proof.Laws

open Sys2Proof.Machine

/-! ### The PC -/

theorem ofInt_add (a : Addr) (n : Nat) : BitVec.ofInt 24 ((a.toNat : Int) + n) = a + BitVec.ofNat 24 n := by
  rw [BitVec.ofInt_add, BitVec.ofInt_natCast, BitVec.ofInt_natCast, BitVec.ofNat_toNat, BitVec.setWidth_eq]

theorem legal_next (a : Addr) (n : Nat) : (!legal ((a.toNat : Int) + n) 1) = decide (2 ^ 24 ≤ a.toNat + n) := by
  unfold legal
  by_cases h : 2 ^ 24 ≤ a.toNat + n
  · rw [decide_eq_true h, decide_eq_false (by omega)]
    rfl
  · rw [decide_eq_false h, decide_eq_true (by omega)]
    rfl

/-- `setPc` at a legal address holds it (R345). -/
theorem setPc_toNat (s : State) (a : Int) (h0 : 0 ≤ a) (h1 : a < 2 ^ 24) : ((s.setPc a).pc.toNat : Int) = a := by
  rw [setPc_pc, BitVec.toNat_ofInt]
  omega

/-- `setPc`: where the PC goes, nothing else (R345). -/
theorem setPc_spec (s : State) (a : Int) :
    WentTo a s (s.setPc a) ∧ OnlyPc s (s.setPc a) := by
  refine ⟨⟨fun h0 h1 => setPc_toNat s a h0 h1, ?_⟩, rfl⟩
  rw [setPc_iadPending]
  unfold legal
  simp only [Bool.or_eq_true, Bool.not_eq_true', decide_eq_false_iff_not]
  refine or_congr Iff.rfl ?_
  omega

/-- `advance`: the PC moves on by `n` bytes (R345, R536), nothing else. -/
theorem advance_spec (s : State) (n : Nat) :
    Advanced n s (s.advance n) ∧
      s.advance n = { s with pc := (s.advance n).pc, iadPending := (s.advance n).iadPending } := by
  have h := (setPc_spec s ((s.pc.toNat : Int) + n)).1
  refine ⟨⟨fun hl => ?_, ?_⟩, rfl⟩
  · have := h.1 (by omega) (by omega)
    unfold State.advance
    omega
  · unfold State.advance
    rw [h.2]
    refine or_congr Iff.rfl ?_
    omega

/-- `setPc` writes the PC and IAD alone. -/
theorem setPc_eq (s : State) (t : Int) :
    s.setPc t = { s with pc := BitVec.ofInt 24 t, iadPending := s.iadPending || !legal t 1 } := rfl

/-! ### The debug unit -/

theorem record_none (b : DebugBank) (x y : BitVec 7) : b.record false (false, false) x y = b := by
  cases b with
  | mk dcrl dsr car0 car1 bpMask seqArmed => cases h : DebugBank.esq ⟨dcrl, dsr, car0, car1, bpMask, seqArmed⟩ <;> simp [DebugBank.record, h]

theorem off_data (b : DebugBank) (h0 : b.dcrl.getLsbD 7 = false) (h1 : b.dcrl.getLsbD 15 = false) (ch write : Bool) :
    b.dataOn ch write = false := by
  cases ch
  · simp only [DebugBank.dataOn, DebugBank.dcrBit, Bool.false_eq_true, if_false, h0, Bool.false_and]
  · simp only [DebugBank.dataOn, DebugBank.dcrBit, if_true, Nat.reduceAdd, h1, Bool.false_and]

theorem off_pc (b : DebugBank) (h0 : b.dcrl.getLsbD 7 = false) (h1 : b.dcrl.getLsbD 15 = false) (ch : Bool) :
    b.pcOn ch = false := by
  cases ch
  · simp only [DebugBank.pcOn, DebugBank.dcrBit, Bool.false_eq_true, if_false, h0, Bool.false_and]
  · simp only [DebugBank.pcOn, DebugBank.dcrBit, if_true, Nat.reduceAdd, h1, Bool.false_and]

theorem off_dataHits (b : DebugBank) (h0 : b.dcrl.getLsbD 7 = false) (h1 : b.dcrl.getLsbD 15 = false) (a : Addr)
    (write : Bool) : b.dataHits a write = (false, false) := by
  simp [DebugBank.dataHits, DebugBank.hits, DebugBank.dataHitCh, off_data b h0 h1]

theorem off_pcHits (b : DebugBank) (h0 : b.dcrl.getLsbD 7 = false) (h1 : b.dcrl.getLsbD 15 = false) (a : Addr) :
    b.pcHits a = (false, false) := by
  simp [DebugBank.pcHits, DebugBank.hits, DebugBank.pcHitCh, off_pc b h0 h1]

theorem off_afterData (b : DebugBank) (h0 : b.dcrl.getLsbD 7 = false) (h1 : b.dcrl.getLsbD 15 = false) (a : Addr)
    (write : Bool) : b.afterData a write = b := by
  unfold DebugBank.afterData
  rw [off_dataHits b h0 h1, show b.dataHitCh false a write = false by simp [DebugBank.dataHitCh, off_data b h0 h1]]
  exact record_none b _ _

/-- With no condition enabled a data access leaves the debug unit (R562). -/
theorem afterData_off (s : State) (h : Undebugged s) (a : Addr) (write : Bool) :
    s.dbg.afterData s.config.lastBank a write = s.dbg := by
  have b0 := h 0
  have b1 := h 1
  have b2 := h 2
  have b3 := h 3
  simp only [DebugUnit.get] at b0 b1 b2 b3
  change (s.dbg.bank0.dcrl.getLsbD 7 = false ∧ s.dbg.bank0.dcrl.getLsbD 15 = false) at b0
  change (s.dbg.bank1.dcrl.getLsbD 7 = false ∧ s.dbg.bank1.dcrl.getLsbD 15 = false) at b1
  change (s.dbg.bank2.dcrl.getLsbD 7 = false ∧ s.dbg.bank2.dcrl.getLsbD 15 = false) at b2
  change (s.dbg.bank3.dcrl.getLsbD 7 = false ∧ s.dbg.bank3.dcrl.getLsbD 15 = false) at b3
  simp [DebugUnit.afterData, DebugUnit.mapBanks, DebugUnit.anyBank, off_afterData _ b0.1 b0.2, off_afterData _ b1.1 b1.2,
    off_afterData _ b2.1 b2.2, off_afterData _ b3.1 b3.2, off_dataHits _ b0.1 b0.2, off_dataHits _ b1.1 b1.2,
    off_dataHits _ b2.1 b2.2, off_dataHits _ b3.1 b3.2]

/-- With no debug condition enabled the comparators' look at an access leaves the state (R562). -/
theorem noteAccess_off (s : State) (h : Undebugged s) (a : Int) (write : Bool) : s.noteAccess a write = s := by
  unfold State.noteAccess
  rw [afterData_off s h]
  split <;> rfl

/-- A read of memory with no debug condition enabled leaves the state. -/
theorem noteRead_off (s : State) (h : Undebugged s) (a : Int) (n : Nat) (hr : s.readable a n = true) :
    s.noteRead a n = s := by
  have hl : legal a n = true := by
    unfold State.readable at hr
    exact (Bool.and_eq_true_iff.1 hr).1
  rw [noteRead_spec, noteAccess_off s h, if_pos hr, hl]
  simp

/-! ### Transfer lists -/

/-- `setHigh` writes the register file alone. -/
theorem setSlot_eq (s : State) (x : Slot) (v : Word) : s.setSlot x v = { s with regs := (s.setSlot x v).regs } := by
  unfold State.setSlot
  split
  · exact setWide_eq s _ _
  · exact setReg_eq s _ _

/-- What loading slots can do: registers, the debug unit, IAD and the count of draws change, nothing else. -/
theorem loadSlots_eq (xs : List Slot) : ∀ (s : State) (a : Int),
    s.loadSlots a xs = { s with
      regs := (s.loadSlots a xs).regs
      dbg := (s.loadSlots a xs).dbg
      iadPending := (s.loadSlots a xs).iadPending
      draws := (s.loadSlots a xs).draws } := by
  induction xs with
  | nil => exact fun s a => rfl
  | cons x rest ih =>
    intro s a
    have he : s.loadSlots a (x :: rest) = ((s.noteRead a 2).setSlot x (s.loadW a)).loadSlots (a + 2) rest := rfl
    rw [he, ih, setSlot_eq, noteRead_spec]

/-- What writing words can do: memory, the overwritten bytes, the debug unit and IAD change, nothing else. -/
theorem storeWords_eq (ws : List Word) : ∀ (s : State) (a : Int),
    s.storeWords a ws = { s with
      mem := (s.storeWords a ws).mem
      stale := (s.storeWords a ws).stale
      dbg := (s.storeWords a ws).dbg
      iadPending := (s.storeWords a ws).iadPending } := by
  induction ws with
  | nil => exact fun s a => rfl
  | cons w rest ih =>
    intro s a
    have he : s.storeWords a (w :: rest) = (s.storeW a w).storeWords (a + 2) rest := rfl
    rw [he, ih]
    unfold State.storeW
    rw [storeBytes_spec]

/-! ### Processor registers -/

theorem setBank_eq (s : State) (x : DebugBank) : s.setBank x = { s with dbg := (s.setBank x).dbg } := by
  unfold State.setBank
  split <;> rfl

/-- What a write of a processor register can do: no memory, not the PC, not PSR.U (R326, R330). -/
theorem prWrite16_eq (s : State) (n : ProcRegNum) (v : Word) :
    s.prWrite16 n v = { s with
      regs := { s.regs with usp := (s.prWrite16 n v).regs.usp }
      isp := (s.prWrite16 n v).isp
      intbase := (s.prWrite16 n v).intbase
      psr := { (s.prWrite16 n v).psr with u := s.psr.u }
      cfg := (s.prWrite16 n v).cfg
      dbg := (s.prWrite16 n v).dbg
      stale := (s.prWrite16 n v).stale } := by
  unfold State.prWrite16
  split
  · rfl
  · rw [setBank_eq]
  · rw [setBank_eq]
  · unfold State.writeDcrh
    simp only
    split <;> rw [setBank_eq]
  · rw [setBank_eq]
  · rw [setBank_eq]
  · rw [setBank_eq]
  · rw [setBank_eq]
  · unfold State.writeCfg
    simp only
    split
    · rfl
    · split <;> rfl
  all_goals rfl

/-! ### An address looked at, whatever is accessed -/

/-- What the look at an address can do: IAD becomes pending where it lies outside the space, nothing else. -/
theorem checkAddress_eq (s : State) (a : Int) :
    s.checkAddress a = { s with iadPending := s.iadPending || !legal a 1 } := by
  unfold State.checkAddress
  cases legal a 1 <;> simp [State.illegal]

/-! ### Taking an exception and returning from one -/

theorem pushFrame_eq (s : State) (ret : Addr) :
    s.pushFrame ret = { s with
      isp := BitVec.ofInt 24 ((s.isp.toNat : Int) - 6)
      mem := (s.pushFrame ret).mem
      stale := (s.pushFrame ret).stale
      dbg := (s.pushFrame ret).dbg
      iadPending := (s.pushFrame ret).iadPending
      draws := s.draws + 1 } := by
  unfold State.pushFrame State.storeW State.storeD
  simp only
  rw [storeBytes_spec, storeBytes_spec (s.drew 1)]
  rfl

theorem acknowledge_eq (s : State) (x : Exc) :
    s.acknowledge x = { s with
      dbg := (s.acknowledge x).dbg, iadPending := (s.acknowledge x).iadPending, draws := (s.acknowledge x).draws } := by
  unfold State.acknowledge
  split
  · rw [noteRead_spec]
  · rfl

theorem dispatch_eq (s : State) (x : Exc) :
    s.dispatch x = { s with
      pc := (s.dispatch x).pc
      dbg := (s.dispatch x).dbg
      iadPending := (s.dispatch x).iadPending
      draws := (s.dispatch x).draws } := by
  unfold State.dispatch
  simp only
  split <;> rw [noteRead_spec]

/-- What taking an exception can do: the registers, INTBASE, CFG, the inputs and the chip stay; ISP goes down
by 6; of the PSR, P, T, U are 0, and I for an interrupt or DBG; the wait is over (R510, R511). -/
theorem enter_eq (s : State) (x : Exc) (ret : Addr) :
    s.enter x ret = { s with
      pc := (s.enter x ret).pc
      isp := BitVec.ofInt 24 ((s.isp.toNat : Int) - 6)
      psr := x.psrAfter s.psr
      dbg := (s.enter x ret).dbg
      iadPending := (s.enter x ret).iadPending
      waiting := false
      mem := (s.enter x ret).mem
      stale := (s.enter x ret).stale
      draws := (s.enter x ret).draws } := by
  unfold State.enter
  simp only
  rw [dispatch_eq, acknowledge_eq]
  split <;> rw [pushFrame_eq] <;> rfl

/-- What a return from an exception can do (R362). -/
theorem returnFrom_eq (s : State) :
    s.returnFrom = { s with
      pc := jumpTarget (s.loadD s.isp.toNat)
      isp := s.isp + 6
      psr := psrOfWord ((s.noteRead s.isp.toNat 4).loadW (s.isp.toNat + 4))
      dbg := s.returnFrom.dbg
      iadPending := s.returnFrom.iadPending
      stale := { s.stale with prefetch := [] }
      draws := s.returnFrom.draws } := by
  obtain ⟨d, i, n, h⟩ : ∃ d i n, s.noteRead s.isp.toNat 4 = { s with dbg := d, iadPending := i, draws := n } :=
    ⟨_, _, _, noteRead_spec _ _ _⟩
  obtain ⟨d', i', n', h'⟩ : ∃ d' i' n', (s.noteRead s.isp.toNat 4).noteRead (s.isp.toNat + 4) 2 =
      { s.noteRead s.isp.toNat 4 with dbg := d', iadPending := i', draws := n' } := ⟨_, _, _, noteRead_spec _ _ _⟩
  have e : s.returnFrom = State.serialize { (s.noteRead s.isp.toNat 4).noteRead (s.isp.toNat + 4) 2 with
      isp := s.isp + 6
      psr := psrOfWord ((s.noteRead s.isp.toNat 4).loadW (s.isp.toNat + 4))
      pc := jumpTarget (s.loadD s.isp.toNat) } := by
    unfold State.returnFrom
    rfl
  rw [e, h']
  generalize psrOfWord _ = p
  generalize jumpTarget _ = q
  rw [h]
  rfl

end Sys2Proof.Laws
end

