-- ==== Sys2Proof/Laws/Results.lean ====
section
/-! SUPPORT. What the shared computations give, in the arithmetic of the spec: sums, differences, comparisons,
conditions, saturation, shifts, and the frame of an instruction that writes one register or pair. -/

namespace Sys2Proof.Laws

open Sys2Proof.Machine

/-! ### Flags and results -/

/-- `addWith` is the sum of R215. -/
theorem addWith_spec {w : Nat} (a b : BitVec w) (cin : Bool) (p : Psr) :
    SumOf a b cin (addWith a b cin).res.toNat p { p with c := (addWith a b cin).c, f := (addWith a b cin).f } := by
  have ha := a.isLt
  have hb := b.isLt
  have hc : cin.toNat ≤ 1 := by cases cin <;> decide
  have hp : 1 ≤ 2 ^ w := Nat.one_le_two_pow
  refine ⟨(addWith a b cin).res.isLt, ?_, ?_, rfl⟩
  · simp only [addWith, BitVec.toNat_ofNat]
    by_cases h : 2 ^ w ≤ a.toNat + b.toNat + cin.toNat
    · rw [decide_eq_true h, Nat.mod_eq_sub_mod h, Nat.mod_eq_of_lt (by omega)]
      simp only [Bool.toNat_true, Nat.mul_one]
      omega
    · rw [decide_eq_false h, Nat.mod_eq_of_lt (by omega)]
      simp
  · simp only [addWith, overflows, decide_eq_true_eq]
    refine or_congr Iff.rfl ?_
    omega

/-- `subWith` is the difference of R216. -/
theorem subWith_spec {w : Nat} (a b : BitVec w) (bin : Bool) (p : Psr) :
    DifferenceOf a b bin (subWith a b bin).res.toNat p
      { p with c := (subWith a b bin).c, f := (subWith a b bin).f } := by
  have ha := a.isLt
  have hb := b.isLt
  have hc : bin.toNat ≤ 1 := by cases bin <;> decide
  have hp : 1 ≤ 2 ^ w := Nat.one_le_two_pow
  refine ⟨(subWith a b bin).res.isLt, ?_, ?_, rfl⟩
  · simp only [subWith, BitVec.toNat_ofInt]
    have hcast : ((2 ^ w : Nat) : Int) = (2 : Int) ^ w := by norm_cast
    by_cases h : a.toNat < b.toNat + bin.toNat
    · rw [decide_eq_true h]
      have : ((a.toNat : Int) - b.toNat - bin.toNat) % ((2 ^ w : Nat) : Int)
          = (a.toNat : Int) - b.toNat - bin.toNat + (2 ^ w : Nat) := by
        rw [← Int.add_emod_right, Int.emod_eq_of_lt] <;> omega
      rw [this]
      simp only [Bool.toNat_true, Nat.mul_one]
      omega
    · rw [decide_eq_false h, Int.emod_eq_of_lt (by omega) (by omega)]
      simp only [Bool.toNat_false, Nat.mul_zero]
      omega
  · simp only [subWith, overflows, decide_eq_true_eq]
    refine or_congr Iff.rfl ?_
    omega

/-- `cmpFlags` is the comparison of R263. -/
theorem cmpFlags_spec {w : Nat} (a b : BitVec w) (p : Psr) : ComparedAs a b p (cmpFlags a b p) := by
  refine ⟨?_, by simp [cmpFlags], by simp [cmpFlags], rfl⟩
  simp only [cmpFlags, decide_eq_true_eq]
  exact ⟨fun h => h ▸ rfl, BitVec.eq_of_toNat_eq⟩

/-- `condTrue` is the table of R40. -/
theorem condTrue_iff (c : Cond) (p : Psr) : condTrue c p = true ↔ CondHolds c p := by
  cases c <;> simp [condTrue, CondHolds]

/-- `satS32` clamps to the signed 32-bit range (R218). -/
theorem satS32_eq (x : Int) : satS32 x = max (-2 ^ 31) (min (2 ^ 31 - 1) x) := by
  unfold satS32
  omega

/-- A clamped integer survives the narrowing to 32 bits. -/
theorem toInt_satS32 (x : Int) : (BitVec.ofInt 32 (satS32 x)).toInt = satS32 x := by
  rw [BitVec.toInt_ofInt, satS32_eq, Int.bmod_def]
  omega

/-- `satU32` clamps to the unsigned 32-bit range (R218). -/
theorem toNat_satU32 (x : Nat) : (BitVec.ofNat 32 (satU32 x)).toNat = min (2 ^ 32 - 1) x := by
  rw [BitVec.toNat_ofNat]
  unfold satU32
  split <;> omega

/-- `shiftBy` to the left multiplies modulo 2^N (R288). -/
theorem shiftBy_left {w : Nat} (arith : Bool) (v : BitVec w) (c : Int) (h0 : 0 ≤ c) (h1 : c ≤ (w : Int) - 1) :
    shiftBy arith v c = some (BitVec.ofNat w (v.toNat * 2 ^ c.toNat)) := by
  unfold shiftBy
  rw [if_neg (by omega), if_pos h0]

/-- `shiftBy` to the right divides, rounding down (R288). -/
theorem shiftBy_right {w : Nat} (arith : Bool) (v : BitVec w) (c : Int) (h0 : c < 0) (h1 : 1 - (w : Int) ≤ c) :
    shiftBy arith v c = some (if arith then BitVec.ofInt w (v.toInt / 2 ^ (-c).toNat)
      else BitVec.ofNat w (v.toNat / 2 ^ (-c).toNat)) := by
  unfold shiftBy
  rw [if_neg (by omega), if_neg (by omega)]
  cases arith <;> rfl

/-- Out of range there is no result (R288). -/
theorem shiftBy_none {w : Nat} (arith : Bool) (v : BitVec w) (c : Int) (h : (w : Int) - 1 < c ∨ c < 1 - (w : Int)) :
    shiftBy arith v c = none := by
  unfold shiftBy
  rw [if_pos h]

/-- The signed value divided by a power of two fits its width. -/
theorem toInt_shiftRight {w : Nat} (v : BitVec w) (k : Nat) :
    (BitVec.ofInt w (v.toInt / 2 ^ k)).toInt = v.toInt / 2 ^ k := by
  have h : BitVec.ofInt w (v.toInt / 2 ^ k) = v.sshiftRight k := by
    unfold BitVec.sshiftRight
    rw [Int.shiftRight_eq_div_pow]
    norm_cast
  rw [h, BitVec.toInt_sshiftRight, Int.shiftRight_eq_div_pow]
  norm_cast

/-! ### Registers -/

/-- What a register number names depends on the register file and PSR.U alone (R22). -/
theorem reg_congr {u v : State} (hr : v.regs = u.regs) (hu : v.psr.u = u.psr.u) (n : RegNum) : v.reg n = u.reg n := by
  unfold State.reg State.wide State.spx
  rw [hr, hu]

theorem wide_congr {u v : State} (hr : v.regs = u.regs) (hu : v.psr.u = u.psr.u) (n : RegNum) : v.wide n = u.wide n := by
  unfold State.wide State.spx
  rw [hr, hu]

theorem idleSp_congr {u v : State} (hr : v.regs = u.regs) (hu : v.psr.u = u.psr.u) : v.idleSp = u.idleSp := by
  unfold State.idleSp
  rw [hr, hu]

/-- What a pair number names depends on the register file, PSR.U and CFG.SR alone (R23). -/
theorem pair_congr {u v : State} (hr : v.regs = u.regs) (hu : v.psr.u = u.psr.u) (hs : v.cfg.sr = u.cfg.sr)
    (n : PairNum) : v.pair n = u.pair n := by
  unfold State.pair State.pairIsWide
  rw [wide_congr hr hu, reg_congr hr hu, reg_congr hr hu, hs]

/-- What is kept of the registers depends on the register file and PSR.U alone. -/
theorem regsKept_congr {w : List Slot} {s u v : State} (h : RegsKept w s u) (hr : v.regs = u.regs)
    (hu : v.psr.u = u.psr.u) : RegsKept w s v := by
  refine ⟨fun n hn => ?_, fun n hn h' => ?_, ?_⟩
  · rw [reg_congr hr hu, h.1 n hn]
  · unfold State.high
    rw [wide_congr hr hu]
    exact h.2.1 n hn h'
  · rw [idleSp_congr hr hu, h.2.2]

/-- Nothing written keeps every register. -/
theorem regsKept_refl {w : List Slot} {s t : State} (hr : t.regs = s.regs) (hu : t.psr.u = s.psr.u) :
    RegsKept w s t :=
  regsKept_congr ⟨fun _ _ => rfl, fun _ _ _ => rfl, rfl⟩ hr hu

/-- Fewer halves written keep more. -/
theorem regsKept_mono {w w' : List Slot} {s t : State} (h : RegsKept w s t) (hw : ∀ x ∈ w, x ∈ w') : RegsKept w' s t :=
  ⟨fun n hn => h.1 n (fun c => hn (hw _ c)), fun n h0 hn => h.2.1 n h0 (fun c => hn (hw _ c)), h.2.2⟩

/-- The frame of an instruction that wrote registers and flags and moves on. -/
theorem registerFrame_advance {w : List Slot} {s u : State} (n : Nat) (hr : RegsKept w s u)
    (he : u = { s with regs := u.regs, psr := u.psr, draws := u.draws }) : RegisterFrame w n s (u.advance n) := by
  have ha := (advance_spec u n).1
  have hpc : u.pc = s.pc := by rw [he]
  have hi : u.iadPending = s.iadPending := by rw [he]
  refine ⟨regsKept_congr hr rfl rfl, ?_, ?_, ?_⟩
  · rw [he]
    exact ⟨fun _ => rfl, rfl⟩
  · rw [he]
    exact ⟨rfl, rfl, rfl, rfl, rfl, rfl, rfl, rfl⟩
  · unfold Advanced at ha ⊢
    rwa [hpc, hi] at ha

/-- A byte write as R22 says it. -/
theorem lowByte_setRegB (s : State) (n : RegNum) (v : Byte) : LowByte n v.toNat s (s.setRegB n v) := by
  refine ⟨v.isLt, ?_⟩
  rw [(setRegB_spec s n v).1, toNat_join, BitVec.extractLsb'_toNat, Nat.shiftRight_eq_div_pow]
  have := (s.reg n).isLt
  omega

/-- The low byte of a register as a number (R22). -/
theorem toNat_regB (s : State) (n : RegNum) : (s.regB n).toNat = (s.reg n).toNat % 256 := by
  simp [State.regB]

end Sys2Proof.Laws
end

