-- ==== Sys2Proof/Laws/Accesses.lean ====
section
/-! SUPPORT. What loads, stores and transfers give, in the terms of the statements: the value at an address,
the bytes outside it, the frame. -/

namespace Sys2Proof.Laws

open Sys2Proof.Machine

/-! ### Values in memory (R83 to R85) -/

theorem littleEndian_one (m : Memory) (a : Nat) : m.littleEndian a 1 = (m.byte a).toNat := rfl

/-- A word is its two bytes, low byte first. -/
theorem littleEndian_two (m : Memory) (a : Nat) : m.littleEndian a 2 = (m.word a).toNat := by
  simp only [Memory.littleEndian, Memory.word, toNat_join]
  omega

/-- A double-word is its two words, low word first. -/
theorem littleEndian_four (m : Memory) (a : Nat) : m.littleEndian a 4 = (m.dword a).toNat := by
  have h : (m.dword a).toNat = (m.word (a + 2)).toNat * 2 ^ 16 + (m.word a).toNat := toNat_join (m.word (a + 2)) (m.word a)
  rw [h, ← littleEndian_two, ← littleEndian_two]
  simp only [Memory.littleEndian, Nat.add_assoc, Nat.reduceAdd]
  omega

/-- A value in memory depends on its bytes alone. -/
theorem littleEndian_congr {m m' : Memory} {a : Nat} (n : Nat)
    (h : ∀ x : Nat, a ≤ x → x < a + n → m'.byte x = m.byte x) : m'.littleEndian a n = m.littleEndian a n := by
  induction n generalizing a with
  | zero => rfl
  | succ k ih =>
    simp only [Memory.littleEndian]
    rw [h a (by omega) (by omega), ih (fun x h1 h2 => h x (by omega) (by omega))]

/-- The number a list of bytes stands for, low byte first. -/
def bytesValue (bs : List Byte) : Nat :=
  match bs with
  | [] => 0
  | b :: rest => b.toNat + 256 * bytesValue rest

theorem bytesValue_word (w : Word) : bytesValue (wordBytes w) = w.toNat := by
  have h := w.isLt
  simp only [bytesValue, wordBytes, BitVec.extractLsb'_toNat, Nat.shiftRight_eq_div_pow]
  omega

theorem bytesValue_dword (v : DWord) : bytesValue (dwordBytes v) = v.toNat := by
  have h := v.isLt
  simp only [bytesValue, dwordBytes, BitVec.extractLsb'_toNat, Nat.shiftRight_eq_div_pow]
  omega

/-- Bytes found in memory are the value they stand for. -/
theorem littleEndian_of_bytes (m : Memory) (bs : List Byte) (a : Nat)
    (h : ∀ x : Nat, a ≤ x → x < a + bs.length → m.byte x = bs.getD (x - a) 0) :
    m.littleEndian a bs.length = bytesValue bs := by
  induction bs generalizing a with
  | nil => rfl
  | cons b rest ih =>
    simp only [List.length_cons, Memory.littleEndian, bytesValue]
    have h0 := h a (by omega) (by simp)
    rw [Nat.sub_self] at h0
    rw [h0, ih (a + 1)]
    · rfl
    · intro x h1 h2
      have h3 := h x (by omega) (by simp only [List.length_cons]; omega)
      rw [h3, show x - a = (x - (a + 1)) + 1 by omega]
      rfl

theorem legal_addressable (a : Int) (n : Nat) : legal a n = true ↔ Addressable a n := legal_iff a n

/-! ### Bytes of a value -/

/-- Byte `k` of the number a list of bytes stands for. -/
theorem bytesValue_byte (bs : List Byte) : ∀ k : Nat, bytesValue bs / 256 ^ k % 256 = (bs.getD k 0).toNat := by
  induction bs with
  | nil => intro k; simp [bytesValue]
  | cons b rest ih =>
    intro k
    have hb := b.isLt
    cases k with
    | zero => simp only [bytesValue, pow_zero, Nat.div_one, List.getD_cons_zero]; omega
    | succ k =>
      rw [List.getD_cons_succ, ← ih k, pow_succ', ← Nat.div_div_eq_div_mul]
      congr 2
      simp only [bytesValue]
      omega

/-- Bytes that are those of memory are the value memory holds there. -/
theorem littleEndian_of_loaded {s : State} {a : Int} {n v : Nat} (h : BytesLoaded a n v s) (hl : Addressable a n)
    (hd : ∀ k : Nat, k < n → s.isDevice (a.toNat + k) = false) (hv : v < 256 ^ n) :
    v = s.mem.littleEndian a.toNat n := by
  have hb := fun k hk => h hl k hk (hd k hk)
  clear h hl hd
  generalize a.toNat = x at hb
  induction n generalizing x v with
  | zero => simp only [pow_zero] at hv; simp only [Memory.littleEndian]; omega
  | succ n ih =>
    have h0 := hb 0 (by omega)
    have hr := ih (v := v / 256) (x := x + 1)
      (by rw [pow_succ] at hv; exact Nat.div_lt_of_lt_mul (by omega))
      (fun k hk => by
        have := hb (k + 1) (by omega)
        rw [pow_succ', ← Nat.div_div_eq_div_mul] at this
        rw [this]
        congr 2
        omega)
    simp only [Memory.littleEndian, ← hr]
    simp only [pow_zero, Nat.div_one, add_zero] at h0
    omega

/-- Memory holds a value whose bytes were all stored in RAM. -/
theorem littleEndian_of_stored {s t : State} {a : Int} {n v : Nat} (h : BytesStored a n v s t) (hl : Addressable a n)
    (hr : ∀ k : Nat, k < n → s.isRam (a.toNat + k) = true) : t.mem.littleEndian a.toNat n = v % 256 ^ n := by
  have hb := fun k hk => h hl k hk (hr k hk)
  clear h hl hr
  generalize a.toNat = x at hb
  induction n generalizing x v with
  | zero => simp [Memory.littleEndian, Nat.mod_one]
  | succ n ih =>
    have h0 := hb 0 (by omega)
    have hr := ih (v := v / 256) (x := x + 1) (fun k hk => by
        have := hb (k + 1) (by omega)
        rw [pow_succ', ← Nat.div_div_eq_div_mul] at this
        rw [← this]
        congr 2
        omega)
    simp only [Memory.littleEndian, hr]
    simp only [pow_zero, Nat.div_one, add_zero] at h0
    rw [h0, pow_succ', Nat.mod_mul]

/-- A byte of an access to memory. -/
theorem readByte_memory {s : State} {a k : Nat} (h : s.isDevice (a + k) = false) : s.readByte a k = s.mem.byte (a + k) := by
  unfold State.readByte
  rw [h]
  rfl

/-- The bytes of a loaded byte (R84). -/
theorem loaded_loadB (s : State) (a : Int) : BytesLoaded a 1 (s.loadB a).toNat s := by
  intro hl k hk hd
  obtain rfl : k = 0 := by omega
  unfold State.loadB
  rw [if_pos ((legal_iff a 1).2 hl), readByte_memory hd]
  have := (s.mem.byte (a.toNat + 0)).isLt
  omega

/-- The bytes of a loaded word (R84). -/
theorem loaded_loadW (s : State) (a : Int) : BytesLoaded a 2 (s.loadW a).toNat s := by
  intro hl k hk hd
  unfold State.loadW
  rw [if_pos ((legal_iff a 2).2 hl), ← readByte_memory hd]
  have h0 := (s.readByte a.toNat 0).isLt
  have h1 := (s.readByte a.toNat 1).isLt
  rw [toNat_join]
  interval_cases k <;> simp only [pow_zero, pow_one] <;> omega

/-- The bytes of a loaded double-word (R84). -/
theorem loaded_loadD (s : State) (a : Int) : BytesLoaded a 4 (s.loadD a).toNat s := by
  intro hl k hk hd
  unfold State.loadD
  rw [if_pos ((legal_iff a 4).2 hl), ← readByte_memory hd]
  have h0 := (s.readByte a.toNat 0).isLt
  have h1 := (s.readByte a.toNat 1).isLt
  have h2 := (s.readByte a.toNat 2).isLt
  have h3 := (s.readByte a.toNat 3).isLt
  have e : (s.readByte a.toNat 3 ++ s.readByte a.toNat 2 ++ s.readByte a.toNat 1 ++ s.readByte a.toNat 0).toNat =
      (((s.readByte a.toNat 3).toNat * 256 + (s.readByte a.toNat 2).toNat) * 256 + (s.readByte a.toNat 1).toNat) * 256 +
        (s.readByte a.toNat 0).toNat := by
    rw [toNat_join, toNat_join, toNat_join]
    norm_num
  rw [e]
  interval_cases k <;> norm_num <;> omega

/-- What memory answers depends on memory and the chip alone. -/
theorem loaded_congr {s t : State} {a : Int} {n v : Nat} (h : BytesLoaded a n v s)
    (hm : ∀ x : Nat, t.mem.byte x = s.mem.byte x) (hc : t.config = s.config) : BytesLoaded a n v t :=
  fun hl k hk hd => (h hl k hk (isDevice_congr hc _ ▸ hd)).trans (by rw [hm])

/-! ### One access -/

/-- A data access leaves the debug unit where no condition is enabled. -/
theorem accessKept_noteRead (s : State) (a : Int) (n : Nat) : AccessKept s (s.noteRead a n) := by
  rw [noteRead_spec]
  exact ⟨rfl, rfl, rfl, fun hu => by rw [noteAccess_off s hu], rfl, rfl, rfl, rfl⟩

theorem noteRead_iad (s : State) (a : Int) (n : Nat) :
    (s.noteRead a n).iadPending = true ↔ s.iadPending = true ∨ ¬ Addressable a n := by
  rw [← legal_addressable, noteRead_spec]
  simp

theorem noteRead_regs (s : State) (a : Int) (n : Nat) : (s.noteRead a n).regs = s.regs := by rw [noteRead_spec]
theorem noteRead_psr (s : State) (a : Int) (n : Nat) : (s.noteRead a n).psr = s.psr := by rw [noteRead_spec]
theorem noteRead_cfg (s : State) (a : Int) (n : Nat) : (s.noteRead a n).cfg = s.cfg := by rw [noteRead_spec]
theorem noteRead_pc (s : State) (a : Int) (n : Nat) : (s.noteRead a n).pc = s.pc := by rw [noteRead_spec]
theorem noteRead_stale (s : State) (a : Int) (n : Nat) : (s.noteRead a n).stale = s.stale := by rw [noteRead_spec]
theorem noteRead_config (s : State) (a : Int) (n : Nat) : (s.noteRead a n).config = s.config := by rw [noteRead_spec]

/-- One store: the value, the bytes outside, and everything else (R85, R91). -/
theorem storeBytes_stored (s : State) (a : Int) (bs : List Byte) (n : Nat) :
    Stored a bs.length (bytesValue bs) n s ((s.storeBytes a bs).advance n) := by
  have ha := (advance_spec (s.storeBytes a bs) n).1
  have hb := (putBytes_spec bs s a.toNat).2.1
  have hm : (s.storeBytes a bs).mem = if legal a bs.length then (s.putBytes a.toNat bs).mem else s.mem := by
    rw [storeBytes_spec]
  have hmem : ∀ x, ((s.storeBytes a bs).advance n).mem.byte x =
      if legal a bs.length = true ∧ a.toNat ≤ x ∧ x < a.toNat + bs.length ∧ s.isRam x = true then
        bs.getD (x - a.toNat) 0 else s.mem.byte x := by
    intro x
    change (s.storeBytes a bs).mem.byte x = _
    rw [hm]
    cases hl : legal a bs.length
    · simp
    · simp [hb x]
  have he : s.storeBytes a bs = { s with
      mem := (s.storeBytes a bs).mem, stale := (s.storeBytes a bs).stale, dbg := (s.noteAccess a true).dbg,
      iadPending := s.iadPending || !legal a bs.length } := by rw [storeBytes_spec]
  refine ⟨fun hl k hk hr => ?_, fun x hx => ?_, fun x hx => ?_, fun hn x => ?_, ?_, ?_, ?_, ?_⟩
  · rw [hmem, if_pos ⟨(legal_iff _ _).2 hl, by omega, by omega, hr⟩, bytesValue_byte]
    congr 2
    omega
  · rw [hmem, if_neg (by simp [hx])]
  · rw [hmem, if_neg]
    rintro ⟨hl, h1, h2, -⟩
    have := (legal_iff _ _).1 hl
    omega
  · rw [hmem, if_neg]
    rintro ⟨hl, -⟩
    exact hn ((legal_iff _ _).1 hl)
  · rw [he]
    rfl
  · rw [he]
    rfl
  · rw [he]
    exact ⟨rfl, rfl, rfl, fun hu => by change (s.noteAccess a true).dbg = _; rw [noteAccess_off s hu], rfl, rfl, rfl, rfl⟩
  · have hpc : (s.storeBytes a bs).pc = s.pc := by rw [he]
    refine ⟨hpc ▸ ha.1, ha.2.trans ?_⟩
    rw [hpc, he, ← legal_addressable]
    simp [or_assoc]

/-- One load that wrote registers: everything else (R84, R91). -/
theorem loadFrame_advance {w : List Slot} {s u : State} (a : Int) (m n : Nat) (hr : RegsKept w (s.noteRead a m) u)
    (he : u = { s.noteRead a m with regs := u.regs }) : LoadFrame w a m n s (u.advance n) := by
  have ha := (advance_spec u n).1
  have hk := accessKept_noteRead s a m
  have hpc : u.pc = s.pc := by rw [he]; exact noteRead_pc s a m
  have hi : u.iadPending = (s.noteRead a m).iadPending := by rw [he]
  have hpsr : u.psr = s.psr := by rw [he]; exact noteRead_psr s a m
  refine ⟨hpsr, ?_, ?_, ?_, ?_⟩
  · have h0 : RegsKept w s (s.noteRead a m) :=
      regsKept_refl (noteRead_regs s a m) (by rw [noteRead_psr])
    exact ⟨fun k hk' => (hr.1 k hk').trans (h0.1 k hk'), fun k h1 h2 => (hr.2.1 k h1 h2).trans (h0.2.1 k h1 h2),
      hr.2.2.trans h0.2.2⟩
  · rw [he]
    exact ⟨fun x => by change (s.noteRead a m).mem.byte x = _; rw [noteRead_mem], noteRead_stale s a m⟩
  · rw [he]
    exact hk
  · refine ⟨by rw [← hpc]; exact ha.1, ha.2.trans ?_⟩
    rw [hi, noteRead_iad, hpc, or_assoc]

/-! ### Sequences of words (R87) -/

/-- Words written one after the other, each an access. -/
theorem storeWords_spec (ws : List Word) : ∀ (s : State) (a : Int),
    WordsStored a ws s (s.storeWords a ws) ∧ (s.storeWords a ws).regs = s.regs ∧
      (s.storeWords a ws).psr = s.psr ∧ (s.storeWords a ws).pc = s.pc ∧ (s.storeWords a ws).cfg = s.cfg ∧
      AccessKept s (s.storeWords a ws) ∧
      ((s.storeWords a ws).iadPending = true ↔
        s.iadPending = true ∨ ∃ k : Nat, k < ws.length ∧ ¬ Addressable (a + 2 * k) 2) := by
  induction ws with
  | nil =>
    intro s a
    refine ⟨⟨fun k hk => absurd hk (by simp), fun k hk => absurd hk (by simp), fun _ _ => rfl, fun _ _ => rfl⟩, rfl,
      rfl, rfl, rfl, ⟨rfl, rfl, rfl, fun _ => rfl, rfl, rfl, rfl, rfl⟩, ?_⟩
    simp [State.storeWords]
  | cons w rest ih =>
    intro s a
    have h1 : Stored a 2 w.toNat 0 s ((s.storeW a w).advance 0) := bytesValue_word w ▸ storeBytes_stored s a (wordBytes w) 0
    obtain ⟨⟨i1, i2, i3, i3'⟩, i4, i5, i6, i7, i8, i9⟩ := ih (s.storeW a w) (a + 2)
    have he : s.storeWords a (w :: rest) = (s.storeW a w).storeWords (a + 2) rest := rfl
    obtain ⟨d, m, st, hd⟩ : ∃ d m st, s.storeW a w =
        { s with dbg := d, mem := m, stale := st, iadPending := s.iadPending || !legal a 2 } :=
      ⟨_, _, _, storeBytes_spec s a (wordBytes w)⟩
    have hpc : (s.storeW a w).pc = s.pc ∧ (s.storeW a w).cfg = s.cfg := by
      rw [hd]
      exact ⟨rfl, rfl⟩
    have hram : ∀ x, (s.storeW a w).isRam x = s.isRam x := fun x => isRam_congr (by rw [hd]) x
    have hiad : (s.storeW a w).iadPending = true ↔ s.iadPending = true ∨ ¬ Addressable a 2 := by
      rw [← legal_addressable, hd]
      simp
    obtain ⟨s1, s1', s2, s3, s4, s5, ⟨k1, k2, k3, k4, k5, k6, k7, k8⟩, -⟩ := h1
    obtain ⟨l1, l2, l3, l4, l5, l6, l7, l8⟩ := i8
    have hkeep : ∀ x, s.isRam x = false → (s.storeW a w).mem.byte x = s.mem.byte x := s1'
    rw [he]
    refine ⟨⟨fun k hk hl => ?_, fun k hk hl x hx1 hx2 => ?_, fun x hx => (i3 x (by rw [hram, hx])).trans (hkeep x hx),
      fun x hx => ?_⟩, i4.trans s5, i5.trans s4, i6.trans hpc.1, i7.trans hpc.2,
      ⟨l1.trans k1, l2.trans k2, l3.trans k3, fun hu => ?_, l5.trans k5, l6.trans k6, l7.trans k7, l8.trans k8⟩, ?_⟩
    · intro j hj hr
      cases k with
      | zero =>
        simp only [Nat.cast_zero, mul_zero, add_zero, List.getD_cons_zero] at hl hr ⊢
        rw [← s1 hl j hj hr]
        refine congrArg BitVec.toNat (i3' _ (.inl ?_))
        have := hl.1
        omega
      | succ k =>
        simp only [List.length_cons, List.getD_cons_succ] at hk ⊢
        have e : a + 2 * ((k + 1 : Nat) : Int) = a + 2 + 2 * (k : Int) := by push_cast; ring
        rw [e] at hl hr ⊢
        exact i1 k (by omega) hl j hj (by rw [hram, hr])
    · cases k with
      | zero =>
        simp only [Nat.cast_zero, mul_zero, add_zero] at hl hx1 hx2
        rw [i3' x (.inl (by omega))]
        exact s3 hl x
      | succ k =>
        simp only [List.length_cons] at hk
        have e : a + 2 * ((k + 1 : Nat) : Int) = a + 2 + 2 * (k : Int) := by push_cast; ring
        rw [e] at hl hx1 hx2
        rw [i2 k (by omega) hl x hx1 hx2]
        exact s2 x (.inr (by push_cast; omega))
    · simp only [List.length_cons] at hx
      rw [i3' x (by omega)]
      exact s2 x (by push_cast; omega)
    · have h2 : Undebugged (s.storeW a w) := fun b => by
        have := k4 hu
        change (s.storeW a w).dbg = s.dbg at this
        rw [this]
        exact hu b
      exact (l4 h2).trans (k4 hu)
    · rw [i9, hiad, or_assoc]
      refine or_congr Iff.rfl ⟨?_, ?_⟩
      · rintro (h | ⟨k, hk, h⟩)
        · exact ⟨0, by simp, by simpa using h⟩
        · refine ⟨k + 1, by simpa using hk, ?_⟩
          have e : a + 2 * ((k + 1 : Nat) : Int) = a + 2 + 2 * (k : Int) := by push_cast; ring
          rwa [e]
      · rintro ⟨k, hk, h⟩
        cases k with
        | zero => exact .inl (by simpa using h)
        | succ k =>
          refine .inr ⟨k, by simpa using hk, ?_⟩
          have e : a + 2 * ((k + 1 : Nat) : Int) = a + 2 + 2 * (k : Int) := by push_cast; ring
          rwa [e] at h

/-- Some word of a run lies outside the address space exactly when the run does. -/
theorem exists_unaddressable (a : Int) (n : Nat) (hn : 0 < n) :
    (∃ k : Nat, k < n ∧ ¬ Addressable (a + 2 * k) 2) ↔ ¬ Addressable a (2 * n) := by
  unfold Addressable
  constructor
  · rintro ⟨k, hk, h⟩
    push_cast at h ⊢
    omega
  · intro h
    by_cases h0 : 0 ≤ a
    · exact ⟨n - 1, by omega, by push_cast at h ⊢; omega⟩
    · exact ⟨0, hn, by push_cast; omega⟩

/-! ### Transfer lists (R347, R364) -/

/-- A high half is one of a 32-bit register. -/
def SlotOk (x : Slot) : Prop := x.high = true → 12 ≤ x.reg

/-- A slot outside those written reads as before. -/
theorem slot_kept {w : List Slot} {s t : State} (h : RegsKept w s t) {x : Slot} (hx : SlotOk x) (hw : x ∉ w) :
    t.slot x = s.slot x := by
  obtain ⟨n, b⟩ := x
  cases b
  · exact h.1 n hw
  · exact h.2.1 n (hx rfl) hw

/-- What `setSlot` can do, at once. -/
theorem setSlot_spec (s : State) {x : Slot} (hx : SlotOk x) (v : Word) :
    (s.setSlot x v).slot x = v ∧ RegsKept [x] s (s.setSlot x v) := by
  obtain ⟨n, b⟩ := x
  cases b
  · exact ⟨reg_setReg s n v, (setReg_spec s n v).2.1⟩
  · have hn : 12 ≤ n := hx rfl
    have h := setWide_spec s hn (v ++ (s.wide n).extractLsb' 0 16)
    refine ⟨?_, fun m hm => ?_, fun m h12 hm => ?_, h.2.1.2.2⟩
    · change ((s.setWide n _).wide n).extractLsb' 16 16 = v
      rw [h.1]
      exact high_of_join _ _
    · change (s.setWide n _).reg m = s.reg m
      by_cases hmn : m = n
      · subst hmn
        rw [reg_wide _ hn, reg_wide _ hn, h.1]
        exact low_of_join _ _
      · exact h.2.1.1 m (by simp [hmn])
    · exact h.2.1.2.1 m h12 (by simpa using hm)

/-- Registers kept by one change and then by another. -/
theorem regsKept_trans {w w' : List Slot} {s t u : State} (h : RegsKept w s t) (h' : RegsKept w' t u) :
    RegsKept (w ++ w') s u :=
  ⟨fun n hn => (h'.1 n (fun c => hn (List.mem_append_right _ c))).trans (h.1 n (fun c => hn (List.mem_append_left _ c))),
    fun n h12 hn => (h'.2.1 n h12 (fun c => hn (List.mem_append_right _ c))).trans
      (h.2.1 n h12 (fun c => hn (List.mem_append_left _ c))),
    h'.2.2.trans h.2.2⟩

/-- Slots loaded one after the other from ascending words, each an access. -/
theorem loadSlots_spec (xs : List Slot) : ∀ (s : State) (a : Int), (∀ x ∈ xs, SlotOk x) →
    SlotsLoaded a xs s (s.loadSlots a xs) ∧ RegsKept xs s (s.loadSlots a xs) ∧ (s.loadSlots a xs).psr = s.psr ∧
      (s.loadSlots a xs).pc = s.pc ∧ (s.loadSlots a xs).cfg = s.cfg ∧ MemoryKept s (s.loadSlots a xs) ∧
      AccessKept s (s.loadSlots a xs) ∧
      ((s.loadSlots a xs).iadPending = true ↔
        s.iadPending = true ∨ ∃ k : Nat, k < xs.length ∧ ¬ Addressable (a + 2 * k) 2) := by
  induction xs with
  | nil =>
    intro s a _
    refine ⟨fun k hk => absurd hk (by simp), regsKept_refl rfl rfl, rfl, rfl, rfl, ⟨fun _ => rfl, rfl⟩,
      ⟨rfl, rfl, rfl, fun _ => rfl, rfl, rfl, rfl, rfl⟩, ?_⟩
    simp [State.loadSlots]
  | cons x rest ih =>
    intro s a hok
    have hx : SlotOk x := hok x List.mem_cons_self
    have hrest : ∀ y ∈ rest, SlotOk y := fun y hy => hok y (List.mem_cons_of_mem _ hy)
    have he : s.loadSlots a (x :: rest) = ((s.noteRead a 2).setSlot x (s.loadW a)).loadSlots (a + 2) rest := rfl
    obtain ⟨i1, i2, i3, i4, i5, i6, i7, i8⟩ := ih ((s.noteRead a 2).setSlot x (s.loadW a)) (a + 2) hrest
    have hs := setSlot_spec (s.noteRead a 2) hx (s.loadW a)
    have hk0 : RegsKept [] s (s.noteRead a 2) := regsKept_refl (noteRead_regs s a 2) (by rw [noteRead_psr])
    have hk1 : RegsKept [x] s ((s.noteRead a 2).setSlot x (s.loadW a)) := regsKept_trans hk0 hs.2
    have hm : ((s.noteRead a 2).setSlot x (s.loadW a)).mem = s.mem := by rw [setSlot_eq]; exact noteRead_mem s a 2
    have hak : AccessKept s ((s.noteRead a 2).setSlot x (s.loadW a)) := by
      rw [setSlot_eq]
      exact accessKept_noteRead s a 2
    have hiad : ((s.noteRead a 2).setSlot x (s.loadW a)).iadPending = true ↔ s.iadPending = true ∨ ¬ Addressable a 2 := by
      rw [setSlot_eq]
      exact noteRead_iad s a 2
    obtain ⟨k1, k2, k3, k4, k5, k6, k7, k8⟩ := hak
    obtain ⟨l1, l2, l3, l4, l5, l6, l7, l8⟩ := i7
    rw [he]
    refine ⟨fun k hk hlast => ?_, regsKept_trans hk1 i2, i3.trans (by rw [setSlot_eq]; exact noteRead_psr s a 2),
      i4.trans (by rw [setSlot_eq]; exact noteRead_pc s a 2), i5.trans (by rw [setSlot_eq]; exact noteRead_cfg s a 2),
      ⟨fun y => (i6.1 y).trans (by rw [hm]), i6.2.trans (by rw [setSlot_eq]; exact noteRead_stale s a 2)⟩,
      ⟨l1.trans k1, l2.trans k2, l3.trans k3, fun hu => ?_, l5.trans k5, l6.trans k6, l7.trans k7, l8.trans k8⟩, ?_⟩
    · cases k with
      | zero =>
        simp only [Nat.cast_zero, mul_zero, add_zero, List.getD_cons_zero, zero_add, List.drop_one,
          List.tail_cons] at hlast ⊢
        rw [slot_kept i2 hx hlast, hs.1]
        exact loaded_loadW s a
      | succ k =>
        simp only [List.length_cons, List.getD_cons_succ, List.drop_succ_cons] at hk hlast ⊢
        have e : a + 2 * ((k + 1 : Nat) : Int) = a + 2 + 2 * (k : Int) := by push_cast; ring
        rw [e]
        exact loaded_congr (i1 k (by omega) hlast) (fun y => by rw [hm]) k8.symm
    · have h2 : Undebugged ((s.noteRead a 2).setSlot x (s.loadW a)) := fun b => by
        rw [k4 hu]
        exact hu b
      exact (l4 h2).trans (k4 hu)
    · rw [i8, hiad, or_assoc]
      refine or_congr Iff.rfl ⟨?_, ?_⟩
      · rintro (h | ⟨k, hk, h⟩)
        · exact ⟨0, by simp, by simpa using h⟩
        · refine ⟨k + 1, by simpa using hk, ?_⟩
          have e : a + 2 * ((k + 1 : Nat) : Int) = a + 2 + 2 * (k : Int) := by push_cast; ring
          rwa [e]
      · rintro ⟨k, hk, h⟩
        cases k with
        | zero => exact .inl (by simpa using h)
        | succ k =>
          refine .inr ⟨k, by simpa using hk, ?_⟩
          have e : a + 2 * ((k + 1 : Nat) : Int) = a + 2 + 2 * (k : Int) := by push_cast; ring
          rwa [e] at h

/-- Every slot of a stack list is a register or a half of a 32-bit register. -/
theorem slotOk_stackSlots : ∀ (sr ra : Bool) (count : BitVec 3) (n : RegNum), ∀ x ∈ stackSlots sr ra count n,
    x.high = true → 12 ≤ x.reg := by decide

end Sys2Proof.Laws
end

