-- ==== Sys2Proof/Laws/Debug.lean ====
section
/-! SUPPORT. What the debug comparators record of data accesses, in the terms of the statements. -/

namespace Sys2Proof.Laws

open Sys2Proof.Machine

/-! ### One bank (R562 to R565) -/

/-- Two addresses agree outside the `k` low bits where they agree in what is above them. -/
theorem masked_eq (x y : Addr) (k : Nat) (m : Addr) (hm : ∀ i : Nat, m.getLsbD i = decide (i < k)) :
    (x &&& ~~~m) = (y &&& ~~~m) ↔ x.toNat / 2 ^ k = y.toNat / 2 ^ k := by
  have hs : ∀ z : Addr, z.toNat / 2 ^ k = (z >>> k).toNat := fun z => by
    rw [BitVec.toNat_ushiftRight, Nat.shiftRight_eq_div_pow]
  rw [hs, hs, BitVec.toNat_inj]
  constructor
  · intro h
    refine BitVec.eq_of_getLsbD_eq (fun i hi => ?_)
    have := congrArg (fun v : Addr => v.getLsbD (k + i)) h
    by_cases hb : k + i < 24
    · simp only [BitVec.getLsbD_and, BitVec.getLsbD_not, hm, hb, decide_true,
        decide_eq_false (Nat.not_lt.2 (Nat.le_add_right k i)), Bool.not_false, Bool.and_true] at this
      rw [BitVec.getLsbD_ushiftRight, BitVec.getLsbD_ushiftRight, this]
    · rw [BitVec.getLsbD_ushiftRight, BitVec.getLsbD_ushiftRight, BitVec.getLsbD_of_ge _ _ (by omega),
        BitVec.getLsbD_of_ge _ _ (by omega)]
  · intro h
    refine BitVec.eq_of_getLsbD_eq (fun i hi => ?_)
    by_cases hk : i < k
    · simp [hm, hk]
    · have := congrArg (fun v : Addr => v.getLsbD (i - k)) h
      simp only [BitVec.getLsbD_ushiftRight, Nat.add_sub_cancel' (Nat.le_of_not_lt hk)] at this
      simp [hm, hk, this]

/-- The comparison of a channel (R563). -/
theorem matches_iff (b : DebugBank) (ch : Bool) (a : Addr) : b.matches ch a = true ↔ b.At ch a.toNat := by
  unfold DebugBank.matches DebugBank.At
  rw [beq_iff_eq]
  have hk : b.dcrl.toNat / (if ch then 256 else 1) % 4 = (b.dcrl.extractLsb' (if ch then 8 else 0) 2).toNat := by
    cases ch <;> simp [BitVec.extractLsb'_toNat, Nat.shiftRight_eq_div_pow]
  simp only [hk]
  refine masked_eq a (b.car ch) _ _ ?_
  unfold DebugBank.maskBits
  generalize b.dcrl.extractLsb' (if ch then 8 else 0) 2 = f
  have h : ∀ f : BitVec 2, ∀ i : Nat, i < 24 →
      (match f.toNat with | 0 => (0 : Addr) | 1 => 1 | 2 => 3 | _ => 7).getLsbD i = decide (i < f.toNat) := by decide
  intro i
  by_cases hi : i < 24
  · exact h f i hi
  · rw [BitVec.getLsbD_of_ge _ _ (by omega)]
    exact (decide_eq_false (by have := f.isLt; omega)).symm

/-- A channel looks at data accesses (R562). -/
theorem dataOn_iff (b : DebugBank) (ch w : Bool) : b.dataOn ch w = true ↔ b.OnData w ch := by
  unfold DebugBank.dataOn DebugBank.OnData DebugBank.dcrBit
  cases ch <;> cases w <;> simp [and_assoc]

/-- A channel's own condition (R562). -/
theorem dataHitCh_iff (b : DebugBank) (ch w : Bool) (a : Addr) :
    b.dataHitCh ch a w = true ↔ b.OnData w ch ∧ b.At ch a.toNat := by
  rw [DebugBank.dataHitCh, Bool.and_eq_true, dataOn_iff, matches_iff]

/-- The hits of an access (R562, R564, R565). -/
theorem dataHits_iff (b : DebugBank) (a : Addr) (w : Bool) :
    ((b.dataHits a w).1 = true ↔ b.Hit (b.OnData w) a.toNat false) ∧
      ((b.dataHits a w).2 = true ↔ b.Hit (b.OnData w) a.toNat true) := by
  unfold DebugBank.dataHits DebugBank.hits DebugBank.Hit DebugBank.esq DebugBank.ear DebugBank.inRange
  cases b.dcrl.getLsbD 10 <;> cases b.dcrl.getLsbD 2 <;>
    simp [dataHitCh_iff, dataOn_iff, BitVec.le_def, and_comm, and_assoc]

/-- What a bank records of a data access (R562, R565, R568). -/
theorem afterData_recorded (b : DebugBank) (a : Addr) (w : Bool) :
    (b.afterData a w).bpMask = b.bpMask ∧
      DebugBank.Recorded (b.OnData w) a.toNat false (if w then 1 else 2) (if w then 5 else 6) b (b.afterData a w) := by
  obtain ⟨h0, h1⟩ := dataHits_iff b a w
  refine ⟨rfl, fun _ h => ?_, fun h => ?_, fun k => ?_, rfl, rfl, ?_⟩
  · exact if_pos (by rw [Bool.or_eq_true, h0, h1]; exact h)
  · exact if_neg (by rw [Bool.or_eq_true, h0, h1]; simpa [DebugBank.AnyHit] using h)
  · rw [← h0, ← h1]
    have hb : ∀ (n : BitVec 7) (j : Nat) (x : Bool), (∀ i : Nat, n.getLsbD i = decide (i = j)) →
        ((if x then n else (0 : BitVec 7)).getLsbD k = true ↔ k = j ∧ x = true) := by
      intro n j x hn
      cases x <;> simp [hn]
    have hd : ∀ (n : BitVec 7) (j : Nat), (∀ i : Nat, i < 7 → n.getLsbD i = decide (i = j)) → j < 7 →
        ∀ i : Nat, n.getLsbD i = decide (i = j) := by
      intro n j hn hj i
      by_cases hi : i < 7
      · exact hn i hi
      · rw [BitVec.getLsbD_of_ge _ _ (by omega)]
        exact (decide_eq_false (by omega)).symm
    have hr : (b.afterData a w).dsr = b.dsr ||| (if (b.dataHits a w).1 then (if w then 0x02 else 0x04) else 0) |||
        (if (b.dataHits a w).2 then (if w then 0x20 else 0x40) else 0) := rfl
    rw [hr, BitVec.getLsbD_or, BitVec.getLsbD_or, Bool.or_eq_true, Bool.or_eq_true,
      hb _ (if w then 1 else 2) _ (by cases w <;> exact hd _ _ (by decide) (by decide)),
      hb _ (if w then 5 else 6) _ (by cases w <;> exact hd _ _ (by decide) (by decide)), or_assoc]
    simp
  · have hr : (b.afterData a w).seqArmed = if b.dcrl.getLsbD 10 then
        (b.seqArmed || b.dataHitCh false a w) && !(b.dataHits a w).2 else b.seqArmed := rfl
    rw [hr, ← h1, ← dataHitCh_iff]
    by_cases h : b.dcrl.getLsbD 10 = true
    · rw [if_pos h, if_pos h]
      simp
    · rw [if_neg h, if_neg h]

/-! ### The debug unit (R568, R577) -/

theorem mapBanks_get (d : DebugUnit) (last : BitVec 2) (f : DebugBank → DebugBank) :
    ∀ b : BitVec 2, (d.mapBanks last f).get b = if b ≤ last then f (d.get b) else d.get b := by
  have h : ∀ b : BitVec 2, b = 0 ∨ b = 1 ∨ b = 2 ∨ b = 3 := by decide
  intro b
  have h0 : (0 : BitVec 2) ≤ last := by simp [BitVec.le_def]
  obtain rfl | rfl | rfl | rfl := h b
  · rw [if_pos h0]; rfl
  · rfl
  · rfl
  · rfl

theorem anyBank_iff (d : DebugUnit) (last : BitVec 2) (p : DebugBank → Bool) :
    d.anyBank last p = true ↔ ∃ b : BitVec 2, b ≤ last ∧ p (d.get b) = true := by
  have h : ∀ b : BitVec 2, b = 0 ∨ b = 1 ∨ b = 2 ∨ b = 3 := by decide
  have h0 : (0 : BitVec 2) ≤ last := by simp [BitVec.le_def]
  unfold DebugUnit.anyBank
  simp only [Bool.or_eq_true, Bool.and_eq_true, decide_eq_true_eq]
  constructor
  · rintro (((q | q) | q) | q)
    · exact ⟨0, h0, q⟩
    · exact ⟨1, q⟩
    · exact ⟨2, q⟩
    · exact ⟨3, q⟩
  · rintro ⟨b, hb, q⟩
    obtain rfl | rfl | rfl | rfl := h b
    · exact .inl (.inl (.inl q))
    · exact .inl (.inl (.inr ⟨hb, q⟩))
    · exact .inl (.inr ⟨hb, q⟩)
    · exact .inr ⟨hb, q⟩

/-- The comparators' look at an access, in the terms of the statements (R562). -/
theorem noteAccess_saw (s : State) (a : Int) (w : Bool) :
    DebugUnit.Saw s.config.lastBank (a, w) s.dbg (s.noteAccess a w).dbg := by
  rw [noteAccess_dbg]
  refine ⟨fun h => ?_, fun h => if_neg h⟩
  · rw [if_pos h]
    simp only at h ⊢
    have ha : a.toNat = (BitVec.ofInt 24 a).toNat := by rw [BitVec.toNat_ofInt]; omega
    rw [ha]
    generalize BitVec.ofInt 24 a = x
    have hany : s.dbg.anyBank s.config.lastBank (fun b => (b.dataHits x w).1 || (b.dataHits x w).2) = true ↔
        ∃ b : BitVec 2, b ≤ s.config.lastBank ∧ (s.dbg.get b).AnyHit ((s.dbg.get b).OnData w) x.toNat := by
      rw [anyBank_iff]
      refine exists_congr fun b => and_congr_right fun _ => ?_
      rw [Bool.or_eq_true, (dataHits_iff _ x w).1, (dataHits_iff _ x w).2]
      rfl
    have hget : ∀ b, (s.dbg.afterData s.config.lastBank x w).get b =
        (s.dbg.mapBanks s.config.lastBank (fun b => b.afterData x w)).get b := fun _ => rfl
    refine ⟨fun b hb => ?_, fun b hb => ?_, rfl, ?_, rfl, ?_⟩
    · rw [hget, mapBanks_get, if_pos hb]
      exact afterData_recorded _ x w
    · rw [hget, mapBanks_get, if_neg (BitVec.not_le.2 hb)]
    · rw [← hany]
      simp [DebugUnit.afterData]
    · rw [← hany]
      simp [DebugUnit.afterData]

/-- A read is one access (R562). -/
theorem noteRead_saw (s : State) (a : Int) (n : Nat) :
    DebugUnit.Saw s.config.lastBank (a, false) s.dbg (s.noteRead a n).dbg := by
  rw [noteRead_spec]
  exact noteAccess_saw s a false

/-- A write is one access (R562). -/
theorem storeBytes_saw (s : State) (a : Int) (bs : List Byte) :
    DebugUnit.Saw s.config.lastBank (a, true) s.dbg (s.storeBytes a bs).dbg := by
  rw [storeBytes_spec]
  exact noteAccess_saw s a true

/-- The reads of RETX (R362). The address stands by itself, so that no check computes on the bound of 24 bits. -/
theorem returnFrom_dbg (s : State) (a : Int) (h : (s.isp.toNat : Int) = a) :
    s.returnFrom.dbg = ((s.noteRead a 4).noteRead (a + 4) 2).dbg := by
  unfold State.returnFrom
  rw [h]
  rfl

/-! ### Sequences of words (R87) -/

theorem setSlot_dbg (s : State) (x : Slot) (v : Word) : (s.setSlot x v).dbg = s.dbg ∧ (s.setSlot x v).config = s.config := by
  rw [setSlot_eq]
  exact ⟨rfl, rfl⟩

/-- Words written one after the other are as many writes. -/
theorem storeWords_saw (ws : List Word) : ∀ (s : State) (a : Int),
    DebugUnit.SawAll s.config.lastBank (wordAccesses a ws.length true) s.dbg (s.storeWords a ws).dbg := by
  induction ws with
  | nil => exact fun s a => rfl
  | cons w rest ih =>
    intro s a
    have hc : (s.storeW a w).config = s.config := by
      unfold State.storeW
      rw [storeBytes_spec]
    exact ⟨(s.storeW a w).dbg, storeBytes_saw s a (wordBytes w), hc ▸ ih (s.storeW a w) (a + 2)⟩

/-- Slots loaded one after the other are as many reads. -/
theorem loadSlots_saw (xs : List Slot) : ∀ (s : State) (a : Int),
    DebugUnit.SawAll s.config.lastBank (wordAccesses a xs.length false) s.dbg (s.loadSlots a xs).dbg := by
  induction xs with
  | nil => exact fun s a => rfl
  | cons x rest ih =>
    intro s a
    have hd := setSlot_dbg (s.noteRead a 2) x (s.loadW a)
    have hc : ((s.noteRead a 2).setSlot x (s.loadW a)).config = s.config := by
      rw [hd.2, noteRead_spec]
    exact ⟨((s.noteRead a 2).setSlot x (s.loadW a)).dbg, by rw [hd.1]; exact noteRead_saw s a 2,
      hc ▸ ih ((s.noteRead a 2).setSlot x (s.loadW a)) (a + 2)⟩

end Sys2Proof.Laws
end

