-- ==== Sys2Proof/Laws/PerInstr.lean ====
section
/-! SUPPORT. Facts about every instruction as syntax, one lemma for each constructor: `Size`, that an
instruction's words fill the bytes its meaning moves the PC by, and `Spelling`, that the decoder's spelling
of an instruction has the same words (spec/30_encoding.md R120, R166). -/

namespace Sys2Proof.Laws

open Sys2Proof.Machine

/-- The words of an instruction fill the bytes its meaning counts (R120, R123). -/
def Size.Statement (i : Instr) : Prop := 2 * (encode i).length = instrBytes i

/-- The decoder's spelling of an instruction has the same words and is stable (R166). -/
def Spelling.Statement (i : Instr) : Prop := encode i.named = encode i ∧ i.named.named = i.named

theorem Size.movb (src : Src) (dest : RegNum) : Size.Statement (.movb src dest) := by
  cases src <;> rfl
theorem Spelling.movb (src : Src) (dest : RegNum) : Spelling.Statement (.movb src dest) := ⟨rfl, rfl⟩
theorem Size.movw (src : Src) (dest : RegNum) : Size.Statement (.movw src dest) := by
  cases src <;> rfl
theorem Spelling.movw (src : Src) (dest : RegNum) : Spelling.Statement (.movw src dest) := ⟨rfl, rfl⟩
theorem Size.movd (src : SrcD) (dest : PairNum) : Size.Statement (.movd src dest) := by
  cases src <;> rfl
theorem Spelling.movd (src : SrcD) (dest : PairNum) : Spelling.Statement (.movd src dest) := ⟨rfl, rfl⟩
theorem Size.movxb (src : RegNum) (dest : RegNum) : Size.Statement (.movxb src dest) := rfl
theorem Spelling.movxb (src : RegNum) (dest : RegNum) : Spelling.Statement (.movxb src dest) := ⟨rfl, rfl⟩
theorem Size.movxw (src : RegNum) (dest : PairNum) : Size.Statement (.movxw src dest) := rfl
theorem Spelling.movxw (src : RegNum) (dest : PairNum) : Spelling.Statement (.movxw src dest) := ⟨rfl, rfl⟩
theorem Size.movzb (src : RegNum) (dest : RegNum) : Size.Statement (.movzb src dest) := rfl
theorem Spelling.movzb (src : RegNum) (dest : RegNum) : Spelling.Statement (.movzb src dest) := ⟨rfl, rfl⟩
theorem Size.movzw (src : RegNum) (dest : PairNum) : Size.Statement (.movzw src dest) := rfl
theorem Spelling.movzw (src : RegNum) (dest : PairNum) : Spelling.Statement (.movzw src dest) := ⟨rfl, rfl⟩
theorem Size.addb (src : Src) (dest : RegNum) : Size.Statement (.addb src dest) := by
  cases src <;> rfl
theorem Spelling.addb (src : Src) (dest : RegNum) : Spelling.Statement (.addb src dest) := ⟨rfl, rfl⟩
theorem Size.addw (src : Src) (dest : RegNum) : Size.Statement (.addw src dest) := by
  cases src <;> rfl
theorem Spelling.addw (src : Src) (dest : RegNum) : Spelling.Statement (.addw src dest) := ⟨rfl, rfl⟩
theorem Size.addd (src : SrcD) (dest : PairNum) : Size.Statement (.addd src dest) := by
  cases src <;> rfl
theorem Spelling.addd (src : SrcD) (dest : PairNum) : Spelling.Statement (.addd src dest) := ⟨rfl, rfl⟩
theorem Size.addub (src : Src) (dest : RegNum) : Size.Statement (.addub src dest) := by
  cases src <;> rfl
theorem Spelling.addub (src : Src) (dest : RegNum) : Spelling.Statement (.addub src dest) := ⟨rfl, rfl⟩
theorem Size.adduw (src : Src) (dest : RegNum) : Size.Statement (.adduw src dest) := by
  cases src <;> rfl
theorem Spelling.adduw (src : Src) (dest : RegNum) : Spelling.Statement (.adduw src dest) := ⟨rfl, rfl⟩
theorem Size.addcb (src : Src) (dest : RegNum) : Size.Statement (.addcb src dest) := by
  cases src <;> rfl
theorem Spelling.addcb (src : Src) (dest : RegNum) : Spelling.Statement (.addcb src dest) := ⟨rfl, rfl⟩
theorem Size.addcw (src : Src) (dest : RegNum) : Size.Statement (.addcw src dest) := by
  cases src <;> rfl
theorem Spelling.addcw (src : Src) (dest : RegNum) : Spelling.Statement (.addcw src dest) := ⟨rfl, rfl⟩
theorem Size.subb (src : Src) (dest : RegNum) : Size.Statement (.subb src dest) := by
  cases src <;> rfl
theorem Spelling.subb (src : Src) (dest : RegNum) : Spelling.Statement (.subb src dest) := ⟨rfl, rfl⟩
theorem Size.subw (src : Src) (dest : RegNum) : Size.Statement (.subw src dest) := by
  cases src <;> rfl
theorem Spelling.subw (src : Src) (dest : RegNum) : Spelling.Statement (.subw src dest) := ⟨rfl, rfl⟩
theorem Size.subd (src : SrcL) (dest : PairNum) : Size.Statement (.subd src dest) := by
  cases src <;> rfl
theorem Spelling.subd (src : SrcL) (dest : PairNum) : Spelling.Statement (.subd src dest) := ⟨rfl, rfl⟩
theorem Size.subcb (src : Src) (dest : RegNum) : Size.Statement (.subcb src dest) := by
  cases src <;> rfl
theorem Spelling.subcb (src : Src) (dest : RegNum) : Spelling.Statement (.subcb src dest) := ⟨rfl, rfl⟩
theorem Size.subcw (src : Src) (dest : RegNum) : Size.Statement (.subcw src dest) := by
  cases src <;> rfl
theorem Spelling.subcw (src : Src) (dest : RegNum) : Spelling.Statement (.subcw src dest) := ⟨rfl, rfl⟩
theorem Size.mulb (src : Src) (dest : RegNum) : Size.Statement (.mulb src dest) := by
  cases src <;> rfl
theorem Spelling.mulb (src : Src) (dest : RegNum) : Spelling.Statement (.mulb src dest) := ⟨rfl, rfl⟩
theorem Size.mulw (src : Src) (dest : RegNum) : Size.Statement (.mulw src dest) := by
  cases src <;> rfl
theorem Spelling.mulw (src : Src) (dest : RegNum) : Spelling.Statement (.mulw src dest) := ⟨rfl, rfl⟩
theorem Size.mulsb (src : RegNum) (dest : RegNum) : Size.Statement (.mulsb src dest) := rfl
theorem Spelling.mulsb (src : RegNum) (dest : RegNum) : Spelling.Statement (.mulsb src dest) := ⟨rfl, rfl⟩
theorem Size.mulsw (src : RegNum) (dest : PairNum) : Size.Statement (.mulsw src dest) := rfl
theorem Spelling.mulsw (src : RegNum) (dest : PairNum) : Spelling.Statement (.mulsw src dest) := ⟨rfl, rfl⟩
theorem Size.muluw (src : RegNum) (dest : PairNum) : Size.Statement (.muluw src dest) := rfl
theorem Spelling.muluw (src : RegNum) (dest : PairNum) : Spelling.Statement (.muluw src dest) := ⟨rfl, rfl⟩
theorem Size.macqw (src1 : RegNum) (src2 : RegNum) (dest : PairNum) : Size.Statement (.macqw src1 src2 dest) := rfl
theorem Spelling.macqw (src1 : RegNum) (src2 : RegNum) (dest : PairNum) : Spelling.Statement (.macqw src1 src2 dest) := ⟨rfl, rfl⟩
theorem Size.macuw (src1 : RegNum) (src2 : RegNum) (dest : PairNum) : Size.Statement (.macuw src1 src2 dest) := rfl
theorem Spelling.macuw (src1 : RegNum) (src2 : RegNum) (dest : PairNum) : Spelling.Statement (.macuw src1 src2 dest) := ⟨rfl, rfl⟩
theorem Size.macsw (src1 : RegNum) (src2 : RegNum) (dest : PairNum) : Size.Statement (.macsw src1 src2 dest) := rfl
theorem Spelling.macsw (src1 : RegNum) (src2 : RegNum) (dest : PairNum) : Spelling.Statement (.macsw src1 src2 dest) := ⟨rfl, rfl⟩
theorem Size.cmpb (src1 : Src) (src2 : RegNum) : Size.Statement (.cmpb src1 src2) := by
  cases src1 <;> rfl
theorem Spelling.cmpb (src1 : Src) (src2 : RegNum) : Spelling.Statement (.cmpb src1 src2) := ⟨rfl, rfl⟩
theorem Size.cmpw (src1 : Src) (src2 : RegNum) : Size.Statement (.cmpw src1 src2) := by
  cases src1 <;> rfl
theorem Spelling.cmpw (src1 : Src) (src2 : RegNum) : Spelling.Statement (.cmpw src1 src2) := ⟨rfl, rfl⟩
theorem Size.cmpd (src1 : SrcC) (src2 : PairNum) : Size.Statement (.cmpd src1 src2) := by
  cases src1 <;> rfl
theorem Spelling.cmpd (src1 : SrcC) (src2 : PairNum) : Spelling.Statement (.cmpd src1 src2) := ⟨rfl, rfl⟩
theorem Size.andb (src : Src) (dest : RegNum) : Size.Statement (.andb src dest) := by
  cases src <;> rfl
theorem Spelling.andb (src : Src) (dest : RegNum) : Spelling.Statement (.andb src dest) := ⟨rfl, rfl⟩
theorem Size.andw (src : Src) (dest : RegNum) : Size.Statement (.andw src dest) := by
  cases src <;> rfl
theorem Spelling.andw (src : Src) (dest : RegNum) : Spelling.Statement (.andw src dest) := ⟨rfl, rfl⟩
theorem Size.andd (src : SrcL) (dest : PairNum) : Size.Statement (.andd src dest) := by
  cases src <;> rfl
theorem Spelling.andd (src : SrcL) (dest : PairNum) : Spelling.Statement (.andd src dest) := ⟨rfl, rfl⟩
theorem Size.orb (src : Src) (dest : RegNum) : Size.Statement (.orb src dest) := by
  cases src <;> rfl
theorem Spelling.orb (src : Src) (dest : RegNum) : Spelling.Statement (.orb src dest) := ⟨rfl, rfl⟩
theorem Size.orw (src : Src) (dest : RegNum) : Size.Statement (.orw src dest) := by
  cases src <;> rfl
theorem Spelling.orw (src : Src) (dest : RegNum) : Spelling.Statement (.orw src dest) := ⟨rfl, rfl⟩
theorem Size.ord (src : SrcL) (dest : PairNum) : Size.Statement (.ord src dest) := by
  cases src <;> rfl
theorem Spelling.ord (src : SrcL) (dest : PairNum) : Spelling.Statement (.ord src dest) := ⟨rfl, rfl⟩
theorem Size.xorb (src : Src) (dest : RegNum) : Size.Statement (.xorb src dest) := by
  cases src <;> rfl
theorem Spelling.xorb (src : Src) (dest : RegNum) : Spelling.Statement (.xorb src dest) := ⟨rfl, rfl⟩
theorem Size.xorw (src : Src) (dest : RegNum) : Size.Statement (.xorw src dest) := by
  cases src <;> rfl
theorem Spelling.xorw (src : Src) (dest : RegNum) : Spelling.Statement (.xorw src dest) := ⟨rfl, rfl⟩
theorem Size.xord (src : SrcL) (dest : PairNum) : Size.Statement (.xord src dest) := by
  cases src <;> rfl
theorem Spelling.xord (src : SrcL) (dest : PairNum) : Spelling.Statement (.xord src dest) := ⟨rfl, rfl⟩
theorem Size.scond (c : Cond) (dest : RegNum) : Size.Statement (.scond c dest) := rfl
theorem Spelling.scond (c : Cond) (dest : RegNum) : Spelling.Statement (.scond c dest) := by
  cases c <;> exact ⟨rfl, rfl⟩
theorem Size.seq (dest : RegNum) : Size.Statement (.seq dest) := rfl
theorem Spelling.seq (dest : RegNum) : Spelling.Statement (.seq dest) := ⟨rfl, rfl⟩
theorem Size.sne (dest : RegNum) : Size.Statement (.sne dest) := rfl
theorem Spelling.sne (dest : RegNum) : Spelling.Statement (.sne dest) := ⟨rfl, rfl⟩
theorem Size.scs (dest : RegNum) : Size.Statement (.scs dest) := rfl
theorem Spelling.scs (dest : RegNum) : Spelling.Statement (.scs dest) := ⟨rfl, rfl⟩
theorem Size.scc (dest : RegNum) : Size.Statement (.scc dest) := rfl
theorem Spelling.scc (dest : RegNum) : Spelling.Statement (.scc dest) := ⟨rfl, rfl⟩
theorem Size.shi (dest : RegNum) : Size.Statement (.shi dest) := rfl
theorem Spelling.shi (dest : RegNum) : Spelling.Statement (.shi dest) := ⟨rfl, rfl⟩
theorem Size.sls (dest : RegNum) : Size.Statement (.sls dest) := rfl
theorem Spelling.sls (dest : RegNum) : Spelling.Statement (.sls dest) := ⟨rfl, rfl⟩
theorem Size.sgt (dest : RegNum) : Size.Statement (.sgt dest) := rfl
theorem Spelling.sgt (dest : RegNum) : Spelling.Statement (.sgt dest) := ⟨rfl, rfl⟩
theorem Size.sle (dest : RegNum) : Size.Statement (.sle dest) := rfl
theorem Spelling.sle (dest : RegNum) : Spelling.Statement (.sle dest) := ⟨rfl, rfl⟩
theorem Size.sfs (dest : RegNum) : Size.Statement (.sfs dest) := rfl
theorem Spelling.sfs (dest : RegNum) : Spelling.Statement (.sfs dest) := ⟨rfl, rfl⟩
theorem Size.sfc (dest : RegNum) : Size.Statement (.sfc dest) := rfl
theorem Spelling.sfc (dest : RegNum) : Spelling.Statement (.sfc dest) := ⟨rfl, rfl⟩
theorem Size.slo (dest : RegNum) : Size.Statement (.slo dest) := rfl
theorem Spelling.slo (dest : RegNum) : Spelling.Statement (.slo dest) := ⟨rfl, rfl⟩
theorem Size.shs (dest : RegNum) : Size.Statement (.shs dest) := rfl
theorem Spelling.shs (dest : RegNum) : Spelling.Statement (.shs dest) := ⟨rfl, rfl⟩
theorem Size.slt (dest : RegNum) : Size.Statement (.slt dest) := rfl
theorem Spelling.slt (dest : RegNum) : Spelling.Statement (.slt dest) := ⟨rfl, rfl⟩
theorem Size.sge (dest : RegNum) : Size.Statement (.sge dest) := rfl
theorem Spelling.sge (dest : RegNum) : Spelling.Statement (.sge dest) := ⟨rfl, rfl⟩
theorem Size.ashub (count : Count 3) (dest : RegNum) : Size.Statement (.ashub count dest) := by
  cases count <;> rfl
theorem Spelling.ashub (count : Count 3) (dest : RegNum) : Spelling.Statement (.ashub count dest) := ⟨rfl, rfl⟩
theorem Size.ashuw (count : Count 4) (dest : RegNum) : Size.Statement (.ashuw count dest) := by
  cases count <;> rfl
theorem Spelling.ashuw (count : Count 4) (dest : RegNum) : Spelling.Statement (.ashuw count dest) := ⟨rfl, rfl⟩
theorem Size.ashud (count : Count 5) (dest : PairNum) : Size.Statement (.ashud count dest) := by
  cases count <;> rfl
theorem Spelling.ashud (count : Count 5) (dest : PairNum) : Spelling.Statement (.ashud count dest) := ⟨rfl, rfl⟩
theorem Size.lshb (count : RightCount 3) (dest : RegNum) : Size.Statement (.lshb count dest) := by
  cases count <;> rfl
theorem Spelling.lshb (count : RightCount 3) (dest : RegNum) : Spelling.Statement (.lshb count dest) := ⟨rfl, rfl⟩
theorem Size.lshw (count : RightCount 4) (dest : RegNum) : Size.Statement (.lshw count dest) := by
  cases count <;> rfl
theorem Spelling.lshw (count : RightCount 4) (dest : RegNum) : Spelling.Statement (.lshw count dest) := ⟨rfl, rfl⟩
theorem Size.lshd (count : RightCount 5) (dest : PairNum) : Size.Statement (.lshd count dest) := by
  cases count <;> rfl
theorem Spelling.lshd (count : RightCount 5) (dest : PairNum) : Spelling.Statement (.lshd count dest) := ⟨rfl, rfl⟩
theorem Size.cbitb (pos : BitVec 3) (dest : BitAddr) : Size.Statement (.cbitb pos dest) := by
  cases dest <;> rfl
theorem Spelling.cbitb (pos : BitVec 3) (dest : BitAddr) : Spelling.Statement (.cbitb pos dest) := ⟨rfl, rfl⟩
theorem Size.cbitw (pos : BitVec 4) (dest : BitAddr) : Size.Statement (.cbitw pos dest) := by
  cases dest <;> rfl
theorem Spelling.cbitw (pos : BitVec 4) (dest : BitAddr) : Spelling.Statement (.cbitw pos dest) := ⟨rfl, rfl⟩
theorem Size.sbitb (pos : BitVec 3) (dest : BitAddr) : Size.Statement (.sbitb pos dest) := by
  cases dest <;> rfl
theorem Spelling.sbitb (pos : BitVec 3) (dest : BitAddr) : Spelling.Statement (.sbitb pos dest) := ⟨rfl, rfl⟩
theorem Size.sbitw (pos : BitVec 4) (dest : BitAddr) : Size.Statement (.sbitw pos dest) := by
  cases dest <;> rfl
theorem Spelling.sbitw (pos : BitVec 4) (dest : BitAddr) : Spelling.Statement (.sbitw pos dest) := ⟨rfl, rfl⟩
theorem Size.tbitb (pos : BitVec 3) (src : BitAddr) : Size.Statement (.tbitb pos src) := by
  cases src <;> rfl
theorem Spelling.tbitb (pos : BitVec 3) (src : BitAddr) : Spelling.Statement (.tbitb pos src) := ⟨rfl, rfl⟩
theorem Size.tbitw (pos : BitVec 4) (src : BitAddr) : Size.Statement (.tbitw pos src) := by
  cases src <;> rfl
theorem Spelling.tbitw (pos : BitVec 4) (src : BitAddr) : Spelling.Statement (.tbitw pos src) := ⟨rfl, rfl⟩
theorem Size.tbit (fromReg : Bool) (offset : BitVec 4) (src : RegNum) : Size.Statement (.tbit fromReg offset src) := by
  cases fromReg <;> rfl
theorem Spelling.tbit (fromReg : Bool) (offset : BitVec 4) (src : RegNum) : Spelling.Statement (.tbit fromReg offset src) := ⟨rfl, rfl⟩
theorem Size.lpr (src : RegNum) (dest : ProcRegNum) : Size.Statement (.lpr src dest) := rfl
theorem Spelling.lpr (src : RegNum) (dest : ProcRegNum) : Spelling.Statement (.lpr src dest) := ⟨rfl, rfl⟩
theorem Size.lprd (src : PairNum) (dest : ProcRegNum) : Size.Statement (.lprd src dest) := rfl
theorem Spelling.lprd (src : PairNum) (dest : ProcRegNum) : Spelling.Statement (.lprd src dest) := ⟨rfl, rfl⟩
theorem Size.spr (src : ProcRegNum) (dest : RegNum) : Size.Statement (.spr src dest) := rfl
theorem Spelling.spr (src : ProcRegNum) (dest : RegNum) : Spelling.Statement (.spr src dest) := ⟨rfl, rfl⟩
theorem Size.sprd (src : ProcRegNum) (dest : PairNum) : Size.Statement (.sprd src dest) := rfl
theorem Spelling.sprd (src : ProcRegNum) (dest : PairNum) : Spelling.Statement (.sprd src dest) := ⟨rfl, rfl⟩
theorem Size.bcond (c : Cond) (dest : BranchDisp) : Size.Statement (.bcond c dest) := by
  cases dest <;> rfl
theorem Spelling.bcond (c : Cond) (dest : BranchDisp) : Spelling.Statement (.bcond c dest) := by
  cases c <;> exact ⟨rfl, rfl⟩
theorem Size.beq (dest : BranchDisp) : Size.Statement (.beq dest) := by
  cases dest <;> rfl
theorem Spelling.beq (dest : BranchDisp) : Spelling.Statement (.beq dest) := ⟨rfl, rfl⟩
theorem Size.bne (dest : BranchDisp) : Size.Statement (.bne dest) := by
  cases dest <;> rfl
theorem Spelling.bne (dest : BranchDisp) : Spelling.Statement (.bne dest) := ⟨rfl, rfl⟩
theorem Size.bcs (dest : BranchDisp) : Size.Statement (.bcs dest) := by
  cases dest <;> rfl
theorem Spelling.bcs (dest : BranchDisp) : Spelling.Statement (.bcs dest) := ⟨rfl, rfl⟩
theorem Size.bcc (dest : BranchDisp) : Size.Statement (.bcc dest) := by
  cases dest <;> rfl
theorem Spelling.bcc (dest : BranchDisp) : Spelling.Statement (.bcc dest) := ⟨rfl, rfl⟩
theorem Size.bhi (dest : BranchDisp) : Size.Statement (.bhi dest) := by
  cases dest <;> rfl
theorem Spelling.bhi (dest : BranchDisp) : Spelling.Statement (.bhi dest) := ⟨rfl, rfl⟩
theorem Size.bls (dest : BranchDisp) : Size.Statement (.bls dest) := by
  cases dest <;> rfl
theorem Spelling.bls (dest : BranchDisp) : Spelling.Statement (.bls dest) := ⟨rfl, rfl⟩
theorem Size.bgt (dest : BranchDisp) : Size.Statement (.bgt dest) := by
  cases dest <;> rfl
theorem Spelling.bgt (dest : BranchDisp) : Spelling.Statement (.bgt dest) := ⟨rfl, rfl⟩
theorem Size.ble (dest : BranchDisp) : Size.Statement (.ble dest) := by
  cases dest <;> rfl
theorem Spelling.ble (dest : BranchDisp) : Spelling.Statement (.ble dest) := ⟨rfl, rfl⟩
theorem Size.bfs (dest : BranchDisp) : Size.Statement (.bfs dest) := by
  cases dest <;> rfl
theorem Spelling.bfs (dest : BranchDisp) : Spelling.Statement (.bfs dest) := ⟨rfl, rfl⟩
theorem Size.bfc (dest : BranchDisp) : Size.Statement (.bfc dest) := by
  cases dest <;> rfl
theorem Spelling.bfc (dest : BranchDisp) : Spelling.Statement (.bfc dest) := ⟨rfl, rfl⟩
theorem Size.blo (dest : BranchDisp) : Size.Statement (.blo dest) := by
  cases dest <;> rfl
theorem Spelling.blo (dest : BranchDisp) : Spelling.Statement (.blo dest) := ⟨rfl, rfl⟩
theorem Size.bhs (dest : BranchDisp) : Size.Statement (.bhs dest) := by
  cases dest <;> rfl
theorem Spelling.bhs (dest : BranchDisp) : Spelling.Statement (.bhs dest) := ⟨rfl, rfl⟩
theorem Size.blt (dest : BranchDisp) : Size.Statement (.blt dest) := by
  cases dest <;> rfl
theorem Spelling.blt (dest : BranchDisp) : Spelling.Statement (.blt dest) := ⟨rfl, rfl⟩
theorem Size.bge (dest : BranchDisp) : Size.Statement (.bge dest) := by
  cases dest <;> rfl
theorem Spelling.bge (dest : BranchDisp) : Spelling.Statement (.bge dest) := ⟨rfl, rfl⟩
theorem Size.br (dest : BranchDisp) : Size.Statement (.br dest) := by
  cases dest <;> rfl
theorem Spelling.br (dest : BranchDisp) : Spelling.Statement (.br dest) := ⟨rfl, rfl⟩
theorem Size.bal (link : Link) (disp : BitVec 24) : Size.Statement (.bal link disp) := by
  cases link <;> rfl
theorem Spelling.bal (link : Link) (disp : BitVec 24) : Spelling.Statement (.bal link disp) := ⟨rfl, rfl⟩
theorem Size.beq0b (src : RegNum) (disp : BitVec 4) : Size.Statement (.beq0b src disp) := rfl
theorem Spelling.beq0b (src : RegNum) (disp : BitVec 4) : Spelling.Statement (.beq0b src disp) := ⟨rfl, rfl⟩
theorem Size.beq0w (src : RegNum) (disp : BitVec 4) : Size.Statement (.beq0w src disp) := rfl
theorem Spelling.beq0w (src : RegNum) (disp : BitVec 4) : Spelling.Statement (.beq0w src disp) := ⟨rfl, rfl⟩
theorem Size.bne0b (src : RegNum) (disp : BitVec 4) : Size.Statement (.bne0b src disp) := rfl
theorem Spelling.bne0b (src : RegNum) (disp : BitVec 4) : Spelling.Statement (.bne0b src disp) := ⟨rfl, rfl⟩
theorem Size.bne0w (src : RegNum) (disp : BitVec 4) : Size.Statement (.bne0w src disp) := rfl
theorem Spelling.bne0w (src : RegNum) (disp : BitVec 4) : Spelling.Statement (.bne0w src disp) := ⟨rfl, rfl⟩
theorem Size.jcond (c : Cond) (dest : PairNum) : Size.Statement (.jcond c dest) := rfl
theorem Spelling.jcond (c : Cond) (dest : PairNum) : Spelling.Statement (.jcond c dest) := by
  cases c <;> exact ⟨rfl, rfl⟩
theorem Size.jeq (dest : PairNum) : Size.Statement (.jeq dest) := rfl
theorem Spelling.jeq (dest : PairNum) : Spelling.Statement (.jeq dest) := ⟨rfl, rfl⟩
theorem Size.jne (dest : PairNum) : Size.Statement (.jne dest) := rfl
theorem Spelling.jne (dest : PairNum) : Spelling.Statement (.jne dest) := ⟨rfl, rfl⟩
theorem Size.jcs (dest : PairNum) : Size.Statement (.jcs dest) := rfl
theorem Spelling.jcs (dest : PairNum) : Spelling.Statement (.jcs dest) := ⟨rfl, rfl⟩
theorem Size.jcc (dest : PairNum) : Size.Statement (.jcc dest) := rfl
theorem Spelling.jcc (dest : PairNum) : Spelling.Statement (.jcc dest) := ⟨rfl, rfl⟩
theorem Size.jhi (dest : PairNum) : Size.Statement (.jhi dest) := rfl
theorem Spelling.jhi (dest : PairNum) : Spelling.Statement (.jhi dest) := ⟨rfl, rfl⟩
theorem Size.jls (dest : PairNum) : Size.Statement (.jls dest) := rfl
theorem Spelling.jls (dest : PairNum) : Spelling.Statement (.jls dest) := ⟨rfl, rfl⟩
theorem Size.jgt (dest : PairNum) : Size.Statement (.jgt dest) := rfl
theorem Spelling.jgt (dest : PairNum) : Spelling.Statement (.jgt dest) := ⟨rfl, rfl⟩
theorem Size.jle (dest : PairNum) : Size.Statement (.jle dest) := rfl
theorem Spelling.jle (dest : PairNum) : Spelling.Statement (.jle dest) := ⟨rfl, rfl⟩
theorem Size.jfs (dest : PairNum) : Size.Statement (.jfs dest) := rfl
theorem Spelling.jfs (dest : PairNum) : Spelling.Statement (.jfs dest) := ⟨rfl, rfl⟩
theorem Size.jfc (dest : PairNum) : Size.Statement (.jfc dest) := rfl
theorem Spelling.jfc (dest : PairNum) : Spelling.Statement (.jfc dest) := ⟨rfl, rfl⟩
theorem Size.jlo (dest : PairNum) : Size.Statement (.jlo dest) := rfl
theorem Spelling.jlo (dest : PairNum) : Spelling.Statement (.jlo dest) := ⟨rfl, rfl⟩
theorem Size.jhs (dest : PairNum) : Size.Statement (.jhs dest) := rfl
theorem Spelling.jhs (dest : PairNum) : Spelling.Statement (.jhs dest) := ⟨rfl, rfl⟩
theorem Size.jlt (dest : PairNum) : Size.Statement (.jlt dest) := rfl
theorem Spelling.jlt (dest : PairNum) : Spelling.Statement (.jlt dest) := ⟨rfl, rfl⟩
theorem Size.jge (dest : PairNum) : Size.Statement (.jge dest) := rfl
theorem Spelling.jge (dest : PairNum) : Spelling.Statement (.jge dest) := ⟨rfl, rfl⟩
theorem Size.jump (dest : PairNum) : Size.Statement (.jump dest) := rfl
theorem Spelling.jump (dest : PairNum) : Spelling.Statement (.jump dest) := ⟨rfl, rfl⟩
theorem Size.jusr (dest : PairNum) : Size.Statement (.jusr dest) := rfl
theorem Spelling.jusr (dest : PairNum) : Spelling.Statement (.jusr dest) := ⟨rfl, rfl⟩
theorem Size.jal (link : Link) (dest : PairNum) : Size.Statement (.jal link dest) := by
  cases link <;> rfl
theorem Spelling.jal (link : Link) (dest : PairNum) : Spelling.Statement (.jal link dest) := ⟨rfl, rfl⟩
theorem Size.excp (vector : BitVec 4) : Size.Statement (.excp vector) := rfl
theorem Spelling.excp (vector : BitVec 4) : Spelling.Statement (.excp vector) := ⟨rfl, rfl⟩
theorem Size.retx : Size.Statement .retx := rfl
theorem Spelling.retx : Spelling.Statement .retx := ⟨rfl, rfl⟩
theorem Size.push (ra : Bool) (count : BitVec 3) (src : RegNum) : Size.Statement (.push ra count src) := rfl
theorem Spelling.push (ra : Bool) (count : BitVec 3) (src : RegNum) : Spelling.Statement (.push ra count src) := ⟨rfl, rfl⟩
theorem Size.pop (ra : Bool) (count : BitVec 3) (dest : RegNum) : Size.Statement (.pop ra count dest) := rfl
theorem Spelling.pop (ra : Bool) (count : BitVec 3) (dest : RegNum) : Spelling.Statement (.pop ra count dest) := ⟨rfl, rfl⟩
theorem Size.popret (ra : Bool) (count : BitVec 3) (dest : RegNum) : Size.Statement (.popret ra count dest) := rfl
theorem Spelling.popret (ra : Bool) (count : BitVec 3) (dest : RegNum) : Spelling.Statement (.popret ra count dest) := ⟨rfl, rfl⟩
theorem Size.loadb (src : MemAddr) (dest : RegNum) : Size.Statement (.loadb src dest) := by
  cases src <;> rfl
theorem Spelling.loadb (src : MemAddr) (dest : RegNum) : Spelling.Statement (.loadb src dest) := ⟨rfl, rfl⟩
theorem Size.loadw (src : MemAddr) (dest : RegNum) : Size.Statement (.loadw src dest) := by
  cases src <;> rfl
theorem Spelling.loadw (src : MemAddr) (dest : RegNum) : Spelling.Statement (.loadw src dest) := ⟨rfl, rfl⟩
theorem Size.loadd (src : MemAddr) (dest : PairNum) : Size.Statement (.loadd src dest) := by
  cases src <;> rfl
theorem Spelling.loadd (src : MemAddr) (dest : PairNum) : Spelling.Statement (.loadd src dest) := ⟨rfl, rfl⟩
theorem Size.storb (src : RegNum) (dest : MemAddr) : Size.Statement (.storb src dest) := by
  cases dest <;> rfl
theorem Spelling.storb (src : RegNum) (dest : MemAddr) : Spelling.Statement (.storb src dest) := ⟨rfl, rfl⟩
theorem Size.storw (src : RegNum) (dest : MemAddr) : Size.Statement (.storw src dest) := by
  cases dest <;> rfl
theorem Spelling.storw (src : RegNum) (dest : MemAddr) : Spelling.Statement (.storw src dest) := ⟨rfl, rfl⟩
theorem Size.stord (src : PairNum) (dest : MemAddr) : Size.Statement (.stord src dest) := by
  cases dest <;> rfl
theorem Spelling.stord (src : PairNum) (dest : MemAddr) : Spelling.Statement (.stord src dest) := ⟨rfl, rfl⟩
theorem Size.storbImm (imm : BitVec 4) (dest : BitAddr) : Size.Statement (.storbImm imm dest) := by
  cases dest <;> rfl
theorem Spelling.storbImm (imm : BitVec 4) (dest : BitAddr) : Spelling.Statement (.storbImm imm dest) := ⟨rfl, rfl⟩
theorem Size.storwImm (imm : BitVec 4) (dest : BitAddr) : Size.Statement (.storwImm imm dest) := by
  cases dest <;> rfl
theorem Spelling.storwImm (imm : BitVec 4) (dest : BitAddr) : Spelling.Statement (.storwImm imm dest) := ⟨rfl, rfl⟩
theorem Size.loadm (count : BitVec 3) : Size.Statement (.loadm count) := rfl
theorem Spelling.loadm (count : BitVec 3) : Spelling.Statement (.loadm count) := ⟨rfl, rfl⟩
theorem Size.loadmp (count : BitVec 3) : Size.Statement (.loadmp count) := rfl
theorem Spelling.loadmp (count : BitVec 3) : Spelling.Statement (.loadmp count) := ⟨rfl, rfl⟩
theorem Size.storm (count : BitVec 3) : Size.Statement (.storm count) := rfl
theorem Spelling.storm (count : BitVec 3) : Spelling.Statement (.storm count) := ⟨rfl, rfl⟩
theorem Size.stormp (count : BitVec 3) : Size.Statement (.stormp count) := rfl
theorem Spelling.stormp (count : BitVec 3) : Spelling.Statement (.stormp count) := ⟨rfl, rfl⟩
theorem Size.cinv (opts : CacheOpts) : Size.Statement (.cinv opts) := by
  cases opts <;> rfl
theorem Spelling.cinv (opts : CacheOpts) : Spelling.Statement (.cinv opts) := ⟨rfl, rfl⟩
theorem Size.di : Size.Statement .di := rfl
theorem Spelling.di : Spelling.Statement .di := ⟨rfl, rfl⟩
theorem Size.ei : Size.Statement .ei := rfl
theorem Spelling.ei : Spelling.Statement .ei := ⟨rfl, rfl⟩
theorem Size.eiwait : Size.Statement .eiwait := rfl
theorem Spelling.eiwait : Spelling.Statement .eiwait := ⟨rfl, rfl⟩
theorem Size.wait : Size.Statement .wait := rfl
theorem Spelling.wait : Spelling.Statement .wait := ⟨rfl, rfl⟩
theorem Size.nop : Size.Statement .nop := rfl
theorem Spelling.nop : Spelling.Statement .nop := ⟨rfl, rfl⟩
theorem Size.resUnd (first : Word) (ope : BitVec 4) : Size.Statement (.resUnd first ope) := by
  simp only [Size.Statement, encode, instrBytes]
  split <;> rfl
theorem Spelling.resUnd (first : Word) (ope : BitVec 4) : Spelling.Statement (.resUnd first ope) := ⟨rfl, rfl⟩
theorem Size.resNop (first : Word) (ope : BitVec 4) : Size.Statement (.resNop first ope) := by
  simp only [Size.Statement, encode, instrBytes]
  split <;> rfl
theorem Spelling.resNop (first : Word) (ope : BitVec 4) : Spelling.Statement (.resNop first ope) := ⟨rfl, rfl⟩

end Sys2Proof.Laws
end

