-- ==== Sys2Proof/Tests/Slice0.lean ====
section
/-! SUPPORT. Tests: ill-formed terms refused, words written out from the tables of spec/30_encoding.md, single
instructions on small states with the results of spec/95_test_vectors.md (named by their row) or of the manual's
tables, and for every statement with hypotheses a state and operands that meet them. -/

set_option maxRecDepth 8000

namespace Sys2Proof.Tests

open Sys2Proof Sys2Proof.Machine

/-! ### Small states -/

/-- A state to test on: after reset, with the PC at 0x1000, INTBASE at 0x100. ISP stays 0. -/
def base : State := { State.reset with pc := 0x1000, intbase := 0x100 }

/-- The PSR set from a word. -/
def psr (v : Word) (s : State) : State := { s with psr := psrOfWord v }

/-- CFG.SR set. -/
def short (s : State) : State := { s with cfg := { s.cfg with sr := true } }

/-- A byte of memory set. -/
def byte (a : Nat) (b : Byte) (s : State) : State := { s with mem := s.mem.put a b }

/-- A word of memory set. -/
def word (a : Nat) (w : Word) (s : State) : State :=
  byte (a + 1) (w.extractLsb' 8 8) (byte a (w.extractLsb' 0 8) s)

/-- The words of an instruction put at the PC. -/
def code (ws : List Word) (s : State) : State := s.placeCode s.pc.toNat (bytesOfWords ws)

/-- The inputs of the next boundary. -/
def input (i : Inputs) (s : State) : State := { s with inputs := [i] }

/-- The instruction answers a next state with the property. -/
def after (i : Instr) (s : State) (p : State → Bool) : Bool :=
  match exec i s with
  | .next t => p t
  | .fault _ => false
  | .refused _ => false

/-- The step answers a next state with the property. -/
def steps (s : State) (p : State → Bool) : Bool :=
  match step s with
  | .next t => p t
  | .fault _ => false
  | .refused _ => false

/-- The instruction is refused for the reason. -/
def refuses (i : Instr) (s : State) (r : Refusal) : Bool :=
  match exec i s with
  | .next _ => false
  | .fault _ => false
  | .refused q => q == r

/-- Z, N, L as given. -/
def flagsZNL (z n l : Bool) (t : State) : Bool := t.psr.z == z && t.psr.n == n && t.psr.l == l

/-- C, F as given. -/
def flagsCF (c f : Bool) (t : State) : Bool := t.psr.c == c && t.psr.f == f

/-- Each of the words decodes to the instruction beside it. -/
def reads (xs : List (List Word × Instr)) : Bool :=
  xs.all (fun x => match decodeWords x.1 with | .ok i => i == x.2 | .error _ => false)

/-! ### Well-formedness: one ill-formed term for each check -/

/-- The imm4 field 11 is the escape of R131. -/
theorem test_wf_imm4_word : Instr.wf (.movw (.imm4 11) 3) = false := by decide
theorem test_wf_imm4_double : Instr.wf (.addd (.imm4 11) 2) = false := by decide
theorem test_wf_imm4_compare : Instr.wf (.cmpd (.imm4 11) 2) = false := by decide
/-- The disp4 fields 14 and 15 are escapes (R136). -/
theorem test_wf_disp4 : Instr.wf (.loadw (.disp4 2 14) 3) = false ∧ Instr.wf (.stord 3 (.disp4 2 15)) = false := by decide
/-- The disp9 field 0x80 is the escape of R137. -/
theorem test_wf_disp9 : Instr.wf (.beq (.disp9 0x80)) = false := by decide
/-- STORB of register 15 with base pair 15 in the disp16 form is the reserved word 0xFFFF (R160). -/
theorem test_wf_storb : Instr.wf (.storb 15 (.disp16 15 0x20)) = false ∧ Instr.wf (.storb 15 (.disp16 14 0x20)) = true := by
  decide
/-- MOVW is no reserved encoding, a load is not, and the first of two words has no `ope` elsewhere (R456). -/
theorem test_wf_resUnd :
    Instr.wf (.resUnd 0x5B06 0) = false ∧ Instr.wf (.resUnd 0x0018 4) = false ∧ Instr.wf (.resUnd 0xFFFF 1) = false := by
  decide
/-- SUBD is no reserved no-operation (R457). -/
theorem test_wf_resNop : Instr.wf (.resNop 0x0014 12) = false ∧ Instr.wf (.resNop 0x0012 0) = false := by decide

/-! ### Decoding: at least one word for every constructor -/

/-- Moves: words written out from the table of spec/30_encoding.md. -/
theorem test_decode_moves :
    reads [
      ([0x5893], .movb (.imm4 9) 3), ([0x58B5, 0x1234], .movb (.imm16 0x1234) 5), ([0x5B2D], .movw (.reg 2) 13),
      ([0x547E], .movd (.imm4 7) 14), ([0x54B4, 0x8001], .movd (.imm16 0x8001) 4), ([0x551C], .movd (.pair 1) 12),
      ([0x0569, 0xABCD], .movd (.imm20 0x9ABCD) 6), ([0x0078, 0x1234, 0x5678], .movd (.imm32 0x12345678) 8),
      ([0x5C72], .movxb 7 2), ([0x5E9A], .movxw 9 10), ([0x5DF1], .movzb 15 1), ([0x5F36], .movzw 3 6)] = true := by
  decide

/-- Arithmetic: words written out from the table of spec/30_encoding.md. -/
theorem test_decode_arithmetic :
    reads [
      ([0x30A1], .addb (.imm4 10) 1), ([0x32B2, 0xA5C3], .addw (.imm16 0xA5C3) 2), ([0x2DE3], .addub (.reg 14) 3),
      ([0x2EA4], .adduw (.imm4 10) 4), ([0x34B5, 0xA5C3], .addcb (.imm16 0xA5C3) 5), ([0x37E6], .addcw (.reg 14) 6),
      ([0x38A7], .subb (.imm4 10) 7), ([0x3AB8, 0xA5C3], .subw (.imm16 0xA5C3) 8), ([0x3DE9], .subcb (.reg 14) 9),
      ([0x3EAA], .subcw (.imm4 10) 10), ([0x64BB, 0xA5C3], .mulb (.imm16 0xA5C3) 11), ([0x67EC], .mulw (.reg 14) 12),
      ([0x0425, 0x4321], .addd (.imm20 0x54321) 2), ([0x002A, 0xCAFE, 0x1234], .addd (.imm32 0xCAFE1234) 10),
      ([0x0014, 0xC05C], .subd (.pair 5) 12), ([0x0033, 0x89AB, 0xCDEF], .subd (.imm32 0x89ABCDEF) 3),
      ([0x0B49], .mulsb 4 9), ([0x621E], .mulsw 1 14), ([0x6360], .muluw 6 0), ([0x0014, 0xDC12], .macqw 1 2 12),
      ([0x0014, 0xEC12], .macuw 1 2 12), ([0x0014, 0xFC12], .macsw 1 2 12)] = true := by
  decide

/-- Comparison and logic: words written out from the table of spec/30_encoding.md. -/
theorem test_decode_comparison_logic :
    reads [
      ([0x5012], .cmpb (.imm4 1) 2), ([0x5334], .cmpw (.reg 3) 4), ([0x56B6, 0xFFFE], .cmpd (.imm16 0xFFFE) 6),
      ([0x0099, 0x00C0, 0xFFEE], .cmpd (.imm32 0x00C0FFEE) 9), ([0x20B0, 0x0F01], .andb (.imm16 0xf01) 0),
      ([0x22B1, 0x0F02], .andw (.imm16 0xf02) 1), ([0x24B2, 0x0F03], .orb (.imm16 0xf03) 2),
      ([0x26B3, 0x0F04], .orw (.imm16 0xf04) 3), ([0x28B4, 0x0F05], .xorb (.imm16 0xf05) 4),
      ([0x2AB5, 0x0F06], .xorw (.imm16 0xf06) 5), ([0x0040, 0x1020, 0x3040], .andd (.imm32 0x10203040) 0),
      ([0x0014, 0xB0D0], .andd (.pair 13) 0), ([0x0052, 0x1020, 0x3041], .ord (.imm32 0x10203041) 2),
      ([0x0014, 0x90D1], .ord (.pair 13) 1), ([0x0064, 0x1020, 0x3042], .xord (.imm32 0x10203042) 4),
      ([0x0014, 0xA0D2], .xord (.pair 13) 2)] = true := by
  decide

/-- Conditional sets: words written out from the table of spec/30_encoding.md. -/
theorem test_decode_conditional_sets :
    reads [
      ([0x0800], .seq 0), ([0x0811], .sne 1), ([0x0822], .scs 2), ([0x0833], .scc 3), ([0x0844], .shi 4),
      ([0x0855], .sls 5), ([0x0866], .sgt 6), ([0x0877], .sle 7), ([0x0888], .sfs 8), ([0x0899], .sfc 9),
      ([0x08AA], .slo 10), ([0x08BB], .shs 11), ([0x08CC], .slt 12), ([0x08DD], .sge 13),
      ([0x08E3], .scond .always 3), ([0x08F3], .scond .uc 3)] = true := by
  decide

/-- Shifts: words written out from the table of spec/30_encoding.md. -/
theorem test_decode_shifts :
    reads [
      ([0x4061], .ashub (.left 6) 1), ([0x40E1], .ashub (.right 6) 1), ([0x4542], .ashuw (.reg 4) 2),
      ([0x43D2], .ashuw (.right 13) 2), ([0x4D5C], .ashud (.left 21) 12), ([0x4FEC], .ashud (.right 30) 12),
      ([0x09D7], .lshb (.right 5) 7), ([0x4417], .lshb (.reg 1) 7), ([0x4998], .lshw (.right 9) 8),
      ([0x4B1E], .lshd (.right 17) 14), ([0x473E], .lshd (.reg 3) 14)] = true := by
  decide

/-- Bits: words written out from the table of spec/30_encoding.md. -/
theorem test_decode_bits :
    reads [
      ([0x6AB9, 0xAA5C], .cbitb 5 (.disp14 9 0x2ABC)), ([0x72F9, 0xAADC], .sbitw 13 (.disp14 9 0x2ABC)),
      ([0x0011, 0x49D4, 0x876A], .cbitw 13 (.disp20Reg 4 0x9876A)),
      ([0x0010, 0xC954, 0x876A], .tbitb 5 (.disp20Reg 4 0x9876A)), ([0x7256], .sbitb 5 (.pair0 6)),
      ([0x7ED6], .tbitw 13 (.pair0 6)), ([0x71DE, 0xBEEF], .sbitw 13 (.disp16 14 0xBEEF)),
      ([0x6B5E, 0xBEEF], .cbitb 5 (.disp16 14 0xBEEF)), ([0x0010, 0xD152, 0x2345], .tbitb 5 (.disp20Pair 2 0x12345)),
      ([0x0011, 0x51D2, 0x2345], .cbitw 13 (.disp20Pair 2 0x12345)),
      ([0x0011, 0xE6DB, 0x789A], .tbitw 13 (.disp20Index 11 0x6789A)),
      ([0x0010, 0xA65B, 0x789A], .sbitb 5 (.disp20Index 11 0x6789A)), ([0x6BDF, 0xEDCB], .cbitb 5 (.abs20 0xFEDCB)),
      ([0x77DF, 0xEDCB], .sbitw 13 (.abs20 0xFEDCB)), ([0x6DD1, 0x3579], .cbitw 13 (.abs20Index true 0x13579)),
      ([0x78D1, 0x3579], .tbitb 5 (.abs20Index true 0x13579)),
      ([0x0010, 0xBB5A, 0xCDEF], .sbitb 5 (.abs24 0xABCDEF)),
      ([0x0011, 0xFBDA, 0xCDEF], .tbitw 13 (.abs24 0xABCDEF)), ([0x06C3], .tbit false 12 3),
      ([0x07C3], .tbit true 12 3)] = true := by
  decide

/-- Processor registers: words written out from the table of spec/30_encoding.md. -/
theorem test_decode_processor_registers :
    reads [
      ([0x0014, 0x0095], .lpr 5 9), ([0x0014, 0x10A4], .lprd 4 10), ([0x0014, 0x2012], .spr 1 2),
      ([0x0014, 0x30E8], .sprd 14 8)] = true := by
  decide

/-- Branches: words written out from the table of spec/30_encoding.md. -/
theorem test_decode_branches :
    reads [
      ([0x1A07], .beq (.disp9 0xA7)), ([0x1810, 0xFE03], .bne (.disp17 0xFF01)),
      ([0x0010, 0x0423, 0xB877], .bcs (.disp25 0x9A5C3B)), ([0x1A37], .bcc (.disp9 0xA7)),
      ([0x1840, 0xFE03], .bhi (.disp17 0xFF01)), ([0x0010, 0x0453, 0xB877], .bls (.disp25 0x9A5C3B)),
      ([0x1A67], .bgt (.disp9 0xA7)), ([0x1870, 0xFE03], .ble (.disp17 0xFF01)),
      ([0x0010, 0x0483, 0xB877], .bfs (.disp25 0x9A5C3B)), ([0x1A97], .bfc (.disp9 0xA7)),
      ([0x18A0, 0xFE03], .blo (.disp17 0xFF01)), ([0x0010, 0x04B3, 0xB877], .bhs (.disp25 0x9A5C3B)),
      ([0x1AC7], .blt (.disp9 0xA7)), ([0x18D0, 0xFE03], .bge (.disp17 0xFF01)), ([0x10ED], .br (.disp9 0x0D)),
      ([0x18F0, 0x2468], .bcond .uc (.disp17 0x1234)), ([0xC034, 0xB877], .bal .implied 0x9A5C3B),
      ([0x0010, 0x2472, 0x68AC], .bal (.pair 7) 0x123456), ([0x0C69], .beq0b 9 6), ([0x0D69], .bne0b 9 6),
      ([0x0E69], .beq0w 9 6), ([0x0F69], .bne0w 9 6)] = true := by
  decide

/-- Jumps: words written out from the table of spec/30_encoding.md. -/
theorem test_decode_jumps :
    reads [
      ([0x0A00], .jeq 0), ([0x0A11], .jne 1), ([0x0A22], .jcs 2), ([0x0A33], .jcc 3), ([0x0A44], .jhi 4),
      ([0x0A55], .jls 5), ([0x0A66], .jgt 6), ([0x0A77], .jle 7), ([0x0A88], .jfs 8), ([0x0A99], .jfc 9),
      ([0x0AAA], .jlo 10), ([0x0ABB], .jhs 11), ([0x0ACC], .jlt 12), ([0x0ADD], .jge 13), ([0x0AE4], .jump 4),
      ([0x0AF4], .jusr 4), ([0x00D6], .jal .implied 6), ([0x0014, 0x806C], .jal (.pair 12) 6), ([0x00C5], .excp 5),
      ([0x0003], .retx), ([0x01A7], .push true 2 7), ([0x0272], .pop false 7 2),
      ([0x038D], .popret true 0 13)] = true := by
  decide

/-- Loads and stores: words written out from the table of spec/30_encoding.md. -/
theorem test_decode_loads_stores :
    reads [
      ([0xBE69], .loadb (.prp0 9) 6), ([0xDEA9], .storw 10 (.prp0 9)),
      ([0x86F9, 0xAA6C], .loadw (.disp14 9 0x2ABC) 6), ([0xC6B9, 0xAAAC], .stord 10 (.disp14 9 0x2ABC)),
      ([0x0012, 0x8964, 0x876A], .loadd (.disp20Reg 4 0x9876A) 6),
      ([0x0013, 0x49A4, 0x876A], .storb 10 (.disp20Reg 4 0x9876A)),
      ([0x0018, 0x4F64, 0xFFFE], .loadb (.negDisp20Reg 4 0xFFFFE) 6),
      ([0x0019, 0xCFA4, 0xFFFE], .storw 10 (.negDisp20Reg 4 0xFFFFE)),
      ([0x9F6C, 0xBEEF], .loadw (.disp16 12 0xBEEF) 6), ([0xEFAC, 0xBEEF], .stord 10 (.disp16 12 0xBEEF)),
      ([0x0012, 0x9162, 0x2345], .loadd (.disp20Pair 2 0x12345) 6),
      ([0x0013, 0x51A2, 0x2345], .storb 10 (.disp20Pair 2 0x12345)),
      ([0x0018, 0x5862, 0x0001], .loadb (.negDisp20Pair 2 0x80001) 6),
      ([0x0019, 0xD8A2, 0x0001], .storw 10 (.negDisp20Pair 2 0x80001)), ([0x9D6F], .loadw (.disp4 15 13) 6),
      ([0xEDAF], .stord 10 (.disp4 15 13)), ([0x0012, 0xA66B, 0x789A], .loadd (.disp20Index 11 0x6789A) 6),
      ([0x0013, 0x66AB, 0x789A], .storb 10 (.disp20Index 11 0x6789A)), ([0x886F, 0xEDCB], .loadb (.abs20 0xFEDCB) 6),
      ([0xC9AF, 0xEDCB], .storw 10 (.abs20 0xFEDCB)), ([0x8E61, 0x3579], .loadw (.abs20Index false 0x13579) 6),
      ([0xCCA1, 0x3579], .stord 10 (.abs20Index false 0x13579)),
      ([0x0012, 0xBB6A, 0xCDEF], .loadd (.abs24 0xABCDEF) 6),
      ([0x0013, 0x7BAA, 0xCDEF], .storb 10 (.abs24 0xABCDEF)), ([0x8639, 0xAABC], .storbImm 11 (.disp14 9 0x2ABC)),
      ([0x0013, 0x09B4, 0x876A], .storwImm 11 (.disp20Reg 4 0x9876A)), ([0x82B6], .storbImm 11 (.pair0 6)),
      ([0xC3BE, 0xBEEF], .storwImm 11 (.disp16 14 0xBEEF)),
      ([0x0012, 0x11B2, 0x2345], .storbImm 11 (.disp20Pair 2 0x12345)),
      ([0x0013, 0x26BB, 0x789A], .storwImm 11 (.disp20Index 11 0x6789A)),
      ([0x81BF, 0xEDCB], .storbImm 11 (.abs20 0xFEDCB)), ([0xC5B1, 0x3579], .storwImm 11 (.abs20Index true 0x13579)),
      ([0x0012, 0x3BBA, 0xCDEF], .storbImm 11 (.abs24 0xABCDEF)), ([0x00A3], .loadm 3), ([0x00AC], .loadmp 4),
      ([0x00B5], .storm 5), ([0x00BE], .stormp 6)] = true := by
  decide

/-- Miscellaneous: words written out from the table of spec/30_encoding.md. -/
theorem test_decode_miscellaneous :
    reads [
      ([0x000A], .cinv .i), ([0x000B], .cinv .iu), ([0x000C], .cinv .d), ([0x000D], .cinv .du),
      ([0x000E], .cinv .di), ([0x000F], .cinv .diu), ([0x0004], .di), ([0x0005], .ei), ([0x0007], .eiwait),
      ([0x0006], .wait), ([0x0002], .resUnd 0x0002 0), ([0x0018, 0x6000, 0x0000], .resUnd 0x0018 6),
      ([0xFFFF], .resUnd 0xFFFF 0), ([0x0010, 0x3000, 0x0000], .resNop 0x0010 3),
      ([0x0014, 0x7000], .resNop 0x0014 7)] = true := by
  decide

/-- NOP is the word of ADDUB $0, r0, and its words decode to that core instruction (R455; log entry 8). -/
theorem test_decode_nop : encode .nop = [0x2C00] ∧ reads [([0x2C00], .addub (.imm4 0) 0)] = true := by decide

/-- A register jump given by its condition has the word of its mnemonic (R357; log entry 8). -/
theorem test_decode_jcond : encode (.jcond .hs 3) = [0x0AB3] ∧ Instr.named (.jcond .hs 3) = .jhs 3 := by decide

/-- The escapes have two or three words, the reserved ones too; cut off at the top of memory they are no instruction
(R150, R158, R537). -/
theorem test_decode_cut :
    [[0x0014], [0x0010, 0x1000], [0x0018, 0x6000], [0x0019, 0x0000]].all (fun ws =>
      match decodeWords ws with | .ok _ => false | .error _ => true) = true := by decide

/-- M2: the second word is bits 31:16 of the number the host gives. -/
theorem test_decodeTableWord : decodeTableWord 32 0x00175AB8 = some (.movw (.imm16 0x0017) 8) := by decide

/-- A reserved row of two words, which the table numbers from its second word (R456; log entry 7). -/
theorem test_decodeTableWord_reserved :
    decodeTableWord 32 0x00186000 = some (.resUnd 0x0018 6) ∧ decodeTableWord 32 0x60000018 = some (.resUnd 0x0018 6) := by
  decide

/-- The instruction placed at the PC is the one the next step runs, also from reset. -/
theorem test_withFetchWord :
    steps (State.reset.withFetchWord 32 0x00175AB8) (fun t => t.reg 8 == 0x17 && t.pc == 4) = true := by decide

/-! ### Single instructions -/

/-- DM1, DM2: bits 15:8 stay; field 9 is -1. -/
theorem test_movb :
    after (.movb (.imm4 5) 2) (base.setReg 2 0x1234) (fun t => t.reg 2 == 0x1205) = true ∧
    after (.movb (.imm4 9) 2) (base.setReg 2 0x1234) (fun t => t.reg 2 == 0x12FF) = true := by
  decide

/-- DM3, DM17: number 15 is USP in user mode. -/
theorem test_movw :
    after (.movw (.imm4 9) 3) (base) (fun t => t.reg 3 == 0xFFFF && t.pc == 0x1002) = true ∧
    after (.movw (.reg 15) 0) ((psr 0x0008 base).setWide 15 0x4000)
      (fun t => t.reg 0 == 0x4000 && t.regs.usp == 0x4000) = true := by
  decide

/-- M3, DM14: with CFG.SR = 1 pair 12 is the low halves of R12 and R13. -/
theorem test_movd :
    after (.movd (.imm32 0x001700A7) 8) (base)
      (fun t => t.reg 8 == 0x00A7 && t.reg 9 == 0x0017 && t.pc == 0x1006) = true ∧
    after (.movd (.imm4 1) 12) (short ((base.setWide 12 0xAABBCCDD).setWide 13 0x11223344))
      (fun t => t.regs.r12 == 0xAABB0001 && t.regs.r13 == 0x11220000) = true := by
  decide

/-- M4. -/
theorem test_movxb :
    after (.movxb 8 0) (base.setReg 8 0x12F2) (fun t => t.reg 0 == 0xFFF2) = true := by
  decide

/-- DM15. -/
theorem test_movxw :
    after (.movxw 3 0) (base.setReg 3 0x8001) (fun t => t.reg 0 == 0x8001 && t.reg 1 == 0xFFFF) = true := by
  decide

/-- M6. -/
theorem test_movzb :
    after (.movzb 8 0) (base.setReg 8 0x12FF) (fun t => t.reg 0 == 0x00FF) = true := by
  decide

/-- DM16. -/
theorem test_movzw :
    after (.movzw 3 0) ((base.setReg 3 0x8001).setReg 1 0xA500) (fun t => t.reg 0 == 0x8001 && t.reg 1 == 0) = true := by
  decide

/-- DA1, DA2. -/
theorem test_addb :
    after (.addb (.reg 1) 0) ((base.setReg 1 1).setReg 0 0xA57F)
      (fun t => t.reg 0 == 0xA580 && flagsCF false true t) = true ∧
    after (.addb (.reg 1) 0) ((base.setReg 1 0x80).setReg 0 0x80)
      (fun t => t.reg 0 == 0 && flagsCF true true t) = true := by
  decide

/-- DA4, DA6. -/
theorem test_addw :
    after (.addw (.imm4 1) 0) (base.setReg 0 0x7FFF) (fun t => t.reg 0 == 0x8000 && flagsCF false true t) = true ∧
    after (.addw (.imm4 9) 0) (base) (fun t => t.reg 0 == 0xFFFF && flagsCF false false t) = true := by
  decide

/-- DA8, DA9. -/
theorem test_addd :
    after (.addd (.imm4 1) 0) (base.setPair 0 0x7FFFFFFF)
      (fun t => t.pair 0 == 0x80000000 && flagsCF false true t) = true ∧
    after (.addd (.imm16 0xFFFF) 0) (base.setPair 0 1) (fun t => t.pair 0 == 0 && flagsCF true false t) = true := by
  decide

/-- DA13: no flag changes. -/
theorem test_addub :
    after (.addub (.imm4 1) 2) ((psr 0x0200 base).setReg 2 0x12FF)
      (fun t => t.reg 2 == 0x1200 && t.psr == psrOfWord 0x0200) = true := by
  decide

/-- DA14. -/
theorem test_adduw :
    after (.adduw (.reg 1) 2) ((base.setReg 1 1).setReg 2 0xFFFF)
      (fun t => t.reg 2 == 0 && flagsCF false false t) = true := by
  decide

/-- A2. -/
theorem test_addcb :
    after (.addcb (.imm16 0x20) 0) ((psr 1 base).setReg 0 0x0F)
      (fun t => t.reg 0 == 0x30 && flagsCF false false t) = true := by
  decide

/-- DA15, DA16. -/
theorem test_addcw :
    after (.addcw (.reg 3) 1) ((psr 1 base).setReg 1 0xFFFF)
      (fun t => t.reg 1 == 0 && flagsCF true false t) = true ∧
    after (.addcw (.reg 3) 1) ((psr 1 base).setReg 1 0x7FFF)
      (fun t => t.reg 1 == 0x8000 && flagsCF false true t) = true := by
  decide

/-- DA17, DA19. -/
theorem test_subb :
    after (.subb (.reg 1) 0) (base.setReg 1 1) (fun t => t.reg 0 == 0x00FF && flagsCF true false t) = true ∧
    after (.subb (.reg 1) 0) ((base.setReg 1 0xFF).setReg 0 0x7F)
      (fun t => t.reg 0 == 0x80 && flagsCF true true t) = true := by
  decide

/-- DA20, A5. -/
theorem test_subw :
    after (.subw (.imm4 1) 0) (base.setReg 0 0x8000) (fun t => t.reg 0 == 0x7FFF && flagsCF false true t) = true ∧
    after (.subw (.reg 7) 8) ((base.setReg 7 0xFFFE).setReg 8 0x1000)
      (fun t => t.reg 8 == 0x1002 && flagsCF true false t) = true := by
  decide

/-- DA21, DA22. -/
theorem test_subd :
    after (.subd (.pair 2) 0) ((base.setPair 2 1).setPair 0 0x10000)
      (fun t => t.pair 0 == 0xFFFF && flagsCF false false t && t.pc == 0x1004) = true ∧
    after (.subd (.imm32 1) 0) (base) (fun t => t.pair 0 == 0xFFFFFFFF && flagsCF true false t) = true := by
  decide

/-- A6. -/
theorem test_subcb :
    after (.subcb (.imm16 0x20) 1) ((psr 1 base).setReg 1 0x50)
      (fun t => t.reg 1 == 0x2F && flagsCF false false t) = true := by
  decide

/-- DA24, DA25. -/
theorem test_subcw :
    after (.subcw (.reg 3) 1) (psr 1 base) (fun t => t.reg 1 == 0xFFFF && flagsCF true false t) = true ∧
    after (.subcw (.reg 3) 1) ((psr 1 base).setReg 1 0x8000)
      (fun t => t.reg 1 == 0x7FFF && flagsCF false true t) = true := by
  decide

/-- 0x50 times 3: bits 15:8 stay (R232). -/
theorem test_mulb :
    after (.mulb (.imm4 3) 1) (base.setReg 1 0xAA50) (fun t => t.reg 1 == 0xAAF0) = true := by
  decide

/-- DA27. -/
theorem test_mulw :
    after (.mulw (.imm16 0x100) 1) (base.setReg 1 0x1234) (fun t => t.reg 1 == 0x3400) = true := by
  decide

/-- DA28, A8. -/
theorem test_mulsb :
    after (.mulsb 1 0) ((base.setReg 1 0x80).setReg 0 0x80) (fun t => t.reg 0 == 0x4000) = true ∧
    after (.mulsb 8 0) ((base.setReg 8 0xBB).setReg 0 0x3A) (fun t => t.reg 0 == 0xF05E) = true := by
  decide

/-- A9, DA30. -/
theorem test_mulsw :
    after (.mulsw 8 0) ((base.setReg 8 0xDFFB).setReg 0 0x400A) (fun t => t.pair 0 == 0xF7FD7FCE) = true ∧
    after (.mulsw 2 0) ((base.setReg 2 0x8000).setReg 0 0x8000) (fun t => t.pair 0 == 0x40000000) = true := by
  decide

/-- DA31. -/
theorem test_muluw :
    after (.muluw 2 0) ((base.setReg 2 0xFFFF).setReg 0 0xFFFF) (fun t => t.pair 0 == 0xFFFE0001) = true := by
  decide

/-- DA32, DA33. -/
theorem test_macqw :
    after (.macqw 4 5 0) ((base.setReg 4 0x4000).setReg 5 0x4000) (fun t => t.pair 0 == 0x20000000) = true ∧
    after (.macqw 4 5 0) ((base.setReg 4 0x8000).setReg 5 0x8000) (fun t => t.pair 0 == 0x7FFFFFFF) = true := by
  decide

/-- DA36, DA37. -/
theorem test_macuw :
    after (.macuw 4 5 0) (((base.setPair 0 0x20000).setReg 4 0xFFFF).setReg 5 0xFFFF)
      (fun t => t.pair 0 == 0xFFFFFFFF) = true ∧
    after (.macuw 4 5 0) (((base.setPair 0 1).setReg 4 2).setReg 5 3) (fun t => t.pair 0 == 7) = true := by
  decide

/-- DA34, DA35. -/
theorem test_macsw :
    after (.macsw 4 5 0) (((base.setPair 0 0x7FFF0000).setReg 4 0x7FFF).setReg 5 0x7FFF)
      (fun t => t.pair 0 == 0x7FFFFFFF) = true ∧
    after (.macsw 4 5 0) (((base.setPair 0 5).setReg 4 0xFFFF).setReg 5 2) (fun t => t.pair 0 == 3) = true := by
  decide

/-- DC4, DC6. -/
theorem test_cmpb :
    after (.cmpb (.reg 1) 0) ((base.setReg 1 0x80).setReg 0 0x7F) (fun t => flagsZNL false false true t) = true ∧
    after (.cmpb (.imm4 9) 0) (base.setReg 0 0x12FF) (fun t => flagsZNL true false false t) = true := by
  decide

/-- DC1, DC3. -/
theorem test_cmpw :
    after (.cmpw (.imm4 5) 0) (base.setReg 0 3) (fun t => flagsZNL false true true t) = true ∧
    after (.cmpw (.imm4 5) 0) (base.setReg 0 0x8000) (fun t => flagsZNL false true false t) = true := by
  decide

/-- DC9, DC10. -/
theorem test_cmpd :
    after (.cmpd (.pair 2) 0) ((base.setPair 2 0x80000000).setPair 0 0x7FFFFFFF)
      (fun t => flagsZNL false false true t) = true ∧
    after (.cmpd (.imm4 0) 0) (base.setPair 0 0xFFFFFFFF) (fun t => flagsZNL false true false t) = true := by
  decide

/-- L2. -/
theorem test_andb :
    after (.andb (.reg 0) 11) ((base.setReg 0 0x92).setReg 11 0xAA77) (fun t => t.reg 11 == 0xAA12) = true := by
  decide

/-- DL2. -/
theorem test_andw :
    after (.andw (.imm16 0xF0) 1) (base.setReg 1 0x1234) (fun t => t.reg 1 == 0x30) = true := by
  decide

/-- DL3. -/
theorem test_andd :
    after (.andd (.imm32 0x00FFFFFF) 0) (base.setPair 0 0x12345678) (fun t => t.pair 0 == 0x345678) = true := by
  decide

/-- L3. -/
theorem test_orb :
    after (.orb (.reg 5) 7) ((base.setReg 5 0xD8).setReg 7 0xAA0B) (fun t => t.reg 7 == 0xAADB) = true := by
  decide

/-- DL5. -/
theorem test_orw :
    after (.orw (.imm16 0x8000) 0) (base.setReg 0 1) (fun t => t.reg 0 == 0x8001) = true := by
  decide

/-- DL6. -/
theorem test_ord :
    after (.ord (.pair 2) 0) ((base.setPair 2 0x80000001).setPair 0 0x10) (fun t => t.pair 0 == 0x80000011) = true := by
  decide

/-- L4. -/
theorem test_xorb :
    after (.xorb (.reg 1) 2) ((base.setReg 1 0xF0).setReg 2 0xAA95) (fun t => t.reg 2 == 0xAA65) = true := by
  decide

/-- DL7. -/
theorem test_xorw :
    after (.xorw (.imm4 9) 3) (base.setReg 3 0xFF) (fun t => t.reg 3 == 0xFF00) = true := by
  decide

/-- DL9. -/
theorem test_xord :
    after (.xord (.imm32 0xFFFFFFFF) 0) (base.setPair 0 0x12345678) (fun t => t.pair 0 == 0xEDCBA987) = true := by
  decide

/-- With every flag 0 the conditions NE, CC, LS, LE, FC, LO, LT of R40 hold. -/
theorem test_scond_clear :
    ([(Instr.seq 1, 0), (.sne 1, 1), (.scs 1, 0), (.scc 1, 1), (.shi 1, 0), (.sls 1, 1), (.sgt 1, 0), (.sle 1, 1),
      (.sfs 1, 0), (.sfc 1, 1), (.slo 1, 1), (.shs 1, 0), (.slt 1, 1), (.sge 1, 0), (.scond .always 1, 1)].all
    (fun x => after x.1 (psr 0 (base.setReg 1 0xABCD)) (fun t => t.reg 1 == x.2))) = true := by
  decide

/-- With C, L, F, Z, N 1 the others hold. -/
theorem test_scond_set :
    ([(Instr.seq 1, 1), (.sne 1, 0), (.scs 1, 1), (.scc 1, 0), (.shi 1, 1), (.sls 1, 0), (.sgt 1, 1), (.sle 1, 0),
      (.sfs 1, 1), (.sfc 1, 0), (.slo 1, 0), (.shs 1, 1), (.slt 1, 0), (.sge 1, 1), (.scond .uc 1, 1)].all
    (fun x => after x.1 (psr 0x00E5 (base.setReg 1 0xABCD)) (fun t => t.reg 1 == x.2))) = true := by
  decide

/-- DH1, DH2. -/
theorem test_ashub :
    after (.ashub (.left 7) 0) (base.setReg 0 0xAB01) (fun t => t.reg 0 == 0xAB80) = true ∧
    after (.ashub (.right 1) 0) (base.setReg 0 0xAB80) (fun t => t.reg 0 == 0xABFF) = true := by
  decide

/-- DH5, DH9. -/
theorem test_ashuw :
    after (.ashuw (.right 12) 1) (base.setReg 1 0x8010) (fun t => t.reg 1 == 0xF801) = true ∧
    after (.ashuw (.reg 2) 0) ((base.setReg 2 0xA5F1).setReg 0 0x4000) (fun t => t.reg 0 == 0) = true := by
  decide

/-- DH12, DH13. -/
theorem test_ashud :
    after (.ashud (.right 24) 0) (base.setPair 0 0x80001200) (fun t => t.pair 0 == 0xFF800012) = true ∧
    after (.ashud (.left 31) 0) (base.setPair 0 1) (fun t => t.pair 0 == 0x80000000) = true := by
  decide

/-- DH17, H3. -/
theorem test_lshb :
    after (.lshb (.right 7) 0) (base.setReg 0 0xAB81) (fun t => t.reg 0 == 0xAB40) = true ∧
    after (.lshb (.reg 5) 7) ((base.setReg 5 0xFF).setReg 7 0xFE) (fun t => t.reg 7 == 0x7F) = true := by
  decide

/-- DH20, DH21. -/
theorem test_lshw :
    after (.lshw (.right 12) 1) (base.setReg 1 0x8010) (fun t => t.reg 1 == 0x0801) = true ∧
    after (.lshw (.reg 2) 1) ((base.setReg 2 3).setReg 1 0x1001) (fun t => t.reg 1 == 0x8008) = true := by
  decide

/-- DH23, DH25. -/
theorem test_lshd :
    after (.lshd (.right 24) 0) (base.setPair 0 0x80001200) (fun t => t.pair 0 == 0x00800012) = true ∧
    after (.lshd (.reg 2) 0) ((base.setPair 0 1).setReg 2 31) (fun t => t.pair 0 == 0x80000000) = true := by
  decide

/-- DH10, DH16, DH3: out of range only the destination is open (R289). -/
theorem test_shift_open :
    after (.ashuw (.reg 2) 0) ((psr 0x02E5 base).setReg 2 16)
      (fun t => t.psr == psrOfWord 0x02E5 && t.reg 2 == 16 && t.pc == 0x1002) = true ∧
    after (.ashud (.reg 2) 0) (base.setReg 2 32) (fun t => t.reg 2 == 32 && t.pc == 0x1002) = true := by
  decide

/-- DB1: bit 7; B1: disp20(reg). -/
theorem test_cbitb :
    after (.cbitb 7 (.pair0 0)) (byte 0x2000 0xFF (base.setPair 0 0x2000))
      (fun t => t.mem.byte 0x2000 == 0x7F && t.psr.f) = true ∧
    after (.cbitb 5 (.disp20Reg 1 0x00009)) (byte 0x2009 0x7F (base.setReg 1 0x2000))
      (fun t => t.mem.byte 0x2009 == 0x5F && t.psr.f) = true := by
  decide

/-- B2. -/
theorem test_cbitw :
    after (.cbitw 8 (.disp20Reg 8 0)) (word 0x2004 0xF5E7 (base.setReg 8 0x2004))
      (fun t => t.mem.word 0x2004 == 0xF4E7 && t.psr.f) = true := by
  decide

/-- B5, DB6: abs20 above 0xEFFFF is remapped. -/
theorem test_sbitb :
    after (.sbitb 3 (.abs20 0x30002)) (byte 0x30002 0x91 base)
      (fun t => t.mem.byte 0x30002 == 0x99 && !t.psr.f) = true ∧
    after (.sbitb 3 (.abs20 0xFFC10)) (base) (fun t => t.mem.byte 0xFFFC10 == 8) = true := by
  decide

/-- DB3, DB4: an odd address. -/
theorem test_sbitw :
    after (.sbitw 15 (.pair0 0)) (base.setPair 0 0x2000)
      (fun t => t.mem.byte 0x2001 == 0x80 && t.mem.byte 0x2000 == 0) = true ∧
    after (.sbitw 9 (.pair0 0)) (base.setPair 0 0x2001) (fun t => t.mem.byte 0x2002 == 2 && !t.psr.f) = true := by
  decide

/-- DB5. -/
theorem test_tbitb :
    after (.tbitb 2 (.disp16 0 0x10)) (byte 0x2010 4 (base.setPair 0 0x2000))
      (fun t => t.psr.f && t.pc == 0x1004) = true := by
  decide

/-- B9, DB7. -/
theorem test_tbitw :
    after (.tbitw 5 (.abs20 0x30002)) (word 0x30002 0x20 base) (fun t => t.psr.f) = true ∧
    after (.tbitw 0 (.abs24 0xFF0000)) (word 0xFF0000 1 base) (fun t => t.psr.f) = true := by
  decide

/-- DB9, B6. -/
theorem test_tbit :
    after (.tbit true 2 1) ((base.setReg 2 15).setReg 1 0x8000) (fun t => t.psr.f) = true ∧
    after (.tbit false 3 1) (base.setReg 1 8) (fun t => t.psr.f) = true := by
  decide

/-- DP1: U stays; DP3: reserved bits of CFG are ignored. -/
theorem test_lpr :
    after (.lpr 0 9) ((psr 0x0200 base).setReg 0 0xFFFF) (fun t => psrWord t.psr 0 == 0x0EE7) = true ∧
    after (.lpr 0 8) (base.setReg 0 0x033C) (fun t => cfgWord t.cfg 0 == 0x033C) = true := by
  decide

/-- DP6; USP takes 24 bits (R327, R331; log entry 44). -/
theorem test_lprd :
    after (.lprd 0 12) (base.setPair 0 0x12345679) (fun t => t.isp == 0x345678) = true ∧
    after (.lprd 0 14) (base.setPair 0 0x12345679) (fun t => t.regs.usp == 0x345679) = true := by
  decide

/-- P3. -/
theorem test_spr :
    after (.spr 11 1) ({ base with intbase := 0x20100 }) (fun t => t.reg 1 == 2) = true := by
  decide

/-- DP13. -/
theorem test_sprd :
    after (.sprd 12 0) ({ base with isp := 0x345678 }) (fun t => t.pair 0 == 0x345678) = true := by
  decide

/-- In user mode LPR takes UND (R328): the handler of vector 10 at 0x114, U cleared. -/
theorem test_lpr_user :
    after (.lpr 0 9) (word 0x114 0x0300 ((psr 0x0208 base).setReg 0 0xFFFF))
      (fun t => t.pc == 0x600 && !t.psr.u) = true := by
  decide

/-- With every flag 0 the conditions NE, CC, LS, LE, FC, LO, LT of R40 hold. -/
theorem test_bcond_clear :
    ([(Instr.beq (.disp9 8), 0x1002), (.bne (.disp9 8), 0x1010), (.bcs (.disp9 8), 0x1002), (.bcc (.disp9 8), 0x1010),
      (.bhi (.disp9 8), 0x1002), (.bls (.disp9 8), 0x1010), (.bgt (.disp9 8), 0x1002), (.ble (.disp9 8), 0x1010),
      (.bfs (.disp9 8), 0x1002), (.bfc (.disp9 8), 0x1010), (.blo (.disp9 8), 0x1010), (.bhs (.disp9 8), 0x1002),
      (.blt (.disp9 8), 0x1010), (.bge (.disp9 8), 0x1002), (.br (.disp9 8), 0x1010)].all
    (fun x => after x.1 (psr 0 base) (fun t => t.pc == x.2))) = true := by
  decide

/-- With C, L, F, Z, N 1 the others hold; DJ2: a negative displacement; DJ4: bit 16 stored in bit 0. -/
theorem test_bcond_set :
    ([(Instr.beq (.disp9 0x81), 0x0F02), (.bne (.disp17 8), 0x1004), (.bcs (.disp9 8), 0x1010), (.bcc (.disp9 8), 0x1002),
      (.bhi (.disp9 8), 0x1010), (.bls (.disp9 8), 0x1002), (.bgt (.disp9 8), 0x1010), (.ble (.disp9 8), 0x1002),
      (.bfs (.disp9 8), 0x1010), (.bfc (.disp9 8), 0x1002), (.blo (.disp9 8), 0x1002), (.bhs (.disp9 8), 0x1010),
      (.blt (.disp9 8), 0x1002), (.bge (.disp9 8), 0x1010), (.bcond .uc (.disp17 0xFF80), 0x0F00)].all
    (fun x => after x.1 (psr 0x00E5 base) (fun t => t.pc == x.2))) = true := by
  decide

/-- DJ9, DJ8: the address space is left. -/
theorem test_br :
    after (.br (.disp25 0xFFFFFE)) (base) (fun t => t.pc == 0xFFC && !t.iadPending) = true ∧
    after (.br (.disp25 0x800000)) (base) (fun t => t.iadPending) = true := by
  decide

/-- J6, DJ12: with CFG.SR = 1 the link is the pair of RA and R13. -/
theorem test_bal :
    after (.bal .implied 0x0007B6) ({ base with pc := 0x9098 })
      (fun t => t.regs.ra == 0x484E && t.pc == 0xA004) = true ∧
    after (.bal .implied 0x10) (short ((base.setWide 13 0xAAAABBBB).setWide 14 0xCCCCDDDD))
      (fun t => t.regs.r13 == 0xAAAA0802 && t.regs.ra == 0xCCCC0000) = true := by
  decide

/-- DJ14: the low byte alone. -/
theorem test_beq0b :
    after (.beq0b 1 15) (base.setReg 1 0x100) (fun t => t.pc == 0x1020) = true := by
  decide

/-- DJ15. -/
theorem test_beq0w :
    after (.beq0w 2 1) (base.setReg 2 0x100) (fun t => t.pc == 0x1002) = true := by
  decide

/-- The low byte 0 (R354). -/
theorem test_bne0b :
    after (.bne0b 0 15) (base.setReg 0 0x100) (fun t => t.pc == 0x1002) = true := by
  decide

/-- A word that is not 0 (R356). -/
theorem test_bne0w :
    after (.bne0w 1 0) (base.setReg 1 0x100) (fun t => t.pc == 0x1002) = true ∧
    after (.bne0w 1 3) (base.setReg 1 0x100) (fun t => t.pc == 0x1008) = true := by
  decide

/-- With every flag 0 the conditions NE, CC, LS, LE, FC, LO, LT of R40 hold. -/
theorem test_jcond_clear :
    ([(Instr.jeq 3, 0x1002), (.jne 3, 0x182008), (.jcs 3, 0x1002), (.jcc 3, 0x182008), (.jhi 3, 0x1002),
      (.jls 3, 0x182008), (.jgt 3, 0x1002), (.jle 3, 0x182008), (.jfs 3, 0x1002), (.jfc 3, 0x182008),
      (.jlo 3, 0x182008), (.jhs 3, 0x1002), (.jlt 3, 0x182008), (.jge 3, 0x1002), (.jcond .eq 3, 0x1002)].all
    (fun x => after x.1 (psr 0 (base.setPair 3 0xC1004)) (fun t => t.pc == x.2))) = true := by
  decide

/-- With C, L, F, Z, N 1 the others hold; the pair is that of J8. -/
theorem test_jcond_set :
    ([(Instr.jeq 3, 0x182008), (.jne 3, 0x1002), (.jcs 3, 0x182008), (.jcc 3, 0x1002), (.jhi 3, 0x182008),
      (.jls 3, 0x1002), (.jgt 3, 0x182008), (.jle 3, 0x1002), (.jfs 3, 0x182008), (.jfc 3, 0x1002),
      (.jlo 3, 0x1002), (.jhs 3, 0x182008), (.jlt 3, 0x1002), (.jge 3, 0x182008), (.jcond .eq 3, 0x182008)].all
    (fun x => after x.1 (psr 0x00E5 (base.setPair 3 0xC1004)) (fun t => t.pc == x.2))) = true := by
  decide

/-- DJ19: bits above 22 of the pair are not used. -/
theorem test_jump :
    after (.jump 14) (base.setWide 14 0xFF800085) (fun t => t.pc == 0x10A) = true := by
  decide

/-- DJ20. -/
theorem test_jusr :
    after (.jusr 3) (base.setPair 3 0xC1004) (fun t => t.pc == 0x182008 && t.psr.u) = true := by
  decide

/-- J10, DJ21. -/
theorem test_jal :
    after (.jal .implied 3) (base.setPair 3 0x21004) (fun t => t.regs.ra == 0x801 && t.pc == 0x42008) = true ∧
    after (.jal (.pair 2) 0) (base.setPair 0 0x400) (fun t => t.pair 2 == 0x802 && t.pc == 0x800) = true := by
  decide

/-- DJ22: vector 5 is SVC, another number UND; an ISP of 0 leaves no room for the frame. -/
theorem test_excp :
    after (.excp 5) (word 0x10A 0x0400 (psr 0x0E0A base))
      (fun t => t.pc == 0x800 && psrWord t.psr 0 == 0x0A00) = true ∧
    after (.excp 0) (word 0x114 0x0300 base) (fun t => t.pc == 0x600 && t.iadPending) = true := by
  decide

/-- J12. -/
theorem test_retx :
    after (.retx) (word 0x1000 0x9004 (word 0x1002 9 (word 0x1004 0x0845 { base with isp := 0x1000 })))
      (fun t => t.pc == 0x132008 && psrWord t.psr 0 == 0x0845 && t.isp == 0x1006) = true := by
  decide

/-- J13; a stack pointer above the space leaves IAD pending though every word is stored inside (R92). -/
theorem test_push :
    after (.push false 2 5) ((((base.setReg 5 0x2F50).setReg 6 0x107E).setReg 7 0x35ED).setWide 15 0x1006)
      (fun t => t.regs.sp == 0x1000 && t.mem.word 0x1000 == 0x2F50 && t.mem.word 0x1004 == 0x35ED) = true ∧
    after (.push false 0 5) ((base.setReg 5 0x2F50).setWide 15 0x01000000)
      (fun t => t.regs.sp == 0x00FFFFFE && t.mem.word 0xFFFFFE == 0x2F50 && t.iadPending) = true := by
  decide

/-- J14; DJ28: with CFG.SR = 0 a count of 2 from R13 fills both its halves. -/
theorem test_pop :
    after (.pop false 2 3) (word 0x1004 0x35EC (word 0x1002 0x107E (word 0x1000 0x2F50 (base.setWide 15 0x1000))))
      (fun t => t.reg 3 == 0x2F50 && t.reg 4 == 0x107E && t.reg 5 == 0x35EC && t.regs.sp == 0x1006) = true ∧
    after (.pop false 1 13) (word 0xFFC 0x5678 (word 0xFFE 0x1234 (base.setWide 15 0xFFC)))
      (fun t => t.regs.r13 == 0x12345678 && t.regs.sp == 0x1000) = true := by
  decide

/-- J15: eight words from R8 on and RA; the return address is that popped (R365). -/
theorem test_popret :
    after (.popret true 7 8) (word 0x309FA 1 (word 0x309FC 2 (word 0x309FE 3 (word 0x30A00 0x2F50 (word 0x30A02 0x107E
      (word 0x30A04 0x35EC (word 0x30A06 3 (word 0x30A08 0x35EC (word 0x30A0A 0x43 (base.setWide 15 0x309F8))))))))))
      (fun t => t.reg 8 == 0 && t.reg 11 == 3 && t.regs.r12 == 0x107E2F50 && t.regs.r13 == 0x335EC &&
        t.regs.ra == 0x4335EC && t.pc == 0x866BD8 && t.regs.sp == 0x30A0C) = true := by
  decide

/-- S1: bits 15:8 stay. -/
theorem test_loadb :
    after (.loadb (.disp20Reg 5 9) 7) (byte 0x2009 0x17 ((base.setReg 5 0x2000).setReg 7 0xABCD))
      (fun t => t.reg 7 == 0xAB17) = true := by
  decide

/-- S2, S4. -/
theorem test_loadw :
    after (.loadw (.abs20 0x632) 9) (word 0x632 0x98 base) (fun t => t.reg 9 == 0x98) = true ∧
    after (.loadw (.disp20Reg 4 0x30000) 7) (word 0x30002 0xAA55 (base.setReg 4 2))
      (fun t => t.reg 7 == 0xAA55) = true := by
  decide

/-- S6: disp4 counts in words. -/
theorem test_loadd :
    after (.loadd (.disp4 4 2) 6) (word 0x2006 0x1234 (word 0x2004 0x5678 (base.setPair 4 0x2000)))
      (fun t => t.pair 6 == 0x12345678) = true := by
  decide

/-- S12; a store below address 0 writes nothing and leaves IAD pending (R91). -/
theorem test_storb :
    after (.storb 3 (.disp20Reg 5 9)) ((base.setReg 3 0xAA55).setReg 5 0x2000)
      (fun t => t.mem.byte 0x2009 == 0x55 && t.mem.byte 0x200A == 0) = true ∧
    after (.storb 3 (.negDisp20Reg 5 0xFFFFF)) (base.setReg 3 0xAA55)
      (fun t => t.iadPending && t.mem == base.mem) = true := by
  decide

/-- S9. -/
theorem test_storw :
    after (.storw 0 (.abs20 0x09120)) (base.setReg 0 0x5678)
      (fun t => t.mem.byte 0x9120 == 0x78 && t.mem.byte 0x9121 == 0x56) = true := by
  decide

/-- S16. -/
theorem test_stord :
    after (.stord 12 (.abs20 0x09120)) (base.setWide 12 0x12345678)
      (fun t => t.mem.word 0x9120 == 0x5678 && t.mem.word 0x9122 == 0x1234) = true := by
  decide

/-- R406: one byte. -/
theorem test_storbImm :
    after (.storbImm 5 (.abs20 0x09120)) (word 0x9120 0xFFFF base) (fun t => t.mem.word 0x9120 == 0xFF05) = true := by
  decide

/-- S13, S14. -/
theorem test_storwImm :
    after (.storwImm 5 (.abs20 0x09120)) (word 0x9120 0xFFFF base) (fun t => t.mem.word 0x9120 == 5) = true ∧
    after (.storwImm 7 (.disp20Reg 1 4)) (base.setReg 1 0x2000) (fun t => t.mem.word 0x2004 == 7) = true := by
  decide

/-- Two words to R2 and R3; R0 moves on by 4 (R398, R408). -/
theorem test_loadm :
    after (.loadm 1) (word 0x2002 0x2222 (word 0x2000 0x1111 (base.setReg 0 0x2000)))
      (fun t => t.reg 2 == 0x1111 && t.reg 3 == 0x2222 && t.reg 0 == 0x2004) = true := by
  decide

/-- The fifth word goes to R8 (R398, R409). -/
theorem test_loadmp :
    after (.loadmp 4) (word 0x20000 0x5555 (base.setPair 0 0x1FFF8))
      (fun t => t.reg 8 == 0x5555 && t.pair 0 == 0x20002) = true := by
  decide

/-- S17. -/
theorem test_storm :
    after (.storm 2) ((((base.setReg 1 0x1000).setReg 2 0x2F50).setReg 3 0x107E).setReg 4 0x35EC)
      (fun t => t.reg 1 == 0x1006 && t.mem.word 0x1000 == 0x2F50 && t.mem.word 0x1004 == 0x35EC) = true := by
  decide

/-- The pointer is the pair of R7 and R6 (R411). -/
theorem test_stormp :
    after (.stormp 0) ((base.setPair 6 0x12000).setReg 2 0xBEEF)
      (fun t => t.mem.word 0x12000 == 0xBEEF && t.pair 6 == 0x12002) = true := by
  decide

/-- A chip with an instruction cache that holds an old content, and, where lines may be locked, one that a locked
line may hold. -/
def cached (locked : Bool) : State :=
  { base with
    config := { base.config with icachePresent := true }, cfg := { base.cfg with ic := true }
    stale :=
      { prefetch := [], icache := [(0x1000, 5)], icacheLocked := if locked then [(0x1002, 6)] else []
        locked := locked, fresh := [] } }

/-- X1: nothing visible without a cache; with one, U spares the locked lines and drops every other (R450). -/
theorem test_cinv :
    after (.cinv .iu) (base) (fun t => t == { base with pc := 0x1002 }) = true ∧
    after (.cinv .diu) (cached true) (fun t => t.stale == ⟨[(0x1000, 5)], [], [(0x1002, 6)], true, []⟩) = true ∧
    after (.cinv .i) (cached true) (fun t => t.stale == ⟨[(0x1000, 5), (0x1002, 6)], [], [], false, []⟩) = true := by
  decide

/-- A byte that a locked line may hold is overwritten, with CFG.LIC 0, and then again (R35, R112): the content between
is in no locked line. -/
theorem test_locked_line_keeps_first :
    after (.storbImm 5 (.abs20 0x2000)) (byte 0x2000 7 (cached true)) (fun t =>
      t.stale.icacheLocked.contains (0x2000, 7) && !t.stale.icache.contains (0x2000, 7) &&
        after (.storbImm 6 (.abs20 0x2000)) t (fun u =>
          u.stale.icache.contains (0x2000, 5) && !u.stale.icacheLocked.contains (0x2000, 5))) = true := by
  decide

/-- X3. -/
theorem test_di :
    after (.di) (psr 0x0A00 base) (fun t => psrWord t.psr 0 == 0x0800) = true := by
  decide

/-- X4. -/
theorem test_ei :
    after (.ei) (psr 0x0800 base) (fun t => psrWord t.psr 0 == 0x0A00) = true := by
  decide

/-- X5. -/
theorem test_eiwait :
    after (.eiwait) (psr 0x0800 base) (fun t => psrWord t.psr 0 == 0x0A00 && t.waiting) = true := by
  decide

/-- X6. -/
theorem test_wait :
    after (.wait) (base) (fun t => t.waiting && t.pc == 0x1002) = true := by
  decide

/-- X7. -/
theorem test_nop :
    after (.nop) ((psr 0x0AE5 base).setReg 0 0x1234)
      (fun t => t.reg 0 == 0x1234 && t.psr == psrOfWord 0x0AE5 && t.pc == 0x1002) = true := by
  decide

/-- R456: UND. -/
theorem test_resUnd :
    after (.resUnd 0xFFFF 0) (word 0x114 0x0300 base) (fun t => t.pc == 0x600) = true := by
  decide

/-- R457: 4 bytes under 0x0014, 6 under 0x0010. -/
theorem test_resNop :
    after (.resNop 0x0014 5) (base) (fun t => t.pc == 0x1004) = true ∧
    after (.resNop 0x0010 1) (base) (fun t => t.pc == 0x1006) = true := by
  decide

/-! ### Memory that is not RAM, debug events, open bits -/

/-- A chip with read-only memory at 0x2000..0x20FF and a device at 0x2100..0x21FF. -/
def platform (s : State) : State :=
  { s with config := { s.config with regions := [⟨0x2000, 0x20FF, .rom⟩, ⟨0x2100, 0x21FF, .device⟩] } }

/-- Read-only memory answers and holds no store; a device holds none either (D28; log entry 39). -/
theorem test_platform :
    after (.storw 3 (.abs20 0x20FE)) (platform (word 0x20FE 0x1234 (base.setReg 3 0xAA55)))
      (fun t => t.mem.word 0x20FE == 0x1234 && !t.iadPending) = true ∧
    after (.loadw (.abs20 0x20FE) 3) (platform (word 0x20FE 0x1234 base)) (fun t => t.reg 3 == 0x1234) = true ∧
    after (.storw 3 (.abs20 0x21FF)) (platform (base.setReg 3 0xAA55))
      (fun t => t.mem.byte 0x21FF == 0 && t.mem.byte 0x2200 == 0xAA) = true := by
  decide

/-- A debug bank with DCRL and the two compare addresses. -/
def bank (dcrl : Word) (a b : Addr) : DebugBank := { DebugBank.reset with dcrl := dcrl, car0 := a, car1 := b }

/-- Base with debug bank 0. -/
def watching (b : DebugBank) : State := { base with dbg := { base.dbg with bank0 := b } }

/-- A word read at 0xFFFFFF is illegal and still seen at its lowest address (R562, D38). -/
theorem test_straddling_access :
    after (.loadw (.abs24 0xFFFFFF) 3) (watching (bank 0x00C0 0xFFFFFF 0))
      (fun t => t.dbg.pending && t.dbg.bank0.dsr == 0x04 && t.iadPending) = true := by
  decide

/-- Of DBS and DSR the bits 7:2 and 15:7 are open, and bit 3 of the DSR of another bank than 0; the others are not
(I3, R41, R325). -/
theorem test_spr_debug :
    let s : State := { base with dbg := { base.dbg with bank0 := { base.dbg.bank0 with dsr := 0x5D } } }
    let s1 : State := { base with
      config := { base.config with lastBank := 1 }, dbg := { base.dbg with bank := 1, bank1 := { base.dbg.bank1 with dsr := 0x55 } } }
    (∃ v : BitVec 9, s.prRead16 1 = v ++ (5 : BitVec 3) ++ (1 : BitVec 1) ++ (5 : BitVec 3)) ∧
      (∃ (v : BitVec 9) (x : BitVec 1), s1.prRead16 1 = v ++ (5 : BitVec 3) ++ x ++ (5 : BitVec 3)) ∧
      ∃ v : BitVec 6, s.prRead16 0 = (0x03 : BitVec 8) ++ v ++ (0 : BitVec 2) :=
  ⟨⟨_, rfl⟩, ⟨_, _, rfl⟩, _, rfl⟩

/-- A reserved escape of three words at 0xFFFFFC is cut off: IAD, vector 12, not UND (R537). -/
theorem test_reserved_cut :
    steps (code [0x0018, 0x6000] (word 0x118 0x0700 (word 0x114 0x0300 { base with pc := 0xFFFFFC })))
      (fun t => t.pc == 0xE00) = true := by
  decide

/-! ### Every statement with hypotheses has a state and operands that meet them -/

theorem steps_next {s : State} {p : State → Bool} (h : steps s p = true) : ∃ t : State, step s = .next t ∧ p t = true := by
  unfold steps at h
  cases hs : step s with
  | next t => exact ⟨t, rfl, by rw [hs] at h; exact h⟩
  | fault e => rw [hs] at h; exact absurd h Bool.false_ne_true
  | refused e => rw [hs] at h; exact absurd h Bool.false_ne_true

theorem after_next {i : Instr} {s : State} {p : State → Bool} (h : after i s p = true) :
    ∃ t : State, exec i s = .next t ∧ p t = true := by
  unfold after at h
  cases hs : exec i s with
  | next t => exact ⟨t, rfl, by rw [hs] at h; exact h⟩
  | fault e => rw [hs] at h; exact absurd h Bool.false_ne_true
  | refused e => rw [hs] at h; exact absurd h Bool.false_ne_true

/-- Base with one register, in user mode. -/
def user : State := psr 0x0008 base

theorem witness_DecodeEncode : Instr.wf (.storb 15 (.disp16 14 0xFFFF)) = true ∧ Instr.wf (.beq (.disp9 0x7F)) = true := by
  decide

theorem witness_DecodeReads :
    decodeWords [0x0018, 0x4FFF, 0xFFFF] = .ok (.loadb (.negDisp20Reg 15 0xFFFFF) 15) ∧ decodeWords [0x0003] = .ok .retx := by
  decide

theorem witness_ResetInputEvent :
    let s := input { Inputs.idle with reset := true } (code [0x0AF3] base)
    s.pc.getLsbD 0 = false ∧ s.nextInputs.reset = true ∧ s.config.hwDebugModule = false := by decide

theorem undebugged_base : Undebugged base := by unfold Undebugged; decide

theorem witness_StepRunsDecoded :
    let s := code [0x5B06] base
    Quiet s ∧ CodeKnown s ∧ decodeWords s.codeWords = .ok (.movw (.reg 0) 6) := by
  unfold Quiet Calm CodeKnown
  exact ⟨⟨⟨by decide, by decide, by decide, by decide, by decide, by decide, by decide, undebugged_base⟩, by decide⟩,
    by decide, by decide⟩

theorem witness_StepRunsDecoded_cut :
    let s := code [0x0014] { base with pc := 0xFFFFFE }
    Quiet s ∧ CodeKnown s ∧ ∃ e, decodeWords s.codeWords = .error e := by
  unfold Quiet Calm CodeKnown
  exact ⟨⟨⟨by decide, by decide, by decide, by decide, by decide, by decide, by decide, undebugged_base⟩, by decide⟩,
    by decide, _, rfl⟩

/-- A step that overwrites a byte, STORB $5 at 0x2000, leaves its old content to be fetched. -/
theorem witness_FetchSeesMemory :
    let s := byte 0x2000 7 (code [0x81C0, 0x2000] base)
    s.stale.olds = [] ∧ (∀ k : Nat, k < 6 → s.isDevice (s.pc.toNat + k) = false) ∧
      ∃ t : State, step s = .next t ∧ t.mem.byte 0x2000 ≠ s.mem.byte 0x2000 ∧ (0x2000, 7) ∈ t.stale.olds := by
  intro s
  obtain ⟨t, h, hp⟩ := steps_next (s := s) (p := fun t =>
    t.mem.byte 0x2000 != s.mem.byte 0x2000 && t.stale.olds.contains (0x2000, 7)) (by decide)
  simp only [Bool.and_eq_true, bne_iff_ne, ne_eq, List.contains_iff_mem] at hp
  exact ⟨by decide, by decide, t, h, hp⟩

/-- The same step with the instruction cache on: the content may be in a locked line, or in none. -/
theorem witness_FetchSeesMemory_cached (l : Bool) :
    let s := byte 0x2000 7 (code [0x81C0, 0x2000] (cached l))
    s.icacheOn = true ∧ s.stale.mayLock 0x2000 = l ∧ s.cfg.lic = false ∧
      ∃ t : State, step s = .next t ∧ t.mem.byte 0x2000 ≠ s.mem.byte 0x2000 := by
  intro s
  obtain ⟨t, h, hp⟩ := steps_next (s := s) (p := fun t => t.mem.byte 0x2000 != s.mem.byte 0x2000)
    (by cases l <;> decide)
  simp only [bne_iff_ne, ne_eq] at hp
  exact ⟨by cases l <;> decide, by cases l <;> decide, by cases l <;> decide, t, h, hp⟩

theorem witness_SerializingInstructions :
    ∃ t1 t2 t3 t4 : State, exec (.lpr 0 9) base = .next t1 ∧ exec (.lprd 0 12) base = .next t2 ∧
      exec .retx base = .next t3 ∧ exec (.excp 5) base = .next t4 := ⟨_, _, _, _, rfl, rfl, rfl, rfl⟩

theorem inv_code : State.Inv (code [0x5B06] base) := by unfold State.Inv; decide

theorem witness_StepKeepsInvariant :
    ∃ t : State, State.Inv (code [0x5B06] base) ∧ step (code [0x5B06] base) = .next t := by
  obtain ⟨t, h, -⟩ := steps_next (s := code [0x5B06] base) (p := fun _ => true) (by decide)
  exact ⟨t, inv_code, h⟩

theorem witness_StepKeepsChip : ∃ t : State, step (code [0x5B06] base) = .next t := by
  obtain ⟨t, h, -⟩ := steps_next (s := code [0x5B06] base) (p := fun _ => true) (by decide)
  exact ⟨t, h⟩

theorem witness_UserModeEntered :
    ∃ t : State, (code [0x0AF3] base).psr.u = false ∧ step (code [0x0AF3] base) = .next t ∧ t.psr.u = true := by
  obtain ⟨t, h, hp⟩ := steps_next (s := code [0x0AF3] base) (p := fun t => t.psr.u) (by decide)
  exact ⟨t, by decide, h, hp⟩

theorem witness_UserModeKeepsSystem :
    ∃ t : State, (code [0x5A1F] user).psr.u = true ∧ (code [0x5A1F] user).nextInputs.reset = false ∧
      step (code [0x5A1F] user) = .next t := by
  obtain ⟨t, h, -⟩ := steps_next (s := code [0x5A1F] user) (p := fun _ => true) (by decide)
  exact ⟨t, by decide, by decide, h⟩

theorem witness_StatusBitWriters :
    (∃ t : State, exec .nop base = .next t ∧ setsZNL .nop = false ∧ setsC .nop = false ∧ setsF .nop = false ∧
      setsE .nop = false ∧ setsI .nop = false ∧ traps .nop base = false ∧ setsT .nop = false ∧
      entersUser .nop = false) ∧
    (∃ t : State, exec (.excp 5) user = .next t ∧ traps (.excp 5) user = true) ∧
    (∃ t : State, exec (.lpr 0 9) user = .next t ∧ traps (.lpr 0 9) user = true ∧ traps (.lpr 0 9) base = false) :=
  ⟨⟨_, rfl, by decide⟩, ⟨_, rfl, by decide⟩, ⟨_, rfl, by decide⟩⟩

theorem witness_DebugLockHolds :
    let s := code [0x0014, 0x1020] { base with dbg := { base.dbg with ctl := { base.dbg.ctl with dbgl := true, adbg := true } } }
    ∃ t : State, s.dbg.ctl.dbgl = true ∧ s.nextInputs.reset = false ∧ step s = .next t := by
  intro s
  obtain ⟨t, h, -⟩ := steps_next (s := s) (p := fun _ => true) (by decide)
  exact ⟨t, by decide, by decide, h⟩

/-- Just enough room for the frame, for the PSR alone, and for neither; an entry that clears I, and one that does
not. -/
theorem witness_EntryFrame :
    Addressable ((6 : Addr).toNat - 6 : Int) 4 ∧ (6 : Addr).toNat - 6 + 5 < 2 ^ 24 ∧ base.isRam 5 = true ∧
      ¬ Addressable ((4 : Addr).toNat - 6 : Int) 4 ∧ Addressable ((4 : Addr).toNat - 6 + 4 : Int) 2 ∧
      ((0 : Addr).toNat - 6 + 4 : Int) < 0 ∧ (platform base).isRam 0x2100 = false ∧ Undebugged { base with isp := 6 } ∧
      (psr 0x0A00 base).psr.i = true ∧ Exc.und ≠ .nmi ∧ Exc.und ≠ .dbg := by
  refine ⟨?_, by decide, by decide, ?_, ?_, by decide, by decide, undebugged_base, by decide, by decide, by decide⟩ <;>
    unfold Addressable <;> decide

/-- The alternate entry of ISE; with and without CFG.ED the last entry that ends at the top of memory and the first
that does not; a frame with and without room. -/
theorem witness_EntryDispatch :
    (Exc.ise, 15) ∈ [(Exc.nmi, 1), (.svc, 5), (.dvz, 6), (.flg, 7), (.bpt, 8), (.trc, 9), (.und, 10), (.iad, 12),
      (.dbg, 14), (.ise, 15)] ∧
    (∃ b : Byte, Exc.int 127 = .int b ∧ 127 = b.toNat) ∧
    ({ base with dbg := { base.dbg with ctl := { base.dbg.ctl with aise := true } } } : State).dbg.ctl.aise = true ∧
    base.dbg.ctl.aise = false ∧
    (let s : State := { base with intbase := 0xFFFFC0, cfg := { base.cfg with ed := true } }
     s.cfg.ed = true ∧ s.intbase.toNat + 4 * 15 + 4 ≤ 2 ^ 24 ∧ 2 ^ 24 < s.intbase.toNat + 2 + 4 * 15 + 4) ∧
    (let s : State := { base with intbase := 0xFFFFE0 }
     s.cfg.ed = false ∧ s.intbase.toNat + 2 * 15 + 2 ≤ 2 ^ 24 ∧ 2 ^ 24 < s.intbase.toNat + 2 + 2 * 15 + 2) ∧
    ¬ (6 : Addr).toNat < 6 ∧ (4 : Addr).toNat < 6 :=
  ⟨by decide, ⟨127, rfl, rfl⟩, by decide⟩

theorem witness_EntryThenReturn :
    let s : State := { base with isp := 6 }
    6 ≤ s.isp.toNat ∧ (0xFFFFFE : Addr).getLsbD 0 = false ∧ s.config.hwDebugModule = false ∧
      ∀ k : Nat, k < 6 → s.isRam (s.isp.toNat - 6 + k) = true := by decide

theorem witness_PendingTrapsFirst :
    (let s : State := { base with dbg := { base.dbg with pending := true }, iadPending := true }
     s.pc.getLsbD 0 = false ∧ s.nextInputs.reset = false ∧ s.maskedRange = false ∧ s.dbg.pending = true ∧
       s.config.hwDebugModule = false) ∧
    (let s : State := input { Inputs.idle with extIad := true } { base with config := { base.config with extIad := true } }
     s.pc.getLsbD 0 = false ∧ s.nextInputs.reset = false ∧ s.maskedRange = false ∧ s.dbg.pending = false ∧
       (s.iadPending || (s.config.extIad && s.nextInputs.extIad)) = true) := by decide

/-- The base, whatever of NMI, INT, ISE is asked, and with any PSR. -/
theorem calm_input (v : Word) (n i e : Bool) (a : Byte) :
    Calm (input ⟨false, n, i, e, false, false, a⟩ (psr v base)) :=
  ⟨(by decide : (0x1000 : Addr).getLsbD 0 = false), rfl, rfl, rfl, rfl, rfl, rfl, undebugged_base⟩

theorem witness_InterruptsAccepted_nmi :
    let s := input ⟨false, true, true, true, false, false, 0⟩ (psr 0x0A00 base)
    Calm s ∧ s.nextInputs.nmi = true := ⟨calm_input _ _ _ _ _, by decide⟩

/-- The acknowledge bytes 16 and 127 are vectors, 15 and 128 are not. -/
theorem witness_InterruptsAccepted_int :
    let s (a : Byte) := input ⟨false, false, true, true, false, false, a⟩ (psr 0x0A00 base)
    (∀ a : Byte, Calm (s a)) ∧ (s 16).nextInputs.nmi = false ∧ (s 16).nextInputs.int = true ∧ (s 16).psr.i = true ∧
      (s 16).psr.e = true ∧ 16 ≤ (s 16).nextInputs.ack.toNat ∧ (s 127).nextInputs.ack.toNat ≤ 127 ∧
      (s 15).nextInputs.ack.toNat < 16 ∧ 127 < (s 128).nextInputs.ack.toNat :=
  ⟨fun _ => calm_input _ _ _ _ _, by decide⟩

theorem witness_InterruptsAccepted_ise :
    let s := input ⟨false, false, true, true, false, false, 16⟩ (psr 0x0800 base)
    Calm s ∧ s.nextInputs.nmi = false ∧ s.psr.e = false ∧ s.nextInputs.ise = true := ⟨calm_input _ _ _ _ _, by decide⟩

theorem witness_InterruptEnable :
    base.psr.i = false ∧ (psr 0x0800 base).psr.e = false ∧ (psr 0x0800 base).eLag = none := by decide

theorem witness_InterruptEnable_lag :
    let s : State := { input ⟨false, false, true, false, false, false, 16⟩ (psr 0x0A00 base) with eLag := some false }
    s.eLag = some false ∧ Calm { s with eLag := none } ∧ s.nextInputs.nmi = false ∧ s.nextInputs.int = true ∧
      s.psr.i = true ∧ 16 ≤ s.nextInputs.ack.toNat ∧ s.nextInputs.ack.toNat ≤ 127 :=
  ⟨rfl, calm_input _ _ _ _ _, by decide⟩

theorem witness_WaitAndTrace :
    Calm { base with waiting := true } ∧ ({ base with waiting := true } : State).waiting = true ∧
      Calm (psr 0x0400 base) ∧ (psr 0x0400 base).waiting = false ∧ (psr 0x0400 base).psr.p = true ∧
      (psr 0x0400 base).config.hwDebugModule = false ∧ base.nextInputs.nmi = false ∧ base.nextInputs.int = false ∧
      base.nextInputs.ise = false :=
  ⟨⟨rfl, rfl, rfl, rfl, rfl, rfl, rfl, undebugged_base⟩, rfl, ⟨rfl, rfl, rfl, rfl, rfl, rfl, rfl, undebugged_base⟩,
    by decide⟩

/-- A hit of each kind: channel 0 on writes of the eight bytes at the top of memory, channel 1 on reads there, a
range that ends there, a complex breakpoint armed; and one not armed, which does not hit. -/
theorem witness_DataBreakpoint :
    base.config.hwDebugModule = false ∧ (watching (bank 0x00A3 0xFFFFF8 0)).maskedRange = false ∧
      (watching (bank 0x00A4 0xFFFFF0 0xFFFFFF)).maskedRange = false ∧
      base.ea 1 (.abs24 0xFFFFFF) = some 0xFFFFFF ∧ base.ea 2 (.abs24 0xFFFFFF) = some 0xFFFFFF ∧
      base.eaBit (.abs24 0xFFFFFF) = some 0xFFFFFF ∧
      (bank 0x00A3 0xFFFFF8 0).Hit ((bank 0x00A3 0xFFFFF8 0).OnData true) 0xFFFFFF false ∧
      (bank 0xC300 0 0xFFFFF8).Hit ((bank 0xC300 0 0xFFFFF8).OnData false) 0xFFFFFF true ∧
      (bank 0x00A4 0xFFFFF0 0xFFFFFF).Hit ((bank 0x00A4 0xFFFFF0 0xFFFFFF).OnData true) 0xFFFFFF false ∧
      ({ bank 0xA400 0 9 with seqArmed := true } : DebugBank).Hit ((bank 0xA400 0 9).OnData true) 9 true ∧
      ¬ (bank 0xA400 0 9).AnyHit ((bank 0xA400 0 9).OnData true) 9 := by
  refine ⟨rfl, by decide, by decide, rfl, rfl, rfl, ?_, ?_, ?_, ?_, ?_⟩ <;>
    simp only [DebugBank.AnyHit, DebugBank.Hit, DebugBank.OnData, DebugBank.At] <;> decide

/-- The other clauses of DataBreakpoint: of a word at an odd address bit 7 is in the byte there and bit 8 in the next,
here past the top of memory, of one at an even address both are at that address; the longest list of PUSH with RA at
a stack pointer of 0, the shortest transfer; RETX; the entries with and without an acknowledge read, and the last
vector of an interrupt. -/
theorem witness_DataBreakpoint_lists :
    (let bit (a : Int) (b : BitVec 4) : Int := if a % 2 = 0 then a else a + b.toNat / 8
     base.eaBit (.abs24 0xFFFFFE) = some 0xFFFFFE ∧ bit 0xFFFFFF 7 = 0xFFFFFF ∧ bit 0xFFFFFF 8 = 0x1000000 ∧
       bit 0xFFFFFE 7 = 0xFFFFFE ∧ bit 0xFFFFFE 8 = 0xFFFFFE) ∧
    (stackValid base.cfg.sr 7 8 = true ∧ (stackSlots base.cfg.sr true 7 8).length = 10 ∧ (base.pair 15).toNat = 0 ∧
      stackValid base.cfg.sr 0 8 = true ∧ (stackSlots base.cfg.sr false 0 8).length = 1) ∧
    wordAccesses (base.reg 1).toNat 1 true = [(0, true)] ∧ (∃ t : State, exec .retx base = .next t) ∧
    (let s (b : Bool) : State := { base with dbg := { base.dbg with ctl := { base.dbg.ctl with adbg := b } } }
     ∀ b : Bool, (s b).dbg.ctl.adbg = b ∧ (s b).config.hwDebugModule = false ∧ (s b).maskedRange = false) ∧
    (∃ b : Byte, Exc.int 127 = .int b ∧ 127 = b.toNat) :=
  ⟨by decide, by decide, by decide, ⟨_, rfl⟩, by decide, ⟨127, rfl, rfl⟩⟩

/-- TBITW at an odd address, the write of SBITB, the words of STORM, and the frame and the dispatch table of an entry
are each seen by an enabled channel (R309, R562). -/
theorem test_accesses_seen :
    after (.tbitw 8 (.abs24 0x2001)) (watching (bank 0x00C0 0x2002 0))
      (fun t => t.dbg.pending && t.dbg.bank0.dsr == 0x04) = true ∧
    after (.sbitb 0 (.abs24 0x2001)) (watching (bank 0x00A0 0x2001 0))
      (fun t => t.dbg.pending && t.dbg.bank0.dsr == 0x02) = true ∧
    after (.storm 1) ((watching (bank 0x00A0 0x2002 0)).setReg 1 0x2000)
      (fun t => t.dbg.pending && t.dbg.bank0.dsr == 0x02) = true ∧
    after (.excp 5) (watching (bank 0x00C0 0x010A 0)) (fun t => t.dbg.pending && t.dbg.bank0.dsr == 0x04) = true := by
  decide

/-- A hit at the PC with two low bits masked; a range of one address. -/
theorem witness_PcBreakpoint :
    AtTagCheck (watching (bank 0x0092 0x1003 0)) ∧ Tagged (watching (bank 0x0092 0x1003 0)) ∧
      AtTagCheck (watching (bank 0x0094 0x1000 0x1000)) ∧ Tagged (watching (bank 0x0094 0x1000 0x1000)) := by
  refine ⟨?_, .inl ⟨0, by decide, rfl, ?_⟩, ?_, .inl ⟨0, by decide, rfl, ?_⟩⟩ <;>
    simp only [AtTagCheck, DebugBank.AnyHit, DebugBank.Hit, DebugBank.OnPc, DebugBank.At] <;> decide

/-- With ESQ the second condition at the PC tags when the sequencer is armed, and not before (R565). -/
theorem witness_PcBreakpoint_armed :
    AtTagCheck (watching { bank 0x9400 0 0x1000 with seqArmed := true }) ∧
      Tagged (watching { bank 0x9400 0 0x1000 with seqArmed := true }) ∧
      AtTagCheck (watching (bank 0x9400 0 0x1000)) ∧ ¬ Tagged (watching (bank 0x9400 0 0x1000)) := by
  refine ⟨?_, .inl ⟨0, by decide, rfl, ?_⟩, ?_, ?_⟩ <;>
    simp only [AtTagCheck, Tagged, DebugBank.AnyHit, DebugBank.Hit, DebugBank.OnPc, DebugBank.At] <;> decide

/-- The external line with EFB tags. -/
theorem witness_PcBreakpoint_external :
    let s := input { Inputs.idle with brkl := true } { base with dbg := { base.dbg with ctl := { base.dbg.ctl with efb := true } } }
    AtTagCheck s ∧ Tagged s := by
  unfold AtTagCheck
  exact ⟨by decide, .inr (by decide)⟩

/-- A mask set at the instruction it stopped: nothing tags, and the hit uses it up. -/
theorem witness_PcBreakpoint_mask :
    let s := code [0x5B06] (watching { bank 0x1090 0x1000 0 with bpMask := true })
    AtTagCheck s ∧ ¬ Tagged s ∧ s.nextInputs.nmi = false ∧ s.nextInputs.int = false ∧ s.nextInputs.ise = false ∧
      s.psr.p = false ∧ s.eLag = none ∧ CodeKnown s ∧ decodeWords s.codeWords = .ok (.movw (.reg 0) 6) ∧
      (s.dbg.get 0).AnyHit (s.dbg.get 0).OnPc s.pc.toNat := by
  simp only [AtTagCheck, Tagged, CodeKnown, DebugBank.AnyHit, DebugBank.Hit, DebugBank.OnPc, DebugBank.At]
  refine ⟨by decide, by decide, ?_⟩
  decide

theorem witness_RegisterPairs : (11 : PairNum) ≤ 11 ∧ base.cfg.sr = false ∧ (short base).cfg.sr = true := by decide

theorem witness_OperandValues : (8 : BitVec 4) ≠ 9 ∧ (10 : BitVec 4) ≠ 9 := by decide

theorem witness_EffectiveAddresses : base.cfg.sr = false := by decide

theorem witness_StackLists : stackValid false 7 10 = true ∧ stackValid false 6 11 = true ∧ stackValid false 1 14 = true := by
  decide

theorem witness_MultiplyAccumulates :
    base.config.macPresent = true ∧
      ({ base with config := { base.config with macPresent := false } } : State).config.macPresent = false := by decide

theorem witness_ConditionalSets :
    (Instr.sge 15, Cond.ge) ∈ [(Instr.seq 15, Cond.eq), (.sne 15, .ne), (.scs 15, .cs), (.scc 15, .cc), (.shi 15, .hi), (.sls 15, .ls),
      (.sgt 15, .gt), (.sle 15, .le), (.sfs 15, .fs), (.sfc 15, .fc), (.slo 15, .lo), (.shs 15, .hs),
      (.slt 15, .lt), (.sge 15, .ge)] ∧ CondHolds .ge (psr 0x0040 base).psr ∧
      ¬ CondHolds .ge base.psr := by
  unfold CondHolds
  decide

/-- The greatest and the least legal count of each width, from a register and from the field. -/
theorem witness_ShiftsInRange :
    let s := ((base.setReg 1 0xA5F9).setReg 2 0xF1).setReg 3 0xE1
    s.count (w := 3) (.left 7) = 7 ∧ s.count (w := 3) (.reg 1) = -7 ∧ s.count (w := 4) (.left 15) = 15 ∧
      s.count (w := 4) (.reg 2) = -15 ∧ s.count (w := 5) (.left 31) = 31 ∧ s.count (w := 5) (.reg 3) = -31 ∧
      s.rightCount (w := 3) (.right 1) = -7 ∧ s.rightCount (w := 4) (.right 1) = -15 ∧
      s.rightCount (w := 5) (.right 1) = -31 := by decide

/-- The first counts past the legal range, from a register and from the field. -/
theorem witness_ShiftsOutOfRange :
    let s := ((base.setReg 1 0xA508).setReg 2 0x10).setReg 3 0x20
    s.count (w := 3) (.right 0) = -8 ∧ s.count (w := 3) (.reg 1) = 8 ∧ s.count (w := 4) (.right 0) = -16 ∧
      s.count (w := 4) (.reg 2) = 16 ∧ s.count (w := 5) (.right 0) = -32 ∧ s.count (w := 5) (.reg 3) = 32 ∧
      s.rightCount (w := 3) (.right 0) = -8 ∧ s.rightCount (w := 4) (.reg 2) = 16 ∧
      s.rightCount (w := 5) (.right 0) = -32 := by decide

/-- The last byte of memory; bit 8 of the word there lies outside; read-only memory. -/
theorem witness_MemoryBitChanges :
    base.eaBit (.abs24 0xFFFFFF) = some 0xFFFFFF ∧ Addressable 0xFFFFFF 1 ∧
      ¬ Addressable (0xFFFFFF + (8 : BitVec 4).toNat / 8) 1 ∧ base.isRam 0xFFFFFF = true ∧
      base.isDevice 0xFFFFFF = false ∧ (platform base).isRam 0x20FF = false ∧ (platform base).isDevice 0x20FF = false := by
  refine ⟨rfl, ?_⟩
  unfold Addressable
  decide

theorem witness_BitTests :
    base.eaBit (.abs24 0xFFFFFF) = some 0xFFFFFF ∧ Addressable 0xFFFFFF 1 ∧ base.isDevice 0xFFFFFF = false ∧
      ((base.setReg 2 15).reg 2).toNat ≤ 15 ∧ ¬ ((base.setReg 2 16).reg 2).toNat ≤ 15 := by
  refine ⟨rfl, ?_⟩
  unfold Addressable
  decide

/-- A number of each kind; CFG.IC cleared. -/
theorem witness_LoadsProcessorRegister :
    base.psr.u = false ∧ (9 : ProcRegNum) ∈ [(0 : ProcRegNum), 1, 8, 9] ∧
      (14 : ProcRegNum) ∈ [(2 : ProcRegNum), 4, 6, 10, 12, 14] ∧ (15 : ProcRegNum) ∈ [(3 : ProcRegNum), 5, 7, 11, 13, 15] ∧
      (cached true).psr.u = false ∧ (cached true).cfg.ic = true ∧ ((cached true).reg 0).getLsbD 4 = false ∧
      ((cached true).pair 0).getLsbD 4 = false := by
  decide

/-- The frame below ISP 6, which is RAM. -/
theorem witness_PrivilegedLoads :
    ({ user with isp := 6 } : State).psr.u = true ∧ Addressable ((6 : Addr).toNat - 6 : Int) 4 ∧
      ({ user with isp := 6 } : State).isRam 3 = true ∧
      Instr.lprd 0 9 ∈ [Instr.lpr 0 9, .lprd 0 9] := by
  unfold Addressable
  decide

theorem witness_StoresProcessorRegister :
    (0 : ProcRegNum) ∈ [(0 : ProcRegNum), 1, 8, 9] ∧ (2 : ProcRegNum) ∈ [(2 : ProcRegNum), 4, 6, 10, 12, 14] ∧
      base.config.hwDebugModule = false ∧ base.dbg.bank ≤ base.config.lastBank ∧ base.dbg.bank = 0 := by decide

theorem witness_Branches :
    (Instr.br (.disp9 8), Cond.always) ∈ [(Instr.beq (.disp9 8), Cond.eq), (.bne (.disp9 8), .ne), (.bcs (.disp9 8), .cs), (.bcc (.disp9 8), .cc),
      (.bhi (.disp9 8), .hi), (.bls (.disp9 8), .ls), (.bgt (.disp9 8), .gt), (.ble (.disp9 8), .le),
      (.bfs (.disp9 8), .fs), (.bfc (.disp9 8), .fc), (.blo (.disp9 8), .lo), (.bhs (.disp9 8), .hs),
      (.blt (.disp9 8), .lt), (.bge (.disp9 8), .ge), (.br (.disp9 8), .always)] ∧
      CondHolds .always base.psr ∧ ¬ CondHolds .eq base.psr := by
  unfold CondHolds
  decide

/-- The low byte 0 with a high byte that is not: BEQ0B is taken, BEQ0W is not. -/
theorem witness_CompareBranches :
    let s := base.setReg 1 0x0100
    (True ↔ (s.reg 1).toNat % 256 = 0) ∧ (False ↔ (s.reg 1).toNat = 0) ∧ (False ↔ (s.reg 1).toNat % 256 ≠ 0) ∧
      (True ↔ (s.reg 1).toNat ≠ 0) := by decide

theorem witness_RegisterJumps :
    (Instr.jump 3, Cond.always) ∈ [(Instr.jeq 3, Cond.eq), (.jne 3, .ne), (.jcs 3, .cs), (.jcc 3, .cc), (.jhi 3, .hi), (.jls 3, .ls),
      (.jgt 3, .gt), (.jle 3, .le), (.jfs 3, .fs), (.jfc 3, .fc), (.jlo 3, .lo), (.jhs 3, .hs), (.jlt 3, .lt),
      (.jge 3, .ge), (.jump 3, .always)] ∧ Cond.ge ≠ .uc ∧
      Instr.jcond .uc 3 = .jcond .uc 3 := by decide

theorem witness_Links :
    (Link.implied = .implied ∧ (13 : PairNum) = if (short base).cfg.sr then 13 else 14) ∧
      ((14 : PairNum) = if base.cfg.sr then 13 else 14) ∧ Link.pair 15 = .pair 15 := by decide

theorem witness_TrapInstructions :
    base.config.hwDebugModule = false ∧
      ({ base with config := { base.config with hwDebugModule := true } } : State).config.hwDebugModule = true ∧
      (4 : BitVec 4) ≠ 5 ∧ (9 : BitVec 4) ≠ 8 := by decide

/-- The frame that ends at the top of memory, and one that does not fit. -/
theorem witness_ReturnFromException :
    Addressable (0xFFFFFA : Addr).toNat 4 ∧ Addressable ((0xFFFFFA : Addr).toNat + 4) 2 ∧ base.isDevice 0xFFFFFF = false ∧
      2 ^ 24 < ({ base with isp := 0xFFFFFC } : State).isp.toNat + 6 ∧ Undebugged { base with isp := 0xFFFFFA } := by
  refine ⟨?_, ?_, by decide, by decide, undebugged_base⟩ <;> unfold Addressable <;> decide

/-- The longest lists, a stack that ends at address 0, one that would go below it, and a stack pointer just above the
space with its one word inside. -/
theorem witness_Pushes :
    stackValid base.cfg.sr 7 10 = true ∧ stackValid (short base).cfg.sr 7 7 = true ∧ Addressable (2 - 2 * 1) (2 * 1) ∧
      ¬ Addressable (0 - 2 * 1) (2 * 1) ∧ ((base.setWide 15 0x01000000).pair 15).toNat = 2 ^ 24 ∧
      Addressable (2 ^ 24 - 2 * 1) (2 * 1) := by
  unfold Addressable
  decide

theorem witness_Pops :
    stackValid base.cfg.sr 1 14 = true ∧ stackValid (short base).cfg.sr 0 14 = true ∧ Addressable 0xFFFFFE (2 * 1) ∧
      ¬ Addressable 0xFFFFFE (2 * 2) := by
  unfold Addressable
  decide

/-- The last byte, word and double-word of memory, which is RAM, and an address past it. -/
theorem witness_Loads :
    base.ea 1 (.abs24 0xFFFFFF) = some 0xFFFFFF ∧ base.ea 2 (.abs24 0xFFFFFE) = some 0xFFFFFE ∧
      base.ea 2 (.abs24 0xFFFFFC) = some 0xFFFFFC ∧ Addressable 0xFFFFFF 1 ∧ Addressable 0xFFFFFE 2 ∧
      Addressable 0xFFFFFC 4 ∧ ¬ Addressable 0xFFFFFF 2 ∧ base.isDevice 0xFFFFFF = false ∧
      (platform base).isDevice 0x20FF = false ∧ (platform base).isDevice 0x2100 = true := by
  refine ⟨rfl, rfl, rfl, ?_⟩
  unfold Addressable
  decide

theorem witness_Stores :
    base.ea 1 (.negDisp20Reg 0 0xFFFFF) = some (-1) ∧ ¬ Addressable (-1) 1 ∧ base.eaBit (.pair0 0) = some 0 ∧
      Addressable 0 2 ∧ base.isRam 1 = true ∧ (platform base).isRam 0x20FF = false := by
  refine ⟨rfl, ?_, rfl, ?_, by decide, by decide⟩ <;> unfold Addressable <;> decide

theorem witness_MultipleTransfers : Addressable 0xFFFFFE (2 * 1) ∧ ¬ Addressable 0xFFFFFE (2 * 2) := by
  unfold Addressable
  decide

/-- A chip with an instruction cache, its lines locked and not, and a chip without. -/
theorem witness_Miscellaneous :
    (cached false).config.icachePresent = true ∧ (cached false).stale.locked = false ∧
      (cached true).config.icachePresent = true ∧ (cached true).stale.locked = true ∧
      base.config.icachePresent = false := by decide

/-- Branches taken past both ends, one not taken at the top, and an instruction that ends there. -/
theorem witness_PcLeavesMemory :
    let top : State := { base with pc := 0xFFFFFE }
    let bottom : State := { base with pc := 0 }
    CondHolds .always top.psr ∧ (2 ^ 24 : Int) ≤ top.pc.toNat + branchDisp (.disp9 1) ∧
      (bottom.pc.toNat + branchDisp (.disp9 0xFF) : Int) < 0 ∧ ¬ CondHolds .eq top.psr ∧
      (True ↔ (top.reg 1).toNat % 256 = 0) ∧ (False ↔ (top.reg 1).toNat ≠ 0) ∧ runsOn .nop top = true ∧
      2 ^ 24 ≤ top.pc.toNat + instrBytes .nop ∧ (∃ t : State, exec .nop top = .next t) ∧
      runsOn (.lpr 0 9) top = true ∧ runsOn (.lpr 0 9) user = false := by
  refine ⟨trivial, by decide, by decide, ?_, by decide, by decide, by decide, by decide, ⟨_, rfl⟩, by decide, by decide⟩
  unfold CondHolds
  decide

theorem witness_FormsRefused :
    (short base).cfg.sr = true ∧ stackValid false 7 11 = false ∧ stackValid true 7 8 = false ∧
      refuses (.loadw (.disp20Index 15 0) 3) (short base) .indexFormWithShortRegisters = true ∧
      refuses (.push true 7 11) base .invalidStackList = true := by decide

end Sys2Proof.Tests
end

/-! PROOFS. No operation of the machine writes the parameters of the chip or the list of inputs to come
(spec/00_scope.md R7, spec/60_exceptions.md R503); only the boundary takes a record off that list (R530). The two
fields are kept together as `outside`, every shared operation gets one `simp` lemma, and every instruction and
every boundary check follows from these. -/

namespace Sys2Proof.Proofs

open Sys2Proof.Machine Sys2Proof.Laws

/-- What the machine is given from outside: the parameters of the chip and the inputs to come. -/
def outside (s : State) : Config × List Inputs := (s.config, s.inputs)

theorem outside_eq_iff (s t : State) : outside t = outside s ↔ t.config = s.config ∧ t.inputs = s.inputs :=
  Prod.mk_inj

/-- A next state, where there is one, is given the same from outside. -/
def KeepsOutside (s : State) (r : Result) : Prop := ∀ t : State, r = .next t → outside t = outside s

theorem KeepsOutside.next {s t : State} (h : outside t = outside s) : KeepsOutside s (.next t) := by
  intro u hu
  cases hu
  exact h

theorem KeepsOutside.refused (s : State) (r : Refusal) : KeepsOutside s (.refused r) := by
  intro t ht
  cases ht

/-- Starting from another state makes no difference as long as that one is given the same from outside. -/
theorem KeepsOutside.of_eq {s u : State} {r : Result} (h : KeepsOutside u r) (hu : outside u = outside s) :
    KeepsOutside s r :=
  fun t ht => (h t ht).trans hu

theorem KeepsOutside.ite {s : State} {c : Prop} [Decidable c] {r r' : Result} (h : KeepsOutside s r)
    (h' : KeepsOutside s r') : KeepsOutside s (if c then r else r') := by
  split
  · exact h
  · exact h'

theorem KeepsOutside.withEa {s : State} {f : Int → State} (ea : Option Int) (h : ∀ a, outside (f a) = outside s) :
    KeepsOutside s (withEa ea f) := by
  cases ea with
  | none => exact .refused s _
  | some a => exact .next (h a)

section Operations

variable (s : State)

/-! ### The PC, the PSR, the count of draws, the instruction cache -/

@[simp] theorem outside_drew (k : Nat) : outside (s.drew k) = outside s := rfl
@[simp] theorem outside_setPc (a : Int) : outside (s.setPc a) = outside s := rfl
@[simp] theorem outside_advance (n : Nat) : outside (s.advance n) = outside s := rfl
@[simp] theorem outside_withPsr (p : Psr) : outside { s with psr := p } = outside s := rfl
@[simp] theorem outside_setCF (c f : Bool) : outside (s.setCF c f) = outside s := rfl
@[simp] theorem outside_setF (f : Bool) : outside (s.setF f) = outside s := rfl
@[simp] theorem outside_setE (e : Bool) : outside (s.setE e) = outside s := rfl
@[simp] theorem outside_serialize : outside s.serialize = outside s := rfl
@[simp] theorem outside_dropIcache : outside s.dropIcache = outside s := rfl
@[simp] theorem outside_dropUnlocked : outside s.dropUnlocked = outside s := rfl
@[simp] theorem outside_start : outside s.start = outside s := rfl
@[simp] theorem outside_endLag : outside s.endLag = outside s := rfl
@[simp] theorem outside_resetInput : outside s.resetInput = outside s := rfl

@[simp] theorem outside_drewShift (w : Nat) (c : Int) : outside (s.drewShift w c) = outside s := by
  unfold State.drewShift
  split <;> rfl

/-! ### Registers -/

@[simp] theorem outside_setReg (n : RegNum) (v : Word) : outside (s.setReg n v) = outside s := by
  rw [setReg_eq]
  rfl

@[simp] theorem outside_setRegB (n : RegNum) (v : Byte) : outside (s.setRegB n v) = outside s := outside_setReg s n _

@[simp] theorem outside_setPair (n : PairNum) (v : DWord) : outside (s.setPair n v) = outside s := by
  rw [setPair_eq]
  rfl

@[simp] theorem outside_setIf (c : Bool) (n : RegNum) : outside (s.setIf c n) = outside s := outside_setReg s n _

@[simp] theorem outside_prWrite16 (n : ProcRegNum) (v : Word) : outside (s.prWrite16 n v) = outside s := by
  rw [prWrite16_eq]
  rfl

@[simp] theorem outside_prWrite32 (n : ProcRegNum) (v : DWord) : outside (s.prWrite32 n v) = outside s := by
  unfold State.prWrite32
  split <;> simp

/-! ### Memory -/

@[simp] theorem outside_noteRead (a : Int) (n : Nat) : outside (s.noteRead a n) = outside s := by
  rw [noteRead_spec]
  rfl

@[simp] theorem outside_storeBytes (a : Int) (bs : List Byte) : outside (s.storeBytes a bs) = outside s := by
  rw [storeBytes_spec]
  rfl

@[simp] theorem outside_storeB (a : Int) (v : Byte) : outside (s.storeB a v) = outside s := outside_storeBytes s a _
@[simp] theorem outside_storeW (a : Int) (v : Word) : outside (s.storeW a v) = outside s := outside_storeBytes s a _
@[simp] theorem outside_storeD (a : Int) (v : DWord) : outside (s.storeD a v) = outside s := outside_storeBytes s a _

@[simp] theorem outside_storeWords (a : Int) (ws : List Word) : outside (s.storeWords a ws) = outside s := by
  rw [storeWords_eq]
  rfl

@[simp] theorem outside_loadSlots (a : Int) (xs : List Slot) : outside (s.loadSlots a xs) = outside s := by
  rw [loadSlots_eq]
  rfl

@[simp] theorem outside_popSlots (ra : Bool) (count : BitVec 3) (n : RegNum) :
    outside (s.popSlots ra count n) = outside s := by
  simp [State.popSlots]

@[simp] theorem outside_checkAddress (a : Int) : outside (s.checkAddress a) = outside s := by
  rw [checkAddress_eq]
  rfl

/-! ### Bits in memory -/

@[simp] theorem outside_changeBitB (a : Int) (b : Nat) (x : Bool) : outside (s.changeBitB a b x) = outside s := by
  simp [State.changeBitB]

@[simp] theorem outside_changeBit (a : Int) (pos : BitVec 4) (x : Bool) : outside (s.changeBit a pos x) = outside s := by
  unfold State.changeBit
  simp only
  split
  · simp
  · simp [State.changeBitW]

@[simp] theorem outside_testBitB (a : Int) (b : Nat) : outside (s.testBitB a b) = outside s := by
  simp [State.testBitB]

@[simp] theorem outside_testBit (a : Int) (pos : BitVec 4) : outside (s.testBit a pos) = outside s := by
  unfold State.testBit
  simp only
  split
  · simp
  · simp [State.testBitW]

/-! ### Branches and jumps -/

@[simp] theorem outside_branchIf (c : Bool) (d : BranchDisp) : outside (s.branchIf c d) = outside s := by
  cases c <;> rfl

@[simp] theorem outside_forwardIf (c : Bool) (j : BitVec 4) : outside (s.forwardIf c j) = outside s := by
  cases c <;> rfl

@[simp] theorem outside_jumpIf (c : Bool) (p : PairNum) : outside (s.jumpIf c p) = outside s := by
  cases c <;> rfl

@[simp] theorem outside_jumpUser (p : PairNum) : outside (s.jumpUser p) = outside s := rfl

/-! ### Exceptions -/

@[simp] theorem outside_enter (x : Exc) (ret : Addr) : outside (s.enter x ret) = outside s := by
  rw [enter_eq]
  rfl

@[simp] theorem outside_enterUnd : outside s.enterUnd = outside s := outside_enter s .und s.pc

@[simp] theorem outside_returnFrom : outside s.returnFrom = outside s := by
  unfold outside
  rw [returnFrom_eq]

end Operations

section Instructions

variable (s : State)

/-! ### Instructions with more than one outcome -/

theorem withMac_keepsOutside (dest : PairNum) (v : DWord) : KeepsOutside s (s.withMac dest v) :=
  .ite (.next (by simp)) (.next (by simp))

theorem execTbit_keepsOutside (fromReg : Bool) (offset : BitVec 4) (src : RegNum) :
    KeepsOutside s (execTbit fromReg offset src s) :=
  .ite (.next (by simp)) (.next (by simp))

theorem execLpr_keepsOutside (src : RegNum) (dest : ProcRegNum) : KeepsOutside s (execLpr src dest s) :=
  .ite (.next (by simp)) (.next (by simp))

theorem execLprd_keepsOutside (src : PairNum) (dest : ProcRegNum) : KeepsOutside s (execLprd src dest s) :=
  .ite (.next (by simp)) (.next (by simp))

/-- Condition 15 is JUSR, every other condition a jump that is taken or not (R357). -/
theorem execJcond_keepsOutside (c : Cond) (dest : PairNum) : KeepsOutside s (execJcond c dest s) := by
  unfold execJcond
  split <;> exact .next (by simp)

theorem execExcp_keepsOutside (vector : BitVec 4) : KeepsOutside s (execExcp vector s) := by
  unfold execExcp
  split
  case h_4 => exact .ite (.refused s _) (.next (by simp))
  all_goals exact .next (by simp)

theorem execPush_keepsOutside (ra : Bool) (count : BitVec 3) (src : RegNum) :
    KeepsOutside s (execPush ra count src s) :=
  .ite (.next (by simp)) (.refused s _)

theorem execPop_keepsOutside (ra : Bool) (count : BitVec 3) (dest : RegNum) :
    KeepsOutside s (execPop ra count dest s) :=
  .ite (.next (by simp)) (.refused s _)

theorem execPopret_keepsOutside (ra : Bool) (count : BitVec 3) (dest : RegNum) :
    KeepsOutside s (execPopret ra count dest s) :=
  .ite (.next (outside_popSlots s ra count dest)) (.refused s _)

theorem execCinv_keepsOutside (opts : CacheOpts) : KeepsOutside s (execCinv opts s) := by
  unfold execCinv
  obtain ⟨unlocked, locked⟩ := dropsIcache opts
  refine .next ?_
  rw [outside_advance, apply_ite outside, apply_ite outside]
  simp

/-! ### Every instruction -/

/-- No instruction writes the parameters of the chip or the inputs to come. -/
theorem exec_keepsOutside (i : Instr) : KeepsOutside s (exec i s) := by
  cases i
  case movb | movw | movd | movxb | movxw | movzb | movzw => exact .next (by simp)
  case addb | addw | addd | addub | adduw | addcb | addcw | subb | subw | subd | subcb | subcw | mulb | mulw
      | mulsb | mulsw | muluw => exact .next (by simp)
  case macqw | macuw | macsw => exact withMac_keepsOutside s _ _
  case cmpb | cmpw | cmpd => exact .next (by simp)
  case andb | andw | andd | orb | orw | ord | xorb | xorw | xord => exact .next (by simp)
  case scond | seq | sne | scs | scc | shi | sls | sgt | sle | sfs | sfc | slo | shs | slt | sge =>
    exact .next (outside_setIf s _ _)
  case ashub | ashuw | ashud | lshb | lshw | lshd => exact .next (by simp)
  case cbitb | cbitw | sbitb | sbitw | tbitb | tbitw => exact .withEa _ (by simp)
  case tbit => exact execTbit_keepsOutside s _ _ _
  case lpr => exact execLpr_keepsOutside s _ _
  case lprd => exact execLprd_keepsOutside s _ _
  case spr | sprd => exact .next (by simp)
  case bcond | beq | bne | bcs | bcc | bhi | bls | bgt | ble | bfs | bfc | blo | bhs | blt | bge | br =>
    exact .next (outside_branchIf s _ _)
  case bal => exact .next (by simp)
  case beq0b | beq0w | bne0b | bne0w => exact .next (outside_forwardIf s _ _)
  case jcond => exact execJcond_keepsOutside s _ _
  case jeq | jne | jcs | jcc | jhi | jls | jgt | jle | jfs | jfc | jlo | jhs | jlt | jge | jump =>
    exact .next (outside_jumpIf s _ _)
  case jusr => exact .next (outside_jumpUser s _)
  case jal => exact .next (outside_setPair s _ _)
  case excp => exact execExcp_keepsOutside s _
  case retx => exact .next (outside_returnFrom s)
  case push => exact execPush_keepsOutside s _ _ _
  case pop => exact execPop_keepsOutside s _ _ _
  case popret => exact execPopret_keepsOutside s _ _ _
  case loadb | loadw | loadd | storb | storw | stord | storbImm | storwImm => exact .withEa _ (by simp)
  case loadm | loadmp | storm | stormp => exact .next (by simp)
  case cinv => exact execCinv_keepsOutside s _
  case di | ei | eiwait | wait => exact .next rfl
  case nop => exact .next (by simp)
  case resUnd => exact .next (outside_enterUnd s)
  case resNop => exact .next (outside_advance s _)

end Instructions

section Boundary

variable (s : State)

/-! ### The boundary (R530) -/

theorem runInstr_keepsOutside : KeepsOutside s s.runInstr := by
  unfold State.runInstr
  split
  · exact .next (by simp)
  · exact (exec_keepsOutside _ _).of_eq (by simp)

theorem enterDbg_keepsOutside : KeepsOutside s s.enterDbg :=
  .ite (.refused s _) (.next (by simp))

theorem enterInt_keepsOutside (v : Byte) : KeepsOutside s (s.enterInt v) :=
  .ite (.next (by simp)) (.refused s _)

/-- Lines 4 to 12 of R530. -/
theorem afterChecks_keepsOutside (inp : Inputs) (e : Bool) : KeepsOutside s (s.afterChecks inp e) :=
  have hnmi := KeepsOutside.next (outside_enter s .nmi s.pc)
  have hint := enterInt_keepsOutside s inp.ack
  have hise := KeepsOutside.next (outside_enter s .ise s.pc)
  have hwait := KeepsOutside.next (rfl : outside s = outside s)
  have htrc := KeepsOutside.next (outside_enter s .trc s.pc)
  .ite hnmi (.ite hint (.ite hise (.ite hwait (.ite htrc (runInstr_keepsOutside s)))))

theorem outside_afterTag (inp : Inputs) : outside (s.afterTag inp) = outside s := by
  unfold State.afterTag
  split <;> rfl

/-- Lines 1 to 12 of R530. -/
theorem checks_keepsOutside (inp : Inputs) (e : Bool) : KeepsOutside s (s.checks inp e) := by
  have hpending : outside { s with dbg := { s.dbg with pending := false } } = outside s := rfl
  have hiad : outside { s with iadPending := false } = outside s := rfl
  have htag := outside_afterTag s inp
  exact .ite (.refused s _)
    (.ite ((enterDbg_keepsOutside _).of_eq hpending)
      (.ite (.next ((outside_enter _ .iad s.pc).trans hiad))
        (.ite ((enterDbg_keepsOutside _).of_eq htag) ((afterChecks_keepsOutside _ inp e).of_eq htag))))

/-- Taking the inputs of a boundary uses up their record and leaves the chip (R503). -/
theorem outside_takeInputs : outside s.takeInputs = outside { s with inputs := s.inputs.tail } := by
  unfold State.takeInputs
  simp only
  split <;> rfl

/-- A boundary leaves what is given from outside but for the record of inputs it takes. -/
theorem boundary_keepsOutside : KeepsOutside { s with inputs := s.inputs.tail } s.boundary :=
  .ite (.next (outside_resetInput _))
    ((checks_keepsOutside _ _ _).of_eq ((outside_endLag _).trans (outside_takeInputs s)))

theorem step_keepsOutside : KeepsOutside { s with inputs := s.inputs.tail } (step s) := by
  intro t ht
  unfold step at ht
  split at ht
  · cases ht
  · exact boundary_keepsOutside s t ht

end Boundary

/-- Settles O12: no operation of a step writes either field, and the boundary takes one record off the inputs. -/
theorem stepKeepsChip : Obligations.StepKeepsChip := by
  unfold Obligations.StepKeepsChip
  intro s t h
  exact (outside_eq_iff _ t).1 (step_keepsOutside s t h)

end Sys2Proof.Proofs

/-! PROOFS. What the running program can change, said once (spec/10_state.md R26 to R41, spec/20_memory.md R80 to R91):
every shared operation is a chain of two kinds of change, one that leaves memory and the system's registers (`Local`),
and one byte stored at an address the chain has not stored to before (`Changes.put`). -/

namespace Sys2Proof.Proofs

open Sys2Proof.Machine Sys2Proof.Laws

/-! ### Even addresses (R26) -/

theorem even_iff {n : Nat} (x : BitVec n) : x.getLsbD 0 = false ↔ x.toNat % 2 = 0 := by
  rw [BitVec.getLsbD, Nat.testBit_zero, decide_eq_false_iff_not]
  omega

theorem even_ofInt (a : Int) : (BitVec.ofInt 24 a).getLsbD 0 = false ↔ a % 2 = 0 := by
  rw [even_iff, BitVec.toNat_ofInt]
  omega

theorem even_append_zero {n : Nat} (x : BitVec n) : (x ++ 0#1).getLsbD 0 = false := by
  rw [BitVec.getLsbD_append]
  rfl

theorem even_jumpTarget (v : DWord) : (jumpTarget v).getLsbD 0 = false :=
  even_append_zero _

/-! ### The debug unit (R36 to R41) -/

theorem bank_cases : ∀ b : BitVec 2, b = 0 ∨ b = 1 ∨ b = 2 ∨ b = 3 := by decide

/-- What no comparator writes: DBS.BANK, DCR0 above bit 15 but for EFB, the compare addresses, and bit 3 of the DSR of
a bank other than 0. -/
structure DebugKept (d e : DebugUnit) : Prop where
  bank : e.bank = d.bank
  ctl : e.ctl = { d.ctl with efb := e.ctl.efb }
  car : ∀ b : BitVec 2, (e.get b).car0 = (d.get b).car0 ∧ (e.get b).car1 = (d.get b).car1
  exf : ∀ b : BitVec 2, b ≠ 0 → (e.get b).dsr.getLsbD 3 = (d.get b).dsr.getLsbD 3

theorem DebugKept.refl (d : DebugUnit) : DebugKept d d :=
  ⟨rfl, rfl, fun _ => ⟨rfl, rfl⟩, fun _ _ => rfl⟩

theorem DebugKept.trans {d e f : DebugUnit} (h : DebugKept d e) (h' : DebugKept e f) : DebugKept d f where
  bank := h'.bank.trans h.bank
  ctl := by rw [h'.ctl, h.ctl]
  car b := ⟨(h'.car b).1.trans (h.car b).1, (h'.car b).2.trans (h.car b).2⟩
  exf b hb := (h'.exf b hb).trans (h.exf b hb)

/-- What a comparator's update of one bank leaves. -/
structure BankKept (x y : DebugBank) : Prop where
  car0 : y.car0 = x.car0
  car1 : y.car1 = x.car1
  exf : y.dsr.getLsbD 3 = x.dsr.getLsbD 3

/-- An update of every implemented bank that leaves bit 3 of DSR and the compare addresses; EFB and what is pending may
change with it. -/
theorem debugKept_mapBanks (d : DebugUnit) (last : BitVec 2) (f : DebugBank → DebugBank) (hf : ∀ x, BankKept x (f x))
    (efb pending : Bool) :
    DebugKept d { d.mapBanks last f with ctl := { d.ctl with efb := efb }, pending := pending } := by
  have hb : ∀ b, BankKept (d.get b) ((d.mapBanks last f).get b) := by
    intro b
    rw [mapBanks_get]
    split
    · exact hf _
    · exact ⟨rfl, rfl, rfl⟩
  exact ⟨rfl, rfl, fun b => ⟨(hb b).car0, (hb b).car1⟩, fun b _ => (hb b).exf⟩

/-- The status bits a hit sets are none of them bit 3. -/
theorem bankKept_record (b : DebugBank) (c0 : Bool) (h : Bool × Bool) (bits0 bits1 : BitVec 7)
    (h0 : bits0.getLsbD 3 = false) (h1 : bits1.getLsbD 3 = false) : BankKept b (b.record c0 h bits0 bits1) := by
  have hbit : ∀ (hit : Bool) (bits : BitVec 7), bits.getLsbD 3 = false →
      (if hit then bits else 0).getLsbD 3 = false := by
    intro hit bits hb
    split
    · exact hb
    · rfl
  refine ⟨rfl, rfl, ?_⟩
  change (b.dsr ||| (if h.1 then bits0 else 0) ||| (if h.2 then bits1 else 0)).getLsbD 3 = _
  rw [BitVec.getLsbD_or, BitVec.getLsbD_or, hbit _ _ h0, hbit _ _ h1, Bool.or_false, Bool.or_false]

theorem bankKept_afterData (b : DebugBank) (a : Addr) (write : Bool) : BankKept b (b.afterData a write) := by
  cases write <;> exact bankKept_record b _ _ _ _ rfl rfl

theorem bankKept_afterTag (b : DebugBank) (a : Addr) : BankKept b (b.afterTag a) :=
  have h := bankKept_record b (b.pcHitCh false a) (b.tagHits a) 0x01 0x10 rfl rfl
  ⟨h.car0, h.car1, h.exf⟩

theorem debugKept_afterData (d : DebugUnit) (last : BitVec 2) (a : Addr) (write : Bool) :
    DebugKept d (d.afterData last a write) :=
  debugKept_mapBanks d last _ (fun b => bankKept_afterData b a write) _ _

theorem debugKept_afterStart (d : DebugUnit) (last : BitVec 2) (a : Addr) :
    DebugKept d (d.mapBanks last (fun b => b.afterStart a)) :=
  debugKept_mapBanks d last (fun b => b.afterStart a) (fun _ => ⟨rfl, rfl, rfl⟩) d.ctl.efb d.pending

/-- The external line sets EXF of bank 0 alone (R567). -/
theorem debugKept_afterTag (d : DebugUnit) (last : BitVec 2) (a : Addr) (brkl : Bool) :
    DebugKept d (d.afterTag last a brkl) := by
  have hm : DebugKept d { d.mapBanks last (fun b => b.afterTag a) with
      ctl := { d.ctl with efb := d.ctl.efb && !d.tagHit last a brkl }, pending := d.pending } :=
    debugKept_mapBanks d last _ (fun b => bankKept_afterTag b a) _ _
  refine hm.trans ⟨rfl, rfl, fun b => ?_, fun b hb => ?_⟩
  all_goals
    obtain rfl | rfl | rfl | rfl := bank_cases b
  · change (if _ then _ else _ : DebugBank).car0 = _ ∧ (if _ then _ else _ : DebugBank).car1 = _
    split <;> exact ⟨rfl, rfl⟩
  case refine_1.inr.inl | refine_1.inr.inr.inl | refine_1.inr.inr.inr => exact ⟨rfl, rfl⟩
  case refine_2.inl => exact absurd rfl hb
  all_goals rfl

theorem debugKept_noteAccess (s : State) (a : Int) (write : Bool) : DebugKept s.dbg (s.noteAccess a write).dbg := by
  rw [noteAccess_dbg]
  split
  · exact debugKept_afterData _ _ _ _
  · exact .refl _

/-! ### What the program changes outside memory -/

/-- What the program's own updates leave: the registers only the system writes, PSR.U, and in user mode SP. -/
structure SystemFrame (s t : State) : Prop where
  isp : t.isp = s.isp
  intbase : t.intbase = s.intbase
  cfg : t.cfg = s.cfg
  config : t.config = s.config
  dbg : DebugKept s.dbg t.dbg
  user : t.psr.u = s.psr.u
  sp : s.psr.u = true → t.regs.sp = s.regs.sp
  pc : s.pc.getLsbD 0 = false → t.pc.getLsbD 0 = false

theorem SystemFrame.refl (s : State) : SystemFrame s s :=
  ⟨rfl, rfl, rfl, rfl, .refl _, rfl, fun _ => rfl, fun h => h⟩

theorem SystemFrame.trans {s t u : State} (h : SystemFrame s t) (h' : SystemFrame t u) : SystemFrame s u where
  isp := h'.isp.trans h.isp
  intbase := h'.intbase.trans h.intbase
  cfg := h'.cfg.trans h.cfg
  config := h'.config.trans h.config
  dbg := h.dbg.trans h'.dbg
  user := h'.user.trans h.user
  sp hu := (h'.sp (h.user.trans hu)).trans (h.sp hu)
  pc hp := h'.pc (h.pc hp)

/-- A change that leaves memory too, and what a fetch may see of it. -/
structure Local (s t : State) : Prop extends SystemFrame s t where
  mem : t.mem = s.mem
  stale : t.stale = s.stale

theorem Local.refl (s : State) : Local s s := ⟨.refl s, rfl, rfl⟩

theorem Local.trans {s t u : State} (h : Local s t) (h' : Local t u) : Local s u :=
  ⟨h.toSystemFrame.trans h'.toSystemFrame, h'.mem.trans h.mem, h'.stale.trans h.stale⟩

/-- A change of PSR flags, the PC, the wait state, the pending traps and the model's own fields is local. -/
theorem local_of_fields {s t : State} (h : t = { s with
      pc := t.pc, psr := t.psr, dbg := t.dbg, iadPending := t.iadPending, waiting := t.waiting, eLag := t.eLag,
      inputs := t.inputs, draws := t.draws })
    (hpc : s.pc.getLsbD 0 = false → t.pc.getLsbD 0 = false) (hu : t.psr.u = s.psr.u) (hd : DebugKept s.dbg t.dbg) :
    Local s t := by
  refine ⟨⟨?_, ?_, ?_, ?_, hd, hu, fun _ => ?_, hpc⟩, ?_, ?_⟩ <;> rw [h]

/-- A register write that leaves the stack pointer not in use is local. -/
theorem local_of_regs {s t : State} (h : t = { s with regs := t.regs }) (hi : t.idleSp = s.idleSp) : Local s t := by
  have hpsr : t.psr = s.psr := by rw [h]
  refine ⟨⟨by rw [h], by rw [h], by rw [h], by rw [h], by rw [h]; exact .refl _, by rw [hpsr], fun hu => ?_,
    by rw [h]; exact fun hp => hp⟩, by rw [h], by rw [h]⟩
  simpa only [State.idleSp, hpsr, hu, if_true] using hi

section LocalUpdates

variable (s : State)

theorem local_drew (k : Nat) : Local s (s.drew k) :=
  local_of_fields rfl (fun h => h) rfl (.refl _)

theorem local_setPc {a : Int} (h : s.pc.getLsbD 0 = false → a % 2 = 0) : Local s (s.setPc a) :=
  local_of_fields rfl (fun hp => (even_ofInt a).2 (h hp)) rfl (.refl _)

theorem local_advance {n : Nat} (hn : n % 2 = 0) : Local s (s.advance n) :=
  local_setPc s fun hp => by rw [even_iff] at hp; omega

/-- The PC loaded with an even address. -/
theorem local_withPc {a : Addr} (h : a.getLsbD 0 = false) : Local s { s with pc := a } :=
  local_of_fields rfl (fun _ => h) rfl (.refl _)

theorem local_withPsr {p : Psr} (h : p.u = s.psr.u) : Local s { s with psr := p } :=
  local_of_fields rfl (fun h => h) h (.refl _)

theorem local_setCF (c f : Bool) : Local s (s.setCF c f) := local_withPsr s rfl

theorem local_setF (f : Bool) : Local s (s.setF f) := local_withPsr s rfl

theorem local_setE (e : Bool) : Local s (s.setE e) :=
  local_of_fields rfl (fun h => h) rfl (.refl _)

theorem local_withWaiting (w : Bool) : Local s { s with waiting := w } :=
  local_of_fields rfl (fun h => h) rfl (.refl _)

theorem local_illegal : Local s s.illegal :=
  local_of_fields rfl (fun h => h) rfl (.refl _)

theorem local_checkAddress (a : Int) : Local s (s.checkAddress a) := by
  unfold State.checkAddress
  split
  · exact .refl s
  · exact local_illegal s

theorem local_drewShift (w : Nat) (c : Int) : Local s (s.drewShift w c) := by
  unfold State.drewShift
  split
  · exact local_drew s 1
  · exact .refl s

theorem local_setReg (n : RegNum) (v : Word) : Local s (s.setReg n v) :=
  local_of_regs (setReg_eq s n v) (idleSp_setReg s n v)

theorem local_setPair (n : PairNum) (v : DWord) : Local s (s.setPair n v) :=
  have ⟨_, ⟨_, _, hidle⟩, heq⟩ := setPair_spec s n v
  local_of_regs heq hidle

theorem local_setSlot (x : Slot) (v : Word) : Local s (s.setSlot x v) := by
  unfold State.setSlot
  split
  · exact local_of_regs (setWide_eq s _ _) (idleSp_setWide s _ _)
  · exact local_setReg s _ _

theorem local_noteAccess (a : Int) (write : Bool) : Local s (s.noteAccess a write) :=
  local_of_fields (by rw [noteAccess_eq]) (fun h => by rwa [noteAccess_pc]) (by rw [noteAccess_psr])
    (debugKept_noteAccess s a write)

theorem local_noteRead (a : Int) (n : Nat) : Local s (s.noteRead a n) := by
  unfold State.noteRead
  have h := local_noteAccess s a false
  have h' : Local s (if legal a n then s.noteAccess a false else (s.noteAccess a false).illegal) := by
    split
    · exact h
    · exact h.trans (local_illegal _)
  simp only
  split
  · exact h'
  · exact h'.trans (local_drew _ 1)

theorem local_loadSlots (xs : List Slot) : ∀ (s : State) (a : Int), Local s (s.loadSlots a xs) := by
  induction xs with
  | nil => exact fun s _ => .refl s
  | cons x rest ih =>
    exact fun s a => ((local_noteRead s a 2).trans (local_setSlot _ x _)).trans (ih _ (a + 2))

theorem local_testBitB (a : Int) (b : Nat) : Local s (s.testBitB a b) :=
  (local_noteRead s a 1).trans (local_setF _ _)

theorem local_testBit (a : Int) (pos : BitVec 4) : Local s (s.testBit a pos) := by
  unfold State.testBit
  simp only
  split
  · exact local_testBitB s _ _
  · exact (local_noteRead s _ 2).trans (local_setF _ _)

theorem local_popSlots (ra : Bool) (count : BitVec 3) (n : RegNum) : Local s (s.popSlots ra count n) :=
  (local_loadSlots _ s _).trans (local_setPair _ 15 _)

/-! ### Branches and jumps: every target is even (R345, R346) -/

theorem branchBytes_even (d : BranchDisp) : branchBytes d % 2 = 0 := by
  cases d <;> simp [branchBytes]

theorem branchDisp_even (d : BranchDisp) : branchDisp d % 2 = 0 := by
  cases d <;> simp [branchDisp]

theorem local_branchIf (taken : Bool) (d : BranchDisp) : Local s (s.branchIf taken d) := by
  have hd := branchDisp_even d
  cases taken
  · exact local_advance s (branchBytes_even d)
  · exact local_setPc s fun hp => by rw [even_iff] at hp; omega

theorem local_forwardIf (taken : Bool) (j : BitVec 4) : Local s (s.forwardIf taken j) := by
  cases taken
  · exact local_advance s rfl
  · exact local_setPc s fun hp => by rw [even_iff] at hp; omega

theorem local_jumpIf (taken : Bool) (p : PairNum) : Local s (s.jumpIf taken p) := by
  cases taken
  · exact local_advance s rfl
  · exact local_withPc s (even_jumpTarget _)

end LocalUpdates

end Sys2Proof.Proofs

/-! PROOFS. What an instruction can do, said once: `exec_ran` walks over the instructions, and every fact about a step
of the machine that follows is read off the few forms of `Ran`. -/

namespace Sys2Proof.Proofs

open Sys2Proof.Machine Sys2Proof.Laws

/-! ### Changes of memory (R85, R86) -/

/-- A chain of local changes and of single bytes stored, none of them twice; every address stored to lies in `W`. -/
inductive Changes (s : State) : Set Nat → State → Prop
  | refl : Changes s ∅ s
  | update {W : Set Nat} {u t : State} (h : Changes s W u) (hl : Local u t) : Changes s W t
  | put {W : Set Nat} {u : State} (h : Changes s W u) (a : Nat) (b : Byte) (ha : a < 2 ^ 24) (hw : a ∉ W) :
      Changes s (insert a W) (u.putByte a b)
  | mono {W W' : Set Nat} {u : State} (h : Changes s W u) (hw : W ⊆ W') : Changes s W' u

section Stores

variable {s : State}

theorem Changes.putBytes (bs : List Byte) : ∀ {W : Set Nat} {u : State} (a : Nat), Changes s W u →
    a + bs.length ≤ 2 ^ 24 → (∀ x ∈ W, x < a ∨ a + bs.length ≤ x) →
    Changes s (W ∪ {x | a ≤ x ∧ x < a + bs.length}) (u.putBytes a bs) := by
  induction bs with
  | nil => exact fun a h _ _ => h.mono Set.subset_union_left
  | cons b rest ih =>
    intro W u a h ha hw
    simp only [List.length_cons] at ha hw ⊢
    have hput : Changes s (insert a W) (u.putByte a b) := h.put a b (by omega) fun hx => by
      have := hw a hx
      omega
    refine (ih (a + 1) hput (by omega) ?_).mono ?_
    · rintro x (rfl | hx)
      · omega
      · have := hw x hx
        omega
    · rintro x ((rfl | hx) | ⟨h1, h2⟩)
      · exact .inr ⟨le_rfl, by omega⟩
      · exact .inl hx
      · exact .inr ⟨by omega, by omega⟩

/-- One access that stores, away from what was stored before (R85, R91). -/
theorem Changes.storeBytes {W : Set Nat} {u : State} (h : Changes s W u) (a : Int) (bs : List Byte)
    (hw : ∀ x ∈ W, (x : Int) < a ∨ a + bs.length ≤ x) :
    Changes s (W ∪ {x | a ≤ x ∧ (x : Int) < a + bs.length}) (u.storeBytes a bs) := by
  have hn : Changes s W (u.noteAccess a true) := h.update (local_noteAccess u a true)
  unfold State.storeBytes
  simp only
  split
  · rename_i hl
    obtain ⟨h0, h1⟩ := (legal_iff _ _).1 hl
    refine (Changes.putBytes bs a.toNat hn (by omega) fun x hx => ?_).mono ?_
    · have := hw x hx
      omega
    · rintro x (hx | ⟨h2, h3⟩)
      · exact .inl hx
      · exact .inr ⟨by omega, by omega⟩
  · exact (hn.update (local_illegal _)).mono Set.subset_union_left

/-- Words stored ascending, above what was stored before (R87). -/
theorem Changes.storeWords (ws : List Word) : ∀ {W : Set Nat} {u : State} (a : Int), Changes s W u →
    (∀ x ∈ W, (x : Int) < a) → Changes s (W ∪ {x | a ≤ x}) (u.storeWords a ws) := by
  induction ws with
  | nil => exact fun a h _ => h.mono Set.subset_union_left
  | cons w rest ih =>
    intro W u a h hw
    have hstore : Changes s (W ∪ {x | a ≤ x ∧ (x : Int) < a + 2}) (u.storeW a w) :=
      h.storeBytes a (wordBytes w) fun x hx => .inl (hw x hx)
    refine (ih (a + 2) hstore ?_).mono ?_
    · rintro x (hx | ⟨_, h2⟩)
      · have := hw x hx
        omega
      · exact h2
    · rintro x ((hx | ⟨h1, _⟩) | hx)
      · exact .inl hx
      · exact .inr h1
      · have h2 : a + 2 ≤ (x : Int) := hx
        exact .inr (show a ≤ (x : Int) by omega)

/-- The first access of an instruction that stores. -/
theorem Changes.store {u : State} (h : Changes s ∅ u) (a : Int) (bs : List Byte) :
    ∃ W, Changes s W (u.storeBytes a bs) :=
  ⟨_, h.storeBytes a bs fun _ hx => hx.elim⟩

theorem Changes.changeBitB (a : Int) (b : Nat) (x : Bool) : ∃ W, Changes s W (s.changeBitB a b x) :=
  (Changes.refl.update ((local_noteRead s a 1).trans (local_setF _ _))).store a _

theorem Changes.changeBit (a : Int) (pos : BitVec 4) (x : Bool) : ∃ W, Changes s W (s.changeBit a pos x) := by
  unfold State.changeBit
  simp only
  split
  · exact Changes.changeBitB _ _ x
  · exact (Changes.refl.update ((local_noteRead s _ 2).trans (local_setF _ _))).store _ _

end Stores

/-! ### The forms of an instruction's effect -/

/-- The writes of processor registers that one LPR or LPRD makes: of two writes neither is of CFG (R326, R327). -/
inductive Control (s : State) : State → Prop
  | none : Control s s
  | one (n : ProcRegNum) (v : Word) : Control s (s.prWrite16 n v)
  | two (n : ProcRegNum) (v v' : Word) (hn : n ≠ 8) (hn' : n + 1 ≠ 8) :
      Control s ((s.prWrite16 n v).prWrite16 (n + 1) v')

/-- The state an instruction run in `s` answers. -/
inductive Ran (s : State) : State → Prop
  /-- Registers and memory change. -/
  | runs {W : Set Nat} {t : State} (h : Changes s W t) : Ran s t
  /-- CINV (R450). -/
  | cache {u : State} (h : u = s.dropIcache ∨ u = s.dropUnlocked) : Ran s (u.advance 2)
  /-- LPR and LPRD, in supervisor mode (R328, R329). -/
  | control {u : State} (hu : s.psr.u = false) (h : Control s u) : Ran s (u.serialize.advance 4)
  /-- A trap (R510). -/
  | enters (x : Exc) : Ran s (s.enter x s.pc)
  /-- RETX (R362). -/
  | returns : Ran s s.returnFrom
  /-- JUSR (R359). -/
  | toUser (p : PairNum) : Ran s (s.jumpUser p)

theorem Ran.ofLocal {s t : State} (h : Local s t) : Ran s t := .runs (Changes.refl.update h)

theorem Ran.ofChanges {s u t : State} (h : ∃ W, Changes s W u) (hl : Local u t) : Ran s t :=
  have ⟨_, hW⟩ := h
  .runs (hW.update hl)

/-- A next state, where there is one, has the property. -/
def Answers (P : State → Prop) (r : Result) : Prop := ∀ t : State, r = .next t → P t

section Outcomes

variable {P : State → Prop}

theorem Answers.next {t : State} (h : P t) : Answers P (.next t) := by
  intro u hu
  cases hu
  exact h

theorem Answers.refused (r : Refusal) : Answers P (.refused r) := by
  intro t ht
  cases ht

theorem Answers.ite {c : Prop} [Decidable c] {r r' : Result} (h : c → Answers P r) (h' : ¬ c → Answers P r') :
    Answers P (if c then r else r') := by
  split
  · exact h ‹_›
  · exact h' ‹_›

theorem Answers.withEa {f : Int → State} (ea : Option Int) (h : ∀ a, P (f a)) : Answers P (withEa ea f) := by
  cases ea with
  | none => exact .refused _
  | some a => exact .next (h a)

end Outcomes

/-! ### The lengths of instructions are even (R120) -/

theorem srcBytes_even (x : Src) : srcBytes x % 2 = 0 := by cases x <;> simp [srcBytes]
theorem srcDBytes_even (x : SrcD) : srcDBytes x % 2 = 0 := by cases x <;> simp [srcDBytes]
theorem srcCBytes_even (x : SrcC) : srcCBytes x % 2 = 0 := by cases x <;> simp [srcCBytes]
theorem srcLBytes_even (x : SrcL) : srcLBytes x % 2 = 0 := by cases x <;> simp [srcLBytes]
theorem memAddrBytes_even (x : MemAddr) : memAddrBytes x % 2 = 0 := by cases x <;> simp [memAddrBytes]
theorem bitAddrBytes_even (x : BitAddr) : bitAddrBytes x % 2 = 0 := by cases x <;> simp [bitAddrBytes]

/-! ### Instructions by their form -/

section Instructions

variable (s : State)

theorem Local.advance {s u : State} (h : Local s u) {n : Nat} (hn : n % 2 = 0) : Local s (u.advance n) :=
  h.trans (local_advance u hn)

/-- A register written, then on. -/
theorem ran_setReg (r : RegNum) (v : Word) {n : Nat} (hn : n % 2 = 0) : Ran s ((s.setReg r v).advance n) :=
  .ofLocal ((local_setReg s r v).advance hn)

/-- A pair written, then on. -/
theorem ran_setPair (p : PairNum) (v : DWord) {n : Nat} (hn : n % 2 = 0) : Ran s ((s.setPair p v).advance n) :=
  .ofLocal ((local_setPair s p v).advance hn)

/-- A register and C and F written, then on. -/
theorem ran_setReg_setCF (r : RegNum) (v : Word) (c f : Bool) {n : Nat} (hn : n % 2 = 0) :
    Ran s (((s.setReg r v).setCF c f).advance n) :=
  .ofLocal (((local_setReg s r v).trans (local_setCF _ c f)).advance hn)

/-- A pair and C and F written, then on. -/
theorem ran_setPair_setCF (p : PairNum) (v : DWord) (c f : Bool) {n : Nat} (hn : n % 2 = 0) :
    Ran s (((s.setPair p v).setCF c f).advance n) :=
  .ofLocal (((local_setPair s p v).trans (local_setCF _ c f)).advance hn)

/-- Operands compared, then on. -/
theorem ran_cmpFlags {w : Nat} (a b : BitVec w) {n : Nat} (hn : n % 2 = 0) :
    Ran s ({ s with psr := cmpFlags a b s.psr }.advance n) :=
  .ofLocal (.advance (local_withPsr s (p := cmpFlags a b s.psr) rfl) hn)

theorem ran_setReg_drewShift (r : RegNum) (v : Word) (w : Nat) (c : Int) :
    Ran s (((s.setReg r v).drewShift w c).advance 2) :=
  .ofLocal (((local_setReg s r v).trans (local_drewShift _ w c)).advance rfl)

theorem ran_setPair_drewShift (p : PairNum) (v : DWord) (w : Nat) (c : Int) :
    Ran s (((s.setPair p v).drewShift w c).advance 2) :=
  .ofLocal (((local_setPair s p v).trans (local_drewShift _ w c)).advance rfl)

/-- A value loaded into a register, then on. -/
theorem ran_load_setReg (a : Int) (m : Nat) (r : RegNum) (v : Word) {n : Nat} (hn : n % 2 = 0) :
    Ran s (((s.noteRead a m).setReg r v).advance n) :=
  .ofLocal (((local_noteRead s a m).trans (local_setReg _ r v)).advance hn)

theorem ran_load_setPair (a : Int) (m : Nat) (p : PairNum) (v : DWord) {n : Nat} (hn : n % 2 = 0) :
    Ran s (((s.noteRead a m).setPair p v).advance n) :=
  .ofLocal (((local_noteRead s a m).trans (local_setPair _ p v)).advance hn)

/-- Bytes stored, then on. -/
theorem ran_storeBytes (a : Int) (bs : List Byte) {n : Nat} (hn : n % 2 = 0) :
    Ran s ((s.storeBytes a bs).advance n) :=
  .ofChanges (Changes.refl.store a bs) (local_advance _ hn)

theorem withMac_ran (dest : PairNum) (v : DWord) : Answers (Ran s) (s.withMac dest v) :=
  .ite (fun _ => .next (ran_setPair s dest v rfl)) fun _ => .next (.enters .und)

theorem execTbit_ran (fromReg : Bool) (offset : BitVec 4) (src : RegNum) :
    Answers (Ran s) (execTbit fromReg offset src s) :=
  .ite (fun _ => .next (.ofLocal ((local_setF s _).advance rfl))) fun _ =>
    .next (.ofLocal (((local_drew s 1).trans (local_setF _ _)).advance rfl))

theorem execLpr_ran (src : RegNum) (dest : ProcRegNum) : Answers (Ran s) (execLpr src dest s) :=
  .ite (fun _ => .next (.enters .und)) fun hu => .next (.control (Bool.eq_false_of_not_eq_true hu) (.one _ _))

theorem prWrite32_control (n : ProcRegNum) (v : DWord) : Control s (s.prWrite32 n v) := by
  have hpair : ∀ m : ProcRegNum, m.toNat % 2 = 0 → m.toNat ≠ 8 → m ≠ 8 ∧ m + 1 ≠ 8 := by decide
  unfold State.prWrite32
  split
  case h_11 => exact .none
  case h_1 | h_2 | h_3 | h_4 => exact .one _ _
  all_goals
    rename_i h
    have hm := hpair n (by rw [h]) (by rw [h]; decide)
    exact .two _ _ _ hm.1 hm.2

theorem execLprd_ran (src : PairNum) (dest : ProcRegNum) : Answers (Ran s) (execLprd src dest s) :=
  .ite (fun _ => .next (.enters .und)) fun hu =>
    .next (.control (Bool.eq_false_of_not_eq_true hu) (prWrite32_control s dest _))

theorem execSpr_ran (src : ProcRegNum) (dest : RegNum) : Answers (Ran s) (execSpr src dest s) :=
  .next (.ofLocal (((local_setReg s dest _).trans (local_drew _ 1)).advance rfl))

theorem execSprd_ran (src : ProcRegNum) (dest : PairNum) : Answers (Ran s) (execSprd src dest s) :=
  .next (.ofLocal (((local_setPair s dest _).trans (local_drew _ 1)).advance rfl))

theorem execBal_ran (link : Link) (disp : BitVec 24) : Answers (Ran s) (execBal link disp s) := by
  have hset := local_setPair s (s.linkPair link) (s.linkAfter (balBytes link))
  have hpc : (s.setPair (s.linkPair link) (s.linkAfter (balBytes link))).pc = s.pc := by rw [setPair_eq]
  refine .next (.ofLocal (hset.trans (local_setPc _ fun hp => ?_)))
  rw [hpc, even_iff] at hp
  omega

theorem execJal_ran (link : Link) (dest : PairNum) : Answers (Ran s) (execJal link dest s) :=
  .next (.ofLocal ((local_setPair s _ _).trans (local_withPc _ (even_jumpTarget _))))

theorem execJcond_ran (c : Cond) (dest : PairNum) : Answers (Ran s) (execJcond c dest s) := by
  unfold execJcond
  split
  · exact .next (.toUser dest)
  · exact .next (.ofLocal (local_jumpIf s _ dest))

theorem execExcp_ran (vector : BitVec 4) : Answers (Ran s) (execExcp vector s) := by
  unfold execExcp
  split
  case h_4 => exact .ite (fun _ => .refused _) fun _ => .next (.enters .bpt)
  all_goals exact .next (.enters _)

theorem execPush_ran (ra : Bool) (count : BitVec 3) (src : RegNum) : Answers (Ran s) (execPush ra count src s) := by
  refine .ite (fun _ => .next ?_) fun _ => .refused _
  have hcheck := Changes.refl.update (local_checkAddress s ((s.pair 15).toNat))
  exact .ofChanges ⟨_, Changes.storeWords _ _ hcheck fun _ hx => hx.elim⟩ ((local_setPair _ 15 _).advance rfl)

theorem execPop_ran (ra : Bool) (count : BitVec 3) (dest : RegNum) : Answers (Ran s) (execPop ra count dest s) :=
  .ite (fun _ => .next (.ofLocal ((local_popSlots s ra count dest).advance rfl))) fun _ => .refused _

theorem execPopret_ran (ra : Bool) (count : BitVec 3) (dest : RegNum) :
    Answers (Ran s) (execPopret ra count dest s) :=
  .ite (fun _ => .next (.ofLocal ((local_popSlots s ra count dest).trans (local_withPc _ (even_jumpTarget _)))))
    fun _ => .refused _

theorem execLoadm_ran (count : BitVec 3) : Answers (Ran s) (execLoadm count s) :=
  .next (.ofLocal (((local_loadSlots _ s _).trans (local_setReg _ 0 _)).advance rfl))

theorem execLoadmp_ran (count : BitVec 3) : Answers (Ran s) (execLoadmp count s) :=
  .next (.ofLocal (((local_loadSlots _ s _).trans (local_setPair _ 0 _)).advance rfl))

theorem execStorm_ran (count : BitVec 3) : Answers (Ran s) (execStorm count s) :=
  .next (.ofChanges ⟨_, Changes.refl.storeWords _ _ fun _ hx => hx.elim⟩ ((local_setReg _ 1 _).advance rfl))

theorem execStormp_ran (count : BitVec 3) : Answers (Ran s) (execStormp count s) :=
  .next (.ofChanges ⟨_, Changes.refl.storeWords _ _ fun _ hx => hx.elim⟩ ((local_setPair _ 6 _).advance rfl))

theorem execCinv_ran (opts : CacheOpts) : Answers (Ran s) (execCinv opts s) := by
  unfold execCinv
  obtain ⟨unlocked, locked⟩ := dropsIcache opts
  simp only
  refine .next ?_
  split
  · refine .cache ?_
    cases locked
    · exact .inr rfl
    · exact .inl rfl
  · exact .ofLocal (local_advance s rfl)

/-- DI and EI (R451, R452). -/
theorem ran_setE (e : Bool) : Ran s ((s.setE e).advance 2) := .ofLocal ((local_setE s e).advance rfl)

/-- What every instruction can do. -/
theorem exec_ran (i : Instr) : Answers (Ran s) (exec i s) := by
  cases i
  case movb | movw => exact .next (ran_setReg s _ _ (srcBytes_even _))
  case movd => exact .next (ran_setPair s _ _ (srcDBytes_even _))
  case movxb | movzb | mulsb => exact .next (ran_setReg s _ _ rfl)
  case movxw | movzw | mulsw | muluw => exact .next (ran_setPair s _ _ rfl)
  case addb | addw | addcb | addcw | subb | subw | subcb | subcw =>
    exact .next (ran_setReg_setCF s _ _ _ _ (srcBytes_even _))
  case addd => exact .next (ran_setPair_setCF s _ _ _ _ (srcDBytes_even _))
  case subd => exact .next (ran_setPair_setCF s _ _ _ _ (srcLBytes_even _))
  case addub | adduw | mulb | mulw => exact .next (ran_setReg s _ _ (srcBytes_even _))
  case macqw | macuw | macsw => exact withMac_ran s _ _
  case cmpb | cmpw => exact .next (ran_cmpFlags s _ _ (srcBytes_even _))
  case cmpd => exact .next (ran_cmpFlags s _ _ (srcCBytes_even _))
  case andb | andw | orb | orw | xorb | xorw => exact .next (ran_setReg s _ _ (srcBytes_even _))
  case andd | ord | xord => exact .next (ran_setPair s _ _ (srcLBytes_even _))
  case scond | seq | sne | scs | scc | shi | sls | sgt | sle | sfs | sfc | slo | shs | slt | sge =>
    exact .next (ran_setReg s _ _ rfl)
  case ashub | ashuw | lshb | lshw => exact .next (ran_setReg_drewShift s _ _ _ _)
  case ashud | lshd => exact .next (ran_setPair_drewShift s _ _ _ _)
  case cbitb | sbitb =>
    exact .withEa _ fun _ => .ofChanges (Changes.changeBitB _ _ _) (local_advance _ (bitAddrBytes_even _))
  case cbitw | sbitw =>
    exact .withEa _ fun _ => .ofChanges (Changes.changeBit _ _ _) (local_advance _ (bitAddrBytes_even _))
  case tbitb => exact .withEa _ fun _ => .ofLocal ((local_testBitB s _ _).advance (bitAddrBytes_even _))
  case tbitw => exact .withEa _ fun _ => .ofLocal ((local_testBit s _ _).advance (bitAddrBytes_even _))
  case tbit => exact execTbit_ran s _ _ _
  case lpr => exact execLpr_ran s _ _
  case lprd => exact execLprd_ran s _ _
  case spr => exact execSpr_ran s _ _
  case sprd => exact execSprd_ran s _ _
  case bcond | beq | bne | bcs | bcc | bhi | bls | bgt | ble | bfs | bfc | blo | bhs | blt | bge | br =>
    exact .next (.ofLocal (local_branchIf s _ _))
  case bal => exact execBal_ran s _ _
  case beq0b | beq0w | bne0b | bne0w => exact .next (.ofLocal (local_forwardIf s _ _))
  case jcond => exact execJcond_ran s _ _
  case jeq | jne | jcs | jcc | jhi | jls | jgt | jle | jfs | jfc | jlo | jhs | jlt | jge | jump =>
    exact .next (.ofLocal (local_jumpIf s _ _))
  case jusr => exact .next (.toUser _)
  case jal => exact execJal_ran s _ _
  case excp => exact execExcp_ran s _
  case retx => exact .next .returns
  case push => exact execPush_ran s _ _ _
  case pop => exact execPop_ran s _ _ _
  case popret => exact execPopret_ran s _ _ _
  case loadb | loadw => exact .withEa _ fun _ => ran_load_setReg s _ _ _ _ (memAddrBytes_even _)
  case loadd => exact .withEa _ fun _ => ran_load_setPair s _ _ _ _ (memAddrBytes_even _)
  case storb | storw | stord => exact .withEa _ fun _ => ran_storeBytes s _ _ (memAddrBytes_even _)
  case storbImm | storwImm => exact .withEa _ fun _ => ran_storeBytes s _ _ (bitAddrBytes_even _)
  case loadm => exact execLoadm_ran s _
  case loadmp => exact execLoadmp_ran s _
  case storm => exact execStorm_ran s _
  case stormp => exact execStormp_ran s _
  case cinv => exact execCinv_ran s _
  case di | ei => exact .next (ran_setE s _)
  case eiwait => exact .next (.ofLocal (((local_setE s true).advance rfl).trans (local_withWaiting _ true)))
  case wait => exact .next (.ofLocal ((local_advance s rfl).trans (local_withWaiting _ true)))
  case nop => exact .next (ran_setReg s _ _ rfl)
  case resUnd => exact .next (.enters .und)
  case resNop => exact .next (.ofLocal (local_advance s (by split <;> rfl)))

end Instructions

/-! ### What an exception entry can do (R510) -/

theorem local_acknowledge (s : State) (x : Exc) : Local s (s.acknowledge x) := by
  unfold State.acknowledge
  split
  · exact local_noteRead s _ 1
  · exact .refl s

/-- The dispatch reads, and the PC it loads is even (R510, R513). -/
theorem local_dispatch (s : State) (x : Exc) : Local s (s.dispatch x) := by
  unfold State.dispatch
  simp only
  split
  · exact (local_noteRead s _ 4).trans (local_withPc _ (even_jumpTarget _))
  · exact (local_noteRead s _ 2).trans (local_withPc _ (even_append_zero _))

theorem dispatch_pc_even (s : State) (x : Exc) : (s.dispatch x).pc.getLsbD 0 = false := by
  unfold State.dispatch
  simp only
  split
  · exact even_jumpTarget _
  · exact even_append_zero _

/-- The two stores of the frame lie apart (R510). -/
theorem pushFrame_changes {s p : State} (h : Local s p) (ret : Addr) : ∃ (W : Set Nat) (u : State), Changes s W u ∧
    p.pushFrame ret = { u with isp := BitVec.ofInt 24 ((p.isp.toNat : Int) - 6) } := by
  have hword := (Changes.refl.update (h.trans (local_drew p 1))).storeBytes ((p.isp.toNat : Int) - 6 + 4)
    (wordBytes p.psrRead) fun _ hx => hx.elim
  have hframe := hword.storeBytes ((p.isp.toNat : Int) - 6) (dwordBytes (linkVal ret)) (by
    rintro y (hy | ⟨h1, _⟩)
    · exact hy.elim
    · exact .inr h1)
  exact ⟨_, _, hframe, rfl⟩

/-- The frame is stored in `u`; what follows it reads alone, and the prefetched words are discarded. -/
theorem enter_changes (s : State) (x : Exc) (ret : Addr) : ∃ (W : Set Nat) (u : State), Changes s W u ∧
    (s.enter x ret).mem = u.mem ∧ (s.enter x ret).stale = { u.stale with prefetch := [] } ∧
    DebugKept u.dbg (s.enter x ret).dbg ∧ (s.enter x ret).pc.getLsbD 0 = false := by
  obtain ⟨p, hp, hlocal⟩ : ∃ p : State, p = (if x = .trc then { s with psr := { s.psr with p := false } } else s) ∧
      Local s p := by
    refine ⟨_, rfl, ?_⟩
    split
    · exact local_withPsr s rfl
    · exact .refl s
  obtain ⟨W, u, hu, hpush⟩ := pushFrame_changes hlocal ret
  obtain ⟨v, hv⟩ : ∃ v : State, v = { p.pushFrame ret with psr := x.psrAfter (p.pushFrame ret).psr } := ⟨_, rfl⟩
  have henter : s.enter x ret = { (v.acknowledge x).dispatch x with waiting := false }.serialize := by
    rw [State.enter, ← hp, hv]
  have hreads := (local_acknowledge v x).trans (local_dispatch _ x)
  have hmem : v.mem = u.mem := by rw [hv, hpush]
  have hstale : v.stale = u.stale := by rw [hv, hpush]
  have hdbg : v.dbg = u.dbg := by rw [hv, hpush]
  refine ⟨W, u, hu, ?_, ?_, ?_, ?_⟩
  · rw [henter]
    exact hreads.mem.trans hmem
  · rw [henter]
    change ({ ((v.acknowledge x).dispatch x).stale with prefetch := [] } : Stale) = _
    rw [hreads.stale, hstale]
  · rw [henter, ← hdbg]
    exact hreads.dbg
  · rw [henter]
    exact dispatch_pc_even _ x

end Sys2Proof.Proofs

/-! PROOFS. What a step can do (spec/60_exceptions.md R530), said once: a reset, an entry, an idle wait, or the
instruction that the words at the PC decode to. -/

namespace Sys2Proof.Proofs

open Sys2Proof.Machine Sys2Proof.Laws

theorem Answers.fault {P : State → Prop} (f : Fault) : Answers P (.fault f) := by
  intro t ht
  cases ht

/-- The state an instruction starts in (R505, R530). -/
def started (s : State) : State := (s.atFetch.drew s.atFetch.fetchDraws).start

/-- The state a step answers. -/
inductive Stepped (s : State) : State → Prop
  | reset (h : s.nextInputs.reset = true) : Stepped s { s with inputs := s.inputs.tail }.resetInput
  | entered {u : State} (h : Local s u) (x : Exc) : Stepped s (u.enter x u.pc)
  | idle {u : State} (h : Local s u) : Stepped s u
  | ran {i : Instr} {t : State} (hd : decodeWords s.atFetch.fetchWords = .ok i)
      (hx : exec i (started s) = .next t) : Stepped s t

section Boundary

variable (s : State)

theorem local_start : Local s s.start := by
  refine local_of_fields rfl (fun h => h) ?_ (debugKept_afterStart _ _ _)
  rw [start_psr]
  split <;> rfl

theorem local_takeInputs : Local s s.takeInputs := by
  have h : Local s { s with inputs := s.inputs.tail } := local_of_fields rfl (fun h => h) rfl (.refl _)
  unfold State.takeInputs
  simp only
  split
  · exact h.trans (local_illegal _)
  · exact h

theorem local_endLag : Local s s.endLag := local_of_fields rfl (fun h => h) rfl (.refl _)

theorem local_afterTag (inp : Inputs) : Local s (s.afterTag inp) := by
  unfold State.afterTag
  split
  · exact .refl s
  · exact local_of_fields rfl (fun h => h) rfl (debugKept_afterTag _ _ _ _)

/-- The inputs taken and the latency over. -/
theorem local_beforeChecks : Local s s.takeInputs.endLag := (local_takeInputs s).trans (local_endLag _)

theorem local_atFetch : Local s s.atFetch := (local_beforeChecks s).trans (local_afterTag _ _)

theorem local_started : Local s (started s) := ((local_atFetch s).trans (local_drew _ _)).trans (local_start _)

theorem runInstr_stepped : Answers (Stepped s) s.atFetch.runInstr := by
  unfold State.runInstr
  split
  · exact .next (.entered ((local_atFetch s).trans (local_drew _ _)) .iad)
  · rename_i i hd
    exact fun t ht => .ran hd ht

variable {s}

theorem enterDbg_stepped {u : State} (h : Local s u) : Answers (Stepped s) u.enterDbg :=
  .ite (fun _ => .refused _) fun _ => .next (.entered h .dbg)

theorem enterInt_stepped {u : State} (h : Local s u) (v : Byte) : Answers (Stepped s) (u.enterInt v) :=
  .ite (fun _ => .next (.entered h (.int v))) fun _ => .refused _

variable (s)

/-- Lines 4 to 12 of R530. -/
theorem afterChecks_stepped (inp : Inputs) (e : Bool) : Answers (Stepped s) (s.atFetch.afterChecks inp e) :=
  have h := local_atFetch s
  .ite (fun _ => .next (.entered h .nmi)) fun _ => .ite (fun _ => enterInt_stepped h _) fun _ =>
    .ite (fun _ => .next (.entered h .ise)) fun _ => .ite (fun _ => .next (.idle h)) fun _ =>
      .ite (fun _ => .next (.entered h .trc)) fun _ => runInstr_stepped s

theorem checks_stepped (e : Bool) : Answers (Stepped s) (s.takeInputs.endLag.checks s.nextInputs e) := by
  have h := local_beforeChecks s
  have hpending : Local s.takeInputs.endLag { s.takeInputs.endLag with
      dbg := { s.takeInputs.endLag.dbg with pending := false } } :=
    local_of_fields rfl (fun h => h) rfl ⟨rfl, rfl, fun _ => ⟨rfl, rfl⟩, fun _ _ => rfl⟩
  have hiad : Local s.takeInputs.endLag { s.takeInputs.endLag with iadPending := false } :=
    local_of_fields rfl (fun h => h) rfl (.refl _)
  exact .ite (fun _ => .refused _) fun _ => .ite (fun _ => enterDbg_stepped (h.trans hpending)) fun _ =>
    .ite (fun _ => .next (.entered (h.trans hiad) .iad)) fun _ =>
      .ite (fun _ => enterDbg_stepped (local_atFetch s)) fun _ => afterChecks_stepped s _ e

/-- What every step can do. -/
theorem step_stepped : Answers (Stepped s) (step s) :=
  .ite (fun _ => .fault _) fun _ => .ite (fun h => .next (.reset h)) fun _ => checks_stepped s _

end Boundary

end Sys2Proof.Proofs

/-! PROOFS. Every step keeps the invariant of the machine (spec/10_state.md R26, R28, R29, R35, R41, spec/20_memory.md
R80, R112): its three parts, each kept by every form of `Ran` and of `Stepped`. -/

namespace Sys2Proof.Proofs

open Sys2Proof.Machine Sys2Proof.Laws

/-! ### The parts of the invariant -/

/-- The part about registers. -/
structure RegistersSound (s : State) : Prop where
  pc : s.pc.getLsbD 0 = false
  isp : s.isp.getLsbD 0 = false
  intbase : s.intbase.getLsbD 0 = false
  config : s.config.wf = true
  exf : ∀ b : BitVec 2, b ≠ 0 → (s.dbg.get b).dsr.getLsbD 3 = false

/-- The part about the instruction cache. -/
structure CacheSound (s : State) : Prop where
  locking : s.lockingLines = true → s.stale.locked = true ∧ s.stale.fresh = []
  unlocked : s.stale.locked = false → s.stale.icacheLocked = [] ∧ s.stale.fresh = []
  off : s.config.icachePresent = false ∨ s.cfg.ic = false → s.stale.icache = [] ∧ s.stale.locked = false

theorem inv_iff (s : State) : s.Inv ↔ RegistersSound s ∧ s.mem.wf = true ∧ CacheSound s := by
  constructor
  · rintro ⟨hpc, hisp, hint, hconf, hmem, h1, h2, h3, hlock, hunlock, hoff⟩
    refine ⟨⟨hpc, hisp, hint, hconf, fun b hb => ?_⟩, hmem, hlock, hunlock, hoff⟩
    obtain rfl | rfl | rfl | rfl := bank_cases b
    · exact absurd rfl hb
    · exact h1
    · exact h2
    · exact h3
  · rintro ⟨⟨hpc, hisp, hint, hconf, hexf⟩, hmem, hlock, hunlock, hoff⟩
    exact ⟨hpc, hisp, hint, hconf, hmem, hexf 1 (by decide), hexf 2 (by decide), hexf 3 (by decide), hlock, hunlock,
      hoff⟩

/-- Settles O11: every register after reset holds 0. -/
theorem resetMeetsInvariant : Obligations.ResetMeetsInvariant := by
  unfold Obligations.ResetMeetsInvariant
  refine (inv_iff _).2 ⟨⟨rfl, rfl, rfl, rfl, ?_⟩, rfl, ⟨?_, ?_, ?_⟩⟩
  · decide
  · intro h
    cases h
  · exact fun _ => ⟨rfl, rfl⟩
  · exact fun _ => ⟨rfl, rfl⟩

/-! ### Changes by the running program -/

theorem RegistersSound.frame {s t : State} (h : RegistersSound s) (hf : SystemFrame s t) : RegistersSound t where
  pc := hf.pc h.pc
  isp := by rw [hf.isp, h.isp]
  intbase := by rw [hf.intbase, h.intbase]
  config := by rw [hf.config, h.config]
  exf b hb := by rw [hf.dbg.exf b hb, h.exf b hb]

theorem lockingLines_congr {s t : State} (hc : t.config = s.config) (hg : t.cfg = s.cfg) :
    t.lockingLines = s.lockingLines := by
  unfold State.lockingLines State.icacheOn
  rw [hc, hg]

/-- What is noted of the cache, CFG and the chip decide; what is prefetched does not. -/
theorem CacheSound.congr {s t : State} (h : CacheSound s) (hc : t.config = s.config) (hg : t.cfg = s.cfg)
    (hs : t.stale = { s.stale with prefetch := t.stale.prefetch }) : CacheSound t where
  locking hl := by
    rw [hs]
    exact h.locking (by rwa [lockingLines_congr hc hg] at hl)
  unlocked hl := by
    rw [hs] at hl ⊢
    exact h.unlocked hl
  off ho := by
    rw [hc, hg] at ho
    rw [hs]
    exact h.off ho

theorem CacheSound.frame {s t : State} (h : CacheSound s) (hf : SystemFrame s t) (hs : t.stale = s.stale) :
    CacheSound t :=
  h.congr hf.config hf.cfg (by rw [hs])

theorem systemFrame_putByte (s : State) (a : Nat) (b : Byte) : SystemFrame s (s.putByte a b) := by
  refine ⟨?_, ?_, ?_, ?_, ?_, ?_, fun _ => ?_, fun hp => ?_⟩
  case refine_5 =>
    rw [putByte_dbg]
    exact .refl _
  case refine_8 => rwa [putByte_pc]
  all_goals simp

/-- A chain of changes leaves the system's registers. -/
theorem Changes.frame {s t : State} {W : Set Nat} (h : Changes s W t) : SystemFrame s t := by
  induction h with
  | refl => exact .refl s
  | update _ hl ih => exact ih.trans hl.toSystemFrame
  | put _ a b _ _ ih => exact ih.trans (systemFrame_putByte _ a b)
  | mono _ _ ih => exact ih

/-- A chain of changes keeps the canonical form of memory (R80). -/
theorem Changes.mem_wf {s t : State} {W : Set Nat} (h : Changes s W t) (hm : s.mem.wf = true) : t.mem.wf = true := by
  induction h with
  | refl => exact hm
  | update _ hl ih => rw [hl.mem, ih]
  | @put _ u _ a b ha _ ih =>
    rw [putByte_mem]
    split
    · exact wf_put _ ih a ha b
    · exact ih
  | mono _ _ ih => exact ih

/-- A byte stored is noted among the contents of the lines that can hold its old content (log entry 18). -/
theorem CacheSound.putByte {s : State} (h : CacheSound s) (a : Nat) (b : Byte) : CacheSound (s.putByte a b) := by
  have hst : CacheSound { s with stale := s.staleAfter a (s.mem.byte a) b } := by
    unfold State.staleAfter
    simp only
    split
    · exact h
    · refine ⟨fun hl => ?_, fun hl => ?_, fun ho => ?_⟩
      · have hlic : s.cfg.lic = true := (Bool.and_eq_true_iff.1 hl).2
        simp only [hlic]
        simpa using h.locking hl
      · have hl : s.stale.locked = false := hl
        simpa [Stale.mayLock, hl] using h.unlocked hl
      · have hon : s.icacheOn = false := by
          unfold State.icacheOn
          obtain ho | ho : s.config.icachePresent = false ∨ s.cfg.ic = false := ho
          · rw [ho, Bool.false_and]
          · rw [ho, Bool.and_false]
        simpa [hon] using h.off ho
  have hst' : CacheSound { s with stale := (s.putByte a b).stale } := by
    rw [putByte_stale]
    split
    · exact hst
    · exact h
  exact hst'.congr (putByte_config s a b) (putByte_cfg s a b) rfl

theorem Changes.cacheSound {s t : State} {W : Set Nat} (h : Changes s W t) (hs : CacheSound s) : CacheSound t := by
  induction h with
  | refl => exact hs
  | update _ hl ih => exact ih.frame hl.toSystemFrame hl.stale
  | put _ a b _ _ ih => exact ih.putByte a b
  | mono _ _ ih => exact ih

theorem Changes.inv {s t : State} {W : Set Nat} (h : Changes s W t) (hs : s.Inv) : t.Inv :=
  have ⟨hr, hm, hc⟩ := (inv_iff s).1 hs
  (inv_iff t).2 ⟨hr.frame h.frame, h.mem_wf hm, h.cacheSound hc⟩

theorem Local.inv {s t : State} (h : Local s t) (hs : s.Inv) : t.Inv := (Changes.refl.update h).inv hs

/-! ### Processor registers (R326) -/

theorem debugUnit_get_set (d : DebugUnit) (b c : BitVec 2) (x : DebugBank) :
    (d.set b x).get c = if c = b then x else d.get c := by
  obtain rfl | rfl | rfl | rfl := bank_cases b
  all_goals
    obtain rfl | rfl | rfl | rfl := bank_cases c
    all_goals rfl

/-- The banks after a write to the one DBS selects, where it is visible (R36). -/
theorem setBank_get (s : State) (x : DebugBank) (b : BitVec 2) :
    (s.setBank x).dbg.get b = if s.bankVisible = true ∧ b = s.dbg.bank then x else s.dbg.get b := by
  unfold State.setBank
  cases s.bankVisible
  · simp
  · simp [debugUnit_get_set]

theorem debugUnit_set_eq (d : DebugUnit) (b : BitVec 2) (x : DebugBank) :
    (d.set b x).bank = d.bank ∧ (d.set b x).ctl = d.ctl ∧ (d.set b x).pending = d.pending := by
  unfold DebugUnit.set
  split <;> exact ⟨rfl, rfl, rfl⟩

/-- A bank written leaves the rest of the debug unit. -/
theorem setBank_dbg_rest (s : State) (x : DebugBank) :
    (s.setBank x).dbg.bank = s.dbg.bank ∧ (s.setBank x).dbg.ctl = s.dbg.ctl ∧
      (s.setBank x).dbg.pending = s.dbg.pending := by
  unfold State.setBank
  split
  · exact debugUnit_set_eq _ _ _
  · exact ⟨rfl, rfl, rfl⟩

/-- No bank but bank 0 gets bit 3 of its DSR set (R326; log entry 49). -/
def ExfKept (d e : DebugUnit) : Prop :=
  ∀ b : BitVec 2, b ≠ 0 → (d.get b).dsr.getLsbD 3 = false → (e.get b).dsr.getLsbD 3 = false

theorem exfKept_setBank (s : State) (x : DebugBank)
    (hx : s.dbg.bank ≠ 0 → s.curBank.dsr.getLsbD 3 = false → x.dsr.getLsbD 3 = false) :
    ExfKept s.dbg (s.setBank x).dbg := by
  intro b hb h
  rw [setBank_get]
  split
  · rename_i hc
    obtain ⟨_, rfl⟩ := hc
    exact hx hb h
  · exact h

theorem exfKept_writeDcrh (s : State) (v : Word) : ExfKept s.dbg (s.writeDcrh v).dbg := by
  have h := exfKept_setBank s { s.curBank with seqArmed := false } fun _ h => h
  unfold State.writeDcrh
  simp only
  split <;> exact h

theorem exfKept_prWrite16 (s : State) (n : ProcRegNum) (v : Word) : ExfKept s.dbg (s.prWrite16 n v).dbg := by
  unfold State.prWrite16
  split
  case h_2 =>
    refine exfKept_setBank s _ fun hb _ => ?_
    change (if s.dbg.bank == 0 then _ else (v.extractLsb' 0 7 &&& 0x77)).getLsbD 3 = false
    rw [if_neg (by simpa using hb), BitVec.getLsbD_and]
    exact Bool.and_false _
  case h_3 | h_5 | h_6 | h_7 | h_8 => exact exfKept_setBank s _ fun _ h => h
  case h_4 => exact exfKept_writeDcrh s v
  case h_9 =>
    unfold State.writeCfg
    simp only
    split
    · exact fun _ _ h => h
    · split <;> exact fun _ _ h => h
  all_goals exact fun _ _ h => h

theorem even_withLow (a : Addr) (v : Word) : (withLow a (evenWord v)).getLsbD 0 = false := by
  unfold withLow
  rw [BitVec.getLsbD_append]
  exact even_append_zero _

theorem withHigh_getLsbD_zero (a : Addr) (v : Word) : (withHigh a v).getLsbD 0 = a.getLsbD 0 := by
  unfold withHigh
  rw [BitVec.getLsbD_append, BitVec.getLsbD_extractLsb']
  rfl

/-- ISP and INTBASE stay even: their low halves are written with bit 0 cleared (R28, R29). -/
theorem prWrite16_even (s : State) (n : ProcRegNum) (v : Word) :
    (s.isp.getLsbD 0 = false → (s.prWrite16 n v).isp.getLsbD 0 = false) ∧
      (s.intbase.getLsbD 0 = false → (s.prWrite16 n v).intbase.getLsbD 0 = false) := by
  unfold State.prWrite16
  split
  case h_2 | h_3 | h_5 | h_6 | h_7 | h_8 =>
    rw [setBank_eq]
    exact ⟨fun h => h, fun h => h⟩
  case h_4 =>
    unfold State.writeDcrh
    simp only
    split <;> rw [setBank_eq] <;> exact ⟨fun h => h, fun h => h⟩
  case h_9 =>
    unfold State.writeCfg
    simp only
    split
    · exact ⟨fun h => h, fun h => h⟩
    · split <;> exact ⟨fun h => h, fun h => h⟩
  case h_11 => exact ⟨fun h => h, fun _ => even_withLow _ _⟩
  case h_12 => exact ⟨fun h => h, fun h => (withHigh_getLsbD_zero _ _).trans h⟩
  case h_13 => exact ⟨fun _ => even_withLow _ _, fun h => h⟩
  case h_14 => exact ⟨fun h => (withHigh_getLsbD_zero _ _).trans h, fun h => h⟩
  all_goals exact ⟨fun h => h, fun h => h⟩

theorem RegistersSound.prWrite16 {s : State} (h : RegistersSound s) (n : ProcRegNum) (v : Word) :
    RegistersSound (s.prWrite16 n v) where
  pc := by rw [prWrite16_eq, h.pc]
  isp := (prWrite16_even s n v).1 h.isp
  intbase := (prWrite16_even s n v).2 h.intbase
  config := by rw [prWrite16_eq, h.config]
  exf b hb := exfKept_prWrite16 s n v b hb (h.exf b hb)

theorem prWrite16_mem (s : State) (n : ProcRegNum) (v : Word) : (s.prWrite16 n v).mem = s.mem := by
  rw [prWrite16_eq]

theorem prWrite16_config (s : State) (n : ProcRegNum) (v : Word) : (s.prWrite16 n v).config = s.config := by
  rw [prWrite16_eq]

theorem prWrite16_user (s : State) (n : ProcRegNum) (v : Word) : (s.prWrite16 n v).psr.u = s.psr.u := by
  rw [prWrite16_eq]

/-- A write of another register than CFG leaves CFG and what a fetch may see. -/
theorem prWrite16_code {s : State} {n : ProcRegNum} (hn : n ≠ 8) (v : Word) :
    (s.prWrite16 n v).cfg = s.cfg ∧ (s.prWrite16 n v).stale = s.stale := by
  unfold State.prWrite16
  split
  case h_2 | h_3 | h_5 | h_6 | h_7 | h_8 =>
    rw [setBank_eq]
    exact ⟨rfl, rfl⟩
  case h_4 =>
    unfold State.writeDcrh
    simp only
    split <;> rw [setBank_eq] <;> exact ⟨rfl, rfl⟩
  case h_9 h => exact absurd (BitVec.eq_of_toNat_eq h) hn
  all_goals exact ⟨rfl, rfl⟩

/-- A whole cache invalidated is sound whatever it held. -/
theorem cacheSound_dropIcache (s : State) : CacheSound s.dropIcache where
  locking hl := ⟨hl, rfl⟩
  unlocked _ := ⟨rfl, rfl⟩
  off ho := by
    refine ⟨rfl, ?_⟩
    change (s.config.icachePresent && s.cfg.ic && s.cfg.lic) = false
    obtain h | h : s.config.icachePresent = false ∨ s.cfg.ic = false := ho
    · rw [h, Bool.false_and, Bool.false_and]
    · rw [h, Bool.and_false, Bool.false_and]

theorem CacheSound.dropUnlocked {s : State} (h : CacheSound s) : CacheSound s.dropUnlocked where
  locking := h.locking
  unlocked := h.unlocked
  off ho := ⟨rfl, (h.off ho).2⟩

/-- The three outcomes of a write of CFG: the cache invalidated, all present contents lockable, nothing noted (R112). -/
theorem writeCfg_cases (s : State) (v : Word) :
    (s.writeCfg v = State.dropIcache { s with cfg := cfgOfWord v }) ∨
      (State.lockingLines { s with cfg := cfgOfWord v } = true ∧
        s.writeCfg v = { s with cfg := cfgOfWord v, stale := { s.stale with locked := true, fresh := [] } }) ∨
      (State.lockingLines { s with cfg := cfgOfWord v } = false ∧ ((cfgOfWord v).ic = false → s.cfg.ic = false) ∧
        s.writeCfg v = { s with cfg := cfgOfWord v }) := by
  unfold State.writeCfg
  simp only
  split
  · exact .inl rfl
  · rename_i hic
    split
    · exact .inr (.inl ⟨‹_›, rfl⟩)
    · refine .inr (.inr ⟨Bool.eq_false_of_not_eq_true ‹_›, fun h => ?_, rfl⟩)
      simpa [h] using hic

theorem CacheSound.writeCfg {s : State} (h : CacheSound s) (v : Word) : CacheSound (s.writeCfg v) := by
  obtain hw | ⟨hl, hw⟩ | ⟨hl, hic, hw⟩ := writeCfg_cases s v
  · rw [hw]
    exact cacheSound_dropIcache _
  · rw [hw]
    obtain ⟨⟨hp, hi⟩, -⟩ : (s.config.icachePresent = true ∧ (cfgOfWord v).ic = true) ∧ (cfgOfWord v).lic = true := by
      simpa [State.lockingLines, State.icacheOn] using hl
    refine ⟨fun _ => ⟨rfl, rfl⟩, fun hf => ?_, fun ho => ?_⟩
    · cases hf
    · obtain ho | ho : s.config.icachePresent = false ∨ (cfgOfWord v).ic = false := ho
      · rw [hp] at ho
        cases ho
      · rw [hi] at ho
        cases ho
  · rw [hw]
    exact ⟨fun ht => absurd ht (by rw [hl]; exact Bool.false_ne_true), h.unlocked, fun ho => h.off (ho.imp_right hic)⟩

theorem CacheSound.prWrite16 {s : State} (h : CacheSound s) (n : ProcRegNum) (v : Word) :
    CacheSound (s.prWrite16 n v) := by
  by_cases hn : n = 8
  · subst hn
    exact h.writeCfg v
  · obtain ⟨hcfg, hstale⟩ := prWrite16_code (s := s) hn v
    exact h.congr (prWrite16_config s n v) hcfg (by rw [hstale])

theorem inv_prWrite16 {s : State} (hs : s.Inv) (n : ProcRegNum) (v : Word) : (s.prWrite16 n v).Inv := by
  obtain ⟨hr, hm, hc⟩ := (inv_iff s).1 hs
  exact (inv_iff _).2 ⟨hr.prWrite16 n v, by rw [prWrite16_mem, hm], hc.prWrite16 n v⟩

theorem Control.inv {s t : State} (h : Control s t) (hs : s.Inv) : t.Inv := by
  cases h with
  | none => exact hs
  | one n v => exact inv_prWrite16 hs n v
  | two n v v' _ _ => exact inv_prWrite16 (inv_prWrite16 hs n v) _ v'

/-! ### Every form of an instruction, and of a step -/

theorem inv_serialize {s : State} (hs : s.Inv) : s.serialize.Inv := by
  obtain ⟨hr, hm, hc⟩ := (inv_iff s).1 hs
  exact (inv_iff _).2 ⟨⟨hr.pc, hr.isp, hr.intbase, hr.config, hr.exf⟩, hm, hc.congr rfl rfl rfl⟩

theorem inv_enter {s : State} (hs : s.Inv) (x : Exc) (ret : Addr) : (s.enter x ret).Inv := by
  obtain ⟨W, u, hu, hmem, hstale, hdbg, hpc⟩ := enter_changes s x ret
  obtain ⟨hr, hm, hc⟩ := (inv_iff u).1 (hu.inv hs)
  have hisp := ((inv_iff s).1 hs).1.isp
  have hf := hu.frame
  refine (inv_iff _).2 ⟨⟨hpc, ?_, ?_, ?_, fun b hb => ?_⟩, ?_, hc.congr ?_ ?_ ?_⟩
  · rw [enter_eq]
    rw [even_iff] at hisp
    exact (even_ofInt _).2 (by omega)
  · rw [enter_eq, ← hf.intbase, hr.intbase]
  · rw [enter_eq, ← hf.config, hr.config]
  · rw [hdbg.exf b hb, hr.exf b hb]
  · rw [hmem, hm]
  · rw [enter_eq, hf.config]
  · rw [enter_eq, hf.cfg]
  · rw [hstale]

/-- RETX reads alone (R362). -/
theorem returnFrom_debugKept (s : State) : DebugKept s.dbg s.returnFrom.dbg := by
  rw [returnFrom_dbg s _ rfl]
  exact (local_noteRead s _ 4).dbg.trans (local_noteRead _ _ 2).dbg

theorem inv_returnFrom {s : State} (hs : s.Inv) : s.returnFrom.Inv := by
  obtain ⟨hr, hm, hc⟩ := (inv_iff s).1 hs
  have hdbg := returnFrom_debugKept s
  refine (inv_iff _).2 ⟨⟨?_, ?_, ?_, ?_, fun b hb => ?_⟩, ?_, hc.congr ?_ ?_ ?_⟩
  · rw [returnFrom_eq]
    exact even_jumpTarget _
  · have h := hr.isp
    rw [returnFrom_eq]
    rw [even_iff] at h ⊢
    rw [BitVec.toNat_add, show (6 : Addr).toNat = 6 from rfl]
    omega
  · rw [returnFrom_eq, hr.intbase]
  · rw [returnFrom_eq, hr.config]
  · rw [hdbg.exf b hb, hr.exf b hb]
  · rw [returnFrom_eq, hm]
  · rw [returnFrom_eq]
  · rw [returnFrom_eq]
  · rw [returnFrom_eq]

theorem Ran.inv {s t : State} (h : Ran s t) (hs : s.Inv) : t.Inv := by
  cases h with
  | runs h => exact h.inv hs
  | @cache u h =>
    obtain ⟨hr, hm, hc⟩ := (inv_iff s).1 hs
    have hu : u.Inv := by
      obtain rfl | rfl := h
      · exact (inv_iff _).2 ⟨⟨hr.pc, hr.isp, hr.intbase, hr.config, hr.exf⟩, hm, cacheSound_dropIcache s⟩
      · exact (inv_iff _).2 ⟨⟨hr.pc, hr.isp, hr.intbase, hr.config, hr.exf⟩, hm, hc.dropUnlocked⟩
    exact (local_advance u rfl).inv hu
  | control _ h => exact (local_advance _ rfl).inv (inv_serialize (h.inv hs))
  | enters x => exact inv_enter hs x s.pc
  | returns => exact inv_returnFrom hs
  | toUser p =>
    obtain ⟨hr, hm, hc⟩ := (inv_iff s).1 hs
    exact (inv_iff _).2 ⟨⟨even_jumpTarget _, hr.isp, hr.intbase, hr.config, hr.exf⟩, hm, hc.congr rfl rfl rfl⟩

/-- A reset clears CFG, and with it the cache; DSR is cleared unless the hardware debug module keeps it (R600, R576). -/
theorem inv_resetInput {s : State} (hs : s.Inv) : s.resetInput.Inv := by
  obtain ⟨hr, hm, hc⟩ := (inv_iff s).1 hs
  refine (inv_iff _).2 ⟨⟨?_, even_append_zero _, even_append_zero _, hr.config, fun b hb => ?_⟩, hm,
    ⟨fun h => ?_, ?_, ?_⟩⟩
  · have h := hr.config
    unfold Config.wf at h
    change s.config.resetPc.getLsbD 0 = false
    simpa using h
  · have h := hr.exf b hb
    change (s.resetDebug.get b).dsr.getLsbD 3 = false
    obtain rfl | rfl | rfl | rfl := bank_cases b
    · exact absurd rfl hb
    all_goals
      change (if s.config.hwDebugModule = true then _ else (0 : BitVec 7)).getLsbD 3 = false
      split
      · exact h
      · rfl
  · have hic : (s.config.icachePresent && false && false) = true := h
    simp at hic
  · exact fun _ => ⟨rfl, rfl⟩
  · exact fun _ => ⟨rfl, rfl⟩

theorem Stepped.inv {s t : State} (h : Stepped s t) (hs : s.Inv) : t.Inv := by
  cases h with
  | reset _ => exact inv_resetInput (Local.inv (local_of_fields rfl (fun h => h) rfl (.refl _)) hs)
  | entered h x => exact inv_enter (h.inv hs) x _
  | idle h => exact h.inv hs
  | ran _ hx => exact (exec_ran _ _ _ hx).inv ((local_started s).inv hs)

/-- Settles O10: every form of a step keeps the three parts of the invariant. -/
theorem stepKeepsInvariant : Obligations.StepKeepsInvariant := by
  unfold Obligations.StepKeepsInvariant
  exact fun s t hs h => (step_stepped s t h).inv hs

end Sys2Proof.Proofs

/-! PROOFS. What a step leaves of the system's registers: those of user mode (spec/10_state.md R33,
spec/46_processor_register.md R328) and the locked bits of DCR0 (R39), read off the forms of `Ran` and `Stepped`. -/

namespace Sys2Proof.Proofs

open Sys2Proof.Machine Sys2Proof.Laws

/-- An entry reads and stores, so that the comparators alone write the debug unit (R510). -/
theorem enter_debugKept (s : State) (x : Exc) (ret : Addr) : DebugKept s.dbg (s.enter x ret).dbg :=
  have ⟨_, _, hu, _, _, hdbg, _⟩ := enter_changes s x ret
  hu.frame.dbg.trans hdbg

/-! ### User mode -/

/-- The registers that LPR and LPRD alone write, and SP. -/
structure SystemRegistersKept (s t : State) : Prop where
  cfg : t.cfg = s.cfg
  intbase : t.intbase = s.intbase
  sp : t.regs.sp = s.regs.sp
  dbg : DebugKept s.dbg t.dbg

theorem SystemRegistersKept.trans {s t u : State} (h : SystemRegistersKept s t) (h' : SystemRegistersKept t u) :
    SystemRegistersKept s u :=
  ⟨h'.cfg.trans h.cfg, h'.intbase.trans h.intbase, h'.sp.trans h.sp, h.dbg.trans h'.dbg⟩

theorem SystemFrame.registersKept {s t : State} (h : SystemFrame s t) (hu : s.psr.u = true) :
    SystemRegistersKept s t :=
  ⟨h.cfg, h.intbase, h.sp hu, h.dbg⟩

theorem enter_registersKept (s : State) (x : Exc) (ret : Addr) : SystemRegistersKept s (s.enter x ret) := by
  refine ⟨?_, ?_, ?_, enter_debugKept s x ret⟩ <;> rw [enter_eq]

theorem returnFrom_registersKept (s : State) : SystemRegistersKept s s.returnFrom := by
  refine ⟨?_, ?_, ?_, returnFrom_debugKept s⟩ <;> rw [returnFrom_eq]

/-- LPR and LPRD trap in user mode, so no form of an instruction writes these registers there (R328). -/
theorem Ran.registersKept {s t : State} (h : Ran s t) (hu : s.psr.u = true) : SystemRegistersKept s t := by
  cases h with
  | runs h => exact h.frame.registersKept hu
  | cache h =>
    obtain rfl | rfl := h
    · exact ⟨rfl, rfl, rfl, .refl _⟩
    · exact ⟨rfl, rfl, rfl, .refl _⟩
  | control hu' _ =>
    rw [hu] at hu'
    cases hu'
  | enters x => exact enter_registersKept s x s.pc
  | returns => exact returnFrom_registersKept s
  | toUser p => exact ⟨rfl, rfl, rfl, .refl _⟩

theorem Stepped.registersKept {s t : State} (h : Stepped s t) (hu : s.psr.u = true)
    (hr : s.nextInputs.reset = false) : SystemRegistersKept s t := by
  cases h with
  | reset hr' =>
    rw [hr] at hr'
    cases hr'
  | entered h x => exact (h.registersKept hu).trans (enter_registersKept _ x _)
  | idle h => exact h.registersKept hu
  | ran _ hx =>
    have hs := local_started s
    exact (hs.registersKept hu).trans ((exec_ran _ _ _ hx).registersKept (hs.user.trans hu))

/-- Settles O14: in user mode no form of a step writes the system's registers. -/
theorem userModeKeepsSystem : Obligations.UserModeKeepsSystem := by
  unfold Obligations.UserModeKeepsSystem
  intro s t hu hr h
  have hk := (step_stepped s t h).registersKept hu hr
  exact ⟨hk.cfg, hk.intbase, hk.sp, hk.dbg.bank, hk.dbg.ctl, hk.dbg.car⟩

/-! ### The locked bits of DCR0 (R39, R326) -/

/-- DBGL set stays set, and the bits it locks stay. -/
def LockKept (c c' : DebugCtl) : Prop :=
  c.dbgl = true → c'.dbgl = true ∧ c'.abpt = c.abpt ∧ c'.atrc = c.atrc ∧ c'.adbg = c.adbg ∧ c'.aise = c.aise

theorem LockKept.refl (c : DebugCtl) : LockKept c c := fun h => ⟨h, rfl, rfl, rfl, rfl⟩

theorem LockKept.trans {c d e : DebugCtl} (h : LockKept c d) (h' : LockKept d e) : LockKept c e := by
  intro hl
  obtain ⟨h0, h1, h2, h3, h4⟩ := h hl
  obtain ⟨k0, k1, k2, k3, k4⟩ := h' h0
  exact ⟨k0, k1.trans h1, k2.trans h2, k3.trans h3, k4.trans h4⟩

theorem DebugKept.lockKept {d e : DebugUnit} (h : DebugKept d e) : LockKept d.ctl e.ctl := by
  intro hl
  rw [h.ctl]
  exact ⟨hl, rfl, rfl, rfl, rfl⟩

/-- A write of DCRH obeys the lock (R326). -/
theorem lockKept_write (c : DebugCtl) (v : Word) : LockKept c (c.write v) := by
  intro hl
  simp [DebugCtl.write, hl]

theorem lockKept_setBank (s : State) (x : DebugBank) : LockKept s.dbg.ctl (s.setBank x).dbg.ctl := by
  rw [(setBank_dbg_rest s x).2.1]
  exact .refl _

theorem lockKept_prWrite16 (s : State) (n : ProcRegNum) (v : Word) :
    LockKept s.dbg.ctl (s.prWrite16 n v).dbg.ctl := by
  unfold State.prWrite16
  split
  case h_2 | h_3 | h_5 | h_6 | h_7 | h_8 => exact lockKept_setBank s _
  case h_4 =>
    unfold State.writeDcrh
    simp only
    split
    · exact lockKept_write _ v
    · exact lockKept_setBank s _
  case h_9 =>
    unfold State.writeCfg
    simp only
    split
    · exact .refl _
    · split <;> exact .refl _
  all_goals exact .refl _

theorem Control.lockKept {s t : State} (h : Control s t) : LockKept s.dbg.ctl t.dbg.ctl := by
  cases h with
  | none => exact .refl _
  | one n v => exact lockKept_prWrite16 s n v
  | two n v v' _ _ => exact (lockKept_prWrite16 s n v).trans (lockKept_prWrite16 _ _ v')

theorem Ran.lockKept {s t : State} (h : Ran s t) : LockKept s.dbg.ctl t.dbg.ctl := by
  cases h with
  | runs h => exact h.frame.dbg.lockKept
  | cache h =>
    obtain rfl | rfl := h
    · exact .refl _
    · exact .refl _
  | control _ h => exact h.lockKept
  | enters x => exact (enter_debugKept s x s.pc).lockKept
  | returns => exact (returnFrom_debugKept s).lockKept
  | toUser p => exact .refl _

theorem Stepped.lockKept {s t : State} (h : Stepped s t) (hr : s.nextInputs.reset = false) :
    LockKept s.dbg.ctl t.dbg.ctl := by
  cases h with
  | reset hr' =>
    rw [hr] at hr'
    cases hr'
  | entered h x => exact h.dbg.lockKept.trans (enter_debugKept _ x _).lockKept
  | idle h => exact h.dbg.lockKept
  | ran _ hx => exact (local_started s).dbg.lockKept.trans (exec_ran _ _ _ hx).lockKept

/-- Settles O16: DCRH is the one register whose write reaches the locked bits, and it obeys the lock. -/
theorem debugLockHolds : Obligations.DebugLockHolds := by
  unfold Obligations.DebugLockHolds
  exact fun s t hl hr h => (step_stepped s t h).lockKept hr hl

end Sys2Proof.Proofs

/-! PROOFS. Which instruction writes which status bit (spec/10_state.md R30, R33), and so how user mode is entered
(R541, R542). -/

namespace Sys2Proof.Proofs

open Sys2Proof.Machine Sys2Proof.Laws

/-! ### What each shared operation leaves of the PSR -/

section Operations

variable (s : State)

@[simp] theorem advance_psr (n : Nat) : (s.advance n).psr = s.psr := rfl

@[simp] theorem setReg_psr (n : RegNum) (v : Word) : (s.setReg n v).psr = s.psr := by rw [setReg_eq]

@[simp] theorem setRegB_psr (n : RegNum) (v : Byte) : (s.setRegB n v).psr = s.psr := setReg_psr s n _

@[simp] theorem setPair_psr (n : PairNum) (v : DWord) : (s.setPair n v).psr = s.psr := by rw [setPair_eq]

@[simp] theorem setIf_psr (c : Bool) (n : RegNum) : (s.setIf c n).psr = s.psr := setReg_psr s n _

@[simp] theorem drewShift_psr (w : Nat) (c : Int) : (s.drewShift w c).psr = s.psr := by
  unfold State.drewShift
  split <;> rfl

@[simp] theorem noteRead_keeps_psr (a : Int) (n : Nat) : (s.noteRead a n).psr = s.psr := noteRead_psr s a n

@[simp] theorem storeBytes_psr (a : Int) (bs : List Byte) : (s.storeBytes a bs).psr = s.psr := by rw [storeBytes_spec]

@[simp] theorem storeB_psr (a : Int) (v : Byte) : (s.storeB a v).psr = s.psr := storeBytes_psr s a _
@[simp] theorem storeW_psr (a : Int) (v : Word) : (s.storeW a v).psr = s.psr := storeBytes_psr s a _
@[simp] theorem storeD_psr (a : Int) (v : DWord) : (s.storeD a v).psr = s.psr := storeBytes_psr s a _

@[simp] theorem storeWords_psr (a : Int) (ws : List Word) : (s.storeWords a ws).psr = s.psr := by rw [storeWords_eq]

@[simp] theorem loadSlots_psr (a : Int) (xs : List Slot) : (s.loadSlots a xs).psr = s.psr := by rw [loadSlots_eq]

@[simp] theorem popSlots_psr (ra : Bool) (count : BitVec 3) (n : RegNum) : (s.popSlots ra count n).psr = s.psr := by
  simp [State.popSlots]

@[simp] theorem checkAddress_psr (a : Int) : (s.checkAddress a).psr = s.psr := by rw [checkAddress_eq]

@[simp] theorem branchIf_psr (c : Bool) (d : BranchDisp) : (s.branchIf c d).psr = s.psr := by
  cases c <;> rfl

@[simp] theorem forwardIf_psr (c : Bool) (j : BitVec 4) : (s.forwardIf c j).psr = s.psr := by
  cases c <;> rfl

@[simp] theorem jumpIf_psr (c : Bool) (p : PairNum) : (s.jumpIf c p).psr = s.psr := by
  cases c <;> rfl

theorem enter_psr (x : Exc) (ret : Addr) : (s.enter x ret).psr = x.psrAfter s.psr := by rw [enter_eq]

end Operations

/-- No write of a processor register reaches U (R330). -/
theorem Control.user {s t : State} (h : Control s t) : t.psr.u = s.psr.u := by
  cases h with
  | none => rfl
  | one n v => exact prWrite16_user s n v
  | two n v v' _ _ => rw [prWrite16_user, prWrite16_user]

/-- The PSR after a bit of memory went to F. -/
theorem changeBit_psr (s : State) (a : Int) (pos : BitVec 4) (x : Bool) :
    (s.changeBit a pos x).psr = { s.psr with f := (s.changeBit a pos x).psr.f } := by
  unfold State.changeBit
  simp only
  split
  · simp [State.changeBitB]
  · simp [State.changeBitW]

theorem testBit_psr (s : State) (a : Int) (pos : BitVec 4) :
    (s.testBit a pos).psr = { s.psr with f := (s.testBit a pos).psr.f } := by
  unfold State.testBit
  simp only
  split
  · simp [State.testBitB]
  · simp [State.testBitW]

/-! ### The rule of R30 and R33 -/

/-- What an instruction leaves of the status bits, by the lists of those that write them. -/
def StatusRule (i : Instr) (s t : State) : Prop :=
  (setsZNL i = false → t.psr.z = s.psr.z ∧ t.psr.n = s.psr.n ∧ t.psr.l = s.psr.l) ∧
    (setsC i = false → t.psr.c = s.psr.c) ∧ (setsF i = false → t.psr.f = s.psr.f) ∧
    (setsE i = false → t.psr.e = s.psr.e) ∧ (setsI i = false → t.psr.i = s.psr.i) ∧
    (traps i s = false → setsT i = false → t.psr.t = s.psr.t ∧ t.psr.p = s.psr.p) ∧
    (traps i s = false → entersUser i = false → t.psr.u = s.psr.u) ∧
    (traps i s = true → t.psr.t = false ∧ t.psr.p = false ∧ t.psr.u = false)

section Rule

variable {i : Instr} {s t : State}

/-- An instruction that writes F alone, or no status bit. -/
theorem statusRule_f (ht : traps i s = false) (h : t.psr = { s.psr with f := t.psr.f })
    (hf : setsF i = true ∨ t.psr.f = s.psr.f) : StatusRule i s t := by
  rw [StatusRule, h, ht]
  simp only [and_self, implies_true, true_and, reduceCtorEq, false_implies, and_true]
  intro h'
  simpa [h'] using hf

/-- An instruction that writes no status bit. -/
theorem statusRule_kept (ht : traps i s = false) (h : t.psr = s.psr) : StatusRule i s t :=
  statusRule_f ht (by rw [h]) (.inr (by rw [h]))

/-- An instruction that writes C and F. -/
theorem statusRule_cf (ht : traps i s = false) (hc : setsC i = true) (hf : setsF i = true)
    (h : t.psr = { s.psr with c := t.psr.c, f := t.psr.f }) : StatusRule i s t := by
  rw [StatusRule, h]
  simp [ht, hc, hf]

/-- An instruction that compares. -/
theorem statusRule_znl (ht : traps i s = false) (hz : setsZNL i = true) {w : Nat} (a b : BitVec w)
    (h : t.psr = cmpFlags a b s.psr) : StatusRule i s t := by
  simp [StatusRule, h, ht, hz, cmpFlags]

/-- An instruction that writes E. -/
theorem statusRule_e (ht : traps i s = false) (he : setsE i = true) (e : Bool)
    (h : t.psr = { s.psr with e := e }) : StatusRule i s t := by
  simp [StatusRule, h, ht, he]

/-- An instruction that takes a trap, none of which clears I (R511). -/
theorem statusRule_trap (ht : traps i s = true) (x : Exc) (hx : x.clearsI = false) (ret : Addr) :
    StatusRule i s (s.enter x ret) := by
  simp [StatusRule, enter_psr, Exc.psrAfter, ht, hx]

/-- JUSR (R359). -/
theorem statusRule_toUser (ht : traps i s = false) (hu : entersUser i = true) (p : PairNum) :
    StatusRule i s (s.jumpUser p) := by
  simp [StatusRule, ht, hu]

end Rule

section Instructions

variable (s : State)

/-- LPR in supervisor mode writes every status bit but U (R330). -/
theorem statusRule_lpr (r : RegNum) (n : ProcRegNum) : Answers (StatusRule (.lpr r n) s) (execLpr r n s) :=
  .ite (fun hu => .next (statusRule_trap (i := .lpr r n) hu .und rfl _)) fun hu => by
    have hu : traps (.lpr r n) s = false := Bool.eq_false_of_not_eq_true hu
    refine .next ?_
    have hk : (s.prWrite16 n (s.reg r)).psr.u = s.psr.u := prWrite16_user s n _
    simp [StatusRule, hu, hk, setsZNL, setsC, setsF, setsE, setsI, setsT]

theorem statusRule_lprd (p : PairNum) (n : ProcRegNum) : Answers (StatusRule (.lprd p n) s) (execLprd p n s) :=
  .ite (fun hu => .next (statusRule_trap (i := .lprd p n) hu .und rfl _)) fun hu => by
    have hu : traps (.lprd p n) s = false := Bool.eq_false_of_not_eq_true hu
    refine .next ?_
    have hk : (s.prWrite32 n (s.pair p)).psr.u = s.psr.u := (prWrite32_control s n _).user
    simp [StatusRule, hu, hk, setsZNL, setsC, setsF, setsE, setsI, setsT]

/-- A multiply-accumulate traps without the unit (D11). -/
theorem statusRule_withMac {i : Instr} (ht : traps i s = !s.config.macPresent) (dest : PairNum) (v : DWord) :
    Answers (StatusRule i s) (s.withMac dest v) :=
  .ite (fun hm => .next (statusRule_kept (by rw [ht, hm]; rfl) (by simp))) fun hm =>
    .next (statusRule_trap (by rw [ht, Bool.eq_false_of_not_eq_true hm]; rfl) .und rfl _)

theorem statusRule_tbit (fromReg : Bool) (offset : BitVec 4) (src : RegNum) :
    Answers (StatusRule (.tbit fromReg offset src) s) (execTbit fromReg offset src s) :=
  .ite (fun _ => .next (statusRule_f rfl rfl (.inl rfl))) fun _ => .next (statusRule_f rfl rfl (.inl rfl))

theorem statusRule_jcond (c : Cond) (p : PairNum) : Answers (StatusRule (.jcond c p) s) (execJcond c p s) := by
  unfold execJcond
  split
  · exact .next (statusRule_toUser rfl rfl p)
  · exact .next (statusRule_kept rfl (by simp))

theorem statusRule_excp (v : BitVec 4) : Answers (StatusRule (.excp v) s) (execExcp v s) := by
  unfold execExcp
  split
  case h_4 => exact .ite (fun _ => .refused _) fun _ => .next (statusRule_trap rfl .bpt rfl _)
  all_goals exact .next (statusRule_trap rfl _ rfl _)

theorem statusRule_cinv (o : CacheOpts) : Answers (StatusRule (.cinv o) s) (execCinv o s) := by
  unfold execCinv
  obtain ⟨unlocked, locked⟩ := dropsIcache o
  refine .next (statusRule_kept rfl ?_)
  rw [advance_psr, apply_ite State.psr, apply_ite State.psr]
  simp

/-- Every instruction obeys the rule. -/
theorem exec_statusRule (i : Instr) : Answers (StatusRule i s) (exec i s) := by
  cases i
  case movb | movw | movd | movxb | movxw | movzb | movzw => exact .next (statusRule_kept rfl (by simp))
  case addb | addw | addd | addcb | addcw | subb | subw | subd | subcb | subcw =>
    exact .next (statusRule_cf rfl rfl rfl (by simp))
  case addub | adduw | mulb | mulw | mulsb | mulsw | muluw => exact .next (statusRule_kept rfl (by simp))
  case macqw | macuw | macsw => exact statusRule_withMac s rfl _ _
  case cmpb | cmpw | cmpd => exact .next (statusRule_znl rfl rfl _ _ rfl)
  case andb | andw | andd | orb | orw | ord | xorb | xorw | xord => exact .next (statusRule_kept rfl (by simp))
  case scond | seq | sne | scs | scc | shi | sls | sgt | sle | sfs | sfc | slo | shs | slt | sge =>
    exact .next (statusRule_kept rfl (setIf_psr s _ _))
  case ashub | ashuw | ashud | lshb | lshw | lshd => exact .next (statusRule_kept rfl (by simp))
  case cbitb | sbitb => exact .withEa _ fun _ => statusRule_f rfl (by simp [State.changeBitB]) (.inl rfl)
  case cbitw | sbitw => exact .withEa _ fun _ => statusRule_f rfl (changeBit_psr s _ _ _) (.inl rfl)
  case tbitb => exact .withEa _ fun _ => statusRule_f rfl (by simp [State.testBitB]) (.inl rfl)
  case tbitw => exact .withEa _ fun _ => statusRule_f rfl (testBit_psr s _ _) (.inl rfl)
  case tbit => exact statusRule_tbit s _ _ _
  case lpr => exact statusRule_lpr s _ _
  case lprd => exact statusRule_lprd s _ _
  case spr | sprd => exact .next (statusRule_kept rfl (by simp))
  case bcond | beq | bne | bcs | bcc | bhi | bls | bgt | ble | bfs | bfc | blo | bhs | blt | bge | br =>
    exact .next (statusRule_kept rfl (branchIf_psr s _ _))
  case bal | jal => exact .next (statusRule_kept rfl (setPair_psr s _ _))
  case beq0b | beq0w | bne0b | bne0w => exact .next (statusRule_kept rfl (forwardIf_psr s _ _))
  case jcond => exact statusRule_jcond s _ _
  case jeq | jne | jcs | jcc | jhi | jls | jgt | jle | jfs | jfc | jlo | jhs | jlt | jge | jump =>
    exact .next (statusRule_kept rfl (jumpIf_psr s _ _))
  case jusr => exact .next (statusRule_toUser rfl rfl _)
  case excp => exact statusRule_excp s _
  case retx => exact .next (by simp [StatusRule, setsZNL, setsC, setsF, setsE, setsI, setsT, entersUser, traps])
  case push => exact .ite (fun _ => .next (statusRule_kept rfl (by simp))) fun _ => .refused _
  case pop => exact .ite (fun _ => .next (statusRule_kept rfl (by simp))) fun _ => .refused _
  case popret => exact .ite (fun _ => .next (statusRule_kept rfl (popSlots_psr s _ _ _))) fun _ => .refused _
  case loadb | loadw | loadd | storb | storw | stord | storbImm | storwImm =>
    exact .withEa _ fun _ => statusRule_kept rfl (by simp)
  case loadm | loadmp | storm | stormp => exact .next (statusRule_kept rfl (by simp))
  case cinv => exact statusRule_cinv s _
  case di | ei | eiwait => exact .next (statusRule_e rfl rfl _ rfl)
  case wait => exact .next (statusRule_kept rfl rfl)
  case nop => exact .next (statusRule_kept rfl (by simp))
  case resUnd => exact .next (statusRule_trap rfl .und rfl _)
  case resNop => exact .next (statusRule_kept rfl rfl)

end Instructions

/-- Settles O15: the walk over the instructions, and the start of an instruction. -/
theorem statusBitWriters : Obligations.StatusBitWriters := by
  unfold Obligations.StatusBitWriters
  exact ⟨fun i s t h => exec_statusRule s i t h, start_psr⟩

/-! ### How user mode is entered -/

/-- U set by an instruction is set by one of the three (R33). -/
theorem entersUser_of_exec {i : Instr} {s t : State} (h : exec i s = .next t) (hs : s.psr.u = false)
    (ht : t.psr.u = true) : entersUser i = true := by
  obtain ⟨-, -, -, -, -, -, hkept, htrap⟩ := exec_statusRule s i t h
  cases hi : entersUser i
  · cases htr : traps i s
    · rw [hkept htr hi, hs] at ht
      cases ht
    · rw [(htrap htr).2.2] at ht
      cases ht
  · rfl

theorem started_fields (s : State) : (started s).pc = s.pc ∧ (started s).regs = s.regs := by
  have htake : s.takeInputs.pc = s.pc ∧ s.takeInputs.regs = s.regs := by
    unfold State.takeInputs
    simp only
    split <;> exact ⟨rfl, rfl⟩
  have htag : s.atFetch.pc = s.takeInputs.pc ∧ s.atFetch.regs = s.takeInputs.regs := by
    unfold State.atFetch State.afterTag
    split <;> exact ⟨rfl, rfl⟩
  exact ⟨htag.1.trans htake.1, htag.2.trans htake.2⟩

/-- Settles O13: neither a reset nor an entry nor the wait sets U. -/
theorem userModeEntered : Obligations.UserModeEntered := by
  unfold Obligations.UserModeEntered
  intro s t hs h ht
  cases step_stepped s t h with
  | reset _ => cases ht
  | entered _ x =>
    rw [enter_psr] at ht
    cases ht
  | idle hl =>
    rw [hl.user, hs] at ht
    cases ht
  | @ran i _ hd hx =>
    have hl := local_started s
    obtain ⟨hpc, hregs⟩ := started_fields s
    exact ⟨i, hd, entersUser_of_exec hx (hl.user.trans hs) ht, hx, hpc, hregs, hl.mem, hl.isp⟩

end Sys2Proof.Proofs

/-! PROOFS. What a fetch may see (spec/10_state.md R35, spec/20_memory.md R106, R112, R113,
spec/70_reset_and_hazards.md R621, R622): a byte stored leaves its old content to be fetched, and nothing else does. -/

namespace Sys2Proof.Proofs

open Sys2Proof.Machine Sys2Proof.Laws

/-! ### A fetched byte, and the words fetched -/

theorem mem_staleBytes {s : State} {a : Nat} {v : Byte} (h : v ∈ s.staleBytes a) : (a, v) ∈ s.stale.olds := by
  unfold State.staleBytes at h
  obtain ⟨⟨x, w⟩, hc, rfl⟩ := List.mem_map.1 h
  obtain ⟨hmem, hx⟩ := List.mem_filter.1 hc
  obtain rfl : x = a := by simpa using hx
  exact hmem

/-- A fetched byte is an old content held, the content of memory, or a device's answer (R621). -/
theorem fetchByte_cases (s : State) (a k : Nat) :
    s.fetchByte a k = s.mem.byte a ∨ (a, s.fetchByte a k) ∈ s.stale.olds ∨ s.isDevice a = true := by
  cases hd : s.isDevice a with
  | true => exact .inr (.inr rfl)
  | false =>
    unfold State.fetchByte
    simp only [hd, Bool.false_eq_true, if_false]
    cases ho : (s.staleBytes a)[(s.free 32 k).toNat % ((s.staleBytes a).length + 1)]? with
    | none => exact .inl rfl
    | some v => exact .inr (.inl (mem_staleBytes (List.mem_of_getElem? ho)))

theorem fetchByte_memory {s : State} (ho : s.stale.olds = []) {a : Nat} (hd : s.isDevice a = false) (k : Nat) :
    s.fetchByte a k = s.mem.byte a := by
  obtain h | h | h := fetchByte_cases s a k
  · exact h
  · rw [ho] at h
    cases h
  · rw [hd] at h
    cases h

/-- A word of the three at the PC, where nothing old is held and no device stands. -/
theorem fetchWord_memory {s : State} (ho : s.stale.olds = [])
    (hd : ∀ k : Nat, k < 6 → s.isDevice (s.pc.toNat + k) = false) {k : Nat} (hk : k < 3) :
    s.fetchWord k = if s.pc.toNat + 2 * k + 2 ≤ 2 ^ 24 then some (s.mem.word (s.pc.toNat + 2 * k)) else none := by
  have hlow : s.isDevice (s.pc.toNat + 2 * k) = false := hd (2 * k) (by omega)
  have hhigh : s.isDevice (s.pc.toNat + 2 * k + 1) = false := hd (2 * k + 1) (by omega)
  unfold State.fetchWord Memory.word
  simp only
  rw [fetchByte_memory ho hlow, fetchByte_memory ho hhigh]

theorem fetchWords_memory {s : State} (ho : s.stale.olds = [])
    (hd : ∀ k : Nat, k < 6 → s.isDevice (s.pc.toNat + k) = false) : s.fetchWords = s.codeWords := by
  unfold State.fetchWords State.codeWords
  rw [fetchWord_memory ho hd (k := 0) (by decide), fetchWord_memory ho hd (k := 1) (by decide),
    fetchWord_memory ho hd (k := 2) (by decide), show List.range 3 = [0, 1, 2] from rfl]
  simp only [List.filter_cons, List.filter_nil, decide_eq_true_eq]
  split <;> split <;> split <;> rfl

/-! ### One byte stored -/

theorem mem_remember {c d : Host.Cell} {l : List Host.Cell} : d ∈ remember c l ↔ d = c ∨ d ∈ l := by
  unfold remember
  split
  · rename_i h
    have hc : c ∈ l := by simpa using h
    exact ⟨.inr, fun h => h.elim (fun h => h ▸ hc) id⟩
  · exact List.mem_cons

theorem mem_foldr_remember {d : Host.Cell} (l m : List Host.Cell) :
    d ∈ l.foldr remember m ↔ d ∈ l ∨ d ∈ m := by
  induction l with
  | nil => simp
  | cons c rest ih => rw [List.foldr_cons, mem_remember, ih, List.mem_cons, or_assoc]

/-- A store changes no byte and notes nothing, or it changes one byte and notes its old content. -/
theorem putByte_cases (s : State) (a : Nat) (b : Byte) :
    ((∀ x, (s.putByte a b).mem.byte x = s.mem.byte x) ∧ (s.putByte a b).stale = s.stale) ∨
      (s.mem.byte a ≠ b ∧ (∀ x, (s.putByte a b).mem.byte x = if x = a then b else s.mem.byte x) ∧
        (s.putByte a b).stale = s.staleAfter a (s.mem.byte a) b) := by
  rw [putByte_mem, putByte_stale]
  cases s.isRam a with
  | false => exact .inl ⟨fun _ => rfl, rfl⟩
  | true =>
    rw [if_pos rfl, if_pos rfl]
    by_cases hb : s.mem.byte a = b
    · refine .inl ⟨fun x => ?_, if_pos hb⟩
      rw [byte_put]
      split
      · rw [← hb, ‹x = a›]
      · rfl
    · exact .inr ⟨hb, byte_put _ _ _, rfl⟩

/-- What the store of a new content at `a` notes. -/
theorem staleAfter_changed {s : State} {a : Nat} {old new : Byte} (h : old ≠ new) :
    (∀ c, c ∈ (s.staleAfter a old new).prefetch ↔ c = (a, old) ∨ c ∈ s.stale.prefetch) ∧
      (∀ c, c ∈ (s.staleAfter a old new).icache ↔
        (c = (a, old) ∧ s.icacheOn = true ∧ s.stale.mayLock a = false) ∨ c ∈ s.stale.icache) ∧
      (∀ c, c ∈ (s.staleAfter a old new).icacheLocked ↔
        (c = (a, old) ∧ s.icacheOn = true ∧ s.stale.mayLock a = true) ∨ c ∈ s.stale.icacheLocked) ∧
      (∀ x, x ≠ a → (s.staleAfter a old new).mayLock x = s.stale.mayLock x) ∧
      ((s.staleAfter a old new).mayLock a = true →
        s.stale.mayLock a = true ∧ (s.icacheOn = false ∨ s.cfg.lic = true)) := by
  unfold State.staleAfter
  simp only [if_neg h]
  refine ⟨fun c => mem_remember, fun c => ?_, fun c => ?_, fun x hx => ?_, fun hl => ?_⟩
  · cases s.icacheOn <;> cases s.stale.mayLock a <;> simp [mem_remember]
  · cases s.icacheOn <;> cases s.stale.mayLock a <;> simp [mem_remember]
  · unfold Stale.mayLock
    simp only
    split
    · rw [List.contains_cons, beq_false_of_ne hx, Bool.false_or]
    · rfl
  · by_cases hc : (s.icacheOn && !s.cfg.lic && s.stale.mayLock a) = true
    · rw [if_pos hc] at hl
      simp [Stale.mayLock] at hl
    · rw [if_neg hc] at hl
      have hlock : s.stale.mayLock a = true := hl
      refine ⟨hlock, ?_⟩
      simpa [hlock, or_iff_not_imp_left] using hc

/-! ### A chain of changes -/

/-- The cell held what memory did before a chain of changes, and that chain changed it. -/
def OldContent (s t : State) (c : Host.Cell) : Prop := c.2 = s.mem.byte c.1 ∧ t.mem.byte c.1 ≠ c.2

/-- What a chain of changes that stores to addresses in `W` alone notes of the bytes it changes (log entry 18). -/
structure Noted (W : Set Nat) (s t : State) : Prop where
  outside : ∀ a ∉ W, t.mem.byte a = s.mem.byte a ∧ t.stale.mayLock a = s.stale.mayLock a
  mayLock : ∀ a, t.stale.mayLock a = true → s.stale.mayLock a = true
  fresh : ∀ a, s.icacheOn = true → t.mem.byte a ≠ s.mem.byte a → s.cfg.lic = false → t.stale.mayLock a = false
  prefetch : ∀ c ∈ t.stale.prefetch, c ∈ s.stale.prefetch ∨ OldContent s t c
  icache : ∀ c ∈ t.stale.icache,
    c ∈ s.stale.icache ∨ (OldContent s t c ∧ s.icacheOn = true ∧ s.stale.mayLock c.1 = false)
  icacheLocked : ∀ c ∈ t.stale.icacheLocked,
    c ∈ s.stale.icacheLocked ∨ (OldContent s t c ∧ s.icacheOn = true ∧ s.stale.mayLock c.1 = true)
  inPrefetch : ∀ a, t.mem.byte a ≠ s.mem.byte a → (a, s.mem.byte a) ∈ t.stale.prefetch
  inIcache : ∀ a, s.icacheOn = true → t.mem.byte a ≠ s.mem.byte a → s.stale.mayLock a = false →
    (a, s.mem.byte a) ∈ t.stale.icache
  inLocked : ∀ a, s.icacheOn = true → t.mem.byte a ≠ s.mem.byte a → s.stale.mayLock a = true →
    (a, s.mem.byte a) ∈ t.stale.icacheLocked

/-- What is noted depends on the bytes of memory and on what a fetch may see. -/
theorem Noted.congr {W : Set Nat} {s t u : State} (h : Noted W s t) (hm : ∀ a, u.mem.byte a = t.mem.byte a)
    (hs : u.stale = t.stale) : Noted W s u := by
  obtain ⟨h1, h2, h3, h4, h5, h6, h7, h8, h9⟩ := h
  constructor
  case prefetch | icache | icacheLocked =>
    simp only [OldContent, hm, hs]
    assumption
  all_goals
    simp only [hm, hs]
    assumption

theorem Noted.refl (s : State) : Noted ∅ s s where
  outside _ _ := ⟨rfl, rfl⟩
  mayLock _ h := h
  fresh _ _ h _ := absurd rfl h
  prefetch _ h := .inl h
  icache _ h := .inl h
  icacheLocked _ h := .inl h
  inPrefetch _ h := absurd rfl h
  inIcache _ _ h _ := absurd rfl h
  inLocked _ _ h _ := absurd rfl h

theorem Noted.mono {W W' : Set Nat} {s t : State} (h : Noted W s t) (hw : W ⊆ W') : Noted W' s t :=
  { h with outside := fun a ha => h.outside a fun c => ha (hw c) }

/-- One more byte stored, at an address not stored to before. -/
theorem Noted.put {W : Set Nat} {s u : State} (h : Noted W s u) (hf : SystemFrame s u) {a : Nat} (hw : a ∉ W)
    (b : Byte) : Noted (insert a W) s (u.putByte a b) := by
  obtain ⟨hm, hst⟩ | ⟨hb, hm, hst⟩ := putByte_cases u a b
  · exact (h.congr hm hst).mono (Set.subset_insert a W)
  · obtain ⟨hbyte, hlock⟩ := h.outside a hw
    have hon : u.icacheOn = s.icacheOn := by
      unfold State.icacheOn
      rw [hf.config, hf.cfg]
    obtain ⟨hpre, hic, hlk, hother, hself⟩ := staleAfter_changed (s := u) (a := a) hb
    rw [← hst] at hpre hic hlk hother hself
    rw [hbyte] at hpre hic hlk hb
    rw [hon, hlock] at hic hlk hself
    rw [hf.cfg] at hself
    have hself_old : OldContent s (u.putByte a b) (a, s.mem.byte a) := ⟨rfl, by rw [hm, if_pos rfl]; exact hb.symm⟩
    have hold : ∀ c, OldContent s u c → OldContent s (u.putByte a b) c := by
      rintro ⟨x, v⟩ ⟨h1, h2⟩
      have hx : x ≠ a := by
        rintro rfl
        exact h2 (hbyte.trans h1.symm)
      exact ⟨h1, by rwa [hm, if_neg hx]⟩
    have hchanged : ∀ x, (u.putByte a b).mem.byte x ≠ s.mem.byte x → x = a ∨ (x ≠ a ∧ u.mem.byte x ≠ s.mem.byte x) := by
      intro x hx
      rw [hm] at hx
      by_cases hxa : x = a
      · exact .inl hxa
      · rw [if_neg hxa] at hx
        exact .inr ⟨hxa, hx⟩
    refine ⟨fun x hx => ?_, fun x hl => ?_, fun x ho hx hlic => ?_, fun c hc => ?_, fun c hc => ?_, fun c hc => ?_,
      fun x hx => ?_, fun x ho hx hl => ?_, fun x ho hx hl => ?_⟩
    · have hxa : x ≠ a := fun c => hx (.inl c)
      obtain ⟨h1, h2⟩ := h.outside x fun c => hx (.inr c)
      exact ⟨by rw [hm, if_neg hxa, h1], by rw [hother x hxa, h2]⟩
    · by_cases hxa : x = a
      · subst hxa
        exact (hself hl).1
      · exact h.mayLock x (by rwa [hother x hxa] at hl)
    · obtain rfl | ⟨hxa, hx⟩ := hchanged x hx
      · by_contra hl
        obtain ⟨-, hoff | hlic'⟩ := hself (by simpa using hl)
        · rw [ho] at hoff
          cases hoff
        · rw [hlic] at hlic'
          cases hlic'
      · rw [hother x hxa]
        exact h.fresh x ho hx hlic
    · obtain rfl | hc := (hpre c).1 hc
      · exact .inr hself_old
      · exact (h.prefetch c hc).imp_right (hold c)
    · obtain ⟨rfl, ho, hl⟩ | hc := (hic c).1 hc
      · exact .inr ⟨hself_old, ho, hl⟩
      · exact (h.icache c hc).imp_right fun ⟨h1, h2⟩ => ⟨hold c h1, h2⟩
    · obtain ⟨rfl, ho, hl⟩ | hc := (hlk c).1 hc
      · exact .inr ⟨hself_old, ho, hl⟩
      · exact (h.icacheLocked c hc).imp_right fun ⟨h1, h2⟩ => ⟨hold c h1, h2⟩
    · rw [hpre]
      obtain rfl | ⟨-, hx⟩ := hchanged x hx
      · exact .inl rfl
      · exact .inr (h.inPrefetch x hx)
    · rw [hic]
      obtain rfl | ⟨-, hx⟩ := hchanged x hx
      · exact .inl ⟨rfl, ho, hl⟩
      · exact .inr (h.inIcache x ho hx hl)
    · rw [hlk]
      obtain rfl | ⟨-, hx⟩ := hchanged x hx
      · exact .inl ⟨rfl, ho, hl⟩
      · exact .inr (h.inLocked x ho hx hl)

theorem Changes.noted {W : Set Nat} {s t : State} (h : Changes s W t) : Noted W s t := by
  induction h with
  | refl => exact .refl s
  | update _ hl ih => exact ih.congr (fun _ => by rw [hl.mem]) hl.stale
  | put h a b _ hw ih => exact ih.put h.frame hw b
  | mono _ hw ih => exact ih.mono hw

/-! ### A whole step -/

/-- What a step leaves to be fetched, as the third clause of FetchSeesMemory says it. -/
structure FetchRule (s t : State) : Prop where
  olds : ∀ c ∈ t.stale.olds, c ∈ s.stale.olds ∨ (c.2 = s.mem.byte c.1 ∧ t.mem.byte c.1 ≠ c.2)
  inPrefetch : ∀ a, t.mem.byte a ≠ s.mem.byte a → t.stale.prefetch = [] ∨ (a, s.mem.byte a) ∈ t.stale.prefetch
  inCache : ∀ a, s.icacheOn = true → t.mem.byte a ≠ s.mem.byte a →
    (s.stale.mayLock a = true → (a, s.mem.byte a) ∈ t.stale.icacheLocked ∧
      (s.cfg.lic = false → t.stale.mayLock a = false)) ∧
    (s.stale.mayLock a = false → (a, s.mem.byte a) ∈ t.stale.icache)
  icache : ∀ c ∈ t.stale.icache, c ∈ s.stale.icache ∨ (s.icacheOn = true ∧ s.stale.mayLock c.1 = false)
  icacheLocked : ∀ c ∈ t.stale.icacheLocked,
    c ∈ s.stale.icacheLocked ∨ (s.icacheOn = true ∧ s.stale.mayLock c.1 = true)
  mayLock : ∀ a, t.stale.mayLock a = true → s.stale.mayLock a = true ∨ t.lockingLines = true

theorem mem_olds {st : Stale} {c : Host.Cell} :
    c ∈ st.olds ↔ c ∈ st.prefetch ∨ c ∈ st.icache ∨ c ∈ st.icacheLocked := by
  simp [Stale.olds]

/-- A chain of changes, at whose end the prefetched words may be discarded (R622). -/
theorem Noted.fetchRule {W : Set Nat} {s u t : State} (h : Noted W s u) (hm : t.mem = u.mem)
    (hs : t.stale = u.stale ∨ t.stale = { u.stale with prefetch := [] }) : FetchRule s t := by
  obtain ⟨hpre, hic, hlk, hml⟩ : (t.stale.prefetch = u.stale.prefetch ∨ t.stale.prefetch = []) ∧
      t.stale.icache = u.stale.icache ∧ t.stale.icacheLocked = u.stale.icacheLocked ∧
      ∀ a, t.stale.mayLock a = u.stale.mayLock a := by
    obtain hs | hs := hs
    · rw [hs]
      exact ⟨.inl rfl, rfl, rfl, fun _ => rfl⟩
    · rw [hs]
      exact ⟨.inr rfl, rfl, rfl, fun _ => rfl⟩
  refine ⟨fun c hc => ?_, fun a ha => ?_, fun a ho ha => ⟨fun hl => ⟨?_, fun hlic => ?_⟩, fun hl => ?_⟩, fun c hc => ?_,
    fun c hc => ?_, fun a ha => ?_⟩
  · have hold : OldContent s u c → c.2 = s.mem.byte c.1 ∧ t.mem.byte c.1 ≠ c.2 := fun hc => by rwa [hm]
    obtain hc | hc | hc := mem_olds.1 hc
    · obtain hpre | hpre := hpre
      · exact (h.prefetch c (hpre ▸ hc)).imp (fun hc => mem_olds.2 (.inl hc)) hold
      · rw [hpre] at hc
        cases hc
    · exact (h.icache c (hic ▸ hc)).imp (fun hc => mem_olds.2 (.inr (.inl hc))) fun hc => hold hc.1
    · exact (h.icacheLocked c (hlk ▸ hc)).imp (fun hc => mem_olds.2 (.inr (.inr hc))) fun hc => hold hc.1
  · rw [hm] at ha
    obtain hpre | hpre := hpre
    · exact .inr (hpre ▸ h.inPrefetch a ha)
    · exact .inl hpre
  · exact hlk ▸ h.inLocked a ho (hm ▸ ha) hl
  · rw [hml]
    exact h.fresh a ho (hm ▸ ha) hlic
  · exact hic ▸ h.inIcache a ho (hm ▸ ha) hl
  · exact (h.icache c (hic ▸ hc)).imp_right fun hc => hc.2
  · exact (h.icacheLocked c (hlk ▸ hc)).imp_right fun hc => hc.2
  · exact .inl (h.mayLock a (hml a ▸ ha))

/-- Where no byte changes, it is enough that nothing is added to what may be fetched. -/
theorem fetchRule_of_mem {s t : State} (hm : t.mem = s.mem) (holds : ∀ c ∈ t.stale.olds, c ∈ s.stale.olds)
    (hic : ∀ c ∈ t.stale.icache, c ∈ s.stale.icache) (hlk : ∀ c ∈ t.stale.icacheLocked, c ∈ s.stale.icacheLocked)
    (hml : ∀ a, t.stale.mayLock a = true → s.stale.mayLock a = true ∨ t.lockingLines = true) : FetchRule s t where
  olds c hc := .inl (holds c hc)
  inPrefetch a ha := absurd (by rw [hm]) ha
  inCache a _ ha := absurd (by rw [hm]) ha
  icache c hc := .inl (hic c hc)
  icacheLocked c hc := .inl (hlk c hc)
  mayLock := hml

theorem fetchRule_dropIcache {s t : State} (hm : t.mem = s.mem)
    (hs : t.stale.prefetch = s.dropIcache.stale.prefetch ∨ t.stale.prefetch = []) (hic : t.stale.icache = [])
    (hlk : t.stale.icacheLocked = []) (hl : t.stale.locked = true → t.lockingLines = true) : FetchRule s t := by
  refine fetchRule_of_mem hm (fun c hc => ?_) (by simp [hic]) (by simp [hlk]) fun a ha => .inr (hl ?_)
  · rw [mem_olds, hic, hlk] at hc
    obtain hs | hs := hs
    · simp only [hs, dropIcache_stale, mem_foldr_remember, List.mem_append, List.not_mem_nil, or_false] at hc
      obtain (hc | hc) | hc := hc
      · exact mem_olds.2 (.inr (.inl hc))
      · exact mem_olds.2 (.inr (.inr hc))
      · exact mem_olds.2 (.inl hc)
    · simp [hs] at hc
  · exact (Bool.and_eq_true_iff.1 ha).1

theorem fetchRule_dropUnlocked {s t : State} (hm : t.mem = s.mem) (hs : t.stale = s.dropUnlocked.stale) :
    FetchRule s t := by
  refine fetchRule_of_mem hm (fun c hc => ?_) (by simp [hs]) (by simp [hs]) fun a ha => .inl ?_
  · rw [mem_olds, hs] at hc
    simp only [dropUnlocked_stale, mem_foldr_remember, List.not_mem_nil, false_or] at hc
    obtain (hc | hc) | hc := hc
    · exact mem_olds.2 (.inr (.inl hc))
    · exact mem_olds.2 (.inl hc)
    · exact mem_olds.2 (.inr (.inr hc))
  · rw [hs] at ha
    exact ha

/-- Of the processor registers CFG alone changes what a fetch may see, and of two writes neither is of CFG. -/
theorem Control.code {s t : State} (h : Control s t) : t.mem = s.mem ∧ t.config = s.config ∧
    ((t.cfg = s.cfg ∧ t.stale = s.stale) ∨ ∃ v, t = s.writeCfg v) := by
  cases h with
  | none => exact ⟨rfl, rfl, .inl ⟨rfl, rfl⟩⟩
  | one n v =>
    refine ⟨prWrite16_mem s n v, prWrite16_config s n v, ?_⟩
    by_cases hn : n = 8
    · subst hn
      exact .inr ⟨v, rfl⟩
    · exact .inl (prWrite16_code hn v)
  | two n v v' hn hn' =>
    have h1 := prWrite16_code (s := s) hn v
    have h2 := prWrite16_code (s := s.prWrite16 n v) hn' v'
    exact ⟨by rw [prWrite16_mem, prWrite16_mem], by rw [prWrite16_config, prWrite16_config],
      .inl ⟨h2.1.trans h1.1, h2.2.trans h1.2⟩⟩

/-- LPR and LPRD discard what was prefetched (R329, R622). -/
theorem Control.fetchRule {s u t : State} (h : Control s u) (ht : t = u.serialize.advance 4) : FetchRule s t := by
  obtain ⟨hm, -, ⟨-, hs⟩ | ⟨v, rfl⟩⟩ := h.code
  · rw [ht]
    exact (Noted.refl s).fetchRule hm (.inr (by rw [← hs]; rfl))
  · obtain hw | ⟨hl, hw⟩ | ⟨-, -, hw⟩ := writeCfg_cases s v
    · rw [ht, hw]
      exact fetchRule_dropIcache rfl (.inr rfl) rfl rfl fun h => h
    · rw [ht, hw]
      refine fetchRule_of_mem rfl (fun c hc => mem_olds.2 (.inr ?_)) (fun _ h => h) (fun _ h => h) fun _ _ => .inr hl
      exact (mem_olds.1 hc).resolve_left List.not_mem_nil
    · rw [ht, hw]
      exact (Noted.refl s).fetchRule rfl (.inr rfl)

theorem enter_fetchRule (s : State) (x : Exc) (ret : Addr) : FetchRule s (s.enter x ret) :=
  have ⟨_, _, hu, hm, hs, _⟩ := enter_changes s x ret
  hu.noted.fetchRule hm (.inr hs)

theorem Ran.fetchRule {s t : State} (h : Ran s t) : FetchRule s t := by
  cases h with
  | runs h => exact h.noted.fetchRule rfl (.inl rfl)
  | cache h =>
    obtain rfl | rfl := h
    · exact fetchRule_dropIcache rfl (.inl rfl) rfl rfl fun h => h
    · exact fetchRule_dropUnlocked rfl rfl
  | control _ h => exact h.fetchRule rfl
  | enters x => exact enter_fetchRule s x s.pc
  | returns =>
    refine (Noted.refl s).fetchRule ?_ (.inr ?_)
    · rw [returnFrom_eq]
    · rw [returnFrom_eq]
  | toUser p => exact (Noted.refl s).fetchRule rfl (.inl rfl)

/-- A local change before a step makes no difference to the rule. -/
theorem FetchRule.of_local {s u t : State} (h : FetchRule u t) (hl : Local s u) : FetchRule s t := by
  have hon : u.icacheOn = s.icacheOn := by
    unfold State.icacheOn
    rw [hl.config, hl.cfg]
  obtain ⟨h1, h2, h3, h4, h5, h6⟩ := h
  rw [hl.mem, hl.stale] at h1
  rw [hl.mem] at h2
  rw [hl.mem, hl.stale, hl.cfg, hon] at h3
  rw [hl.stale, hon] at h4 h5
  rw [hl.stale] at h6
  exact ⟨h1, h2, h3, h4, h5, h6⟩

theorem Stepped.fetchRule {s t : State} (h : Stepped s t) : FetchRule s t := by
  cases h with
  | reset _ => exact fetchRule_dropIcache rfl (.inl rfl) rfl rfl fun h => h.symm ▸ (by cases h)
  | entered h x => exact (enter_fetchRule _ x _).of_local h
  | idle h => exact ((Noted.refl _).fetchRule rfl (.inl rfl)).of_local h
  | ran _ hx => exact (exec_ran _ _ _ hx).fetchRule.of_local (local_started s)

/-- Settles O8: a fetched byte by its definition, a step by the forms of its effect on memory and the caches. -/
theorem fetchSeesMemory : Obligations.FetchSeesMemory := by
  unfold Obligations.FetchSeesMemory
  refine ⟨fetchByte_cases, fun s ho hd => fetchWords_memory ho hd, fun s t h => ?_⟩
  obtain ⟨h1, h2, h3, h4, h5, h6⟩ := (step_stepped s t h).fetchRule
  exact ⟨h1, h2, h3, h4, h5, h6⟩

end Sys2Proof.Proofs

/-! PROOFS. A masked request makes no difference to a step (spec/10_state.md R34, spec/60_exceptions.md R520, R552), and
right after EI, DI or EIWAIT the new or the old E decides (R624). -/

namespace Sys2Proof.Proofs

open Sys2Proof.Machine Sys2Proof.Laws

/-! ### The one line of R530 that looks at the request -/

/-- A request that is not accepted is as good as none, and then E does not count. -/
theorem checks_ignored (u : State) (inp : Inputs) {e : Bool} (e' : Bool) (h : (inp.int && u.psr.i && e) = false) :
    u.checks inp e = u.checks { inp with int := false } e' := by
  have hpsr : (u.afterTag inp).psr = u.psr := by
    unfold State.afterTag
    split <;> rfl
  have hlines : (u.afterTag inp).afterChecks inp e = (u.afterTag inp).afterChecks { inp with int := false } e' := by
    unfold State.afterChecks
    rw [hpsr, h]
    rfl
  unfold State.checks
  rw [hlines]
  rfl

/-- A state in which the coming maskable request is withdrawn. -/
def withoutRequest (s : State) : State := { s with inputs := { s.nextInputs with int := false } :: s.inputs.tail }

/-- The boundary with the request withdrawn: nothing but the request is different. -/
theorem boundary_withoutRequest (s : State) : (withoutRequest s).boundary =
    if s.nextInputs.reset then .next { s with inputs := s.inputs.tail }.resetInput
    else s.takeInputs.endLag.checks { s.nextInputs with int := false } s.effectiveE := rfl

/-- Without a reset a step goes on to the checks. -/
theorem step_checks {s : State} (hpc : s.pc.getLsbD 0 = false) (hr : s.nextInputs.reset = false) :
    step s = s.takeInputs.endLag.checks s.nextInputs s.effectiveE := by
  unfold step State.boundary
  rw [hpc, hr]
  rfl

/-- The state before the checks where the external illegal-address line is inactive. -/
theorem takeInputs_endLag_eq {s : State} (h : s.nextInputs.extIad = false) :
    s.takeInputs.endLag = s.afterInputs.endLag := by
  unfold State.takeInputs
  rw [h, Bool.and_false]
  rfl

theorem takeInputs_endLag_psr (s : State) : s.takeInputs.endLag.psr = s.psr := by
  unfold State.takeInputs
  simp only
  split <;> rfl

/-- A request withdrawn is not missed where it is not accepted. -/
theorem step_withoutRequest {s : State} (h : (s.psr.i && s.effectiveE) = false) :
    step s = step (withoutRequest s) := by
  have hb : s.boundary = (withoutRequest s).boundary := by
    rw [boundary_withoutRequest, State.boundary,
      checks_ignored s.takeInputs.endLag s.nextInputs s.effectiveE (by
        rw [takeInputs_endLag_psr, Bool.and_assoc, h, Bool.and_false])]
  unfold step
  rw [hb]
  rfl

/-! ### A calm boundary reaches the interrupts -/

/-- What holds of no bank holds of no implemented one. -/
theorem anyBank_false {d : DebugUnit} {p : DebugBank → Bool} (last : BitVec 2) (h : ∀ b, p (d.get b) = false) :
    d.anyBank last p = false := by
  rw [← Bool.not_eq_true, anyBank_iff]
  rintro ⟨b, _, hb⟩
  rw [h b] at hb
  cases hb

theorem maskedRange_off {u : State} (h : Undebugged u) : u.maskedRange = false :=
  anyBank_false _ fun b => by
    unfold DebugBank.maskedRange DebugBank.dcrBit
    rw [if_neg Bool.false_ne_true, (h b).1, Bool.and_false, Bool.false_and]

theorem tagHit_off {u : State} (h : Undebugged u) (last : BitVec 2) (a : Addr) : u.dbg.tagHit last a false = false := by
  unfold DebugUnit.tagHit
  rw [Bool.and_false, Bool.or_false]
  refine anyBank_false _ fun b => ?_
  unfold DebugBank.tagHits
  rw [off_pcHits _ (h b).1 (h b).2]
  split <;> rfl

theorem afterTag_bank_off {b : DebugBank} (h0 : b.dcrl.getLsbD 7 = false) (h1 : b.dcrl.getLsbD 15 = false) (a : Addr) :
    b.afterTag a = b := by
  have hhits : b.tagHits a = (false, false) := by
    unfold DebugBank.tagHits
    rw [off_pcHits b h0 h1]
    split <;> rfl
  have hch : b.pcHitCh false a = false := by
    unfold DebugBank.pcHitCh
    rw [off_pc b h0 h1, Bool.false_and]
  unfold DebugBank.afterTag
  rw [hhits, hch, record_none]
  simp

/-- With no condition enabled and no external tag the tag check leaves the state (R561, R567). -/
theorem afterTag_off {u : State} (h : Undebugged u) {inp : Inputs} (hb : inp.brkl = false) : u.afterTag inp = u := by
  have h0 := afterTag_bank_off (h 0).1 (h 0).2 u.pc
  have h1 := afterTag_bank_off (h 1).1 (h 1).2 u.pc
  have h2 := afterTag_bank_off (h 2).1 (h 2).2 u.pc
  have h3 := afterTag_bank_off (h 3).1 (h 3).2 u.pc
  change u.dbg.bank0.afterTag u.pc = u.dbg.bank0 at h0
  change u.dbg.bank1.afterTag u.pc = u.dbg.bank1 at h1
  change u.dbg.bank2.afterTag u.pc = u.dbg.bank2 at h2
  change u.dbg.bank3.afterTag u.pc = u.dbg.bank3 at h3
  have hd : u.dbg.afterTag u.config.lastBank u.pc false = u.dbg := by
    unfold DebugUnit.afterTag DebugUnit.mapBanks
    simp [h0, h1, h2, h3, tagHit_off h]
  unfold State.afterTag
  rw [hb, hd]
  split <;> rfl

/-- A calm boundary reaches the interrupts (R530). -/
theorem checks_calm {u : State} (h : Undebugged u) (hp : u.dbg.pending = false) (hi : u.iadPending = false)
    {inp : Inputs} (hb : inp.brkl = false) (e : Bool) : u.checks inp e = u.afterChecks inp e := by
  have ht : u.tagged inp = false := by
    unfold State.tagged
    rw [hb, tagHit_off h, Bool.and_false]
  unfold State.checks
  rw [maskedRange_off h, hp, hi, ht, afterTag_off h hb]
  rfl

/-- A maskable interrupt is accepted (R520, R521). -/
theorem afterChecks_int {u : State} {inp : Inputs} (hn : inp.nmi = false) (hint : inp.int = true)
    (hi : u.psr.i = true) (h16 : 16 ≤ inp.ack.toNat) (h127 : inp.ack.toNat ≤ 127) :
    u.afterChecks inp true = .next (u.enter (.int inp.ack) u.pc) := by
  have hack : (16 ≤ inp.ack && inp.ack ≤ 127) = true := by
    simp [BitVec.le_def, h16, h127]
  unfold State.afterChecks State.enterInt
  rw [hn, hint, hi, hack]
  rfl

/-- A calm boundary accepts an enabled request. -/
theorem checks_int {u : State} (h : Undebugged u) (hp : u.dbg.pending = false) (hiad : u.iadPending = false)
    {inp : Inputs} (hb : inp.brkl = false) (hn : inp.nmi = false) (hint : inp.int = true) (hi : u.psr.i = true)
    (h16 : 16 ≤ inp.ack.toNat) (h127 : inp.ack.toNat ≤ 127) :
    u.checks inp true = .next (u.enter (.int inp.ack) u.pc) :=
  (checks_calm h hp hiad hb true).trans (afterChecks_int hn hint hi h16 h127)

theorem effectiveE_of_lag {s : State} {old : Bool} (h : s.eLag = some old) :
    s.effectiveE = s.psr.e ∨ s.effectiveE = old := by
  unfold State.effectiveE
  rw [h]
  simp only
  split
  · exact .inl rfl
  · exact .inr rfl

theorem effectiveE_of_none {s : State} (h : s.eLag = none) : s.effectiveE = s.psr.e := by
  unfold State.effectiveE
  rw [h]

/-- A step with the request withdrawn, the external illegal-address line inactive and E definite. -/
theorem step_withoutRequest_calm {u : State} (hpc : u.pc.getLsbD 0 = false) (hr : u.nextInputs.reset = false)
    (hext : u.nextInputs.extIad = false) (hlag : u.eLag = none) :
    step (withoutRequest u) = u.afterInputs.endLag.checks { u.nextInputs with int := false } u.psr.e := by
  have hstep : step (withoutRequest u) = (withoutRequest u).boundary := by
    have hodd : (withoutRequest u).pc.getLsbD 0 = false := hpc
    unfold step
    rw [hodd]
    rfl
  rw [hstep, boundary_withoutRequest, hr, takeInputs_endLag_eq hext, effectiveE_of_none hlag]
  rfl

/-- Settles O22: the request is looked at in one line of R530, where I and the effective E mask it. -/
theorem interruptEnable : Obligations.InterruptEnable := by
  unfold Obligations.InterruptEnable
  intro s
  refine ⟨fun h => step_withoutRequest ?_, fun old hlag hcalm hn hint hi h16 h127 => ?_⟩
  · obtain hi | ⟨he, hlag⟩ := h
    · rw [hi, Bool.false_and]
    · rw [effectiveE_of_none hlag, he, Bool.and_false]
  · obtain ⟨hpc, hreset, hext, hbrkl, hpend, hiad, -, hoff⟩ := hcalm
    have hlagged : s.afterInputs.endLag = { s.afterInputs with eLag := none, draws := s.draws + 1 } := by
      unfold State.endLag State.afterInputs
      rw [hlag]
      rfl
    refine ⟨s.effectiveE, s.draws + 1, effectiveE_of_lag hlag, ?_⟩
    have hstep : step s = s.afterInputs.endLag.checks s.nextInputs s.effectiveE := by
      rw [step_checks (s := s) hpc hreset, takeInputs_endLag_eq (s := s) hext]
    rw [hstep]
    cases he : s.effectiveE with
    | true =>
      have hint := checks_int (u := s.afterInputs.endLag) hoff hpend hiad hbrkl hn hint hi h16 h127
      rw [hlagged] at hint ⊢
      exact hint
    | false =>
      have hsame := checks_ignored s.afterInputs.endLag s.nextInputs s.psr.e (by rw [Bool.and_false])
      have hignored := step_withoutRequest_calm (u := { s with eLag := none, draws := s.draws + 1 }) hpc hreset hext rfl
      rw [hsame, hlagged, if_neg Bool.false_ne_true]
      exact hignored.symm

end Sys2Proof.Proofs

/-! PROOFS. The data accesses of an instruction and of an exception entry, in their order, as the comparators see them
(spec/60_exceptions.md R510, R562 to R568, spec/20_memory.md R87). -/

namespace Sys2Proof.Proofs

open Sys2Proof.Machine Sys2Proof.Laws

/-! ### Sequences of accesses -/

theorem sawAll_one {last : BitVec 2} {x : Int × Bool} {d e : DebugUnit} (h : DebugUnit.Saw last x d e) :
    DebugUnit.SawAll last [x] d e :=
  ⟨e, h, rfl⟩

theorem sawAll_congr {last : BitVec 2} {l : List (Int × Bool)} {d e e' : DebugUnit}
    (h : DebugUnit.SawAll last l d e) (he : e' = e) : DebugUnit.SawAll last l d e' :=
  he ▸ h

theorem sawAll_append {last : BitVec 2} {k l : List (Int × Bool)} : ∀ {d m e : DebugUnit},
    DebugUnit.SawAll last k d m → DebugUnit.SawAll last l m e → DebugUnit.SawAll last (k ++ l) d e := by
  induction k with
  | nil =>
    intro d m e h h'
    obtain rfl : m = d := h
    exact h'
  | cons x rest ih =>
    rintro d m e ⟨u, hu, h⟩ h'
    exact ⟨u, hu, ih h h'⟩

section Accesses

variable (s : State)

/-! ### What leaves the debug unit -/

theorem setReg_dbg (n : RegNum) (v : Word) : (s.setReg n v).dbg = s.dbg := by rw [setReg_eq]

theorem setPair_dbg (n : PairNum) (v : DWord) : (s.setPair n v).dbg = s.dbg := by rw [setPair_eq]

theorem storeBytes_config (a : Int) (bs : List Byte) : (s.storeBytes a bs).config = s.config := by rw [storeBytes_spec]

theorem checkAddress_dbg (a : Int) : (s.checkAddress a).dbg = s.dbg ∧ (s.checkAddress a).config = s.config := by
  rw [checkAddress_eq]
  exact ⟨rfl, rfl⟩

/-! ### Loads, stores and bits -/

theorem noteRead_sawAll (a : Int) (n : Nat) :
    DebugUnit.SawAll s.config.lastBank [(a, false)] s.dbg (s.noteRead a n).dbg :=
  sawAll_one (noteRead_saw s a n)

theorem storeBytes_sawAll (a : Int) (bs : List Byte) :
    DebugUnit.SawAll s.config.lastBank [(a, true)] s.dbg (s.storeBytes a bs).dbg :=
  sawAll_one (storeBytes_saw s a bs)

/-- A read and then a write of the same address, a status bit set between them. -/
theorem read_then_store_sawAll (a : Int) (n : Nat) (f : Bool) (bs : List Byte) :
    DebugUnit.SawAll s.config.lastBank [(a, false), (a, true)] s.dbg
      (((s.noteRead a n).setF f).storeBytes a bs).dbg := by
  have hstore := storeBytes_saw ((s.noteRead a n).setF f) a bs
  rw [setF_config, noteRead_config] at hstore
  exact ⟨_, noteRead_saw s a n, sawAll_one hstore⟩

theorem changeBitB_sawAll (a : Int) (b : Nat) (x : Bool) :
    DebugUnit.SawAll s.config.lastBank [(a, false), (a, true)] s.dbg (s.changeBitB a b x).dbg :=
  read_then_store_sawAll s a 1 _ _

/-- The address BitSel names: that of the word, or of the one byte touched where the word lies at an odd address. -/
theorem bitSel_fst (a : Int) (pos : BitVec 4) :
    (bitSel a pos).1 = if a % 2 = 0 then a else a + pos.toNat / 8 := by
  unfold bitSel
  split <;> rfl

theorem changeBit_sawAll (a : Int) (pos : BitVec 4) (x : Bool) :
    DebugUnit.SawAll s.config.lastBank [((bitSel a pos).1, false), ((bitSel a pos).1, true)] s.dbg
      (s.changeBit a pos x).dbg := by
  unfold State.changeBit
  simp only
  split
  · exact changeBitB_sawAll s _ _ _
  · exact read_then_store_sawAll s _ 2 _ _

theorem testBit_sawAll (a : Int) (pos : BitVec 4) :
    DebugUnit.SawAll s.config.lastBank [((bitSel a pos).1, false)] s.dbg (s.testBit a pos).dbg := by
  unfold State.testBit
  simp only
  split
  · exact noteRead_sawAll s _ 1
  · exact noteRead_sawAll s _ 2

/-! ### Transfers -/

theorem mSlots_length : ∀ count : BitVec 3, (mSlots count).length = count.toNat + 1 := by decide

theorem loadm_sawAll (a : Int) (count : BitVec 3) :
    DebugUnit.SawAll s.config.lastBank (wordAccesses a (count.toNat + 1) false) s.dbg
      (s.loadSlots a (mSlots count)).dbg := by
  have h := loadSlots_saw (mSlots count) s a
  rwa [mSlots_length] at h

theorem storm_sawAll (a : Int) (count : BitVec 3) :
    DebugUnit.SawAll s.config.lastBank (wordAccesses a (count.toNat + 1) true) s.dbg
      (s.storeWords a ((mSlots count).map s.slot)).dbg := by
  have h := storeWords_saw ((mSlots count).map s.slot) s a
  rwa [List.length_map, mSlots_length] at h

theorem popSlots_sawAll (ra : Bool) (count : BitVec 3) (n : RegNum) :
    DebugUnit.SawAll s.config.lastBank
      (wordAccesses (s.pair 15).toNat (stackSlots s.cfg.sr ra count n).length false) s.dbg
      (s.popSlots ra count n).dbg := by
  unfold State.popSlots
  simp only
  rw [setPair_dbg]
  exact loadSlots_saw _ s _

/-- PUSH looks at the stack pointer first, which is no access (R92). -/
theorem push_sawAll (a b : Int) (ws : List Word) :
    DebugUnit.SawAll s.config.lastBank (wordAccesses a ws.length true) s.dbg
      ((s.checkAddress b).storeWords a ws).dbg := by
  obtain ⟨hdbg, hconfig⟩ := checkAddress_dbg s b
  rw [← hdbg, ← hconfig]
  exact storeWords_saw ws _ a

/-! ### The return from an exception -/

/-- The two reads of the frame, at an address that stands by itself (R362). -/
theorem returnFrom_sawAll {a : Int} (h : (s.isp.toNat : Int) = a) :
    DebugUnit.SawAll s.config.lastBank [(a, false), (a + 4, false)] s.dbg s.returnFrom.dbg := by
  have hread := noteRead_saw (s.noteRead a 4) (a + 4) 2
  rw [noteRead_config] at hread
  rw [returnFrom_dbg s a h]
  exact ⟨_, noteRead_saw s a 4, sawAll_one hread⟩

end Accesses

/-! ### Instructions -/

/-- The instruction answers a next state, and its accesses are those listed. -/
def Accesses (i : Instr) (l : List (Int × Bool)) (s : State) : Prop :=
  ∃ t : State, exec i s = .next t ∧ DebugUnit.SawAll s.config.lastBank l s.dbg t.dbg

section Instructions

variable {s : State} {a : Int}

/-- An instruction that goes on with an effective address. -/
theorem accesses_withEa {i : Instr} {l : List (Int × Bool)} {ea : Option Int} {f : Int → State} (hea : ea = some a)
    (hi : exec i s = withEa ea f) (h : DebugUnit.SawAll s.config.lastBank l s.dbg (f a).dbg) : Accesses i l s :=
  ⟨f a, by rw [hi, hea]; rfl, h⟩

theorem accesses_loadb {m : MemAddr} (h : s.ea 1 m = some a) (r : RegNum) : Accesses (.loadb m r) [(a, false)] s :=
  accesses_withEa h rfl (sawAll_congr (noteRead_sawAll s a 1) (setReg_dbg _ r _))

theorem accesses_loadw {m : MemAddr} (h : s.ea 2 m = some a) (r : RegNum) : Accesses (.loadw m r) [(a, false)] s :=
  accesses_withEa h rfl (sawAll_congr (noteRead_sawAll s a 2) (setReg_dbg _ r _))

theorem accesses_loadd {m : MemAddr} (h : s.ea 2 m = some a) (p : PairNum) : Accesses (.loadd m p) [(a, false)] s :=
  accesses_withEa h rfl (sawAll_congr (noteRead_sawAll s a 4) (setPair_dbg _ p _))

theorem accesses_storw {m : MemAddr} (h : s.ea 2 m = some a) (r : RegNum) : Accesses (.storw r m) [(a, true)] s :=
  accesses_withEa h rfl (storeBytes_sawAll s a _)

theorem accesses_stord {m : MemAddr} (h : s.ea 2 m = some a) (p : PairNum) : Accesses (.stord p m) [(a, true)] s :=
  accesses_withEa h rfl (storeBytes_sawAll s a _)

/-- The forms of one address that test, change or store bits (R309 to R316, R406, R407). -/
theorem accesses_bitAddr {d : BitAddr} (h : s.eaBit d = some a) (b3 : BitVec 3) (b4 : BitVec 4) {bit : Int}
    (hbit : bit = (bitSel a b4).1) {i : Instr} {l : List (Int × Bool)}
    (hi : (i, l) ∈ [(Instr.tbitb b3 d, [(a, false)]), (.tbitw b4 d, [(bit, false)]),
        (.storbImm b4 d, [(a, true)]), (.storwImm b4 d, [(a, true)]),
        (.cbitb b3 d, [(a, false), (a, true)]), (.sbitb b3 d, [(a, false), (a, true)]),
        (.cbitw b4 d, [(bit, false), (bit, true)]), (.sbitw b4 d, [(bit, false), (bit, true)])]) :
    Accesses i l s := by
  subst hbit
  simp only [List.mem_cons, Prod.mk.injEq, List.not_mem_nil, or_false] at hi
  obtain ⟨rfl, rfl⟩ | ⟨rfl, rfl⟩ | ⟨rfl, rfl⟩ | ⟨rfl, rfl⟩ | ⟨rfl, rfl⟩ | ⟨rfl, rfl⟩ | ⟨rfl, rfl⟩ | ⟨rfl, rfl⟩ := hi
  · exact accesses_withEa h rfl (noteRead_sawAll s a 1)
  · exact accesses_withEa h rfl (testBit_sawAll s a b4)
  · exact accesses_withEa h rfl (storeBytes_sawAll s a _)
  · exact accesses_withEa h rfl (storeBytes_sawAll s a _)
  · exact accesses_withEa h rfl (changeBitB_sawAll s a _ false)
  · exact accesses_withEa h rfl (changeBitB_sawAll s a _ true)
  · exact accesses_withEa h rfl (changeBit_sawAll s a b4 false)
  · exact accesses_withEa h rfl (changeBit_sawAll s a b4 true)

/-- The multiple transfers (R398). -/
theorem accesses_multiple (s : State) (b3 : BitVec 3) {i : Instr} {l : List (Int × Bool)}
    (hi : (i, l) ∈ [(Instr.loadm b3, wordAccesses (s.reg 0).toNat (b3.toNat + 1) false),
        (.loadmp b3, wordAccesses (s.pair 0).toNat (b3.toNat + 1) false),
        (.storm b3, wordAccesses (s.reg 1).toNat (b3.toNat + 1) true),
        (.stormp b3, wordAccesses (s.pair 6).toNat (b3.toNat + 1) true)]) : Accesses i l s := by
  simp only [List.mem_cons, Prod.mk.injEq, List.not_mem_nil, or_false] at hi
  obtain ⟨rfl, rfl⟩ | ⟨rfl, rfl⟩ | ⟨rfl, rfl⟩ | ⟨rfl, rfl⟩ := hi
  · exact ⟨_, rfl, sawAll_congr (loadm_sawAll s _ b3)
      (setReg_dbg _ 0 (s.reg 0 + BitVec.ofNat 16 (transferBytes b3)))⟩
  · exact ⟨_, rfl, sawAll_congr (loadm_sawAll s _ b3)
      (setPair_dbg _ 0 (s.pair 0 + BitVec.ofNat 32 (transferBytes b3)))⟩
  · exact ⟨_, rfl, sawAll_congr (storm_sawAll s _ b3)
      (setReg_dbg _ 1 (s.reg 1 + BitVec.ofNat 16 (transferBytes b3)))⟩
  · exact ⟨_, rfl, sawAll_congr (storm_sawAll s _ b3)
      (setPair_dbg _ 6 (s.pair 6 + BitVec.ofNat 32 (transferBytes b3)))⟩

/-- PUSH, POP and POPRET with valid parameters (R363 to R365). -/
theorem accesses_stack (s : State) {ra : Bool} {b3 : BitVec 3} {r : RegNum} (hv : stackValid s.cfg.sr b3 r = true)
    {k : Nat} (hk : k = (stackSlots s.cfg.sr ra b3 r).length) {i : Instr} {l : List (Int × Bool)}
    (hi : (i, l) ∈ [(Instr.push ra b3 r, wordAccesses (((s.pair 15).toNat : Int) - 2 * k) k true),
          (.pop ra b3 r, wordAccesses (s.pair 15).toNat k false),
          (.popret ra b3 r, wordAccesses (s.pair 15).toNat k false)]) : Accesses i l s := by
  subst hk
  simp only [List.mem_cons, Prod.mk.injEq, List.not_mem_nil, or_false] at hi
  obtain ⟨rfl, rfl⟩ | ⟨rfl, rfl⟩ | ⟨rfl, rfl⟩ := hi
  · have h := push_sawAll s (((s.pair 15).toNat : Int) - 2 * ((stackSlots s.cfg.sr ra b3 r).map s.slot).length)
      (s.pair 15).toNat ((stackSlots s.cfg.sr ra b3 r).map s.slot)
    rw [List.length_map] at h
    refine ⟨_, if_pos hv, ?_⟩
    change DebugUnit.SawAll _ _ _ (State.setPair _ _ _).dbg
    rw [setPair_dbg, List.length_map]
    exact h
  · exact ⟨_, if_pos hv, popSlots_sawAll s ra b3 r⟩
  · exact ⟨_, if_pos hv, popSlots_sawAll s ra b3 r⟩

/-- STORB is performed where it hits or not (R562). -/
theorem accesses_storb {m : MemAddr} (h : s.ea 1 m = some a) (r : RegNum) : ∃ t : State,
    exec (.storb r m) s = .next t ∧ DebugUnit.SawAll s.config.lastBank [(a, true)] s.dbg t.dbg ∧
      (0 ≤ a → a < 2 ^ 24 → s.isRam a.toNat = true → t.mem.byte a.toNat = s.regB r) := by
  obtain ⟨hstored, -⟩ := storeBytes_stored s a [s.regB r] (memAddrBytes m)
  refine ⟨(s.storeB a (s.regB r)).advance (memAddrBytes m), ?_, storeBytes_sawAll s a [s.regB r], fun h0 h1 hr => ?_⟩
  · change withEa (s.ea 1 m) _ = _
    rw [h]
    rfl
  · have hbyte := hstored ⟨h0, by simp only [List.length_cons, List.length_nil]; omega⟩ 0 (by simp) hr
    refine BitVec.eq_of_toNat_eq (hbyte.trans ?_)
    have := (s.regB r).isLt
    simp only [bytesValue, pow_zero, Nat.div_one]
    omega

end Instructions

/-! ### An exception entry (R510) -/

/-- The accesses of the frame: the PSR, then the PC. -/
theorem pushFrame_sawAll (s : State) (ret : Addr) : DebugUnit.SawAll s.config.lastBank
    [((s.isp.toNat : Int) - 2, true), ((s.isp.toNat : Int) - 6, true)] s.dbg (s.pushFrame ret).dbg := by
  have hpsr := storeBytes_saw (s.drew 1) ((s.isp.toNat : Int) - 6 + 4) (wordBytes s.psrRead)
  have hpc := storeBytes_saw ((s.drew 1).storeW ((s.isp.toNat : Int) - 6 + 4) s.psrRead) ((s.isp.toNat : Int) - 6)
    (dwordBytes (linkVal ret))
  have hconfig : ((s.drew 1).storeW ((s.isp.toNat : Int) - 6 + 4) s.psrRead).config = s.config :=
    storeBytes_config _ _ _
  rw [hconfig] at hpc
  rw [show (s.isp.toNat : Int) - 2 = (s.isp.toNat : Int) - 6 + 4 by omega]
  exact ⟨_, hpsr, sawAll_one hpc⟩

/-- The acknowledge read, where the exception makes one (R514, R521). -/
theorem acknowledge_sawAll (s : State) (x : Exc) : DebugUnit.SawAll s.config.lastBank
    ((x.ackAddr s.dbg.ctl).toList.map fun a => (a, false)) s.dbg (s.acknowledge x).dbg := by
  unfold State.acknowledge
  split
  · rename_i a h
    rw [h]
    exact noteRead_sawAll s a 1
  · rename_i h
    rw [h]
    rfl

theorem dispatch_sawAll (s : State) (x : Exc) : DebugUnit.SawAll s.config.lastBank
    [((s.dispatchEntry x).1, false)] s.dbg (s.dispatch x).dbg := by
  unfold State.dispatch
  simp only
  split
  · exact noteRead_sawAll s _ 4
  · exact noteRead_sawAll s _ 2

/-- EFB decides neither the acknowledge read nor the dispatch. -/
theorem Exc.ackAddr_efb (x : Exc) (c : DebugCtl) (efb : Bool) : x.ackAddr { c with efb := efb } = x.ackAddr c := by
  cases x <;> rfl

theorem Exc.alternate_efb (x : Exc) (c : DebugCtl) (efb : Bool) :
    x.alternate { c with efb := efb } = x.alternate c := by
  cases x <;> rfl

/-- The address of the dispatch-table entry in the registers before the entry (R510, R513). -/
def entryAddress (s : State) (x : Exc) : Int :=
  if x.alternate s.dbg.ctl then 4 * x.vector
  else if s.cfg.ed then s.intbase.toNat + 4 * x.vector else s.intbase.toNat + 2 * x.vector

theorem dispatchEntry_fst {s t : State} (x : Exc) (hd : DebugKept s.dbg t.dbg) (hi : t.intbase = s.intbase)
    (hc : t.cfg = s.cfg) : (t.dispatchEntry x).1 = entryAddress s x := by
  unfold State.dispatchEntry entryAddress
  rw [hd.ctl, Exc.alternate_efb, hi, hc]
  cases x.alternate s.dbg.ctl
  · cases s.cfg.ed <;> rfl
  · simp

/-- Every access of an entry, in its order. -/
theorem enter_sawAll (s : State) (x : Exc) (ret : Addr) : DebugUnit.SawAll s.config.lastBank
    ([((s.isp.toNat : Int) - 2, true), ((s.isp.toNat : Int) - 6, true)] ++
      (x.ackAddr s.dbg.ctl).toList.map (fun a => (a, false)) ++ [(entryAddress s x, false)])
    s.dbg (s.enter x ret).dbg := by
  obtain ⟨p, hp, hpdbg, hpisp, hpconf, hpint, hpcfg⟩ : ∃ p : State,
      p = (if x = .trc then { s with psr := { s.psr with p := false } } else s) ∧ p.dbg = s.dbg ∧ p.isp = s.isp ∧
        p.config = s.config ∧ p.intbase = s.intbase ∧ p.cfg = s.cfg := by
    refine ⟨_, rfl, ?_⟩
    split <;> exact ⟨rfl, rfl, rfl, rfl, rfl⟩
  obtain ⟨v, hv⟩ : ∃ v : State, v = { p.pushFrame ret with psr := x.psrAfter (p.pushFrame ret).psr } := ⟨_, rfl⟩
  have henter : (s.enter x ret).dbg = ((v.acknowledge x).dispatch x).dbg := by
    rw [State.enter, ← hp, hv]
    rfl
  have hvdbg : v.dbg = (p.pushFrame ret).dbg := by rw [hv]
  have hvconf : v.config = s.config := by rw [hv, pushFrame_eq, hpconf]
  have hvint : v.intbase = s.intbase := by rw [hv, pushFrame_eq, hpint]
  have hvcfg : v.cfg = s.cfg := by rw [hv, pushFrame_eq, hpcfg]
  have hframe := pushFrame_sawAll p ret
  rw [hpdbg, hpisp, hpconf, ← hvdbg] at hframe
  have hkept : DebugKept s.dbg v.dbg := by
    obtain ⟨_, u, hu, hpush⟩ := pushFrame_changes (.refl p) ret
    have hpkept := hu.frame.dbg
    rw [hpdbg] at hpkept
    rw [hvdbg, hpush]
    exact hpkept
  have hack := acknowledge_sawAll v x
  have hacklocal := local_acknowledge v x
  have hdisp := dispatch_sawAll (v.acknowledge x) x
  rw [hvconf, hkept.ctl, Exc.ackAddr_efb] at hack
  rw [hacklocal.config, hvconf, dispatchEntry_fst x (hkept.trans hacklocal.dbg) (hacklocal.intbase.trans hvint)
    (hacklocal.cfg.trans hvcfg)] at hdisp
  rw [henter]
  exact sawAll_append (sawAll_append hframe hack) hdisp

/-- The exceptions by their vector number, their acknowledge read, and when their dispatch is the alternate one (R501,
R514, R521). -/
theorem exception_table {x : Exc} {v : Nat} {ack : List (Int × Bool)} {c : DebugCtl}
    (h : (x, v, ack) ∈ [(Exc.nmi, 1, [((0xFFFF00 : Int), false)]), (.ise, 15, [(0xFFFC00, false)]), (.svc, 5, []),
        (.dvz, 6, []), (.flg, 7, []), (.und, 10, []), (.iad, 12, []),
        (.bpt, 8, if c.abpt then [(0xFFFC0E, false)] else []),
        (.trc, 9, if c.atrc then [(0xFFFC0C, false)] else []),
        (.dbg, 14, if c.adbg then [(0xFFFC02, false)] else [])] ∨
      ∃ b : Byte, (x, v, ack) = (.int b, b.toNat, [((0xFFFE00 : Int), false)])) :
    v = x.vector ∧ ack = (x.ackAddr c).toList.map (fun a => (a, false)) ∧
      (x.alternate c = true ↔ (x = .bpt ∧ c.abpt = true) ∨ (x = .trc ∧ c.atrc = true) ∨
        (x = .dbg ∧ c.adbg = true) ∨ (x = .ise ∧ c.aise = true)) := by
  obtain h | ⟨b, h⟩ := h
  · simp only [List.mem_cons, Prod.mk.injEq, List.not_mem_nil, or_false] at h
    obtain ⟨rfl, rfl, rfl⟩ | ⟨rfl, rfl, rfl⟩ | ⟨rfl, rfl, rfl⟩ | ⟨rfl, rfl, rfl⟩ | ⟨rfl, rfl, rfl⟩ | ⟨rfl, rfl, rfl⟩ |
      ⟨rfl, rfl, rfl⟩ | ⟨rfl, rfl, rfl⟩ | ⟨rfl, rfl, rfl⟩ | ⟨rfl, rfl, rfl⟩ := h
    case inr.inr.inr.inr.inr.inr.inr.inl | inr.inr.inr.inr.inr.inr.inr.inr.inl | inr.inr.inr.inr.inr.inr.inr.inr.inr =>
      refine ⟨rfl, ?_, by simp [Exc.alternate]⟩
      unfold Exc.ackAddr
      simp only
      split <;> rfl
    all_goals exact ⟨rfl, rfl, by simp [Exc.alternate]⟩
  · simp only [Prod.mk.injEq] at h
    obtain ⟨rfl, rfl, rfl⟩ := h
    exact ⟨rfl, rfl, by simp [Exc.alternate]⟩

/-- Settles O24: each instruction's and each entry's accesses, one `Saw` after the other. -/
theorem dataBreakpoint : Obligations.DataBreakpoint := by
  unfold Obligations.DataBreakpoint
  refine ⟨fun s r p b3 b4 m d ra a i l _ _ => ?_, fun s x ret v ack _ _ h => ?_⟩
  · intro bit n k hi
    have hbit : bit = (bitSel a b4).1 := (bitSel_fst a b4).symm
    have hother : Accesses i l s → (∀ r' m', i ≠ .storb r' m') → ∃ t : State, exec i s = .next t ∧
        DebugUnit.SawAll s.config.lastBank l s.dbg t.dbg ∧
        (i = .storb r m → 0 ≤ a → a < 2 ^ 24 → s.isRam a.toNat = true → t.mem.byte a.toNat = s.regB r) :=
      fun ⟨t, ht, hs⟩ hne => ⟨t, ht, hs, fun h => absurd h (hne r m)⟩
    obtain (⟨hea, hi⟩ | ⟨hea, hi⟩ | ⟨hea, hi⟩) | hi | ⟨hv, hi⟩ | hi := hi
    · simp only [List.mem_cons, Prod.mk.injEq, List.not_mem_nil, or_false] at hi
      obtain ⟨rfl, rfl⟩ | ⟨rfl, rfl⟩ := hi
      · exact hother (accesses_loadb hea r) (by simp)
      · obtain ⟨t, ht, hs, hb⟩ := accesses_storb hea r
        exact ⟨t, ht, hs, fun _ => hb⟩
    · simp only [List.mem_cons, Prod.mk.injEq, List.not_mem_nil, or_false] at hi
      obtain ⟨rfl, rfl⟩ | ⟨rfl, rfl⟩ | ⟨rfl, rfl⟩ | ⟨rfl, rfl⟩ := hi
      · exact hother (accesses_loadw hea r) (by simp)
      · exact hother (accesses_loadd hea p) (by simp)
      · exact hother (accesses_storw hea r) (by simp)
      · exact hother (accesses_stord hea p) (by simp)
    · refine hother (accesses_bitAddr hea b3 b4 hbit hi) fun r' m' hne => ?_
      simp [hne] at hi
    · refine hother (accesses_multiple s b3 hi) fun r' m' hne => ?_
      simp [hne] at hi
    · refine hother (accesses_stack s hv rfl hi) fun r' m' hne => ?_
      simp [hne] at hi
    · obtain ⟨rfl, rfl⟩ := Prod.mk.inj hi
      exact hother ⟨_, rfl, returnFrom_sawAll s rfl⟩ (by simp)
  · obtain ⟨rfl, rfl, halt⟩ := exception_table h
    intro alt
    refine ⟨entryAddress s x, fun ha => ?_, fun ha hed => ?_, fun ha hed => ?_, enter_sawAll s x ret⟩
    · exact if_pos (halt.2 ha)
    · exact (if_neg fun c => ha (halt.1 c)).trans (if_pos hed)
    · exact (if_neg fun c => ha (halt.1 c)).trans (if_neg (by simp [hed]))

end Sys2Proof.Proofs

/-! PROOFS. Comparisons, conditional sets, branches, register jumps, links and the refused forms (spec/42 R260 to R263,
spec/43 R279, spec/47 R346 to R360, R348, R396): each instruction's result in terms of the shared operation it calls,
and what that operation does. -/

namespace Sys2Proof.Proofs

open Sys2Proof.Machine Sys2Proof.Laws

/-! ### Comparisons (R260 to R263) -/

/-- Flags written and the PC moved on. -/
theorem compared_advance (s : State) {w : Nat} (a b : BitVec w) (n : Nat) :
    ∃ t : State, (.next (State.advance { s with psr := cmpFlags a b s.psr } n) : Result) = .next t ∧
      ComparedAs a b s.psr t.psr ∧ RegisterFrame [] n s t :=
  ⟨_, rfl, cmpFlags_spec a b s.psr, registerFrame_advance n (regsKept_refl rfl rfl) rfl⟩

/-- Settles O37: each comparison writes the flags of `cmpFlags`, in its own width. -/
theorem comparisons : Obligations.Comparisons := by
  unfold Obligations.Comparisons
  exact fun s _ _ _ _ => ⟨compared_advance s _ _ _, compared_advance s _ _ _, compared_advance s _ _ _⟩

/-! ### Conditional sets (R279) -/

theorem exec_setIf {i : Instr} {c : Cond} {d : RegNum}
    (h : (i, c) ∈ [(Instr.seq d, Cond.eq), (.sne d, .ne), (.scs d, .cs), (.scc d, .cc), (.shi d, .hi),
        (.sls d, .ls), (.sgt d, .gt), (.sle d, .le), (.sfs d, .fs), (.sfc d, .fc),
        (.slo d, .lo), (.shs d, .hs), (.slt d, .lt), (.sge d, .ge)] ∨ i = .scond c d) (s : State) :
    exec i s = .next (s.setIf (condTrue c s.psr) d) := by
  obtain h | rfl := h
  · simp only [List.mem_cons, Prod.mk.injEq, List.not_mem_nil, or_false] at h
    rcases h with ⟨rfl, rfl⟩ | ⟨rfl, rfl⟩ | ⟨rfl, rfl⟩ | ⟨rfl, rfl⟩ | ⟨rfl, rfl⟩ | ⟨rfl, rfl⟩ | ⟨rfl, rfl⟩ |
      ⟨rfl, rfl⟩ | ⟨rfl, rfl⟩ | ⟨rfl, rfl⟩ | ⟨rfl, rfl⟩ | ⟨rfl, rfl⟩ | ⟨rfl, rfl⟩ | ⟨rfl, rfl⟩
    all_goals rfl
  · rfl

theorem setIf_spec (s : State) (c : Bool) (d : RegNum) :
    (s.setIf c d).reg d = (if c then 1 else 0) ∧ (s.setIf c d).psr = s.psr ∧
      RegisterFrame [⟨d, false⟩] 2 s (s.setIf c d) := by
  obtain ⟨hread, hkept, heq⟩ := setReg_spec s d (if c then 1 else 0)
  refine ⟨(reg_congr rfl rfl d).trans hread, ?_, registerFrame_advance 2 hkept ?_⟩
  · change (s.setReg d _).psr = s.psr
    rw [heq]
  · rw [heq]

/-- Settles O39: every mnemonic is `setIf` of its condition. -/
theorem conditionalSets : Obligations.ConditionalSets := by
  unfold Obligations.ConditionalSets
  intro s d c i h
  obtain ⟨hread, hpsr, hframe⟩ := setIf_spec s (condTrue c s.psr) d
  refine ⟨_, exec_setIf h s, fun hc => ?_, fun hc => ?_, hpsr, hframe⟩
  · rw [hread, if_pos ((condTrue_iff c s.psr).2 hc)]
  · rw [hread, if_neg (mt (condTrue_iff c s.psr).1 hc)]

/-! ### Branches (R350, R351) -/

theorem exec_branchIf {i : Instr} {c : Cond} {dest : BranchDisp}
    (h : (i, c) ∈ [(Instr.beq dest, Cond.eq), (.bne dest, .ne), (.bcs dest, .cs), (.bcc dest, .cc), (.bhi dest, .hi),
        (.bls dest, .ls), (.bgt dest, .gt), (.ble dest, .le), (.bfs dest, .fs), (.bfc dest, .fc),
        (.blo dest, .lo), (.bhs dest, .hs), (.blt dest, .lt), (.bge dest, .ge),
      (.br dest, .always)] ∨ i = .bcond c dest) (s : State) :
    exec i s = .next (s.branchIf (condTrue c s.psr) dest) := by
  obtain h | rfl := h
  · simp only [List.mem_cons, Prod.mk.injEq, List.not_mem_nil, or_false] at h
    rcases h with ⟨rfl, rfl⟩ | ⟨rfl, rfl⟩ | ⟨rfl, rfl⟩ | ⟨rfl, rfl⟩ | ⟨rfl, rfl⟩ | ⟨rfl, rfl⟩ | ⟨rfl, rfl⟩ |
      ⟨rfl, rfl⟩ | ⟨rfl, rfl⟩ | ⟨rfl, rfl⟩ | ⟨rfl, rfl⟩ | ⟨rfl, rfl⟩ | ⟨rfl, rfl⟩ | ⟨rfl, rfl⟩ | ⟨rfl, rfl⟩
    all_goals rfl
  · rfl

theorem branchIf_spec (s : State) (taken : Bool) (d : BranchDisp) :
    BranchedTo (taken = true) (s.pc.toNat + branchDisp d) (branchBytes d) s (s.branchIf taken d) := by
  cases taken
  · obtain ⟨hadv, honly⟩ := advance_spec s (branchBytes d)
    exact ⟨honly, fun h => absurd h Bool.false_ne_true, fun _ => hadv⟩
  · obtain ⟨hwent, honly⟩ := setPc_spec s (s.pc.toNat + branchDisp d)
    exact ⟨honly, fun _ => hwent, fun h => absurd rfl h⟩

theorem branchedTo_congr {p q : Prop} (h : p ↔ q) {a : Int} {n : Nat} {s t : State} (hb : BranchedTo p a n s t) :
    BranchedTo q a n s t :=
  ⟨hb.1, fun hq => hb.2.1 (h.2 hq), fun hq => hb.2.2 (mt h.1 hq)⟩

/-- Settles O47: every mnemonic is `branchIf` of its condition. -/
theorem branches : Obligations.Branches := by
  unfold Obligations.Branches
  exact fun s dest c i h => ⟨_, exec_branchIf h s, branchedTo_congr (condTrue_iff c s.psr) (branchIf_spec s _ dest)⟩

/-! ### Register jumps (R357 to R359) -/

/-- A jump target is twice the low 23 bits (R346). -/
theorem toNat_jumpTarget (v : DWord) : (jumpTarget v).toNat = 2 * (v.toNat % 2 ^ 23) := by
  unfold jumpTarget
  rw [toNat_join, BitVec.extractLsb'_toNat]
  simp [Nat.mul_comm]

/-- A jump target lies in the address space, so IAD is left as it is. -/
theorem wentTo_jumpTarget {s t : State} (v : DWord) (hpc : t.pc = jumpTarget v)
    (hiad : t.iadPending = s.iadPending) : WentTo (2 * (v.toNat % 2 ^ 23) : Nat) s t := by
  have hlt : v.toNat % 2 ^ 23 < 2 ^ 23 := Nat.mod_lt _ (by decide)
  refine ⟨fun _ _ => by rw [hpc, toNat_jumpTarget], ?_⟩
  rw [hiad]
  exact ⟨.inl, fun h => h.elim id fun h => by omega⟩

theorem exec_jumpIf {i : Instr} {c : Cond} {dest : PairNum}
    (h : (i, c) ∈ [(Instr.jeq dest, Cond.eq), (.jne dest, .ne), (.jcs dest, .cs), (.jcc dest, .cc), (.jhi dest, .hi),
        (.jls dest, .ls), (.jgt dest, .gt), (.jle dest, .le), (.jfs dest, .fs), (.jfc dest, .fc),
        (.jlo dest, .lo), (.jhs dest, .hs), (.jlt dest, .lt), (.jge dest, .ge),
        (.jump dest, .always)] ∨ (i = .jcond c dest ∧ c ≠ .uc)) (s : State) :
    exec i s = .next (s.jumpIf (condTrue c s.psr) dest) := by
  obtain h | ⟨rfl, hc⟩ := h
  · simp only [List.mem_cons, Prod.mk.injEq, List.not_mem_nil, or_false] at h
    rcases h with ⟨rfl, rfl⟩ | ⟨rfl, rfl⟩ | ⟨rfl, rfl⟩ | ⟨rfl, rfl⟩ | ⟨rfl, rfl⟩ | ⟨rfl, rfl⟩ | ⟨rfl, rfl⟩ |
      ⟨rfl, rfl⟩ | ⟨rfl, rfl⟩ | ⟨rfl, rfl⟩ | ⟨rfl, rfl⟩ | ⟨rfl, rfl⟩ | ⟨rfl, rfl⟩ | ⟨rfl, rfl⟩ | ⟨rfl, rfl⟩
    all_goals rfl
  · change execJcond c dest s = _
    unfold execJcond
    split
    · exact absurd rfl hc
    · rfl

theorem jumpIf_spec (s : State) (taken : Bool) (p : PairNum) :
    BranchedTo (taken = true) (2 * ((s.pair p).toNat % 2 ^ 23) : Nat) 2 s (s.jumpIf taken p) := by
  cases taken
  · obtain ⟨hadv, honly⟩ := advance_spec s 2
    exact ⟨honly, fun h => absurd h Bool.false_ne_true, fun _ => hadv⟩
  · exact ⟨rfl, fun _ => wentTo_jumpTarget (s.pair p) rfl rfl, fun h => absurd rfl h⟩

/-- Settles O49: every jump is `jumpIf` of its condition but JUSR, which is `jumpUser`. -/
theorem registerJumps : Obligations.RegisterJumps := by
  unfold Obligations.RegisterJumps
  refine fun s dest c i => ⟨fun h => ⟨_, exec_jumpIf h s, ?_⟩, fun h => ⟨s.jumpUser dest, ?_, rfl, toNat_jumpTarget _⟩⟩
  · exact branchedTo_congr (condTrue_iff c s.psr) (jumpIf_spec s _ dest)
  · obtain rfl | rfl := h <;> rfl

/-! ### Links (R352, R360) -/

/-- The link is the address of the next instruction, shifted right by one (R346). -/
theorem toNat_linkAfter (s : State) (n : Nat) : (s.linkAfter n).toNat = (s.pc.toNat + n) % 2 ^ 24 / 2 := by
  have hpc : (BitVec.ofInt 24 ((s.pc.toNat : Int) + n)).toNat = (s.pc.toNat + n) % 2 ^ 24 := by
    rw [BitVec.toNat_ofInt]
    omega
  unfold State.linkAfter linkVal
  rw [toNat_join, BitVec.extractLsb'_toNat, hpc, Nat.shiftRight_eq_div_pow]
  simp only [BitVec.toNat_ofNat]
  omega

theorem linkPair_eq {s : State} {link : Link} {l : PairNum}
    (h : (link = .implied ∧ l = (if s.cfg.sr then 13 else 14)) ∨ link = .pair l) : s.linkPair link = l := by
  obtain ⟨rfl, rfl⟩ | rfl := h <;> rfl

/-- The link written and the PC, in whatever way it is written then. -/
theorem linked {s : State} {link : Link} {l : PairNum}
    (h : (link = .implied ∧ l = (if s.cfg.sr then 13 else 14)) ∨ link = .pair l) (n : Nat) (t : State)
    (ht : t = { s.setPair (s.linkPair link) (s.linkAfter n) with pc := t.pc, iadPending := t.iadPending }) :
    (t.pair l).toNat = (s.pc.toNat + n) % 2 ^ 24 / 2 ∧ t.psr = s.psr ∧ RegsKept (s.pairSlots l) s t ∧
      MemoryKept s t ∧ SystemKept s t := by
  rw [linkPair_eq h] at ht
  obtain ⟨hread, hkept, heq⟩ := setPair_spec s l (s.linkAfter n)
  refine ⟨?_, ?_, regsKept_congr hkept ?_ ?_, ?_, ?_⟩
  · rw [← toNat_linkAfter, ← hread]
    exact congrArg _ (pair_congr (by rw [ht]) (by rw [ht]) (by rw [ht]) l)
  · rw [ht, heq]
  · rw [ht]
  · rw [ht]
  · rw [ht, heq]
    exact ⟨fun _ => rfl, rfl⟩
  · rw [ht, heq]
    exact ⟨rfl, rfl, rfl, rfl, rfl, rfl, rfl, rfl⟩

/-- Settles O50: both write the link and go on, JAL by the value its pair held before. -/
theorem links : Obligations.Links := by
  unfold Obligations.Links
  intro s link h dest l hl
  obtain ⟨v, hv⟩ : ∃ v : State, v = s.setPair (s.linkPair link) (s.linkAfter (balBytes link)) := ⟨_, rfl⟩
  obtain ⟨w, hw⟩ : ∃ w : State, w = s.setPair (s.linkPair link) (s.linkAfter (jalBytes link)) := ⟨_, rfl⟩
  refine ⟨⟨v.setPc ((s.pc.toNat : Int) + 2 * h.toInt), by rw [hv]; rfl, ?_⟩,
    ⟨{ w with pc := jumpTarget (s.pair dest) }, by rw [hw]; rfl, ?_⟩⟩
  · obtain ⟨hlink, hpsr, hregs, hmem, hsys⟩ := linked hl (balBytes link) (v.setPc (s.pc.toNat + 2 * h.toInt))
      (by rw [hv]; rfl)
    have hwent := (setPc_spec v (s.pc.toNat + 2 * h.toInt)).1
    have hiad : v.iadPending = s.iadPending := by rw [hv, setPair_eq]
    unfold WentTo at hwent
    rw [hiad] at hwent
    exact ⟨hlink, hpsr, hregs, hmem, hsys, hwent⟩
  · obtain ⟨hlink, hpsr, hregs, hmem, hsys⟩ := linked hl (jalBytes link) { w with pc := jumpTarget (s.pair dest) }
      (by rw [hw])
    have hiad : w.iadPending = s.iadPending := by rw [hw, setPair_eq]
    exact ⟨hlink, hpsr, hregs, hmem, hsys, wentTo_jumpTarget (s.pair dest) rfl hiad⟩

/-! ### Refused forms (I6, I7) -/

theorem withEa_none {ea : Option Int} (h : ea = none) (f : Int → State) :
    withEa ea f = .refused .indexFormWithShortRegisters := by
  rw [h]
  rfl

theorem ea_index_none {s : State} (hsr : s.cfg.sr = true) {m : MemAddr} {n : IndexNum} {d : BitVec 20} {rs : Bool}
    (h : m = .disp20Index n d ∨ m = .abs20Index rs d) (k : Nat) : s.ea k m = none := by
  obtain rfl | rfl := h <;> exact if_pos hsr

theorem eaBit_index_none {s : State} (hsr : s.cfg.sr = true) {b : BitAddr} {n : IndexNum} {d : BitVec 20} {rs : Bool}
    (h : b = .disp20Index n d ∨ b = .abs20Index rs d) : s.eaBit b = none := by
  obtain rfl | rfl := h <;> exact if_pos hsr

/-- Settles O60: an index form has no address with CFG.SR 1, and the stack instructions check their parameters. -/
theorem formsRefused : Obligations.FormsRefused := by
  unfold Obligations.FormsRefused
  refine fun s m b n d rs r p b3 b4 ra => ⟨fun hsr hm => ?_, fun hsr hb => ?_, fun hv => ?_⟩
  · have hea := ea_index_none hsr hm
    simp only [List.forall_mem_cons, List.not_mem_nil, false_implies, implies_true, and_true]
    exact ⟨withEa_none (hea 1) _, withEa_none (hea 2) _, withEa_none (hea 2) _, withEa_none (hea 1) _,
      withEa_none (hea 2) _, withEa_none (hea 2) _⟩
  · have hea := eaBit_index_none hsr hb
    simp only [List.forall_mem_cons, List.not_mem_nil, false_implies, implies_true, and_true]
    exact ⟨withEa_none hea _, withEa_none hea _, withEa_none hea _, withEa_none hea _, withEa_none hea _,
      withEa_none hea _, withEa_none hea _, withEa_none hea _⟩
  · have hnot : ¬ stackValid s.cfg.sr b3 r = true := by simp [hv]
    simp only [List.forall_mem_cons, List.not_mem_nil, false_implies, implies_true, and_true]
    exact ⟨if_neg hnot, if_neg hnot, if_neg hnot⟩

end Sys2Proof.Proofs

/-! PROOFS. What pair numbers and addressing forms name (spec/10_state.md R22 to R25, R27, spec/20_memory.md R94, R101
to R103). -/

namespace Sys2Proof.Proofs

open Sys2Proof.Machine Sys2Proof.Laws

/-! ### Pairs (R23) -/

theorem pair_of_wide {s : State} {n : PairNum} (h : s.pairIsWide n = true) : s.pair n = s.wide n := if_pos h

theorem pair_of_not_wide {s : State} {n : PairNum} (h : s.pairIsWide n = false) :
    s.pair n = s.reg (n + 1) ++ s.reg n := if_neg (by simp [h])

theorem pairIsWide_iff (s : State) (n : PairNum) : s.pairIsWide n = true ↔ n = 15 ∨ 12 ≤ n ∧ s.cfg.sr = false := by
  simp only [State.pairIsWide, Bool.or_eq_true, beq_iff_eq, Bool.and_eq_true, decide_eq_true_eq, Bool.not_eq_true']

/-- With CFG.SR 0 every number from 12 on names one register. -/
theorem pairIsWide_long {s : State} (hsr : s.cfg.sr = false) {n : PairNum} (hn : 12 ≤ n) : s.pairIsWide n = true :=
  (pairIsWide_iff s n).2 (.inr ⟨hn, hsr⟩)

/-- With CFG.SR 1 number 15 alone does. -/
theorem pairIsWide_short {s : State} (hsr : s.cfg.sr = true) {n : PairNum} (hn : n ≠ 15) : s.pairIsWide n = false :=
  Bool.eq_false_of_not_eq_true fun h => ((pairIsWide_iff s n).1 h).elim hn fun h => by simp [hsr] at h

theorem pairIsWide_low (s : State) {n : PairNum} (hn : n ≤ 11) : s.pairIsWide n = false := by
  refine Bool.eq_false_of_not_eq_true fun h => ?_
  have hle : n.toNat ≤ 11 := hn
  have hge : 12 ≤ n.toNat := pairIsWide_ge s h
  omega

/-- Settles O26: by whether the number names one register, for either value of CFG.SR. -/
theorem registerPairs : Obligations.RegisterPairs := by
  unfold Obligations.RegisterPairs
  refine fun s => ⟨fun n hn => pair_of_not_wide (pairIsWide_low s hn), fun hsr => ?_, fun hsr => ?_, pair_of_wide rfl,
    reg_wide s (by decide), reg_wide s (by decide), reg_wide s (by decide), reg_wide s (by decide)⟩
  · have hra : s.raPair = 14 := if_neg (by simp [hsr])
    rw [hra]
    exact ⟨pair_of_wide (pairIsWide_long hsr (by decide)), pair_of_wide (pairIsWide_long hsr (by decide)),
      pair_of_wide (pairIsWide_long hsr (by decide)), pair_of_wide (pairIsWide_long hsr (by decide))⟩
  · have hra : s.raPair = 13 := if_pos hsr
    rw [hra]
    exact ⟨pair_of_not_wide (pairIsWide_short hsr (by decide)), pair_of_not_wide (pairIsWide_short hsr (by decide)),
      pair_of_not_wide (pairIsWide_short hsr (by decide)), pair_of_not_wide (pairIsWide_short hsr (by decide))⟩

/-! ### Addresses (R101) -/

/-- Bit 3 of an index number selects R13 (R25). -/
theorem top1_iff (n : IndexNum) : top1 n = true ↔ 8 ≤ n.toNat := by
  revert n
  decide

/-- Bits 2:0 of an index number select the base pair (R25). -/
theorem indexBase_eq (n : IndexNum) :
    indexBase n = ([0, 2, 4, 6, 8, 10, 3, 5] : List PairNum).getD (n.toNat % 8) 0 := by
  revert n
  decide

theorem indexed_eq (s : State) (n : IndexNum) :
    s.indexed n = ((if n.toNat < 8 then s.regs.r12 else s.regs.r13).toNat : Int) +
      (s.pair (([0, 2, 4, 6, 8, 10, 3, 5] : List PairNum).getD (n.toNat % 8) 0)).toNat := by
  unfold State.indexed State.indexReg
  rw [indexBase_eq]
  by_cases h : n.toNat < 8
  · rw [if_pos h, if_neg (mt (top1_iff n).1 (by omega))]
  · rw [if_neg h, if_pos ((top1_iff n).2 (by omega))]

/-- A 20-bit absolute address above 0xEFFFF is put into the topmost 64 KB (R94). -/
theorem toNat_remap20 (d : BitVec 20) :
    (remap20 d).toNat = if d.toNat ≤ 0xEFFFF then d.toNat else 0xF00000 ||| d.toNat := by
  have hd := d.isLt
  unfold remap20
  by_cases h : d.toNat ≤ 0xEFFFF
  · rw [if_pos h, if_neg (by omega), toNat_join]
    simp
  · rw [if_neg h, if_pos (by omega), BitVec.toNat_append]
    rfl

/-- Settles O28: form by form; the index sum and the remapped address are the only ones with something to show. -/
theorem effectiveAddresses : Obligations.EffectiveAddresses := by
  unfold Obligations.EffectiveAddresses
  intro s k p r n f d14 d16 d20 a24 rs base sum byMode absolute index
  have hsum : s.indexed n = sum := indexed_eq s n
  have hmode : s.prpBase n = byMode := by
    unfold State.prpBase
    rw [hsum]
  have habs : ((remap20 d20).toNat : Int) = absolute := by
    rw [toNat_remap20]
    exact Nat.cast_ite (d20.toNat ≤ 0xEFFFF) _ _
  refine ⟨rfl, congrArg some hmode, ?_, ?_, rfl, rfl, rfl, rfl, rfl, rfl, rfl, rfl, rfl, congrArg some habs,
    congrArg some habs, rfl, rfl, fun hsr => ?_⟩
  · rw [← hmode]
    rfl
  · rw [← hmode]
    rfl
  · have hnot : ¬ s.cfg.sr = true := by simp [hsr]
    rw [← hsum]
    exact ⟨if_neg hnot, if_neg hnot, if_neg hnot, if_neg hnot⟩

end Sys2Proof.Proofs

/-! PROOFS. What SPR and SPRD read (spec/10_state.md R21, R37, spec/46_processor_register.md R325, R327, R332, R333):
the bits of each word built for a read, then the table of R325. -/

namespace Sys2Proof.Proofs

open Sys2Proof.Machine Sys2Proof.Laws

/-! ### Words built from fields -/

@[simp] theorem bit_getElem_zero (b : Bool) : (bit b)[0] = b := by cases b <;> rfl

/-- The bits of the PSR as a word (R30). -/
theorem psrAt_psrWord (hw : Bool) (p : Psr) (res : BitVec 4) : PsrAt hw p (psrWord p res) := by
  unfold PsrAt psrWord
  simp only [BitVec.getLsbD_append]
  simp

theorem psrAt_congr {hw : Bool} {p q : Psr} {v : Word} (h : PsrAt hw q v)
    (hq : q = { p with t := q.t, p := q.p }) (hoff : hw = false → q = p) : PsrAt hw p v := by
  obtain ⟨hc, ht, hl, hu, h4, hf, hz, hn, h8, he, hp, hi⟩ := h
  refine ⟨?_, fun h => ?_, ?_, ?_, h4, ?_, ?_, ?_, h8, ?_, fun h => ?_, ?_⟩
  case refine_2 => rw [ht h, hoff h]
  case refine_9 => rw [hp h, hoff h]
  all_goals
    rw [hq] at *
    assumption

/-- T and P are free with the hardware debug module, and as they are without it (I11). -/
theorem psrAt_psrRead (s : State) : PsrAt s.config.hwDebugModule s.psr s.psrRead := by
  unfold State.psrRead
  refine psrAt_congr (psrAt_psrWord _ _ _) ?_ fun h => if_neg (by simp [h])
  split <;> rfl

/-- The bits of CFG as a word (R35). -/
theorem cfgWord_bits (c : Cfg) (res : BitVec 6) : (cfgWord c res).toNat % 4 = 0 ∧ (cfgWord c res).getLsbD 2 = c.dc ∧
    (cfgWord c res).getLsbD 3 = c.ldc ∧ (cfgWord c res).getLsbD 4 = c.ic ∧ (cfgWord c res).getLsbD 5 = c.lic ∧
    (cfgWord c res).getLsbD 6 = false ∧ (cfgWord c res).getLsbD 7 = false ∧ (cfgWord c res).getLsbD 8 = c.ed ∧
    (cfgWord c res).getLsbD 9 = c.sr := by
  unfold cfgWord
  refine ⟨?_, ?_⟩
  · rw [toNat_join]
    simp
  · simp only [BitVec.getLsbD_append]
    simp

/-! ### The debug registers -/

/-- The two event bits of an implemented bank, 0 for one that is not (R37). -/
theorem events_getLsbD (p : Prop) [Decidable p] (b : DebugBank) (ch1 : Bool) :
    (if p then b.events else 0).getLsbD ch1.toNat = (decide p && b.event ch1) := by
  have hevents : b.events.getLsbD ch1.toNat = b.event ch1 := by
    unfold DebugBank.events DebugBank.event
    simp only [BitVec.getLsbD_append]
    cases ch1 <;> simp
  by_cases hp : p
  · rw [if_pos hp, hevents, decide_eq_true hp, Bool.true_and]
  · rw [if_neg hp, decide_eq_false hp, Bool.false_and]
    exact BitVec.getLsbD_zero

/-- EXF counts for channel 0 of bank 0 (R37, R570). -/
theorem events_zero_getLsbD (b : DebugBank) (ch1 : Bool) :
    (b.events ||| (0#1 ++ bit (b.dsr.getLsbD 3))).getLsbD ch1.toNat = (b.event ch1 || (!ch1 && b.dsr.getLsbD 3)) := by
  have hevents := events_getLsbD True b ch1
  rw [if_pos trivial, decide_true, Bool.true_and] at hevents
  rw [BitVec.getLsbD_or, hevents]
  simp only [BitVec.getLsbD_append]
  cases ch1 <;> simp

theorem dbsRead_mod (s : State) : s.dbsRead.toNat % 4 = s.dbg.bank.toNat := by
  have := s.dbg.bank.isLt
  unfold State.dbsRead
  simp only [toNat_join]
  omega

theorem getLsbD_append_add {a b : Nat} (x : BitVec a) (y : BitVec b) (k : Nat) :
    (x ++ y).getLsbD (b + k) = x.getLsbD k := by
  rw [BitVec.getLsbD_append, if_neg (by omega), Nat.add_sub_cancel_left]

theorem getLsbD_append_lt {a b : Nat} (x : BitVec a) (y : BitVec b) {k : Nat} (h : k < b) :
    (x ++ y).getLsbD k = y.getLsbD k := by
  rw [BitVec.getLsbD_append, if_pos h]

/-- DBS.EVT bit by bit (R37). -/
theorem dbsRead_event (s : State) (c : BitVec 2) (ch1 : Bool) :
    s.dbsRead.getLsbD (8 + 2 * c.toNat + ch1.toNat) =
      (decide (c ≤ s.config.lastBank) && (s.dbg.get c).event ch1 ||
        (c == 0 && !ch1 && s.dbg.bank0.dsr.getLsbD 3)) := by
  have hch : ch1.toNat < 2 := Bool.toNat_lt ch1
  have hplace : 8 + 2 * c.toNat + ch1.toNat = 2 + (6 + (2 * c.toNat + ch1.toNat)) := by omega
  unfold State.dbsRead
  simp only
  rw [hplace, getLsbD_append_add, getLsbD_append_add]
  obtain rfl | rfl | rfl | rfl := bank_cases c
  · have hbank : decide ((0 : BitVec 2) ≤ s.config.lastBank) = true := decide_eq_true (Nat.zero_le _)
    have hindex : 2 * (0 : BitVec 2).toNat + ch1.toNat = ch1.toNat := Nat.zero_add _
    rw [hindex, getLsbD_append_lt _ _ hch, events_zero_getLsbD, hbank]
    rfl
  · have hindex : 2 * (1 : BitVec 2).toNat + ch1.toNat = 2 + ch1.toNat := rfl
    rw [hindex, getLsbD_append_add, getLsbD_append_lt _ _ hch, events_getLsbD]
    exact (Bool.or_false _).symm
  · have hindex : 2 * (2 : BitVec 2).toNat + ch1.toNat = 2 + (2 + ch1.toNat) := by
      rw [← Nat.add_assoc]
      rfl
    rw [hindex, getLsbD_append_add, getLsbD_append_add, getLsbD_append_lt _ _ hch, events_getLsbD]
    exact (Bool.or_false _).symm
  · have hindex : 2 * (3 : BitVec 2).toNat + ch1.toNat = 2 + (2 + (2 + ch1.toNat)) := by
      rw [← Nat.add_assoc, ← Nat.add_assoc]
      rfl
    rw [hindex, getLsbD_append_add, getLsbD_append_add, getLsbD_append_add, events_getLsbD]
    exact (Bool.or_false _).symm

theorem bankVisible_iff (s : State) :
    s.bankVisible = true ↔ s.config.hwDebugModule = false ∧ s.dbg.bank ≤ s.config.lastBank := by
  unfold State.bankVisible
  rw [Bool.and_eq_true, Bool.not_eq_true', decide_eq_true_eq]

/-- DSR but for EXF of a bank other than 0 (R41, R325). -/
theorem dsrRead_getLsbD (s : State) {k : Nat} (hk : k < 7) (h3 : k ≠ 3 ∨ s.dbg.bank = 0) :
    s.dsrRead.getLsbD k = s.curBank.dsr.getLsbD k := by
  unfold State.dsrRead
  simp only [BitVec.getLsbD_append]
  obtain rfl | rfl | rfl | rfl | rfl | rfl | rfl : k = 0 ∨ k = 1 ∨ k = 2 ∨ k = 3 ∨ k = 4 ∨ k = 5 ∨ k = 6 := by omega
  case inr.inr.inr.inl =>
    rw [if_pos (h3.resolve_left (by decide))]
    simp
  all_goals simp

/-- DCRH of bank 0 (R39, R326). -/
theorem dcrhRead_bits {s : State} (hb : s.dbg.bank = 0) : s.dcrhRead.getLsbD 0 = s.dbg.ctl.efb ∧
    s.dcrhRead.getLsbD 2 = s.dbg.ctl.abpt ∧ s.dcrhRead.getLsbD 3 = s.dbg.ctl.atrc ∧
    s.dcrhRead.getLsbD 4 = s.dbg.ctl.adbg ∧ s.dcrhRead.getLsbD 5 = s.dbg.ctl.aise ∧
    s.dcrhRead.getLsbD 7 = s.dbg.ctl.dbgl := by
  unfold State.dcrhRead
  simp only
  rw [if_pos hb]
  simp only [BitVec.getLsbD_append]
  simp

/-! ### Halves of a register (R325) -/

theorem toNat_low (a : Addr) : (a.extractLsb' 0 16).toNat = a.toNat % 65536 := by
  rw [BitVec.extractLsb'_toNat]
  rfl

theorem toNat_highHalf (a : Addr) : (highHalf a).toNat = a.toNat / 65536 := by
  have := a.isLt
  unfold highHalf
  rw [toNat_join, BitVec.extractLsb'_toNat, Nat.shiftRight_eq_div_pow]
  simp only [BitVec.toNat_ofNat]
  omega

theorem toNat_low_dword (v : DWord) : (v.extractLsb' 0 16).toNat = v.toNat % 65536 := by
  rw [BitVec.extractLsb'_toNat]
  rfl

theorem toNat_high_dword (v : DWord) : (v.extractLsb' 16 16).toNat = v.toNat / 65536 := by
  have := v.isLt
  rw [BitVec.extractLsb'_toNat, Nat.shiftRight_eq_div_pow]
  omega

/-! ### The table of R325 -/

theorem debugReg_cases : ∀ n : ProcRegNum, 1 ≤ n → n ≤ 7 →
    n = 1 ∨ n = 2 ∨ n = 3 ∨ n = 4 ∨ n = 5 ∨ n = 6 ∨ n = 7 := by
  decide

/-- A debug register reads as 0 where its bank is not visible (R36). -/
def seenOr (s : State) (w : Word) : Word := if s.bankVisible then w else 0

theorem seenOr_of_seen {s : State} (h : s.config.hwDebugModule = false ∧ s.dbg.bank ≤ s.config.lastBank) (w : Word) :
    seenOr s w = w := if_pos ((bankVisible_iff s).2 h)

theorem seenOr_of_not_seen {s : State} (h : ¬ (s.config.hwDebugModule = false ∧ s.dbg.bank ≤ s.config.lastBank))
    (w : Word) : seenOr s w = 0 := if_neg (mt (bankVisible_iff s).1 h)

theorem prRead16_debugReg (s : State) {n : ProcRegNum} (h1 : 1 ≤ n) (h7 : n ≤ 7) :
    ∃ w, s.prRead16 n = seenOr s w := by
  obtain rfl | rfl | rfl | rfl | rfl | rfl | rfl := debugReg_cases n h1 h7
  all_goals exact ⟨_, rfl⟩

/-- A 16-bit read, register by register. -/
theorem prReads_prRead16 (s : State) (n : ProcRegNum) : PrReads n (s.prRead16 n) s := by
  unfold PrReads
  intro b seen
  refine ⟨?_, fun h1 h7 hs => ?_, ?_, ?_, ?_, ?_, ?_, ?_, ?_, ?_, ?_, ?_, ?_, ?_, ?_, ?_, ?_⟩
  case refine_1 =>
    rintro rfl
    exact ⟨dbsRead_mod s, dbsRead_event s⟩
  case refine_2 =>
    obtain ⟨w, hw⟩ := prRead16_debugReg s h1 h7
    rw [hw, seenOr_of_not_seen hs]
  case refine_3 =>
    rintro rfl hs k hk h3
    exact (congrArg (·.getLsbD k) (seenOr_of_seen hs _)).trans (dsrRead_getLsbD s hk h3)
  case refine_4 =>
    rintro rfl hs
    exact seenOr_of_seen hs _
  case refine_5 =>
    rintro rfl hs hb
    have hread : s.prRead16 3 = s.dcrhRead := seenOr_of_seen hs _
    rw [hread]
    exact dcrhRead_bits hb
  case refine_6 | refine_8 =>
    rintro rfl hs
    exact (congrArg BitVec.toNat (seenOr_of_seen hs _)).trans (toNat_low _)
  case refine_7 | refine_9 =>
    rintro rfl hs
    exact (congrArg BitVec.toNat (seenOr_of_seen hs _)).trans (toNat_highHalf _)
  case refine_10 =>
    rintro rfl
    exact cfgWord_bits _ _
  case refine_11 =>
    rintro rfl
    exact psrAt_psrRead s
  case refine_12 | refine_14 =>
    rintro rfl
    exact toNat_low _
  case refine_13 | refine_15 =>
    rintro rfl
    exact toNat_highHalf _
  case refine_16 =>
    rintro rfl
    exact toNat_low_dword _
  case refine_17 =>
    rintro rfl
    exact toNat_high_dword _

/-- A register of 16 bits fills the low half of a 32-bit read (R327). -/
theorem prRead32_narrow (s : State) {n : ProcRegNum} (h : n ∈ [(0 : ProcRegNum), 1, 8, 9]) :
    s.prRead32 n = 0#16 ++ s.prRead16 n := by
  simp only [List.mem_cons, List.not_mem_nil, or_false] at h
  obtain rfl | rfl | rfl | rfl := h <;> rfl

/-- A register of 32 bits is read as its two halves (R327). -/
theorem prRead32_wide (s : State) {n : ProcRegNum} (h : n ∈ [(2 : ProcRegNum), 4, 6, 10, 12, 14]) :
    s.prRead32 n = s.prRead16 (n + 1) ++ s.prRead16 n := by
  simp only [List.mem_cons, List.not_mem_nil, or_false] at h
  obtain rfl | rfl | rfl | rfl | rfl | rfl := h <;> rfl

theorem setWidth_join (x y : Word) : (x ++ y).setWidth 16 = y := by
  rw [BitVec.setWidth_eq_extractLsb' (by decide)]
  exact low_of_join x y

/-- Settles O46: the destination holds what `prRead16` or `prRead32` answers. -/
theorem storesProcessorRegister : Obligations.StoresProcessorRegister := by
  unfold Obligations.StoresProcessorRegister
  refine fun s n d p => ⟨?_, ?_⟩
  · obtain ⟨hread, hkept, heq⟩ := setReg_spec s d (s.prRead16 n)
    refine ⟨((s.setReg d (s.prRead16 n)).drew 1).advance 4, rfl, ?_, ?_,
      registerFrame_advance 4 (regsKept_congr hkept rfl rfl) ?_⟩
    · have hdest : (((s.setReg d (s.prRead16 n)).drew 1).advance 4).reg d = s.prRead16 n := hread
      rw [hdest]
      exact prReads_prRead16 s n
    · change (s.setReg d _).psr = s.psr
      rw [heq]
    · rw [heq]
      rfl
  · obtain ⟨hread, hkept, heq⟩ := setPair_spec s p (s.prRead32 n)
    have hdest : (((s.setPair p (s.prRead32 n)).drew 1).advance 4).pair p = s.prRead32 n := hread
    refine ⟨((s.setPair p (s.prRead32 n)).drew 1).advance 4, rfl, ?_,
      registerFrame_advance 4 (regsKept_congr hkept rfl rfl) ?_, fun hn => ?_, fun hn => ?_⟩
    · change (s.setPair p _).psr = s.psr
      rw [heq]
    · rw [heq]
      rfl
    · rw [hdest, prRead32_narrow s hn, setWidth_join, toNat_join]
      exact ⟨by simpa using (s.prRead16 n).isLt, prReads_prRead16 s n⟩
    · rw [hdest, prRead32_wide s hn, setWidth_join, high_of_join]
      exact ⟨prReads_prRead16 s n, prReads_prRead16 s (n + 1)⟩

end Sys2Proof.Proofs

/-! PROOFS. What LPR and LPRD write (spec/10_state.md R42, spec/20_memory.md R112, spec/46_processor_register.md R326,
R327, R330, R331): the table of R326 register by register, then the two instructions. -/

namespace Sys2Proof.Proofs

open Sys2Proof.Machine Sys2Proof.Laws

/-! ### Words cut and joined -/

theorem toNat_evenWord (v : Word) : (evenWord v).toNat = 2 * (v.toNat / 2) := by
  have := v.isLt
  unfold evenWord
  rw [toNat_join, BitVec.extractLsb'_toNat, Nat.shiftRight_eq_div_pow]
  simp only [BitVec.toNat_ofNat]
  omega

theorem toNat_withLow (a : Addr) (v : Word) : (withLow a v).toNat = 65536 * (a.toNat / 65536) + v.toNat := by
  have := a.isLt
  unfold withLow
  rw [toNat_join, BitVec.extractLsb'_toNat, Nat.shiftRight_eq_div_pow]
  omega

/-- ISP and INTBASE take an even low half (R28, R29). -/
theorem toNat_withEvenLow (a : Addr) (v : Word) :
    (withLow a (evenWord v)).toNat = 65536 * (a.toNat / 65536) + 2 * (v.toNat / 2) := by
  rw [toNat_withLow, toNat_evenWord]

theorem toNat_withHigh (a : Addr) (v : Word) :
    (withHigh a v).toNat = 65536 * (v.toNat % 256) + a.toNat % 65536 := by
  unfold withHigh
  rw [toNat_join, BitVec.extractLsb'_toNat, BitVec.extractLsb'_toNat]
  simp only [Nat.shiftRight_zero]
  omega

theorem toNat_withLow_dword (a : DWord) (v : Word) :
    (a.extractLsb' 16 16 ++ v).toNat = 65536 * (a.toNat / 65536) + v.toNat := by
  rw [toNat_join, toNat_high_dword]
  omega

/-- USP holds 24 bits (R27, log entry 44). -/
theorem toNat_withHigh_dword (a : DWord) (v : Word) :
    (0#8 ++ v.extractLsb' 0 8 ++ a.extractLsb' 0 16).toNat = 65536 * (v.toNat % 256) + a.toNat % 65536 := by
  rw [toNat_join, toNat_join, BitVec.extractLsb'_toNat, toNat_low_dword]
  simp only [BitVec.toNat_ofNat, Nat.shiftRight_zero]
  omega

/-! ### A bank of debug registers (R36, R326) -/

/-- What a write of `v` to processor register `n` makes of bank `x`, the bank DBS selects, whose number is `b`. -/
def BankFields (n : ProcRegNum) (v : Word) (b : BitVec 2) (x y : DebugBank) : Prop :=
  (∀ k : Nat, k < 7 → y.dsr.getLsbD k =
    (if n = 1 then v.getLsbD k && (k != 3 || b == 0) else x.dsr.getLsbD k)) ∧
  y.dcrl = (if n = 2 then v else x.dcrl) ∧
  y.car0.toNat = (if n = 4 then 65536 * (x.car0.toNat / 65536) + v.toNat
    else if n = 5 then 65536 * (v.toNat % 256) + x.car0.toNat % 65536 else x.car0.toNat) ∧
  y.car1.toNat = (if n = 6 then 65536 * (x.car1.toNat / 65536) + v.toNat
    else if n = 7 then 65536 * (v.toNat % 256) + x.car1.toNat % 65536 else x.car1.toNat) ∧
  (y.seqArmed = true ↔ n ≠ 2 ∧ n ≠ 3 ∧ x.seqArmed = true) ∧
  (y.bpMask = true ↔ x.bpMask = true ∧ (n = 2 → v.getLsbD 4 = true ∧ v.getLsbD 12 = true))

/-- The sequencer and the mask stay where neither half of DCR is written. -/
theorem bankFields_of_kept {n : ProcRegNum} {v : Word} {b : BitVec 2} {x y : DebugBank} (h2 : n ≠ 2) (h3 : n ≠ 3)
    (hseq : y.seqArmed = x.seqArmed) (hmask : y.bpMask = x.bpMask) (hdcrl : y.dcrl = x.dcrl)
    (hdsr : ∀ k : Nat, k < 7 → y.dsr.getLsbD k =
      (if n = 1 then v.getLsbD k && (k != 3 || b == 0) else x.dsr.getLsbD k))
    (hcar0 : y.car0.toNat = (if n = 4 then 65536 * (x.car0.toNat / 65536) + v.toNat
      else if n = 5 then 65536 * (v.toNat % 256) + x.car0.toNat % 65536 else x.car0.toNat))
    (hcar1 : y.car1.toNat = (if n = 6 then 65536 * (x.car1.toNat / 65536) + v.toNat
      else if n = 7 then 65536 * (v.toNat % 256) + x.car1.toNat % 65536 else x.car1.toNat)) :
    BankFields n v b x y := by
  refine ⟨hdsr, by rw [hdcrl, if_neg h2], hcar0, hcar1, ?_, ?_⟩
  · rw [hseq]
    exact ⟨fun h => ⟨h2, h3, h⟩, fun ⟨_, _, h⟩ => h⟩
  · rw [hmask]
    exact ⟨fun h => ⟨h, fun c => absurd c h2⟩, And.left⟩

theorem bankFields_writeDsr (v : Word) (b : BitVec 2) (x : DebugBank) : BankFields 1 v b x (x.writeDsr (b == 0) v) := by
  refine bankFields_of_kept (by decide) (by decide) rfl rfl rfl (fun k hk => ?_) rfl rfl
  rw [if_pos rfl]
  unfold DebugBank.writeDsr
  cases b == 0
  · have hmask : (0x77 : BitVec 7).getLsbD k = (k != 3 || false) := by
      revert k
      decide
    simp only [Bool.false_eq_true, if_false, BitVec.getLsbD_and, BitVec.getLsbD_extractLsb', decide_eq_true hk, hmask,
      Nat.zero_add, Bool.true_and]
  · simp [hk]

theorem bankFields_writeDcrl (v : Word) (b : BitVec 2) (x : DebugBank) : BankFields 2 v b x (x.writeDcrl v) := by
  refine ⟨fun _ _ => rfl, rfl, rfl, rfl, ?_, ?_⟩
  · simp [DebugBank.writeDcrl]
  · simp [DebugBank.writeDcrl, and_assoc]

theorem bankFields_writeDcrh (v : Word) (b : BitVec 2) (x : DebugBank) :
    BankFields 3 v b x { x with seqArmed := false } := by
  refine ⟨fun _ _ => rfl, rfl, rfl, rfl, ?_, ?_⟩
  · simp
  · simp

/-- Another register than those of a bank leaves every bank. -/
theorem bankFields_self {n : ProcRegNum} (hn : n = 0 ∨ 8 ≤ n) (v : Word) (b : BitVec 2) (x : DebugBank) :
    BankFields n v b x x := by
  have hne : ∀ m : ProcRegNum, 1 ≤ m → m ≤ 7 → n ≠ m := by
    revert n
    decide
  refine bankFields_of_kept (hne 2 (by decide) (by decide)) (hne 3 (by decide) (by decide)) rfl rfl rfl (fun k hk => ?_)
    ?_ ?_
  · rw [if_neg (hne 1 (by decide) (by decide))]
  · rw [if_neg (hne 4 (by decide) (by decide)), if_neg (hne 5 (by decide) (by decide))]
  · rw [if_neg (hne 6 (by decide) (by decide)), if_neg (hne 7 (by decide) (by decide))]

/-- A write to the bank DBS selects, which takes place where it is visible. -/
theorem bankWritten_of_setBank {s t : State} {n : ProcRegNum} {v : Word} {x : DebugBank} (b : BitVec 2)
    (hget : t.dbg.get b = (s.setBank x).dbg.get b) (hx : BankFields n v s.dbg.bank s.curBank x) :
    BankWritten n v b s t := by
  rw [setBank_get] at hget
  unfold BankWritten
  simp only
  split
  · rename_i hseen
    obtain ⟨hhw, rfl, hlast⟩ := hseen
    rw [if_pos ⟨(bankVisible_iff s).2 ⟨hhw, hlast⟩, rfl⟩] at hget
    rw [hget]
    exact hx
  · rename_i hnot
    rw [hget]
    refine if_neg fun ⟨hvis, hb⟩ => hnot ?_
    obtain ⟨hhw, hlast⟩ := (bankVisible_iff s).1 hvis
    exact ⟨hhw, hb, hb ▸ hlast⟩

theorem bankWritten_kept {s t : State} {n : ProcRegNum} {v : Word} (hn : n = 0 ∨ 8 ≤ n) (b : BitVec 2)
    (hget : t.dbg.get b = s.dbg.get b) : BankWritten n v b s t := by
  unfold BankWritten
  simp only
  rw [hget]
  split
  · exact bankFields_self hn v b _
  · rfl

theorem dcrhWritten_kept {s t : State} {n : ProcRegNum} {v : Word} (hn : n ≠ 3) (hctl : t.dbg.ctl = s.dbg.ctl) :
    DcrhWritten n v s t := by
  unfold DcrhWritten
  rw [if_neg fun ⟨h, _⟩ => hn h]
  exact hctl

/-- The bits of DCR0 above bit 15: DBGL set once and locking (R326). -/
theorem dcrhWritten_write {s t : State} {v : Word}
    (hctl : t.dbg.ctl = if s.bankVisible && s.dbg.bank == 0 then s.dbg.ctl.write v else s.dbg.ctl) :
    DcrhWritten 3 v s t := by
  have hcond : (s.bankVisible && s.dbg.bank == 0) = true ↔ s.config.hwDebugModule = false ∧ s.dbg.bank = 0 := by
    rw [Bool.and_eq_true, beq_iff_eq, bankVisible_iff]
    exact ⟨fun ⟨⟨hhw, _⟩, hb⟩ => ⟨hhw, hb⟩, fun ⟨hhw, hb⟩ => ⟨⟨hhw, hb ▸ Nat.zero_le _⟩, hb⟩⟩
  unfold DcrhWritten
  split
  · rename_i h
    rw [if_pos (hcond.2 h.2)] at hctl
    rw [hctl]
    unfold DebugCtl.write
    cases s.dbg.ctl.dbgl <;> simp
  · rename_i h
    rw [hctl]
    exact if_neg fun c => h ⟨rfl, hcond.1 c⟩

/-! ### The table of R326 -/

theorem procReg_cases : ∀ n : ProcRegNum, n = 0 ∨ n = 1 ∨ n = 2 ∨ n = 3 ∨ n = 4 ∨ n = 5 ∨ n = 6 ∨ n = 7 ∨ n = 8 ∨
    n = 9 ∨ n = 10 ∨ n = 11 ∨ n = 12 ∨ n = 13 ∨ n = 14 ∨ n = 15 := by
  decide

/-- A write of a debug register changes the debug unit alone, in the bank DBS selects and in DCR0. -/
theorem prWritten_of_dbg {s t : State} {n : ProcRegNum} {v : Word} {x : DebugBank} (h1 : 1 ≤ n) (h7 : n ≤ 7)
    (ht : t = { s with dbg := t.dbg }) (hget : ∀ b, t.dbg.get b = (s.setBank x).dbg.get b)
    (hx : BankFields n v s.dbg.bank s.curBank x) (hbank : t.dbg.bank = s.dbg.bank)
    (hpending : t.dbg.pending = s.dbg.pending) (hctl : DcrhWritten n v s t) : PrWritten n v s t := by
  have hcontrol : ControlWritten n v s t := by
    have hb := congrArg BitVec.toNat hbank
    obtain rfl | rfl | rfl | rfl | rfl | rfl | rfl := debugReg_cases n h1 h7
    all_goals
      rw [ht] at hb ⊢
      exact ⟨rfl, rfl, rfl, rfl, rfl, hb⟩
  refine ⟨hcontrol, fun b => bankWritten_of_setBank b (hget b) hx, hctl, hpending, ?_⟩
  rw [ht]
  exact ⟨rfl, rfl, rfl, rfl, rfl, rfl⟩

/-- A write of a register of the bank DBS selects, DCRH excepted. -/
theorem prWritten_setBank {s : State} {n : ProcRegNum} {v : Word} {x : DebugBank} (h1 : 1 ≤ n) (h7 : n ≤ 7)
    (h3 : n ≠ 3) (hx : BankFields n v s.dbg.bank s.curBank x) : PrWritten n v s (s.setBank x) := by
  obtain ⟨hbank, hctl, hpending⟩ := setBank_dbg_rest s x
  exact prWritten_of_dbg h1 h7 (setBank_eq s x) (fun _ => rfl) hx hbank hpending (dcrhWritten_kept h3 hctl)

theorem writeDcrh_eq (s : State) (v : Word) : s.writeDcrh v = { s with dbg := (s.writeDcrh v).dbg } := by
  unfold State.writeDcrh
  simp only
  split <;> rw [setBank_eq]

theorem writeDcrh_dbg (s : State) (v : Word) : (s.writeDcrh v).dbg =
    { (s.setBank { s.curBank with seqArmed := false }).dbg with
      ctl := if s.bankVisible && s.dbg.bank == 0 then s.dbg.ctl.write v else s.dbg.ctl } := by
  obtain ⟨-, hctl, -⟩ := setBank_dbg_rest s { s.curBank with seqArmed := false }
  unfold State.writeDcrh
  simp only
  split
  · rfl
  · rw [← hctl]

theorem prWritten_writeDcrh (s : State) (v : Word) : PrWritten 3 v s (s.writeDcrh v) := by
  obtain ⟨hbank, -, hpending⟩ := setBank_dbg_rest s { s.curBank with seqArmed := false }
  have hdbg := writeDcrh_dbg s v
  refine prWritten_of_dbg (by decide) (by decide) (writeDcrh_eq s v) (fun b => ?_)
    (bankFields_writeDcrh v s.dbg.bank s.curBank) ?_ ?_ (dcrhWritten_write ?_)
  · rw [hdbg]
    rfl
  · rw [hdbg, ← hbank]
  · rw [hdbg, ← hpending]
  · rw [hdbg]

theorem prWritten_dbs (s : State) (v : Word) : PrWritten 0 v s (s.prWrite16 0 v) := by
  refine ⟨⟨rfl, rfl, rfl, rfl, rfl, ?_⟩, fun b => bankWritten_kept (.inl rfl) b rfl, rfl, rfl, rfl, rfl, rfl, rfl, rfl,
    rfl⟩
  exact (BitVec.extractLsb'_toNat _ _ _).trans rfl

/-- A register outside the debug unit: what is written of PSR, CFG, INTBASE, ISP and USP is all there is to show. -/
theorem prWritten_of_control {s t : State} {n : ProcRegNum} {v : Word} (hn : 8 ≤ n) (hc : ControlWritten n v s t)
    (ht : t = { s with
      psr := t.psr
      cfg := t.cfg
      intbase := t.intbase
      isp := t.isp
      regs := { s.regs with usp := t.regs.usp }
      stale := t.stale }) : PrWritten n v s t := by
  have h3 : n ≠ 3 := by
    rintro rfl
    exact absurd hn (by decide)
  have hdbg : t.dbg = s.dbg := by rw [ht]
  refine ⟨hc, fun b => bankWritten_kept (.inr hn) b (by rw [hdbg]), dcrhWritten_kept h3 (by rw [hdbg]), by rw [hdbg], ?_⟩
  rw [ht]
  exact ⟨rfl, rfl, rfl, rfl, rfl, rfl⟩

theorem prWritten_cfg (s : State) (v : Word) : PrWritten 8 v s (s.writeCfg v) := by
  have hkept : s.writeCfg v = { s with cfg := cfgOfWord v, stale := (s.writeCfg v).stale } := by
    obtain hw | ⟨-, hw⟩ | ⟨-, -, hw⟩ := writeCfg_cases s v
    · rw [hw]
      rfl
    · rw [hw]
    · rw [hw]
  rw [hkept]
  exact prWritten_of_control (by decide) ⟨rfl, rfl, rfl, rfl, rfl, rfl⟩ rfl

/-- A 16-bit write, register by register (R326). -/
theorem prWritten_prWrite16 (s : State) (n : ProcRegNum) (v : Word) : PrWritten n v s (s.prWrite16 n v) := by
  obtain rfl | rfl | rfl | rfl | rfl | rfl | rfl | rfl | rfl | rfl | rfl | rfl | rfl | rfl | rfl | rfl :=
    procReg_cases n
  · exact prWritten_dbs s v
  · exact prWritten_setBank (by decide) (by decide) (by decide) (bankFields_writeDsr v _ _)
  · exact prWritten_setBank (by decide) (by decide) (by decide) (bankFields_writeDcrl v _ _)
  · exact prWritten_writeDcrh s v
  · exact prWritten_setBank (by decide) (by decide) (by decide)
      (bankFields_of_kept (by decide) (by decide) rfl rfl rfl (fun _ _ => rfl) (toNat_withLow _ v) rfl)
  · exact prWritten_setBank (by decide) (by decide) (by decide)
      (bankFields_of_kept (by decide) (by decide) rfl rfl rfl (fun _ _ => rfl) (toNat_withHigh _ v) rfl)
  · exact prWritten_setBank (by decide) (by decide) (by decide)
      (bankFields_of_kept (by decide) (by decide) rfl rfl rfl (fun _ _ => rfl) rfl (toNat_withLow _ v))
  · exact prWritten_setBank (by decide) (by decide) (by decide)
      (bankFields_of_kept (by decide) (by decide) rfl rfl rfl (fun _ _ => rfl) rfl (toNat_withHigh _ v))
  · exact prWritten_cfg s v
  · exact prWritten_of_control (by decide) ⟨rfl, rfl, rfl, rfl, rfl, rfl⟩ rfl
  · exact prWritten_of_control (by decide) ⟨rfl, rfl, toNat_withEvenLow _ v, rfl, rfl, rfl⟩ rfl
  · exact prWritten_of_control (by decide) ⟨rfl, rfl, toNat_withHigh _ v, rfl, rfl, rfl⟩ rfl
  · exact prWritten_of_control (by decide) ⟨rfl, rfl, rfl, toNat_withEvenLow _ v, rfl, rfl⟩ rfl
  · exact prWritten_of_control (by decide) ⟨rfl, rfl, rfl, toNat_withHigh _ v, rfl, rfl⟩ rfl
  · exact prWritten_of_control (by decide) ⟨rfl, rfl, rfl, rfl, toNat_withLow_dword _ v, rfl⟩ rfl
  · exact prWritten_of_control (by decide) ⟨rfl, rfl, rfl, rfl, toNat_withHigh_dword _ v, rfl⟩ rfl

/-! ### LPR and LPRD (R330, R331) -/

/-- Serializing and going on leaves what was written. -/
theorem prWritten_serialized {s u : State} {n : ProcRegNum} {v : Word} (h : PrWritten n v s u) (k : Nat) :
    PrWritten n v s (u.serialize.advance k) := h

theorem advanced_serialize {s u : State} (hpc : u.pc = s.pc) (hiad : u.iadPending = s.iadPending) (k : Nat) :
    Advanced k s (u.serialize.advance k) := by
  have h := (advance_spec u.serialize k).1
  unfold Advanced at h ⊢
  rwa [serialize_pc, serialize_iadPending, hpc, hiad] at h

theorem prWrite16_pc (s : State) (n : ProcRegNum) (v : Word) :
    (s.prWrite16 n v).pc = s.pc ∧ (s.prWrite16 n v).iadPending = s.iadPending := by
  rw [prWrite16_eq]
  exact ⟨rfl, rfl⟩

/-- Clearing CFG.IC empties the instruction cache (R112). -/
theorem icacheEmpty_writeCfg {s : State} {v : Word} (hic : s.cfg.ic = true) (hv : v.getLsbD 4 = false) :
    (s.writeCfg v).IcacheEmpty := by
  have hnew : (cfgOfWord v).ic = false := hv
  obtain hw | ⟨hlock, -⟩ | ⟨-, hoff, -⟩ := writeCfg_cases s v
  · rw [hw]
    refine ⟨rfl, rfl, ?_, rfl⟩
    simp [State.lockingLines, State.icacheOn, hnew]
  · simp [State.lockingLines, State.icacheOn, hnew] at hlock
  · rw [hoff hnew] at hic
    cases hic

theorem prWrite32_narrow (s : State) {n : ProcRegNum} (h : n ∈ [(0 : ProcRegNum), 1, 8, 9]) (v : DWord) :
    s.prWrite32 n v = s.prWrite16 n (v.setWidth 16) := by
  rw [BitVec.setWidth_eq_extractLsb' (by decide)]
  simp only [List.mem_cons, List.not_mem_nil, or_false] at h
  obtain rfl | rfl | rfl | rfl := h <;> rfl

theorem prWrite32_wide (s : State) {n : ProcRegNum} (h : n ∈ [(2 : ProcRegNum), 4, 6, 10, 12, 14]) (v : DWord) :
    s.prWrite32 n v = (s.prWrite16 n (v.setWidth 16)).prWrite16 (n + 1) (v.extractLsb' 16 16) := by
  rw [BitVec.setWidth_eq_extractLsb' (by decide)]
  simp only [List.mem_cons, List.not_mem_nil, or_false] at h
  obtain rfl | rfl | rfl | rfl | rfl | rfl := h <;> rfl

theorem prWrite32_reserved (s : State) {n : ProcRegNum} (h : n ∈ [(3 : ProcRegNum), 5, 7, 11, 13, 15]) (v : DWord) :
    s.prWrite32 n v = s := by
  simp only [List.mem_cons, List.not_mem_nil, or_false] at h
  obtain rfl | rfl | rfl | rfl | rfl | rfl := h <;> rfl

theorem Control.pc {s t : State} (h : Control s t) : t.pc = s.pc ∧ t.iadPending = s.iadPending := by
  cases h with
  | none => exact ⟨rfl, rfl⟩
  | one m w => exact prWrite16_pc s m w
  | two m w w' _ _ =>
    obtain ⟨hpc, hiad⟩ := prWrite16_pc s m w
    obtain ⟨hpc', hiad'⟩ := prWrite16_pc (s.prWrite16 m w) (m + 1) w'
    exact ⟨hpc'.trans hpc, hiad'.trans hiad⟩

theorem icacheEmpty_lprd {s : State} {v : DWord} (hic : s.cfg.ic = true) (hv : v.getLsbD 4 = false) :
    (s.prWrite32 8 v).IcacheEmpty := by
  rw [prWrite32_narrow s (by decide)]
  exact icacheEmpty_writeCfg hic (by rw [BitVec.getLsbD_setWidth, hv, Bool.and_false])

theorem icacheEmpty_serialized {u : State} (h : u.IcacheEmpty) (k : Nat) : (u.serialize.advance k).IcacheEmpty := h

theorem advance_serialize_intbase (u : State) (k : Nat) : (u.serialize.advance k).intbase = u.intbase := rfl

theorem advance_serialize_isp (u : State) (k : Nat) : (u.serialize.advance k).isp = u.isp := rfl

theorem advance_serialize_regs (u : State) (k : Nat) : (u.serialize.advance k).regs = u.regs := rfl

/-- The two halves of a 24-bit register, the low one even (R28, R29). -/
theorem even24_of_halves {v a x y : Nat} (hx : x = 65536 * (a / 65536) + 2 * (v % 65536 / 2))
    (hy : y = 65536 * (v / 65536 % 256) + x % 65536) : y = 2 * (v % 2 ^ 24 / 2) := by
  omega

theorem word24_of_halves {v a x y : Nat} (hx : x = 65536 * (a / 65536) + v % 65536)
    (hy : y = 65536 * (v / 65536 % 256) + x % 65536) : y = v % 2 ^ 24 := by
  omega

theorem lprd_intbase (s : State) (v : DWord) : (s.prWrite32 10 v).intbase.toNat = 2 * (v.toNat % 2 ^ 24 / 2) := by
  have hlow := toNat_withEvenLow s.intbase (v.extractLsb' 0 16)
  have hhigh := toNat_withHigh (withLow s.intbase (evenWord (v.extractLsb' 0 16))) (v.extractLsb' 16 16)
  rw [toNat_low_dword] at hlow
  rw [toNat_high_dword] at hhigh
  exact even24_of_halves hlow hhigh

theorem lprd_isp (s : State) (v : DWord) : (s.prWrite32 12 v).isp.toNat = 2 * (v.toNat % 2 ^ 24 / 2) := by
  have hlow := toNat_withEvenLow s.isp (v.extractLsb' 0 16)
  have hhigh := toNat_withHigh (withLow s.isp (evenWord (v.extractLsb' 0 16))) (v.extractLsb' 16 16)
  rw [toNat_low_dword] at hlow
  rw [toNat_high_dword] at hhigh
  exact even24_of_halves hlow hhigh

theorem lprd_usp (s : State) (v : DWord) : (s.prWrite32 14 v).regs.usp.toNat = v.toNat % 2 ^ 24 := by
  have hlow := toNat_withLow_dword s.regs.usp (v.extractLsb' 0 16)
  have hhigh := toNat_withHigh_dword (s.regs.usp.extractLsb' 16 16 ++ v.extractLsb' 0 16) (v.extractLsb' 16 16)
  rw [toNat_low_dword] at hlow
  rw [toNat_high_dword] at hhigh
  exact word24_of_halves hlow hhigh

theorem exec_lpr {s : State} (hu : s.psr.u = false) (r : RegNum) (n : ProcRegNum) :
    exec (.lpr r n) s = .next ((s.prWrite16 n (s.reg r)).serialize.advance 4) := if_neg (by simp [hu])

theorem exec_lprd {s : State} (hu : s.psr.u = false) (p : PairNum) (n : ProcRegNum) :
    exec (.lprd p n) s = .next ((s.prWrite32 n (s.pair p)).serialize.advance 4) := if_neg (by simp [hu])

/-- Settles O44: LPR is one 16-bit write of R326, LPRD one, two or none. -/
theorem loadsProcessorRegister : Obligations.LoadsProcessorRegister := by
  unfold Obligations.LoadsProcessorRegister
  refine fun s r p n hu => ⟨⟨_, exec_lpr hu r n, prWritten_serialized (prWritten_prWrite16 s n _) 4, ?_, ?_⟩,
    ⟨_, exec_lprd hu p n, ?_, fun hn => ?_, fun hn => ?_, fun hn => ?_, ?_, ?_, ?_, ?_⟩⟩
  · obtain ⟨hpc, hiad⟩ := prWrite16_pc s n (s.reg r)
    exact advanced_serialize hpc hiad 4
  · rintro rfl hic hv
    exact icacheEmpty_serialized (icacheEmpty_writeCfg hic hv) 4
  · obtain ⟨hpc, hiad⟩ := (prWrite32_control s n (s.pair p)).pc
    exact advanced_serialize hpc hiad 4
  · rw [prWrite32_narrow s hn]
    exact prWritten_serialized (prWritten_prWrite16 s n _) 4
  · rw [prWrite32_wide s hn]
    exact ⟨_, prWritten_prWrite16 s n _, prWritten_serialized (prWritten_prWrite16 _ (n + 1) _) 4⟩
  · rw [prWrite32_reserved s hn]
    rfl
  · rintro rfl hic hv
    exact icacheEmpty_serialized (icacheEmpty_lprd hic hv) 4
  · rintro rfl
    rw [advance_serialize_intbase]
    exact lprd_intbase s _
  · rintro rfl
    rw [advance_serialize_isp]
    exact lprd_isp s _
  · rintro rfl
    rw [advance_serialize_regs]
    exact lprd_usp s _

end Sys2Proof.Proofs

/-! PROOFS. What discards the prefetched words (spec/20_memory.md R107, spec/70_reset_and_hazards.md R622), and the
miscellaneous instructions (spec/49_miscellaneous.md R450 to R457). -/

namespace Sys2Proof.Proofs

open Sys2Proof.Machine Sys2Proof.Laws

/-! ### Serializing operations (R622) -/

/-- No prefetched content from before is left to run. -/
def Discarded (t : State) : Prop := t.stale.prefetch = []

theorem discarded_enter (s : State) (x : Exc) (ret : Addr) : Discarded (s.enter x ret) := rfl

theorem discarded_lpr (s : State) (r : RegNum) (n : ProcRegNum) : Answers Discarded (execLpr r n s) :=
  .ite (fun _ => .next (discarded_enter s .und s.pc)) fun _ => .next rfl

theorem discarded_lprd (s : State) (p : PairNum) (n : ProcRegNum) : Answers Discarded (execLprd p n s) :=
  .ite (fun _ => .next (discarded_enter s .und s.pc)) fun _ => .next rfl

theorem discarded_excp (s : State) (v : BitVec 4) : Answers Discarded (execExcp v s) := by
  unfold execExcp
  split
  case h_4 => exact .ite (fun _ => .refused _) fun _ => .next (discarded_enter s .bpt s.pc)
  all_goals exact .next (discarded_enter s _ s.pc)

theorem discarded_returnFrom (s : State) : Discarded s.returnFrom := rfl

/-- Settles O9: each ends in `serialize`, by itself or by the exception entry it takes. -/
theorem serializingInstructions : Obligations.SerializingInstructions := by
  unfold Obligations.SerializingInstructions
  exact fun s t => ⟨fun r n => discarded_lpr s r n t, fun p n => discarded_lprd s p n t,
    Answers.next (discarded_returnFrom s) t, fun v => discarded_excp s v t, discarded_enter s⟩

/-! ### NOP (R455) -/

/-- A 16-bit register written with what it holds. -/
theorem setReg_reg {n : RegNum} (hn : n.toNat < 12) (s : State) : s.setReg n (s.reg n) = s := by
  unfold State.setReg
  rw [dif_pos hn, reg_low s hn, Vector.set_getElem_self]

/-- A low byte written with what it holds. -/
theorem setRegB_regB {n : RegNum} (hn : n.toNat < 12) (s : State) : s.setRegB n (s.regB n) = s := by
  unfold State.setRegB State.regB
  rw [join_of_parts (a := 8) (b := 8) (s.reg n)]
  exact setReg_reg hn s

theorem exec_nop (s : State) : exec .nop s = .next (s.advance 2) := by
  have hsum : s.regB 0 + 0 = s.regB 0 := BitVec.add_zero _
  have hkept : s.setRegB 0 (s.regB 0 + 0) = s := by
    rw [hsum]
    exact setRegB_regB (by decide) s
  exact congrArg (fun u => Host.Outcome.next (State.advance u 2)) hkept

/-! ### CINV (R450) -/

/-- What CINV makes of the state before the PC moves on. -/
def invalidated (o : CacheOpts) (s : State) : State :=
  if s.config.icachePresent then
    match o with
    | .i | .di => s.dropIcache
    | .iu | .diu => s.dropUnlocked
    | .d | .du => s
  else s

theorem exec_cinv (o : CacheOpts) (s : State) : exec (.cinv o) s = .next ((invalidated o s).advance 2) := by
  change execCinv o s = _
  unfold execCinv invalidated
  cases s.config.icachePresent <;> cases o <;> rfl

theorem invalidated_absent {s : State} (h : s.config.icachePresent = false) (o : CacheOpts) : invalidated o s = s :=
  if_neg (by simp [h])

theorem invalidated_present {s : State} (h : s.config.icachePresent = true) (o : CacheOpts) :
    (o = .i ∨ o = .di → invalidated o s = s.dropIcache) ∧
      (o = .iu ∨ o = .diu → invalidated o s = s.dropUnlocked) ∧ (o = .d ∨ o = .du → invalidated o s = s) := by
  unfold invalidated
  rw [if_pos h]
  refine ⟨?_, ?_, ?_⟩ <;> rintro (rfl | rfl) <;> rfl

/-- CINV changes only what a fetch may see. -/
theorem invalidated_eq (o : CacheOpts) (s : State) :
    invalidated o s = { s with stale := (invalidated o s).stale } := by
  unfold invalidated
  split
  · cases o <;> rfl
  · rfl

/-- What an invalidated cache held may still be prefetched. -/
theorem mem_dropIcache_prefetch (s : State) (c : Host.Cell) : c ∈ s.dropIcache.stale.prefetch ↔ c ∈ s.stale.olds := by
  rw [dropIcache_stale, mem_foldr_remember, mem_olds, List.mem_append, or_comm]

theorem mem_dropUnlocked_prefetch (s : State) (c : Host.Cell) :
    c ∈ s.dropUnlocked.stale.prefetch ↔ c ∈ s.stale.prefetch ∨ c ∈ s.stale.icache := by
  rw [dropUnlocked_stale, mem_foldr_remember, or_comm]

/-- The PC moved on after a change of anything else. -/
theorem advanced_of_eq {s u : State} (n : Nat) (hpc : u.pc = s.pc) (hiad : u.iadPending = s.iadPending) :
    Advanced n s (u.advance n) := by
  have h := (advance_spec u n).1
  unfold Advanced at h ⊢
  rwa [hpc, hiad] at h

theorem cinv_spec (s : State) (o : CacheOpts) : ∃ t : State, exec (.cinv o) s = .next t ∧ Advanced 2 s t ∧
    t = { s with pc := t.pc, iadPending := t.iadPending, stale := t.stale } ∧ t.stale = (invalidated o s).stale := by
  have hkept := invalidated_eq o s
  refine ⟨_, exec_cinv o s, advanced_of_eq 2 (by rw [hkept]) (by rw [hkept]), ?_, rfl⟩
  rw [hkept]
  rfl

/-- Settles O58: each is an update or two of the state and `advance`. -/
theorem miscellaneous : Obligations.Miscellaneous := by
  unfold Obligations.Miscellaneous
  refine fun s o first ope => ⟨⟨_, rfl, advanced_of_eq 2 rfl rfl, rfl⟩, ⟨_, rfl, advanced_of_eq 2 rfl rfl, rfl⟩,
    ⟨{ (s.setE true).advance 2 with waiting := true }, rfl, advanced_of_eq (u := s.setE true) 2 rfl rfl, rfl⟩,
    ⟨{ s.advance 2 with waiting := true }, rfl, (advance_spec s 2).1, rfl⟩,
    ⟨_, exec_nop s, (advance_spec s 2).1, rfl⟩, ⟨_, rfl, rfl, (advance_spec s _).1⟩, ?_⟩
  obtain ⟨t, ht, hadv, honly, hstale⟩ := cinv_spec s o
  refine ⟨t, ht, hadv, honly, fun hp => ?_, fun hp => ?_⟩
  · rw [hstale, invalidated_absent hp]
  · obtain ⟨hall, hunlocked, hdata⟩ := invalidated_present hp o
    rw [hstale]
    refine ⟨fun ho => ?_, fun ho => ?_, fun ho => ?_⟩
    · rw [hall ho]
      exact ⟨rfl, rfl, rfl, rfl, mem_dropIcache_prefetch s⟩
    · rw [hunlocked ho]
      exact ⟨rfl, mem_dropUnlocked_prefetch s⟩
    · rw [hdata ho]

end Sys2Proof.Proofs

/-! PROOFS. What the PC holds after it leaves the address space (spec/20_memory.md R90, spec/47_jumps_linkage.md R345,
spec/60_exceptions.md R536; decision D6): the low 24 bits of the computed address, with IAD pending. -/

namespace Sys2Proof.Proofs

open Sys2Proof.Machine Sys2Proof.Laws

/-! ### The PC wraps -/

theorem wrappedTo_setPc {s u : State} (h : u.iadPending = s.iadPending) (a : Int) : WrappedTo a s (u.setPc a) := by
  have hiad := (setPc_spec u a).1.2
  refine ⟨?_, by rw [hiad, h]⟩
  rw [setPc_pc, BitVec.toNat_ofInt]
  omega

theorem wrappedTo_advance (s : State) (n : Nat) : WrappedTo ((s.pc.toNat + n : Nat) : Int) s (s.advance n) := by
  rw [Nat.cast_add]
  exact wrappedTo_setPc rfl _

/-! ### Branches and jumps (R350 to R357) -/

theorem wrappedTo_branchIf (s : State) (d : BranchDisp) {c : Bool} {p : Prop} (hc : c = true ↔ p) :
    (p → WrappedTo (s.pc.toNat + branchDisp d) s (s.branchIf c d)) ∧
      (¬ p → WrappedTo ((s.pc.toNat + branchBytes d : Nat) : Int) s (s.branchIf c d)) := by
  refine ⟨fun hp => ?_, fun hp => ?_⟩
  · obtain rfl := hc.2 hp
    exact wrappedTo_setPc rfl _
  · obtain rfl := Bool.eq_false_of_not_eq_true (mt hc.1 hp)
    exact wrappedTo_advance s _

theorem wrappedTo_forwardIf (s : State) (j : BitVec 4) {c : Bool} {p : Prop} (hc : c = true ↔ p) :
    (p → WrappedTo ((s.pc.toNat + 2 * (j.toNat + 1) : Nat) : Int) s (s.forwardIf c j)) ∧
      (¬ p → WrappedTo ((s.pc.toNat + 2 : Nat) : Int) s (s.forwardIf c j)) := by
  refine ⟨fun hp => ?_, fun hp => ?_⟩
  · obtain rfl := hc.2 hp
    push_cast
    exact wrappedTo_setPc rfl _
  · obtain rfl := Bool.eq_false_of_not_eq_true (mt hc.1 hp)
    exact wrappedTo_advance s 2

/-- The compare-and-branch instructions are `forwardIf` of their test (R353 to R356). -/
theorem exec_forwardIf {i : Instr} {r : RegNum} {j : BitVec 4} {s : State} {taken : Prop}
    (h : (i = .beq0b r j ∧ (taken ↔ (s.reg r).toNat % 256 = 0)) ∨ (i = .beq0w r j ∧ (taken ↔ (s.reg r).toNat = 0)) ∨
      (i = .bne0b r j ∧ (taken ↔ (s.reg r).toNat % 256 ≠ 0)) ∨ (i = .bne0w r j ∧ (taken ↔ (s.reg r).toNat ≠ 0))) :
    ∃ c : Bool, exec i s = .next (s.forwardIf c j) ∧ (c = true ↔ taken) := by
  have hzero : ∀ {w : Nat} (v : BitVec w), (v == 0) = true ↔ v.toNat = 0 := by
    intro w v
    rw [beq_iff_eq]
    exact BitVec.toNat_eq.trans (by simp)
  have hbyte : (s.regB r == 0) = true ↔ (s.reg r).toNat % 256 = 0 := by
    rw [hzero, toNat_regB]
  have hnot : ∀ {c : Bool} {p : Prop}, (c = true ↔ p) → ((!c) = true ↔ ¬ p) := by
    intro c p hc
    rw [← hc, Bool.not_eq_true', Bool.not_eq_true]
  obtain ⟨rfl, ht⟩ | ⟨rfl, ht⟩ | ⟨rfl, ht⟩ | ⟨rfl, ht⟩ := h
  · exact ⟨_, rfl, hbyte.trans ht.symm⟩
  · exact ⟨_, rfl, (hzero (s.reg r)).trans ht.symm⟩
  · exact ⟨_, rfl, (hnot hbyte).trans ht.symm⟩
  · exact ⟨_, rfl, (hnot (hzero (s.reg r))).trans ht.symm⟩

theorem wrappedTo_bal (s : State) (link : Link) (h : BitVec 24) :
    ∃ t : State, exec (.bal link h) s = .next t ∧ WrappedTo ((s.pc.toNat : Int) + 2 * h.toInt) s t :=
  ⟨_, rfl, wrappedTo_setPc (by rw [setPair_eq]) _⟩

/-- A register jump not taken; condition 15 always is (D15). -/
theorem wrappedTo_jump_not_taken {i : Instr} {c : Cond} {p : PairNum} {s : State}
    (h : (i, c) ∈ [(Instr.jeq p, Cond.eq), (.jne p, .ne), (.jcs p, .cs), (.jcc p, .cc), (.jhi p, .hi), (.jls p, .ls),
        (.jgt p, .gt), (.jle p, .le), (.jfs p, .fs), (.jfc p, .fc), (.jlo p, .lo), (.jhs p, .hs), (.jlt p, .lt),
        (.jge p, .ge)] ∨ i = .jcond c p)
    (hc : ¬ CondHolds c s.psr) :
    ∃ t : State, exec i s = .next t ∧ WrappedTo ((s.pc.toNat + 2 : Nat) : Int) s t := by
  have huc : c ≠ .uc := by
    rintro rfl
    exact hc trivial
  have hfalse : condTrue c s.psr = false := Bool.eq_false_of_not_eq_true (mt (condTrue_iff c s.psr).1 hc)
  have hexec := exec_jumpIf (h.imp (List.mem_append_left [(Instr.jump p, Cond.always)]) fun hi => ⟨hi, huc⟩) s
  rw [hfalse] at hexec
  exact ⟨_, hexec, wrappedTo_advance s 2⟩

/-! ### What leaves the PC to `advance` -/

section Operations

variable (s : State)

@[simp] theorem setReg_pc (n : RegNum) (v : Word) : (s.setReg n v).pc = s.pc := by rw [setReg_eq]

@[simp] theorem setRegB_pc (n : RegNum) (v : Byte) : (s.setRegB n v).pc = s.pc := setReg_pc s n _

@[simp] theorem setPair_pc (n : PairNum) (v : DWord) : (s.setPair n v).pc = s.pc := by rw [setPair_eq]

@[simp] theorem drewShift_pc (w : Nat) (c : Int) : (s.drewShift w c).pc = s.pc := by
  unfold State.drewShift
  split <;> rfl

@[simp] theorem noteRead_keeps_pc (a : Int) (n : Nat) : (s.noteRead a n).pc = s.pc := noteRead_pc s a n

@[simp] theorem storeBytes_pc (a : Int) (bs : List Byte) : (s.storeBytes a bs).pc = s.pc := by rw [storeBytes_spec]

@[simp] theorem changeBitB_pc (a : Int) (b : Nat) (x : Bool) : (s.changeBitB a b x).pc = s.pc := by
  simp [State.changeBitB, State.storeB]

@[simp] theorem changeBit_pc (a : Int) (pos : BitVec 4) (x : Bool) : (s.changeBit a pos x).pc = s.pc := by
  unfold State.changeBit
  simp only
  split
  · exact changeBitB_pc s _ _ _
  · simp [State.changeBitW, State.storeW]

@[simp] theorem testBitB_pc (a : Int) (b : Nat) : (s.testBitB a b).pc = s.pc := by simp [State.testBitB]

@[simp] theorem testBit_pc (a : Int) (pos : BitVec 4) : (s.testBit a pos).pc = s.pc := by
  unfold State.testBit
  simp only
  split
  · exact testBitB_pc s _ _
  · simp [State.testBitW]

@[simp] theorem checkAddress_pc (a : Int) : (s.checkAddress a).pc = s.pc := by rw [checkAddress_eq]

@[simp] theorem storeWords_pc (a : Int) (ws : List Word) : (s.storeWords a ws).pc = s.pc := by rw [storeWords_eq]

@[simp] theorem loadSlots_pc (a : Int) (xs : List Slot) : (s.loadSlots a xs).pc = s.pc := by rw [loadSlots_eq]

@[simp] theorem popSlots_pc (ra : Bool) (count : BitVec 3) (n : RegNum) : (s.popSlots ra count n).pc = s.pc := by
  simp [State.popSlots]

end Operations

/-! ### Instructions in sequence (R536) -/

/-- The PC went on by `n` bytes, modulo 2^24 and with IAD pending past the top. -/
def WentOn (n : Nat) (s t : State) : Prop :=
  t.pc.toNat = (s.pc.toNat + n) % 2 ^ 24 ∧ (2 ^ 24 ≤ s.pc.toNat + n → t.iadPending = true)

theorem wentOn_advance {s u : State} (hpc : u.pc = s.pc) (n : Nat) : WentOn n s (u.advance n) := by
  obtain ⟨hlow, hiad⟩ := wrappedTo_advance u n
  rw [hpc] at hlow hiad
  exact ⟨by omega, fun h => hiad.2 (.inr (.inr (by omega)))⟩

section Instructions

variable (s : State)

theorem wentOn_withMac (hm : s.config.macPresent = true) (dest : PairNum) (v : DWord) :
    Answers (WentOn 4 s) (s.withMac dest v) :=
  .ite (fun _ => .next (wentOn_advance (setPair_pc s dest v) 4)) fun h => absurd hm h

theorem wentOn_tbit (fromReg : Bool) (offset : BitVec 4) (src : RegNum) :
    Answers (WentOn 2 s) (execTbit fromReg offset src s) :=
  .ite (fun _ => .next (wentOn_advance rfl 2)) fun _ => .next (wentOn_advance rfl 2)

theorem wentOn_lpr (hu : s.psr.u = false) (r : RegNum) (n : ProcRegNum) : Answers (WentOn 4 s) (exec (.lpr r n) s) := by
  obtain ⟨hpc, -⟩ := prWrite16_pc s n (s.reg r)
  rw [exec_lpr hu]
  exact .next (wentOn_advance hpc 4)

theorem wentOn_lprd (hu : s.psr.u = false) (p : PairNum) (n : ProcRegNum) :
    Answers (WentOn 4 s) (exec (.lprd p n) s) := by
  obtain ⟨hpc, -⟩ := (prWrite32_control s n (s.pair p)).pc
  rw [exec_lprd hu]
  exact .next (wentOn_advance hpc 4)

theorem wentOn_cinv (o : CacheOpts) : Answers (WentOn 2 s) (exec (.cinv o) s) := by
  rw [exec_cinv]
  exact .next (wentOn_advance (by rw [invalidated_eq]) 2)

/-- Every instruction that runs on. -/
theorem exec_wentOn (i : Instr) (h : runsOn i s = true) : Answers (WentOn (instrBytes i) s) (exec i s) := by
  cases i
  case movb | movw | movd | movxb | movxw | movzb | movzw => exact .next (wentOn_advance (by simp) _)
  case addb | addw | addd | addub | adduw | addcb | addcw | subb | subw | subd | subcb | subcw | mulb | mulw
      | mulsb | mulsw | muluw => exact .next (wentOn_advance (by simp) _)
  case macqw | macuw | macsw => exact wentOn_withMac s h _ _
  case cmpb | cmpw | cmpd => exact .next (wentOn_advance rfl _)
  case andb | andw | andd | orb | orw | ord | xorb | xorw | xord => exact .next (wentOn_advance (by simp) _)
  case scond | seq | sne | scs | scc | shi | sls | sgt | sle | sfs | sfc | slo | shs | slt | sge =>
    exact .next (wentOn_advance (setReg_pc s _ _) 2)
  case ashub | ashuw | ashud | lshb | lshw | lshd => exact .next (wentOn_advance (by simp) 2)
  case cbitb | cbitw | sbitb | sbitw | tbitb | tbitw => exact .withEa _ fun _ => wentOn_advance (by simp) _
  case tbit => exact wentOn_tbit s _ _ _
  case lpr => exact wentOn_lpr s (by simpa [runsOn] using h) _ _
  case lprd => exact wentOn_lprd s (by simpa [runsOn] using h) _ _
  case spr | sprd => exact .next (wentOn_advance (by simp) 4)
  case push => exact .ite (fun _ => .next (wentOn_advance (by simp) 2)) fun _ => .refused _
  case pop => exact .ite (fun _ => .next (wentOn_advance (by simp) 2)) fun _ => .refused _
  case loadb | loadw | loadd => exact .withEa _ fun _ => wentOn_advance (by simp) _
  case storb | storw | stord | storbImm | storwImm => exact .withEa _ fun _ => wentOn_advance (storeBytes_pc s _ _) _
  case loadm | loadmp | storm | stormp => exact .next (wentOn_advance (by simp) 2)
  case cinv => exact wentOn_cinv s _
  case di | ei => exact .next (wentOn_advance rfl 2)
  case eiwait => exact .next (wentOn_advance (u := s.setE true) rfl 2)
  case wait => exact .next (wentOn_advance (u := s) rfl 2)
  case nop => exact .next (wentOn_advance (by simp) 2)
  case resNop => exact .next (wentOn_advance rfl _)
  all_goals cases h

end Instructions

/-- Settles O59: every address that is computed goes through `setPc`. -/
theorem pcLeavesMemory : Obligations.PcLeavesMemory := by
  unfold Obligations.PcLeavesMemory
  refine fun s dest link h c r j p i => ⟨fun hi => ?_, fun taken hi => ?_, wrappedTo_bal s link h,
    wrappedTo_jump_not_taken, ⟨_, exec_nop s, wrappedTo_advance s 2⟩, exec_wentOn s i⟩
  · exact ⟨_, exec_branchIf hi s, wrappedTo_branchIf s dest (condTrue_iff c s.psr)⟩
  · obtain ⟨b, hexec, hb⟩ := exec_forwardIf hi
    exact ⟨_, hexec, wrappedTo_forwardIf s j hb⟩

end Sys2Proof.Proofs

/-! PROOFS. Loads and stores (spec/20_memory.md R84, R85, R91, spec/48_load_store.md R395 to R407): each is one access,
with a register written or not, and then `advance`. -/

namespace Sys2Proof.Proofs

open Sys2Proof.Machine Sys2Proof.Laws

/-- An instruction with an effective address goes on with it. -/
theorem exec_withEa {i : Instr} {s : State} {ea : Option Int} {f : Int → State} {a : Int} (hea : ea = some a)
    (hi : exec i s = withEa ea f) : exec i s = .next (f a) := by
  rw [hi, hea]
  rfl

/-! ### Loads (R400 to R402) -/

theorem loadedByte (s : State) (d : RegNum) (a : Int) (n : Nat) {t : State}
    (ht : t = ((s.noteRead a 1).setRegB d (s.loadB a)).advance n) :
    BytesLoaded a 1 ((t.reg d).toNat % 256) s ∧ (t.reg d).toNat / 256 = (s.reg d).toNat / 256 ∧
      LoadFrame [⟨d, false⟩] a 1 n s t := by
  subst ht
  obtain ⟨-, hkept, heq⟩ := setRegB_spec (s.noteRead a 1) d (s.loadB a)
  obtain ⟨hlt, hreg⟩ := lowByte_setRegB (s.noteRead a 1) d (s.loadB a)
  rw [reg_congr (noteRead_regs s a 1) (by rw [noteRead_psr]) d] at hreg
  change ((((s.noteRead a 1).setRegB d (s.loadB a)).advance n).reg d).toNat = _ at hreg
  have hlow : (256 * ((s.reg d).toNat / 256) + (s.loadB a).toNat) % 256 = (s.loadB a).toNat := by omega
  have hhigh : (256 * ((s.reg d).toNat / 256) + (s.loadB a).toNat) / 256 = (s.reg d).toNat / 256 := by omega
  rw [hreg, hlow, hhigh]
  exact ⟨loaded_loadB s a, rfl, loadFrame_advance a 1 n hkept heq⟩

theorem loadedWord (s : State) (d : RegNum) (a : Int) (n : Nat) {t : State}
    (ht : t = ((s.noteRead a 2).setReg d (s.loadW a)).advance n) :
    BytesLoaded a 2 (t.reg d).toNat s ∧ LoadFrame [⟨d, false⟩] a 2 n s t := by
  subst ht
  obtain ⟨hread, hkept, heq⟩ := setReg_spec (s.noteRead a 2) d (s.loadW a)
  refine ⟨?_, loadFrame_advance a 2 n hkept heq⟩
  change BytesLoaded a 2 (((s.noteRead a 2).setReg d (s.loadW a)).reg d).toNat s
  rw [hread]
  exact loaded_loadW s a

/-- The halves a pair number names depend on CFG.SR alone (R23). -/
theorem pairSlots_congr {s t : State} (h : t.cfg = s.cfg) (p : PairNum) : t.pairSlots p = s.pairSlots p := by
  unfold State.pairSlots State.pairIsWide
  rw [h]

theorem loadedPair (s : State) (p : PairNum) (a : Int) (n : Nat) {t : State}
    (ht : t = ((s.noteRead a 4).setPair p (s.loadD a)).advance n) :
    BytesLoaded a 4 (t.pair p).toNat s ∧ LoadFrame (s.pairSlots p) a 4 n s t := by
  subst ht
  obtain ⟨hread, hkept, heq⟩ := setPair_spec (s.noteRead a 4) p (s.loadD a)
  rw [pairSlots_congr (noteRead_cfg s a 4)] at hkept
  refine ⟨?_, loadFrame_advance a 4 n hkept heq⟩
  change BytesLoaded a 4 (((s.noteRead a 4).setPair p (s.loadD a)).pair p).toNat s
  rw [hread]
  exact loaded_loadD s a

/-- Settles O55: one read, whose value goes to the destination. -/
theorem loads : Obligations.Loads := by
  unfold Obligations.Loads
  exact fun s src d p a => ⟨fun h => ⟨_, exec_withEa h rfl, loadedByte s d a _ rfl⟩,
    fun h => ⟨_, exec_withEa h rfl, loadedWord s d a _ rfl⟩, fun h => ⟨_, exec_withEa h rfl, loadedPair s p a _ rfl⟩⟩

/-! ### Stores (R403 to R407) -/

theorem stored_storeB (s : State) (a : Int) {v : Byte} {m : Nat} (hv : v.toNat = m) (n : Nat) :
    Stored a 1 m n s ((s.storeB a v).advance n) := by
  subst hv
  exact storeBytes_stored s a [v] n

theorem stored_storeW (s : State) (a : Int) {v : Word} {m : Nat} (hv : v.toNat = m) (n : Nat) :
    Stored a 2 m n s ((s.storeW a v).advance n) := by
  have h := storeBytes_stored s a (wordBytes v) n
  rwa [bytesValue_word, hv] at h

theorem stored_storeD (s : State) (a : Int) (v : DWord) (n : Nat) :
    Stored a 4 v.toNat n s ((s.storeD a v).advance n) := by
  have h := storeBytes_stored s a (dwordBytes v) n
  rwa [bytesValue_dword] at h

/-- Settles O56: one write, of the source's bytes in memory order. -/
theorem stores : Obligations.Stores := by
  unfold Obligations.Stores
  exact fun s dest bdest r p imm a => ⟨fun h => ⟨_, exec_withEa h rfl, stored_storeB s a (toNat_regB s r) _⟩,
    fun h => ⟨_, exec_withEa h rfl, stored_storeW s a rfl _⟩, fun h => ⟨_, exec_withEa h rfl, stored_storeD s a _ _⟩,
    fun h => ⟨_, exec_withEa h rfl, stored_storeB s a (BitVec.toNat_setWidth_of_le (by decide)) _⟩,
    fun h => ⟨_, exec_withEa h rfl, stored_storeW s a (BitVec.toNat_setWidth_of_le (by decide)) _⟩⟩

end Sys2Proof.Proofs

/-! PROOFS. Transfers of several words: LOADM, LOADMP, STORM, STORMP, PUSH, POP and POPRET (spec/20_memory.md R87, R92,
spec/47_jumps_linkage.md R347, R348, R363 to R365, spec/48_load_store.md R398, R408 to R411). Each is a transfer list
read or written, then the pointer written. -/

namespace Sys2Proof.Proofs

open Sys2Proof.Machine Sys2Proof.Laws

/-- The PC moved on after accesses that left IAD pending where one of them was bad. -/
theorem advancedOr_advance {s u : State} {bad : Prop} (hpc : u.pc = s.pc)
    (hiad : u.iadPending = true ↔ s.iadPending = true ∨ bad) (n : Nat) : AdvancedOr bad n s (u.advance n) := by
  obtain ⟨hadv, hpend⟩ := (advance_spec u n).1
  rw [hpc] at hadv hpend
  exact ⟨hadv, by rw [hpend, hiad, or_assoc]⟩

/-! ### Words read into registers -/

/-- The words from `a` on were read into the slots `xs`, and then the halves `w` written. -/
structure SlotsRead (a : Int) (xs w : List Slot) (s t : State) : Prop where
  loaded : SlotsLoaded a xs s t
  regs : RegsKept (xs ++ w) s t
  psr : t.psr = s.psr
  cfg : t.cfg = s.cfg
  pc : t.pc = s.pc
  mem : MemoryKept s t
  access : AccessKept s t
  iad : t.iadPending = true ↔ s.iadPending = true ∨ ¬ Addressable a (2 * xs.length)

theorem slotsLoaded_kept {s u t : State} {a : Int} {xs w : List Slot} (h : SlotsLoaded a xs s u)
    (hkept : RegsKept w u t) (hok : ∀ x ∈ xs, SlotOk x) (hw : ∀ x ∈ xs, x ∉ w) : SlotsLoaded a xs s t := by
  intro k hk hlast
  have hx : xs.getD k ⟨0, false⟩ ∈ xs := by
    rw [List.getD_eq_getElem xs _ hk]
    exact List.getElem_mem hk
  rw [slot_kept hkept (hok _ hx) (hw _ hx)]
  exact h k hk hlast

/-- A transfer list read, and then registers written that are none of the list's. -/
theorem slotsRead {s t : State} {a : Int} {xs w : List Slot} (hne : 0 < xs.length) (hok : ∀ x ∈ xs, SlotOk x)
    (hw : ∀ x ∈ xs, x ∉ w) (hkept : RegsKept w (s.loadSlots a xs) t)
    (ht : t = { s.loadSlots a xs with regs := t.regs }) : SlotsRead a xs w s t := by
  obtain ⟨hloaded, hregs, hpsr, hpc, hcfg, hmem, haccess, hiad⟩ := loadSlots_spec xs s a hok
  rw [exists_unaddressable a xs.length hne] at hiad
  refine ⟨slotsLoaded_kept hloaded hkept hok hw, regsKept_trans hregs hkept, ?_, ?_, ?_, ?_, ?_, ?_⟩
  all_goals
    rw [ht]
    assumption

/-! ### Words written from registers -/

/-- The words `ws` were written from `a` on, and then the halves `w` of registers. -/
structure WordsWritten (a : Int) (ws : List Word) (w : List Slot) (s t : State) : Prop where
  stored : WordsStored a ws s t
  regs : RegsKept w s t
  psr : t.psr = s.psr
  pc : t.pc = s.pc
  access : AccessKept s t
  iad : t.iadPending = true ↔ s.iadPending = true ∨ ¬ Addressable a (2 * ws.length)

theorem wordsWritten {s t : State} {a : Int} {ws : List Word} {w : List Slot} (hne : 0 < ws.length)
    (hkept : RegsKept w (s.storeWords a ws) t) (ht : t = { s.storeWords a ws with regs := t.regs }) :
    WordsWritten a ws w s t := by
  obtain ⟨hstored, hregs, hpsr, hpc, -, haccess, hiad⟩ := storeWords_spec ws s a
  rw [exists_unaddressable a ws.length hne] at hiad
  have hnone : RegsKept [] s (s.storeWords a ws) := regsKept_refl hregs (by rw [hpsr])
  refine ⟨?_, regsKept_trans hnone hkept, ?_, ?_, ?_, ?_⟩
  all_goals
    rw [ht]
    assumption

/-! ### LOADM, LOADMP, STORM, STORMP (R398) -/

theorem mSlots_eq (count : BitVec 3) : mSlots count =
    (([2, 3, 4, 5, 8, 9, 10, 11] : List RegNum).take (count.toNat + 1)).map (fun r => ⟨r, false⟩) := by
  rw [List.map_take]
  rfl

/-- The list of the multiple transfers names neither pointer of the loads. -/
theorem mSlots_slots : ∀ count : BitVec 3, ∀ x ∈ mSlots count, x.high = false ∧ x.reg ≠ 0 ∧ x.reg ≠ 1 := by decide

theorem mSlots_map_slot (s : State) (count : BitVec 3) : (mSlots count).map s.slot =
    (([2, 3, 4, 5, 8, 9, 10, 11] : List RegNum).take (count.toNat + 1)).map s.reg := by
  rw [mSlots_eq, List.map_map]
  rfl

/-- A multiple load through a pointer among R0 and R1, which is then written. -/
theorem slotsRead_mSlots {s t : State} {a : Int} {count : BitVec 3} {w : List Slot}
    (hw : ∀ x ∈ w, x.reg = 0 ∨ x.reg = 1) (hkept : RegsKept w (s.loadSlots a (mSlots count)) t)
    (ht : t = { s.loadSlots a (mSlots count) with regs := t.regs }) : SlotsRead a (mSlots count) w s t := by
  refine slotsRead (by rw [mSlots_length]; omega) (fun x hx => ?_) (fun x hx hxw => ?_) hkept ht
  · obtain ⟨hlow, -⟩ := mSlots_slots count x hx
    exact fun hhigh => by simp [hlow] at hhigh
  · obtain ⟨-, h0, h1⟩ := mSlots_slots count x hx
    exact (hw x hxw).elim h0 h1

theorem wordsWritten_mSlots {s t : State} {a : Int} {count : BitVec 3} {w : List Slot}
    (hkept : RegsKept w (s.storeWords a ((mSlots count).map s.slot)) t)
    (ht : t = { s.storeWords a ((mSlots count).map s.slot) with regs := t.regs }) :
    WordsWritten a ((mSlots count).map s.slot) w s t :=
  wordsWritten (by rw [List.length_map, mSlots_length]; omega) hkept ht

/-- A pair of two registers, of those below 12 (R23). -/
theorem pairSlots_low (s : State) {p : PairNum} (hp : p ≤ 11) : s.pairSlots p = [⟨p, false⟩, ⟨p + 1, false⟩] := by
  unfold State.pairSlots
  rw [pairIsWide_low s hp]
  rfl

/-- A pointer moved on by the bytes of a transfer. -/
theorem toNat_add_transferBytes {w : Nat} (v : BitVec w) (count : BitVec 3) :
    (v + BitVec.ofNat w (transferBytes count)).toNat = (v.toNat + 2 * (count.toNat + 1)) % 2 ^ w := by
  rw [BitVec.toNat_add, BitVec.toNat_ofNat, Nat.add_mod_mod]
  rfl

theorem loadm_spec (s : State) (count : BitVec 3) : ∃ u : State, exec (.loadm count) s = .next (u.advance 2) ∧
    SlotsRead (s.reg 0).toNat (mSlots count) [⟨0, false⟩] s u ∧
    (u.reg 0).toNat = ((s.reg 0).toNat + 2 * (count.toNat + 1)) % 65536 := by
  obtain ⟨hread, hkept, heq⟩ := setReg_spec (s.loadSlots (s.reg 0).toNat (mSlots count)) 0
    (s.reg 0 + BitVec.ofNat 16 (transferBytes count))
  refine ⟨_, rfl, slotsRead_mSlots (by simp) hkept heq, ?_⟩
  rw [hread]
  exact toNat_add_transferBytes (s.reg 0) count

theorem loadmp_spec (s : State) (count : BitVec 3) : ∃ u : State, exec (.loadmp count) s = .next (u.advance 2) ∧
    SlotsRead (s.pair 0).toNat (mSlots count) [⟨0, false⟩, ⟨1, false⟩] s u ∧
    (u.pair 0).toNat = ((s.pair 0).toNat + 2 * (count.toNat + 1)) % 2 ^ 32 := by
  obtain ⟨hread, hkept, heq⟩ := setPair_spec (s.loadSlots (s.pair 0).toNat (mSlots count)) 0
    (s.pair 0 + BitVec.ofNat 32 (transferBytes count))
  rw [pairSlots_low _ (by decide)] at hkept
  refine ⟨_, rfl, slotsRead_mSlots (by simp) hkept heq, ?_⟩
  rw [hread]
  exact toNat_add_transferBytes (s.pair 0) count

theorem storm_spec (s : State) (count : BitVec 3) : ∃ u : State, exec (.storm count) s = .next (u.advance 2) ∧
    WordsWritten (s.reg 1).toNat ((mSlots count).map s.slot) [⟨1, false⟩] s u ∧
    (u.reg 1).toNat = ((s.reg 1).toNat + 2 * (count.toNat + 1)) % 65536 := by
  obtain ⟨hread, hkept, heq⟩ := setReg_spec (s.storeWords (s.reg 1).toNat ((mSlots count).map s.slot)) 1
    (s.reg 1 + BitVec.ofNat 16 (transferBytes count))
  refine ⟨_, rfl, wordsWritten_mSlots hkept heq, ?_⟩
  rw [hread]
  exact toNat_add_transferBytes (s.reg 1) count

theorem stormp_spec (s : State) (count : BitVec 3) : ∃ u : State, exec (.stormp count) s = .next (u.advance 2) ∧
    WordsWritten (s.pair 6).toNat ((mSlots count).map s.slot) [⟨6, false⟩, ⟨7, false⟩] s u ∧
    (u.pair 6).toNat = ((s.pair 6).toNat + 2 * (count.toNat + 1)) % 2 ^ 32 := by
  obtain ⟨hread, hkept, heq⟩ := setPair_spec (s.storeWords (s.pair 6).toNat ((mSlots count).map s.slot)) 6
    (s.pair 6 + BitVec.ofNat 32 (transferBytes count))
  rw [pairSlots_low _ (by decide)] at hkept
  refine ⟨_, rfl, wordsWritten_mSlots hkept heq, ?_⟩
  rw [hread]
  exact toNat_add_transferBytes (s.pair 6) count

/-- Settles O57: the list is read or written by `loadSlots` or `storeWords`, and then the pointer is written. -/
theorem multipleTransfers : Obligations.MultipleTransfers := by
  unfold Obligations.MultipleTransfers
  intro s count n list words loaded stored
  have hslots : mSlots count = list.map (fun r => ⟨r, false⟩) := mSlots_eq count
  have hwords : (mSlots count).map s.slot = words := mSlots_map_slot s count
  have hlength : words.length = n := by rw [← hwords, List.length_map, mSlots_length]
  have hloaded : ∀ {a : Nat} {w : List Slot} {u : State}, SlotsRead a (mSlots count) w s u →
      loaded a (u.advance 2) ∧ RegsKept (w ++ list.map (fun r => ⟨r, false⟩)) s (u.advance 2) := by
    intro a w u h
    have hiad := h.iad
    rw [mSlots_length] at hiad
    refine ⟨⟨hslots ▸ h.loaded, h.psr, h.mem, h.access, advancedOr_advance h.pc hiad 2⟩,
      regsKept_mono (hslots ▸ h.regs) fun x hx => ?_⟩
    exact List.mem_append.2 (List.mem_append.1 hx).symm
  have hstored : ∀ {a : Nat} {w : List Slot} {u : State}, WordsWritten a ((mSlots count).map s.slot) w s u →
      stored a (u.advance 2) ∧ RegsKept w s (u.advance 2) := by
    intro a w u h
    rw [hwords] at h
    have hiad := h.iad
    rw [hlength] at hiad
    exact ⟨⟨h.stored, h.psr, h.access, advancedOr_advance h.pc hiad 2⟩, h.regs⟩
  obtain ⟨u1, h1, hread1, hptr1⟩ := loadm_spec s count
  obtain ⟨u2, h2, hread2, hptr2⟩ := loadmp_spec s count
  obtain ⟨u3, h3, hwrite3, hptr3⟩ := storm_spec s count
  obtain ⟨u4, h4, hwrite4, hptr4⟩ := stormp_spec s count
  exact ⟨⟨_, h1, (hloaded hread1).1, hptr1, (hloaded hread1).2⟩, ⟨_, h2, (hloaded hread2).1, hptr2, (hloaded hread2).2⟩,
    ⟨_, h3, (hstored hwrite3).1, hptr3, (hstored hwrite3).2⟩, ⟨_, h4, (hstored hwrite4).1, hptr4, (hstored hwrite4).2⟩⟩

/-! ### PUSH (R363) -/

theorem stackSlots_pos : ∀ (sr ra : Bool) (count : BitVec 3) (n : RegNum), 0 < (stackSlots sr ra count n).length := by
  decide

/-- Valid parameters keep the stack pointer out of the list (R348). -/
theorem reg_ne_of_stackValid {sr ra : Bool} {count : BitVec 3} {n : RegNum} (h : stackValid sr count n = true)
    {x : Slot} (hx : x ∈ stackSlots sr ra count n) : x.reg ≠ 15 := by
  have hra : ∀ sr : Bool, ∀ y ∈ raSlots sr, y.reg ≠ 15 := by decide
  unfold stackSlots at hx
  obtain hx | hx := List.mem_append.1 hx
  · simpa using List.all_eq_true.1 h x hx
  · split at hx
    · exact hra sr x hx
    · cases hx

/-- The stack pointer as a pair, in either mode (R22, R23). -/
theorem pairSlots_sp (s : State) : s.pairSlots 15 = [⟨15, false⟩, ⟨15, true⟩] := rfl

/-- Words pushed after a look at the stack pointer (R92). -/
theorem push_written {s t : State} {sp base : Int} {ws : List Word} {w : List Slot} (hne : 0 < ws.length)
    (hkept : RegsKept w ((s.checkAddress sp).storeWords base ws) t)
    (ht : t = { (s.checkAddress sp).storeWords base ws with regs := t.regs }) :
    WordsStored base ws s t ∧ RegsKept w s t ∧ t.psr = s.psr ∧ AccessKept s t ∧ t.pc = s.pc ∧
      (t.iadPending = true ↔ s.iadPending = true ∨ (¬ Addressable sp 1 ∨ ¬ Addressable base (2 * ws.length))) := by
  obtain ⟨hstored, hregs, hpsr, hpc, haccess, hiad⟩ := wordsWritten hne hkept ht
  rw [checkAddress_eq] at hstored hregs hpsr hpc haccess hiad
  refine ⟨hstored, hregs, hpsr, haccess, hpc, ?_⟩
  rw [hiad, Bool.or_eq_true, Bool.not_eq_true', ← Bool.not_eq_true, legal_addressable, or_assoc]

/-- Settles O53: the words are written with `storeWords`, and then the stack pointer. -/
theorem pushes : Obligations.Pushes := by
  unfold Obligations.Pushes
  intro s ra count src hv words base
  obtain ⟨hread, hkept, heq⟩ := setPair_spec ((s.checkAddress (s.pair 15).toNat).storeWords base words) 15
    (BitVec.ofInt 32 base)
  have hne : 0 < words.length := by
    rw [List.length_map]
    exact stackSlots_pos _ _ _ _
  obtain ⟨hstored, hregs, hpsr, haccess, hpc, hiad⟩ := push_written hne hkept heq
  have hsp : ¬ Addressable (s.pair 15).toNat 1 ↔ 2 ^ 24 ≤ (s.pair 15).toNat := by
    unfold Addressable
    omega
  rw [hsp] at hiad
  refine ⟨_, if_pos hv, hstored, ?_, hregs, hpsr, haccess, advancedOr_advance hpc hiad 2⟩
  exact (congrArg BitVec.toNat hread).trans (BitVec.toNat_ofInt _)

/-! ### POP and POPRET (R364, R365) -/

theorem popSlots_spec (s : State) {ra : Bool} {count : BitVec 3} {n : RegNum}
    (hv : stackValid s.cfg.sr count n = true) :
    SlotsRead (s.pair 15).toNat (stackSlots s.cfg.sr ra count n) (s.pairSlots 15) s (s.popSlots ra count n) ∧
      ((s.popSlots ra count n).pair 15).toNat =
        ((s.pair 15).toNat + 2 * (stackSlots s.cfg.sr ra count n).length) % 2 ^ 32 := by
  unfold State.popSlots
  simp only
  generalize hxs : stackSlots s.cfg.sr ra count n = xs
  obtain ⟨hread, hkept, heq⟩ := setPair_spec (s.loadSlots (s.pair 15).toNat xs) 15
    (BitVec.ofInt 32 ((s.pair 15).toNat + 2 * xs.length))
  rw [pairSlots_sp] at hkept
  rw [hread, pairSlots_sp]
  refine ⟨slotsRead ?_ (fun x hx => ?_) (fun x hx hw => ?_) hkept heq, ?_⟩
  · exact hxs ▸ stackSlots_pos _ _ _ _
  · exact slotOk_stackSlots _ _ _ _ x (hxs ▸ hx)
  · refine reg_ne_of_stackValid hv (hxs ▸ hx) ?_
    obtain rfl | rfl : x = ⟨15, false⟩ ∨ x = ⟨15, true⟩ := by simpa using hw
    all_goals rfl
  · rw [BitVec.toNat_ofInt]
    omega

/-- Settles O54: POP goes on after `popSlots`, POPRET by the RA operand that it leaves. -/
theorem pops : Obligations.Pops := by
  unfold Obligations.Pops
  intro s ra count dest hv slots base popped
  obtain ⟨hread, hptr⟩ := popSlots_spec s (ra := ra) hv
  refine ⟨⟨(s.popSlots ra count dest).advance 2, if_pos hv, ?_, advancedOr_advance hread.pc hread.iad 2⟩,
    ⟨{ s.popSlots ra count dest with pc := jumpTarget ((s.popSlots ra count dest).pair
        (s.popSlots ra count dest).raPair) }, if_pos hv, ?_, ?_, hread.iad⟩⟩
  · exact ⟨hread.loaded, hptr, hread.regs, hread.psr, hread.mem, hread.access⟩
  · exact ⟨hread.loaded, hptr, hread.regs, hread.psr, hread.mem, hread.access⟩
  · have hra : (s.popSlots ra count dest).raPair = if s.cfg.sr then 13 else 14 := by
      rw [← hread.cfg]
      rfl
    rw [← hra]
    exact toNat_jumpTarget _

end Sys2Proof.Proofs

/-! PROOFS. The bit operations on memory and on a register (spec/45_bit_operations.md R309 to R316): a byte read and
written back, or the word at an even address, of which one byte alone changes. -/

namespace Sys2Proof.Proofs

open Sys2Proof.Machine Sys2Proof.Laws

/-! ### One bit of a value -/

theorem getLsbD_withBit {w : Nat} (v : BitVec w) {b i : Nat} (hb : b < w) (x : Bool) :
    (withBit v b x).getLsbD i = if i = b then x else v.getLsbD i := by
  have hone : (1#w <<< b).getLsbD i = decide (i = b) := by
    rw [← BitVec.twoPow_eq, BitVec.getLsbD_twoPow]
    by_cases h : i = b
    · subst h
      simp [hb]
    · simp [h, Ne.symm h]
  unfold withBit
  cases x
  · simp only [Bool.false_eq_true, if_false, BitVec.getLsbD_and, BitVec.getLsbD_not, hone]
    by_cases h : i = b
    · simp [h]
    · by_cases hi : i < w
      · simp [h, hi]
      · simp [h, BitVec.getLsbD_of_ge v i (by omega)]
  · simp only [if_true, BitVec.getLsbD_or, hone]
    by_cases h : i = b <;> simp [h]

/-- A bit of a word changed changes one of its bytes. -/
theorem extract_withBit (v : Word) {pos : Nat} (hpos : pos < 16) (x : Bool) (k : Nat) :
    (withBit v pos x).extractLsb' (8 * k) 8 =
      if k = pos / 8 then withBit (v.extractLsb' (8 * k) 8) (pos % 8) x else v.extractLsb' (8 * k) 8 := by
  have hmod : pos % 8 < 8 := Nat.mod_lt _ (by decide)
  refine BitVec.eq_of_getLsbD_eq fun i hi => ?_
  rw [BitVec.getLsbD_extractLsb', getLsbD_withBit v hpos, decide_eq_true hi, Bool.true_and]
  by_cases hk : k = pos / 8
  · have hplace : 8 * k + i = pos ↔ i = pos % 8 := by omega
    rw [if_pos hk, getLsbD_withBit _ hmod, BitVec.getLsbD_extractLsb', decide_eq_true hi, Bool.true_and]
    simp only [hplace]
  · have hplace : ¬ 8 * k + i = pos := by omega
    rw [if_neg hk, if_neg hplace, BitVec.getLsbD_extractLsb', decide_eq_true hi, Bool.true_and]

theorem wordBytes_getD (v : Word) {k : Nat} (hk : k < 2) : (wordBytes v).getD k 0 = v.extractLsb' (8 * k) 8 := by
  obtain rfl | rfl : k = 0 ∨ k = 1 := by omega
  · rfl
  · rfl

/-! ### The bit that is read (R84) -/

theorem loadB_memory {s : State} {a : Int} (hl : Addressable a 1) (hd : s.isDevice a.toNat = false) :
    s.loadB a = s.mem.byte a.toNat := by
  unfold State.loadB
  rw [if_pos ((legal_iff a 1).2 hl)]
  exact readByte_memory (k := 0) hd

theorem extract_loadW {s : State} {a : Int} (hl : Addressable a 2) {k : Nat} (hk : k < 2)
    (hd : s.isDevice (a.toNat + k) = false) : (s.loadW a).extractLsb' (8 * k) 8 = s.mem.byte (a.toNat + k) := by
  unfold State.loadW
  rw [if_pos ((legal_iff a 2).2 hl), ← readByte_memory hd]
  obtain rfl | rfl : k = 0 ∨ k = 1 := by omega
  · exact low_of_join _ _
  · exact high_of_join _ _

theorem getLsbD_loadW {s : State} {a : Int} (hl : Addressable a 2) {pos : Nat} (hpos : pos < 16)
    (hd : s.isDevice (a.toNat + pos / 8) = false) :
    (s.loadW a).getLsbD pos = (s.mem.byte (a.toNat + pos / 8)).getLsbD (pos % 8) := by
  have hmod : pos % 8 < 8 := Nat.mod_lt _ (by decide)
  rw [← extract_loadW hl (by omega) hd, BitVec.getLsbD_extractLsb', decide_eq_true hmod, Bool.true_and,
    Nat.div_add_mod]

/-- The word at an even address lies in the address space when either of its bytes does. -/
theorem addressable_byte_iff {a : Int} (heven : a % 2 = 0) {pos : Nat} (hpos : pos < 16) :
    Addressable (a + pos / 8) 1 ↔ Addressable a 2 := by
  unfold Addressable
  omega

theorem toNat_byte {a : Int} (h : 0 ≤ a) (pos : Nat) : (a + (pos : Int) / 8).toNat = a.toNat + pos / 8 := by
  omega

/-! ### A word bit operation is one of a byte at an odd address (R309) -/

theorem changeBit_even (s : State) {a : Int} (h : a % 2 = 0) (pos : BitVec 4) (x : Bool) :
    s.changeBit a pos x = s.changeBitW a pos.toNat x := by
  unfold State.changeBit bitSel
  rw [if_pos h]
  rfl

theorem changeBit_odd (s : State) {a : Int} (h : ¬ a % 2 = 0) (pos : BitVec 4) (x : Bool) :
    s.changeBit a pos x = s.changeBitB (a + pos.toNat / 8) (pos.toNat % 8) x := by
  unfold State.changeBit bitSel
  rw [if_neg h]
  rfl

theorem testBit_even (s : State) {a : Int} (h : a % 2 = 0) (pos : BitVec 4) :
    s.testBit a pos = s.testBitW a pos.toNat := by
  unfold State.testBit bitSel
  rw [if_pos h]
  rfl

theorem testBit_odd (s : State) {a : Int} (h : ¬ a % 2 = 0) (pos : BitVec 4) :
    s.testBit a pos = s.testBitB (a + pos.toNat / 8) (pos.toNat % 8) := by
  unfold State.testBit bitSel
  rw [if_neg h]
  rfl

/-! ### Bytes written back where they were read -/

theorem accessKept_trans {s t u : State} (h : AccessKept s t) (h' : AccessKept t u) : AccessKept s u := by
  obtain ⟨h1, h2, h3, h4, h5, h6, h7, h8⟩ := h
  obtain ⟨k1, k2, k3, k4, k5, k6, k7, k8⟩ := h'
  refine ⟨k1.trans h1, k2.trans h2, k3.trans h3, fun hu => (k4 ?_).trans (h4 hu), k5.trans h5, k6.trans h6, k7.trans h7,
    k8.trans h8⟩
  unfold Undebugged
  rw [h4 hu]
  exact hu

/-- Where nothing is stored a byte stays: outside an access, at an illegal address, and in what is not RAM (R91). -/
theorem byte_storeBytes_kept {s : State} {a : Int} {bs : List Byte} {x : Nat}
    (h : ¬ (Addressable a bs.length ∧ a.toNat ≤ x ∧ x < a.toNat + bs.length ∧ s.isRam x = true)) :
    (s.storeBytes a bs).mem.byte x = s.mem.byte x := by
  have hbytes := (putBytes_spec bs s a.toNat).2.1 x
  rw [storeBytes_spec]
  simp only
  split
  · rename_i hl
    rw [hbytes, if_neg fun hx => h ⟨(legal_addressable _ _).1 hl, hx⟩]
  · rfl

/-- RAM holds the bytes stored (R85). -/
theorem byte_storeBytes {s : State} {a : Int} {bs : List Byte} (hl : Addressable a bs.length) {k : Nat}
    (hk : k < bs.length) (hr : s.isRam (a.toNat + k) = true) :
    (s.storeBytes a bs).mem.byte (a.toNat + k) = bs.getD k 0 := by
  have hbytes := (putBytes_spec bs s a.toNat).2.1 (a.toNat + k)
  rw [if_pos ⟨by omega, by omega, hr⟩, Nat.add_sub_cancel_left] at hbytes
  rw [storeBytes_spec]
  simp only [(legal_addressable _ _).2 hl, if_true, hbytes]

/-- What a read, F and a write of the same bytes make of the state. -/
structure WrittenBack (a : Int) (f : Bool) (bs : List Byte) (s t : State) : Prop where
  written : Addressable a bs.length → ∀ k : Nat, k < bs.length → s.isRam (a.toNat + k) = true →
    t.mem.byte (a.toNat + k) = bs.getD k 0
  kept : ∀ y : Nat, ¬ (Addressable a bs.length ∧ a.toNat ≤ y ∧ y < a.toNat + bs.length ∧ s.isRam y = true) →
    t.mem.byte y = s.mem.byte y
  psr : t.psr = { s.psr with f := f }
  regs : t.regs = s.regs
  pc : t.pc = s.pc
  access : AccessKept s t
  iad : t.iadPending = true ↔ s.iadPending = true ∨ ¬ Addressable a bs.length

theorem writtenBack (s : State) (a : Int) (f : Bool) (bs : List Byte) :
    WrittenBack a f bs s (((s.noteRead a bs.length).setF f).storeBytes a bs) := by
  obtain ⟨u, hu⟩ : ∃ u, u = (s.noteRead a bs.length).setF f := ⟨_, rfl⟩
  have hmem : u.mem = s.mem := by rw [hu]; exact noteRead_mem s a _
  have hconfig : u.config = s.config := by rw [hu]; exact noteRead_config s a _
  have hiad : u.iadPending = true ↔ s.iadPending = true ∨ ¬ Addressable a bs.length := by
    rw [hu]
    exact noteRead_iad s a _
  have hread : AccessKept s u := by
    rw [hu]
    exact accessKept_noteRead s a _
  rw [← hu]
  obtain ⟨-, -, -, -, -, hregs, haccess, -, -⟩ := storeBytes_stored u a bs 0
  refine ⟨fun hl k hk hr => ?_, fun y hy => ?_, ?_, ?_, ?_, accessKept_trans hread haccess, ?_⟩
  · exact byte_storeBytes hl hk (by rwa [isRam_congr hconfig])
  · rw [byte_storeBytes_kept (by rwa [isRam_congr hconfig]), hmem]
  · rw [storeBytes_psr, hu, setF_psr, noteRead_psr]
  · exact hregs.trans (by rw [hu]; exact noteRead_regs s a _)
  · rw [storeBytes_pc, hu, setF_pc, noteRead_pc]
  · rw [storeBytes_spec]
    simp only [Bool.or_eq_true, Bool.not_eq_true', ← Bool.not_eq_true, legal_addressable, hiad, or_assoc, or_self]

/-! ### CBIT and SBIT (R310 to R313) -/

/-- Bit `b` of the byte at `x` went to F and became `v`; nothing else changed but what an access may change. -/
structure BitChanged (x : Int) (b : Nat) (v : Bool) (s t : State) : Prop where
  f : Addressable x 1 → s.isDevice x.toNat = false → t.psr.f = (s.mem.byte x.toNat).getLsbD b
  changed : Addressable x 1 → s.isRam x.toNat = true → t.mem.byte x.toNat = withBit (s.mem.byte x.toNat) b v
  kept : ∀ y : Nat, ¬ (Addressable x 1 ∧ y = x.toNat ∧ s.isRam y = true) → t.mem.byte y = s.mem.byte y
  psr : t.psr = { s.psr with f := t.psr.f }
  regs : t.regs = s.regs
  pc : t.pc = s.pc
  access : AccessKept s t
  iad : t.iadPending = true ↔ s.iadPending = true ∨ ¬ Addressable x 1

theorem bitChanged_changeBitB (s : State) (x : Int) (b : Nat) (v : Bool) : BitChanged x b v s (s.changeBitB x b v) := by
  have h : WrittenBack x ((s.loadB x).getLsbD b) [withBit (s.loadB x) b v] s (s.changeBitB x b v) :=
    writtenBack s x _ _
  refine ⟨fun hl hd => ?_, fun hl hr => ?_, fun y hy => h.kept y ?_, by rw [h.psr], h.regs, h.pc, h.access, h.iad⟩
  · rw [h.psr, loadB_memory hl hd]
  · rw [← loadB_memory hl (not_isDevice_of_isRam s hr)]
    exact h.written hl 0 (by simp) hr
  · rintro ⟨hl, hlow, hhigh, hr⟩
    rw [List.length_singleton] at hhigh
    exact hy ⟨hl, by omega, hr⟩

/-- A byte of the word written back is the one with the bit changed, or the one that was read. -/
theorem byte_changeBitW {s t : State} {a : Int} {f v : Bool} {pos : Nat} (hpos : pos < 16)
    (h : WrittenBack a f (wordBytes (withBit (s.loadW a) pos v)) s t) (hl : Addressable a 2) {k : Nat} (hk : k < 2)
    (hr : s.isRam (a.toNat + k) = true) : t.mem.byte (a.toNat + k) =
      if k = pos / 8 then withBit (s.mem.byte (a.toNat + k)) (pos % 8) v else s.mem.byte (a.toNat + k) := by
  rw [← extract_loadW hl hk (not_isDevice_of_isRam s hr), ← extract_withBit _ hpos, ← wordBytes_getD _ hk]
  exact h.written hl k hk hr

theorem bitChanged_changeBitW (s : State) {a : Int} (heven : a % 2 = 0) {pos : Nat} (hpos : pos < 16) (v : Bool) :
    BitChanged (a + pos / 8) (pos % 8) v s (s.changeBitW a pos v) := by
  have h : WrittenBack a ((s.loadW a).getLsbD pos) (wordBytes (withBit (s.loadW a) pos v)) s (s.changeBitW a pos v) :=
    writtenBack s a _ _
  have hiff := addressable_byte_iff heven hpos
  refine ⟨fun hl hd => ?_, fun hl hr => ?_, fun y hy => ?_, by rw [h.psr], h.regs, h.pc, h.access, ?_⟩
  · have hl := hiff.1 hl
    rw [toNat_byte hl.1] at hd ⊢
    rw [h.psr, getLsbD_loadW hl hpos hd]
  · have hl := hiff.1 hl
    rw [toNat_byte hl.1] at hr ⊢
    rw [byte_changeBitW hpos h hl (by omega) hr, if_pos rfl]
  · by_cases hin : Addressable a 2 ∧ a.toNat ≤ y ∧ y < a.toNat + 2 ∧ s.isRam y = true
    · obtain ⟨hl, hlow, hhigh, hr⟩ := hin
      obtain ⟨k, rfl⟩ := Nat.exists_eq_add_of_le hlow
      have hk : k ≠ pos / 8 := by
        rintro rfl
        exact hy ⟨hiff.2 hl, (toNat_byte hl.1 pos).symm, hr⟩
      rw [byte_changeBitW hpos h hl (by omega) hr, if_neg hk]
    · exact h.kept y hin
  · rw [hiff]
    exact h.iad

theorem bitChanged_changeBit (s : State) (a : Int) (pos : BitVec 4) (v : Bool) :
    BitChanged (a + pos.toNat / 8) (pos.toNat % 8) v s (s.changeBit a pos v) := by
  by_cases heven : a % 2 = 0
  · rw [changeBit_even s heven]
    exact bitChanged_changeBitW s heven pos.isLt v
  · rw [changeBit_odd s heven]
    exact bitChanged_changeBitB s _ _ v

theorem exec_bitChanged {s : State} {b3 : BitVec 3} {b4 : BitVec 4} {dest : BitAddr} {a x : Int} {b : Nat} {v : Bool}
    {i : Instr} (ha : s.eaBit dest = some a)
    (hi : (i, x, b, v) ∈ [(Instr.cbitb b3 dest, a, b3.toNat, false), (.sbitb b3 dest, a, b3.toNat, true),
      (.cbitw b4 dest, a + b4.toNat / 8, b4.toNat % 8, false),
      (.sbitw b4 dest, a + b4.toNat / 8, b4.toNat % 8, true)]) :
    b < 8 ∧ ∃ u : State, exec i s = .next (u.advance (bitAddrBytes dest)) ∧ BitChanged x b v s u := by
  have hmod : b4.toNat % 8 < 8 := Nat.mod_lt _ (by decide)
  simp only [List.mem_cons, Prod.mk.injEq, List.not_mem_nil, or_false] at hi
  obtain ⟨rfl, rfl, rfl, rfl⟩ | ⟨rfl, rfl, rfl, rfl⟩ | ⟨rfl, rfl, rfl, rfl⟩ | ⟨rfl, rfl, rfl, rfl⟩ := hi
  · exact ⟨b3.isLt, _, exec_withEa (i := .cbitb b3 dest) (a := x) ha rfl, bitChanged_changeBitB s x _ _⟩
  · exact ⟨b3.isLt, _, exec_withEa (i := .sbitb b3 dest) (a := x) ha rfl, bitChanged_changeBitB s x _ _⟩
  · exact ⟨hmod, _, exec_withEa (i := .cbitw b4 dest) (a := a) ha rfl, bitChanged_changeBit s a b4 _⟩
  · exact ⟨hmod, _, exec_withEa (i := .sbitw b4 dest) (a := a) ha rfl, bitChanged_changeBit s a b4 _⟩

/-- Settles O42: the byte that holds the bit is written back with the bit changed. -/
theorem memoryBitChanges : Obligations.MemoryBitChanges := by
  unfold Obligations.MemoryBitChanges
  intro s b3 b4 dest a x b v i ha hi
  obtain ⟨hb, u, hexec, h⟩ := exec_bitChanged ha hi
  refine ⟨_, hexec, fun hl => ⟨h.f hl, fun hr k => ?_⟩, fun y hy => h.kept y ?_, fun y hy => h.kept y ?_,
    fun hl y => h.kept y fun hy => hl hy.1, h.psr, h.regs, h.access, advancedOr_advance h.pc h.iad _⟩
  · rw [← getLsbD_withBit _ hb, ← h.changed hl hr]
    rfl
  · rintro ⟨-, -, hr⟩
    rw [hy] at hr
    cases hr
  · rintro ⟨⟨hl, -⟩, rfl, -⟩
    omega

/-! ### TBIT (R314 to R316) -/

/-- Bit `b` of the byte at `x` went to F; nothing else changed but what a read may change. -/
structure BitTested (x : Int) (b : Nat) (s t : State) : Prop where
  f : Addressable x 1 → s.isDevice x.toNat = false → t.psr.f = (s.mem.byte x.toNat).getLsbD b
  psr : t.psr = { s.psr with f := t.psr.f }
  regs : t.regs = s.regs
  pc : t.pc = s.pc
  mem : MemoryKept s t
  access : AccessKept s t
  iad : t.iadPending = true ↔ s.iadPending = true ∨ ¬ Addressable x 1

/-- A read whose bit goes to F. -/
theorem bitTested_noteRead {s : State} {a x : Int} {m b : Nat} {f : Bool} (hiff : Addressable x 1 ↔ Addressable a m)
    (hf : Addressable x 1 → s.isDevice x.toNat = false → f = (s.mem.byte x.toNat).getLsbD b) :
    BitTested x b s ((s.noteRead a m).setF f) where
  f := hf
  psr := by rw [setF_psr, noteRead_psr]
  regs := noteRead_regs s a m
  pc := noteRead_pc s a m
  mem := ⟨fun y => by rw [setF_mem, noteRead_mem], noteRead_stale s a m⟩
  access := accessKept_noteRead s a m
  iad := by
    rw [hiff]
    exact noteRead_iad s a m

theorem bitTested_testBitB (s : State) (x : Int) (b : Nat) : BitTested x b s (s.testBitB x b) :=
  bitTested_noteRead Iff.rfl fun hl hd => by rw [loadB_memory hl hd]

theorem bitTested_testBit (s : State) (a : Int) (pos : BitVec 4) :
    BitTested (a + pos.toNat / 8) (pos.toNat % 8) s (s.testBit a pos) := by
  by_cases heven : a % 2 = 0
  · rw [testBit_even s heven]
    have hiff := addressable_byte_iff heven pos.isLt
    refine bitTested_noteRead hiff fun hl hd => ?_
    rw [toNat_byte (hiff.1 hl).1 pos.toNat] at hd ⊢
    exact getLsbD_loadW (hiff.1 hl) pos.isLt hd
  · rw [testBit_odd s heven]
    exact bitTested_testBitB s _ _

theorem exec_bitTested {s : State} {b3 : BitVec 3} {b4 : BitVec 4} {src : BitAddr} {a x : Int} {b : Nat} {i : Instr}
    (ha : s.eaBit src = some a)
    (hi : (i, x, b) ∈ [(Instr.tbitb b3 src, a, b3.toNat), (.tbitw b4 src, a + b4.toNat / 8, b4.toNat % 8)]) :
    ∃ u : State, exec i s = .next (u.advance (bitAddrBytes src)) ∧ BitTested x b s u := by
  simp only [List.mem_cons, Prod.mk.injEq, List.not_mem_nil, or_false] at hi
  obtain ⟨rfl, rfl, rfl⟩ | ⟨rfl, rfl, rfl⟩ := hi
  · exact ⟨_, exec_withEa (i := .tbitb b3 src) (a := x) ha rfl, bitTested_testBitB s x _⟩
  · exact ⟨_, exec_withEa (i := .tbitw b4 src) (a := a) ha rfl, bitTested_testBit s a b4⟩

/-- F written, after `k` free values were drawn, and the PC moved on. -/
theorem registerFrame_setF (s : State) (k : Nat) (f : Bool) : RegisterFrame [] 2 s (((s.drew k).setF f).advance 2) :=
  registerFrame_advance 2 (regsKept_refl rfl rfl) rfl

/-- TBIT: by whether the offset is one of a bit of the register (R314). -/
theorem tbit_spec (fromReg : Bool) (offset : BitVec 4) (r : RegNum) (s : State) :
    ∃ t : State, exec (.tbit fromReg offset r) s = .next t ∧
      ((if fromReg then (s.reg offset).toNat else offset.toNat) ≤ 15 →
        t.psr.f = (s.reg r).getLsbD (if fromReg then (s.reg offset).toNat else offset.toNat)) ∧
      t.psr = { s.psr with f := t.psr.f } ∧ RegisterFrame [] 2 s t := by
  by_cases h : (if fromReg then (s.reg offset).toNat else offset.toNat) ≤ 15
  · exact ⟨_, if_pos h, fun _ => rfl, rfl, registerFrame_setF s 0 _⟩
  · exact ⟨_, if_neg h, fun hle => absurd hle h, rfl, registerFrame_setF s 1 _⟩

/-- Settles O43: a read of memory or of a register, whose bit goes to F. -/
theorem bitTests : Obligations.BitTests := by
  unfold Obligations.BitTests
  refine fun s b3 b4 src r fromReg => ⟨fun a x b i ha hi => ?_, ?_⟩
  · obtain ⟨u, hexec, h⟩ := exec_bitTested ha hi
    exact ⟨_, hexec, h.f, h.psr, h.regs, h.mem, h.access, advancedOr_advance h.pc h.iad _⟩
  · obtain ⟨t, hexec, hf, hpsr, hframe⟩ := tbit_spec fromReg b4 r s
    refine ⟨t, hexec, ?_, ?_, hpsr, hframe⟩
    · rintro rfl
      exact hf (Nat.le_of_lt_succ b4.isLt)
    · rintro rfl hle
      exact hf hle

end Sys2Proof.Proofs

/-! PROOFS. Fields of the words of an instruction: each reader of a field gives back what the encoder put there
(spec/30_encoding.md R120, R121, R123). -/

namespace Sys2Proof.Proofs

open Sys2Proof.Machine Sys2Proof.Laws

/-! ### The four nibbles of a word -/

theorem toNat_opWord (a b c d : BitVec 4) :
    (opWord a b c d).toNat = a.toNat * 4096 + b.toNat * 256 + c.toNat * 16 + d.toNat := by
  simp only [opWord, mkWord, toNat_join]
  omega

theorem toNat_nib0 (w : Word) : (nib0 w).toNat = w.toNat % 16 := by
  simp [nib0, BitVec.extractLsb'_toNat]

theorem toNat_nib1 (w : Word) : (nib1 w).toNat = w.toNat / 16 % 16 := by
  simp [nib1, BitVec.extractLsb'_toNat, Nat.shiftRight_eq_div_pow]

theorem toNat_nib2 (w : Word) : (nib2 w).toNat = w.toNat / 256 % 16 := by
  simp [nib2, BitVec.extractLsb'_toNat, Nat.shiftRight_eq_div_pow]

theorem toNat_nib3 (w : Word) : (nib3 w).toNat = w.toNat / 4096 % 16 := by
  simp [nib3, BitVec.extractLsb'_toNat, Nat.shiftRight_eq_div_pow]

@[simp] theorem nib0_opWord (a b c d : BitVec 4) : nib0 (opWord a b c d) = d := by
  apply BitVec.eq_of_toNat_eq
  rw [toNat_nib0, toNat_opWord]
  omega

@[simp] theorem nib1_opWord (a b c d : BitVec 4) : nib1 (opWord a b c d) = c := by
  apply BitVec.eq_of_toNat_eq
  rw [toNat_nib1, toNat_opWord]
  omega

@[simp] theorem nib2_opWord (a b c d : BitVec 4) : nib2 (opWord a b c d) = b := by
  apply BitVec.eq_of_toNat_eq
  rw [toNat_nib2, toNat_opWord]
  omega

@[simp] theorem nib3_opWord (a b c d : BitVec 4) : nib3 (opWord a b c d) = a := by
  apply BitVec.eq_of_toNat_eq
  rw [toNat_nib3, toNat_opWord]
  omega

/-- A word is its four nibbles. -/
theorem opWord_nibs (w : Word) : opWord (nib3 w) (nib2 w) (nib1 w) (nib0 w) = w := by
  apply BitVec.eq_of_toNat_eq
  rw [toNat_opWord, toNat_nib3, toNat_nib2, toNat_nib1, toNat_nib0]
  omega

/-! ### Parts of a nibble -/

@[simp] theorem low3_cons (b : Bool) (n : BitVec 3) : low3 (BitVec.cons b n) = n := by
  revert b n; decide

@[simp] theorem top1_cons (b : Bool) (n : BitVec 3) : top1 (BitVec.cons b n) = b := by
  revert b n; decide

@[simp] theorem low2_append (x y : BitVec 2) : low2 (x ++ y) = y := by
  revert x y; decide

@[simp] theorem top2_append (x y : BitVec 2) : top2 (x ++ y) = x := by
  revert x y; decide

/-- A count of five bits is its top bit before the four below. -/
theorem exists_eq_cons (n : BitVec 5) : ∃ (b : Bool) (m : BitVec 4), n = BitVec.cons b m :=
  ⟨n.getLsbD 4, n.extractLsb' 0 4, by revert n; decide⟩

@[simp] theorem extractLsb'_cons (b : Bool) (m : BitVec 4) : (BitVec.cons b m).extractLsb' 0 4 = m := by
  revert b m; decide

@[simp] theorem getElem_cons_top (b : Bool) (m : BitVec 4) : (BitVec.cons b m)[4] = b := by
  revert b m; decide

/-! ### Fields of several words -/

@[simp] theorem join20_hi20_lo20 (d : BitVec 20) : join20 (hi20 d) (lo20 d) = d :=
  join_of_parts (a := 4) (b := 16) d

@[simp] theorem join32_extractLsb' (v : DWord) : join32 (v.extractLsb' 16 16) (v.extractLsb' 0 16) = v :=
  join_of_parts (a := 16) (b := 16) v

@[simp] theorem join24_extractLsb' (a : Addr) :
    join24 (a.extractLsb' 20 4) (a.extractLsb' 16 4) (a.extractLsb' 0 16) = a := by
  apply BitVec.eq_of_toNat_eq
  simp only [join24, toNat_join, BitVec.extractLsb'_toNat, Nat.shiftRight_eq_div_pow, Nat.reducePow, Nat.div_one]
  omega

@[simp] theorem join14_encDisp14 (d : BitVec 14) (data : BitVec 4) :
    join14 (d.extractLsb' 4 2) (encDisp14 d data) = d := by
  apply BitVec.eq_of_toNat_eq
  simp only [join14, encDisp14, nib3_opWord, nib2_opWord, nib0_opWord, low2_append, top2_append, toNat_join,
    BitVec.extractLsb'_toNat, Nat.shiftRight_eq_div_pow, Nat.reducePow, Nat.div_one]
  omega

@[simp] theorem nib1_encDisp14 (d : BitVec 14) (data : BitVec 4) : nib1 (encDisp14 d data) = data :=
  nib1_opWord _ _ _ _

/-- The last word of a displacement holds its top bit in bit 0 (R123). -/
@[simp] theorem join16_append (h : Word) : join16 (h.extractLsb' 0 15 ++ h.extractLsb' 15 1) = h := by
  rw [join16, low_of_join, high_of_join]
  exact join_of_parts (a := 1) (b := 15) h

@[simp] theorem join25_encDisp25 (h : BitVec 24) (ope mid : BitVec 4) :
    join25 (opWord ope (h.extractLsb' 15 4) mid (h.extractLsb' 19 4)) (h.extractLsb' 0 15 ++ h.extractLsb' 23 1) = h := by
  rw [join25, nib2_opWord, nib0_opWord, low_of_join, high_of_join]
  apply BitVec.eq_of_toNat_eq
  simp only [toNat_join, BitVec.extractLsb'_toNat, Nat.shiftRight_eq_div_pow, Nat.reducePow, Nat.div_one]
  omega

@[simp] theorem join25Short_append (h : BitVec 24) :
    join25Short (h.extractLsb' 19 4) (h.extractLsb' 15 4) (h.extractLsb' 0 15 ++ h.extractLsb' 23 1) = h := by
  rw [join25Short, low_of_join, high_of_join]
  apply BitVec.eq_of_toNat_eq
  simp only [toNat_join, BitVec.extractLsb'_toNat, Nat.shiftRight_eq_div_pow, Nat.reducePow, Nat.div_one]
  omega

/-! ### Conditions -/

@[simp] theorem condOf_condBits (c : Cond) : condOf (condBits c) = c := by cases c <;> rfl

end Sys2Proof.Proofs

/-! PROOFS. Encoding and then decoding (spec/30_encoding.md R122, R123, R150, R166): the rows of the decoder that read
the words of each family of instructions, and the round trip of every instruction. -/

namespace Sys2Proof.Proofs

open Sys2Proof.Machine Sys2Proof.Laws

/-- The words of an instruction, whatever follows them, decode to it in its decoder's spelling. -/
def RoundTrips (i : Instr) : Prop := ∀ rest : List Word, decodeWords (encode i ++ rest) = .ok i.named

/-! ### The escape words (R150) -/

@[simp] theorem decodeFirst_0010 (rest : List Word) : decodeFirst 0x0010#16 rest = with2 rest decode10 := rfl
@[simp] theorem decodeFirst_0011 (rest : List Word) : decodeFirst 0x0011#16 rest = with2 rest decode11 := rfl
@[simp] theorem decodeFirst_0012 (rest : List Word) : decodeFirst 0x0012#16 rest = with2 rest decode12 := rfl
@[simp] theorem decodeFirst_0013 (rest : List Word) : decodeFirst 0x0013#16 rest = with2 rest decode13 := rfl
@[simp] theorem decodeFirst_0014 (rest : List Word) : decodeFirst 0x0014#16 rest = with1 rest decode14 := rfl
@[simp] theorem decodeFirst_0018 (rest : List Word) : decodeFirst 0x0018#16 rest = with2 rest decode18 := rfl
@[simp] theorem decodeFirst_0019 (rest : List Word) : decodeFirst 0x0019#16 rest = with2 rest decode19 := rfl

/-! ### Operations with a source operand (R131, R134, R151) -/

/-- A byte or word operation, from its immediate row and its register row. -/
theorem decode_encSrc {n3 n2 : BitVec 4} {f : Src → RegNum → Instr} {s : Src} (hs : s.wf = true) (d : RegNum)
    (himm : ∀ x rest, decodeFirst (opWord n3 n2 x d) rest = srcImm x rest (fun y => f y d))
    (hreg : ∀ r rest, decodeFirst (opWord n3 (n2 + 1) r d) rest = .ok (f (.reg r) d)) (rest : List Word) :
    decodeWords (encSrc n3 n2 s d ++ rest) = .ok (f s d) := by
  cases s with
  | imm4 x =>
    have hx : x ≠ 11 := by simpa [Src.wf] using hs
    exact (himm x rest).trans (if_neg hx)
  | imm16 w => exact himm 11 (w :: rest)
  | reg r => exact hreg r rest

/-- SUBD, ANDD, ORD, XORD, from their imm32 row and their pair row. -/
theorem decode_encSrcL {n1 ope : BitVec 4} {f : SrcL → PairNum → Instr} (s : SrcL) (d : PairNum)
    (himm : ∀ rest, decodeFirst (opWord 0 0 n1 d) rest = with2 rest (fun w2 w3 => f (.imm32 (join32 w2 w3)) d))
    (hpair : ∀ p, decode14 (opWord ope 0 p d) = f (.pair p) d) (rest : List Word) :
    decodeWords (encSrcL n1 ope s d ++ rest) = .ok (f s d) := by
  cases s with
  | imm32 v => exact (himm _).trans (by simp [with2])
  | pair p => exact congrArg Except.ok (hpair p)

theorem movd_roundTrips {s : SrcD} (hs : s.wf = true) (d : PairNum) : RoundTrips (.movd s d) := by
  intro rest
  cases s with
  | imm4 f =>
    have hf : f ≠ 11#4 := by simpa [SrcD.wf] using hs
    simp [encode, decodeWords, decodeFirst, decode5, Instr.named, hf]
  | imm16 w => simp [encode, decodeWords, decodeFirst, decode5, with1, Instr.named]
  | imm20 x => simp [encode, decodeWords, decodeFirst, decode0, with1, Instr.named]
  | imm32 v => simp [encode, encImm32, decodeWords, decodeFirst, decode0, decode00, with2, Instr.named]
  | pair p => simp [encode, decodeWords, decodeFirst, decode5, Instr.named]

theorem addd_roundTrips {s : SrcD} (hs : s.wf = true) (d : PairNum) : RoundTrips (.addd s d) := by
  intro rest
  cases s with
  | imm4 f =>
    have hf : f ≠ 11#4 := by simpa [SrcD.wf] using hs
    simp [encode, decodeWords, decodeFirst, decode6, Instr.named, hf]
  | imm16 w => simp [encode, decodeWords, decodeFirst, decode6, with1, Instr.named]
  | imm20 x => simp [encode, decodeWords, decodeFirst, decode0, with1, Instr.named]
  | imm32 v => simp [encode, encImm32, decodeWords, decodeFirst, decode0, decode00, with2, Instr.named]
  | pair p => simp [encode, decodeWords, decodeFirst, decode6, Instr.named]

theorem cmpd_roundTrips {s : SrcC} (hs : s.wf = true) (d : PairNum) : RoundTrips (.cmpd s d) := by
  intro rest
  cases s with
  | imm4 f =>
    have hf : f ≠ 11#4 := by simpa [SrcC.wf] using hs
    simp [encode, decodeWords, decodeFirst, decode5, Instr.named, hf]
  | imm16 w => simp [encode, decodeWords, decodeFirst, decode5, with1, Instr.named]
  | imm32 v => simp [encode, encImm32, decodeWords, decodeFirst, decode0, decode00, with2, Instr.named]
  | pair p => simp [encode, decodeWords, decodeFirst, decode5, Instr.named]

/-! ### Shifts (R142) -/

theorem ashub_roundTrips (c : Count 3) (d : RegNum) : RoundTrips (.ashub c d) := by
  intro rest
  cases c <;> simp [encode, decodeWords, decodeFirst, decode4, Instr.named]

theorem ashuw_roundTrips (c : Count 4) (d : RegNum) : RoundTrips (.ashuw c d) := by
  intro rest
  cases c <;> simp [encode, decodeWords, decodeFirst, decode4, Instr.named]

/-- The opcode of a five-bit count holds its top bit. -/
theorem ashud_roundTrips (c : Count 5) (d : PairNum) : RoundTrips (.ashud c d) := by
  intro rest
  cases c with
  | left n | right n =>
    obtain ⟨top, m, rfl⟩ := exists_eq_cons n
    cases top <;> simp [encode, decodeWords, decodeFirst, decode4, Instr.named]
  | reg r => simp [encode, decodeWords, decodeFirst, decode4, Instr.named]

theorem lshb_roundTrips (c : RightCount 3) (d : RegNum) : RoundTrips (.lshb c d) := by
  intro rest
  cases c <;> simp [encode, decodeWords, decodeFirst, decode0, decode4, Instr.named]

theorem lshw_roundTrips (c : RightCount 4) (d : RegNum) : RoundTrips (.lshw c d) := by
  intro rest
  cases c <;> simp [encode, decodeWords, decodeFirst, decode4, Instr.named]

theorem lshd_roundTrips (c : RightCount 5) (d : PairNum) : RoundTrips (.lshd c d) := by
  intro rest
  cases c with
  | right n =>
    obtain ⟨top, m, rfl⟩ := exists_eq_cons n
    cases top <;> simp [encode, decodeWords, decodeFirst, decode4, Instr.named]
  | reg r => simp [encode, decodeWords, decodeFirst, decode4, Instr.named]

/-! ### Conditions (R40, R350, R357, R279) -/

theorem decode_set (c : Cond) (d : RegNum) (rest : List Word) :
    decodeWords (opWord 0 8 (condBits c) d :: rest) = .ok (namedSet c d) := by
  simp [decodeWords, decodeFirst, decode0]

theorem decode_jump (c : Cond) (p : PairNum) (rest : List Word) :
    decodeWords (opWord 0 10 (condBits c) p :: rest) = .ok (namedJump c p) := by
  simp [decodeWords, decodeFirst, decode0]

/-- A branch, by the form of its displacement; the disp9 field 0x80 is the escape to disp17 (R137). -/
theorem decode_encBranch (c : Cond) {d : BranchDisp} (hd : d.wf = true) (rest : List Word) :
    decodeWords (encBranch c d ++ rest) = .ok (namedBranch c d) := by
  cases d with
  | disp9 f =>
    have hjoin : f.extractLsb' 4 4 ++ f.extractLsb' 0 4 = f := join_of_parts (a := 4) (b := 4) f
    have hescape : ¬ (f.extractLsb' 4 4 = 8 ∧ f.extractLsb' 0 4 = 0) := by
      rintro ⟨hhigh, hlow⟩
      rw [hhigh, hlow] at hjoin
      subst hjoin
      exact absurd hd (by decide)
    have hrow : decode1 (opWord 1 (f.extractLsb' 4 4) (condBits c) (f.extractLsb' 0 4)) rest =
        .ok (namedBranch c (.disp9 f)) := by
      simp only [decode1, nib2_opWord, nib1_opWord, nib0_opWord, condOf_condBits, if_neg hescape, hjoin]
    simpa [encBranch, decodeWords, decodeFirst] using hrow
  | disp17 h => simp [encBranch, decodeWords, decodeFirst, decode1, with1]
  | disp25 h => simp [encBranch, encDisp25, decodeWords, with2, decode10, low2, top2]

theorem bal_roundTrips (l : Link) (h : BitVec 24) : RoundTrips (.bal l h) := by
  intro rest
  cases l with
  | implied => simp [encode, decodeWords, decodeFirst, with1, Instr.named]
  | pair p => simp [encode, encDisp25, decodeWords, with2, decode10, low2, top2, Instr.named]

/-! ### Bit operations (R308) -/

theorem cons_zero_add (t : Bool) (k : BitVec 3) : BitVec.cons t 0#3 + k.setWidth 4 = BitVec.cons t k := by
  revert t k; decide

theorem append_zero_add (t k : BitVec 2) : (t ++ 0#2 : BitVec 4) + k.setWidth 4 = t ++ k := by
  revert t k; decide

/-- The rows of CBIT, SBIT or TBIT, of a byte and of a word: `t` is bit 11 of the first word of a short form, `s` bits
15:14 of the second word of a long one. -/
structure BitRows (b : BitVec 3 → BitAddr → Instr) (w : BitVec 4 → BitAddr → Instr) (n3 : BitVec 4) (t : Bool)
    (s : BitVec 2) : Prop where
  short (k : BitVec 3) (n1 n0 : BitVec 4) (rest : List Word) :
    decodeFirst (opWord n3 (BitVec.cons t k) n1 n0) rest = decodeBit b w k (opWord n3 (BitVec.cons t k) n1 n0) rest
  longB (k : BitVec 2) (mid data base : BitVec 4) (w3 : Word) :
    decode10 (opWord (s ++ k) mid data base) w3 = b (low3 data) (bitAddrLong k (opWord (s ++ k) mid data base) w3)
  longW (k : BitVec 2) (mid data base : BitVec 4) (w3 : Word) :
    decode11 (opWord (s ++ k) mid data base) w3 = w data (bitAddrLong k (opWord (s ++ k) mid data base) w3)

/-- The rows of page 6 from opcode 8 on are those of CBIT. -/
theorem decode6_of_le {w1 : Word} (h : 8 ≤ (nib2 w1).toNat) (rest : List Word) :
    decode6 w1 rest = decodeBit .cbitb .cbitw (low3 (nib2 w1)) w1 rest := by
  unfold decode6
  generalize (nib2 w1).toNat = n at h
  obtain ⟨m, rfl⟩ := Nat.exists_eq_add_of_le' h
  rfl

theorem cbit_rows : BitRows .cbitb .cbitw 6 true 1 where
  short k n1 n0 rest := by
    have hk : 8 ≤ (BitVec.cons true k).toNat := by revert k; decide
    have hrow := decode6_of_le (w1 := opWord 6 (BitVec.cons true k) n1 n0) (by rwa [nib2_opWord]) rest
    simpa [decodeFirst] using hrow
  longB k mid data base w3 := by simp [decode10]
  longW k mid data base w3 := by simp [decode11]

theorem sbit_rows : BitRows .sbitb .sbitw 7 false 2 where
  short k n1 n0 rest := by simp [decodeFirst, decode7]
  longB k mid data base w3 := by simp [decode10]
  longW k mid data base w3 := by simp [decode11]

theorem tbit_rows : BitRows .tbitb .tbitw 7 true 3 where
  short k n1 n0 rest := by simp [decodeFirst, decode7]
  longB k mid data base w3 := by simp [decode10]
  longW k mid data base w3 := by simp [decode11]

section BitOperations

variable {b : BitVec 3 → BitAddr → Instr} {w : BitVec 4 → BitAddr → Instr} {n3 : BitVec 4}
  {t : Bool} {s : BitVec 2}

theorem BitRows.decode_short (h : BitRows b w n3 t s) (k : BitVec 3) (n1 n0 : BitVec 4) (rest : List Word) :
    decodeWords (opWord n3 (BitVec.cons t 0#3 + k.setWidth 4) n1 n0 :: rest) =
      decodeBit b w k (opWord n3 (BitVec.cons t k) n1 n0) rest := by
  rw [cons_zero_add]
  exact h.short k n1 n0 rest

theorem BitRows.decode_longB (h : BitRows b w n3 t s) (k : BitVec 2) (mid data base : BitVec 4) (w3 : Word)
    (rest : List Word) :
    decodeWords (0x0010 :: opWord (s ++ 0#2 + k.setWidth 4) mid data base :: w3 :: rest) =
      .ok (b (low3 data) (bitAddrLong k (opWord (s ++ k) mid data base) w3)) := by
  rw [append_zero_add]
  exact congrArg Except.ok (h.longB k mid data base w3)

theorem BitRows.decode_longW (h : BitRows b w n3 t s) (k : BitVec 2) (mid data base : BitVec 4) (w3 : Word)
    (rest : List Word) :
    decodeWords (0x0011 :: opWord (s ++ 0#2 + k.setWidth 4) mid data base :: w3 :: rest) =
      .ok (w data (bitAddrLong k (opWord (s ++ k) mid data base) w3)) := by
  rw [append_zero_add]
  exact congrArg Except.ok (h.longW k mid data base w3)

/-- A byte bit operation: one row for each form of its address. -/
theorem BitRows.decode_encBitB (h : BitRows b w n3 t s) (pos : BitVec 3) (a : BitAddr) (rest : List Word) :
    decodeWords (encBitB n3 (BitVec.cons t 0) (s ++ 0#2) pos a ++ rest) = .ok (b pos a) := by
  cases a with
  | disp14 n d => exact (h.decode_short 2 _ _ _).trans (by simp [decodeBit, with1])
  | disp20Reg r d => exact (congrArg Except.ok (h.longB 0 _ _ _ _)).trans (by simp [bitAddrLong])
  | pair0 p =>
    have htop : top2 (BitVec.cons false pos) = 0 ∨ top2 (BitVec.cons false pos) = 1 := by revert pos; decide
    refine (h.decode_short 2 _ _ _).trans ?_
    rcases htop with htop | htop <;> simp [decodeBit, htop]
  | disp16 p d => exact (h.decode_short 3 _ _ _).trans (by simp [decodeBit, with1])
  | disp20Pair p d => exact (h.decode_longB 1 _ _ _ _ _).trans (by simp [bitAddrLong])
  | disp20Index n d => exact (h.decode_longB 2 _ _ _ _ _).trans (by simp [bitAddrLong])
  | abs20 x => exact (h.decode_short 3 _ _ _).trans (by simp [decodeBit, with1])
  | abs20Index rs x => exact (h.short 0 _ _ _).trans (by simp [decodeBit, with1])
  | abs24 x => exact (h.decode_longB 3 _ _ _ _ _).trans (by simp [bitAddrLong])

/-- A word bit operation: one row for each form of its address. -/
theorem BitRows.decode_encBitW (h : BitRows b w n3 t s) (pos : BitVec 4) (a : BitAddr) (rest : List Word) :
    decodeWords (encBitW n3 (BitVec.cons t 0) (s ++ 0#2) pos a ++ rest) = .ok (w pos a) := by
  cases a with
  | disp14 n d => exact (h.decode_short 2 _ _ _).trans (by simp [decodeBit, with1])
  | disp20Reg r d => exact (congrArg Except.ok (h.longW 0 _ _ _ _)).trans (by simp [bitAddrLong])
  | pair0 p => exact (h.decode_short 6 _ _ _).trans (by simp [decodeBit])
  | disp16 p d => exact (h.decode_short 1 _ _ _).trans (by simp [decodeBit, with1])
  | disp20Pair p d => exact (h.decode_longW 1 _ _ _ _ _).trans (by simp [bitAddrLong])
  | disp20Index n d => exact (h.decode_longW 2 _ _ _ _ _).trans (by simp [bitAddrLong])
  | abs20 x => exact (h.decode_short 7 _ _ _).trans (by simp [decodeBit, with1])
  | abs20Index rs x =>
    cases rs
    · exact (h.decode_short 4 _ _ _).trans (by simp [decodeBit, with1])
    · exact (h.decode_short 5 _ _ _).trans (by simp [decodeBit, with1])
  | abs24 x => exact (h.decode_longW 3 _ _ _ _ _).trans (by simp [bitAddrLong])

end BitOperations

/-! ### STOR-immediate (R397) -/

/-- STOR-immediate, from the group of its opcode nibble and the first four rows of its escape word. -/
theorem decode_encStorImm {n3 : BitVec 4} {esc : Word} {imm : BitVec 4 → BitAddr → Instr}
    {b w d : MemAddr → BitVec 4 → Instr} {dec : Word → Word → Instr}
    (hshort : ∀ n2 n1 n0 rest, n2 ≠ 0 →
      decodeFirst (opWord n3 n2 n1 n0) rest = decodeMem imm b w d (opWord n3 n2 n1 n0) rest)
    (hesc : ∀ rest, decodeFirst esc rest = with2 rest dec)
    (hlong : ∀ (k : BitVec 2) mid data base w3, dec (opWord (k.setWidth 4) mid data base) w3 =
      imm data (bitAddrLong k (opWord (k.setWidth 4) mid data base) w3))
    (x : BitVec 4) (a : BitAddr) (rest : List Word) :
    decodeWords (encStorImm n3 esc x a ++ rest) = .ok (imm x a) := by
  have long (k : BitVec 2) (mid data base : BitVec 4) (w3 : Word) :
      decodeWords (esc :: opWord (k.setWidth 4) mid data base :: w3 :: rest) =
        .ok (imm data (bitAddrLong k (opWord (k.setWidth 4) mid data base) w3)) :=
    (hesc _).trans (congrArg Except.ok (hlong k mid data base w3))
  cases a with
  | disp14 n d => exact (hshort 6 _ _ _ (by decide)).trans (by simp [decodeMem, with1])
  | disp20Reg r d => exact (long 0 _ _ _ _).trans (by simp [bitAddrLong])
  | pair0 p => exact (hshort 2 _ _ _ (by decide)).trans (by simp [decodeMem])
  | disp16 p d => exact (hshort 3 _ _ _ (by decide)).trans (by simp [decodeMem, with1])
  | disp20Pair p d => exact (long 1 _ _ _ _).trans (by simp [bitAddrLong])
  | disp20Index n d => exact (long 2 _ _ _ _).trans (by simp [bitAddrLong])
  | abs20 y => exact (hshort 1 _ _ _ (by decide)).trans (by simp [decodeMem, with1])
  | abs20Index rs y =>
    cases rs
    · exact (hshort 4 _ _ _ (by decide)).trans (by simp [decodeMem, with1])
    · exact (hshort 5 _ _ _ (by decide)).trans (by simp [decodeMem, with1])
  | abs24 y => exact (long 3 _ _ _ _).trans (by simp [bitAddrLong])

/-- The four forms of the first quarter of an escape word's `ope`. -/
theorem low2_setWidth (k : BitVec 2) : low2 (k.setWidth 4) = k := by revert k; decide

theorem top2_setWidth (k : BitVec 2) : top2 (k.setWidth 4) = 0 := by revert k; decide

theorem storbImm_roundTrips (x : BitVec 4) (a : BitAddr) : RoundTrips (.storbImm x a) :=
  decode_encStorImm (dec := decode12) (b := .loadb) (w := .loadw) (d := .loadd)
    (fun n2 n1 n0 rest _ => by simp [decodeFirst]) (fun _ => rfl)
    (fun k mid data base w3 => by simp [decode12, low2_setWidth, top2_setWidth]) x a

theorem storwImm_roundTrips (x : BitVec 4) (a : BitAddr) : RoundTrips (.storwImm x a) :=
  decode_encStorImm (dec := decode13) (b := fun m r => .storb r m) (w := fun m r => .storw r m)
    (d := fun m r => .stord r m) (fun n2 n1 n0 rest h => by simp [decodeFirst, show ¬ n2 = 0#4 from h]) (fun _ => rfl)
    (fun k mid data base w3 => by simp [decode13, low2_setWidth, top2_setWidth]) x a

/-! ### Loads and stores (R395) -/

/-- The rows of a load or store: `short` is the page of its rows of one word and of disp16, `n3` that of the other
short forms, `esc` and `neg` its escape words, `ww` its size, which is bits 7:6 of a disp14 word and bits 15:14 of the
second word of a long form. -/
structure MemRows (f : MemAddr → BitVec 4 → Instr) (short n3 : BitVec 4) (ww : BitVec 2) (absOp relOp : BitVec 4)
    (esc neg : Word) : Prop where
  disp4 (n2 n1 n0 : BitVec 4) (rest : List Word) : opWord short n2 n1 n0 ≠ 0xFFFF →
    decodeFirst (opWord short n2 n1 n0) rest = decodeDisp4 f (opWord short n2 n1 n0) rest
  disp14 (jj : BitVec 2) (n : IndexNum) (w2 : Word) (rest : List Word) :
    decodeFirst (opWord n3 6 (ww ++ jj) n) (w2 :: rest) = .ok (f (.disp14 n (join14 jj w2)) (nib1 w2))
  abs20 (n1 n0 : BitVec 4) (w2 : Word) (rest : List Word) :
    decodeFirst (opWord n3 absOp n1 n0) (w2 :: rest) = .ok (f (.abs20 (join20 n0 w2)) n1)
  abs20Index (r13 : Bool) (n1 n0 : BitVec 4) (w2 : Word) (rest : List Word) :
    decodeFirst (opWord n3 (if r13 then relOp + 1 else relOp) n1 n0) (w2 :: rest) =
      .ok (f (.abs20Index r13 (join20 n0 w2)) n1)
  long (k : BitVec 2) (mid data base : BitVec 4) (w3 : Word) (rest : List Word) :
    decodeFirst esc (opWord (ww ++ k) mid data base :: w3 :: rest) =
      .ok (f (memAddrLong k (opWord (ww ++ k) mid data base) w3) data)
  neg (pairForm : Bool) (mid data base : BitVec 4) (w3 : Word) (rest : List Word) :
    decodeFirst neg (opWord (ww ++ (if pairForm then 1#2 else 0#2)) mid data base :: w3 :: rest) =
      .ok (f (negAddr pairForm (opWord (ww ++ (if pairForm then 1#2 else 0#2)) mid data base) w3) data)

theorem loadb_rows : MemRows .loadb 11 8 1 8 10 0x0012 0x0018 where
  disp4 n2 n1 n0 rest _ := by simp [decodeFirst]
  disp14 jj n w2 rest := by simp [decodeFirst, decodeMem, with1]
  abs20 n1 n0 w2 rest := by simp [decodeFirst, decodeMem, with1]
  abs20Index r13 n1 n0 w2 rest := by cases r13 <;> simp [decodeFirst, decodeMem, with1]
  long k mid data base w3 rest := by simp [with2, decode12]
  neg pairForm mid data base w3 rest := by cases pairForm <;> simp [with2, decode18]

theorem loadw_rows : MemRows .loadw 9 8 3 9 14 0x0012 0x0018 where
  disp4 n2 n1 n0 rest _ := by simp [decodeFirst]
  disp14 jj n w2 rest := by simp [decodeFirst, decodeMem, with1]
  abs20 n1 n0 w2 rest := by simp [decodeFirst, decodeMem, with1]
  abs20Index r13 n1 n0 w2 rest := by cases r13 <;> simp [decodeFirst, decodeMem, with1]
  long k mid data base w3 rest := by simp [with2, decode12]
  neg pairForm mid data base w3 rest := by cases pairForm <;> simp [with2, decode18]

theorem loadd_rows : MemRows .loadd 10 8 2 7 12 0x0012 0x0018 where
  disp4 n2 n1 n0 rest _ := by simp [decodeFirst]
  disp14 jj n w2 rest := by simp [decodeFirst, decodeMem, with1]
  abs20 n1 n0 w2 rest := by simp [decodeFirst, decodeMem, with1]
  abs20Index r13 n1 n0 w2 rest := by cases r13 <;> simp [decodeFirst, decodeMem, with1]
  long k mid data base w3 rest := by simp [with2, decode12]
  neg pairForm mid data base w3 rest := by cases pairForm <;> simp [with2, decode18]

theorem storb_rows : MemRows (fun a s => .storb s a) 15 12 1 8 10 0x0013 0x0019 where
  disp4 n2 n1 n0 rest h := by simp [decodeFirst, show ¬ opWord 15#4 n2 n1 n0 = 0xFFFF#16 from h]
  disp14 jj n w2 rest := by simp [decodeFirst, decodeMem, with1]
  abs20 n1 n0 w2 rest := by simp [decodeFirst, decodeMem, with1]
  abs20Index r13 n1 n0 w2 rest := by cases r13 <;> simp [decodeFirst, decodeMem, with1]
  long k mid data base w3 rest := by simp [with2, decode13]
  neg pairForm mid data base w3 rest := by cases pairForm <;> simp [with2, decode19]

theorem storw_rows : MemRows (fun a s => .storw s a) 13 12 3 9 14 0x0013 0x0019 where
  disp4 n2 n1 n0 rest _ := by simp [decodeFirst]
  disp14 jj n w2 rest := by simp [decodeFirst, decodeMem, with1]
  abs20 n1 n0 w2 rest := by simp [decodeFirst, decodeMem, with1]
  abs20Index r13 n1 n0 w2 rest := by cases r13 <;> simp [decodeFirst, decodeMem, with1]
  long k mid data base w3 rest := by simp [with2, decode13]
  neg pairForm mid data base w3 rest := by cases pairForm <;> simp [with2, decode19]

theorem stord_rows : MemRows (fun a s => .stord s a) 14 12 2 7 12 0x0013 0x0019 where
  disp4 n2 n1 n0 rest _ := by simp [decodeFirst]
  disp14 jj n w2 rest := by simp [decodeFirst, decodeMem, with1]
  abs20 n1 n0 w2 rest := by simp [decodeFirst, decodeMem, with1]
  abs20Index r13 n1 n0 w2 rest := by cases r13 <;> simp [decodeFirst, decodeMem, with1]
  long k mid data base w3 rest := by simp [with2, decode13]
  neg pairForm mid data base w3 rest := by cases pairForm <;> simp [with2, decode19]

theorem opWord_eq_ffff {a b c d : BitVec 4} (h : opWord a b c d = 0xFFFF) : a = 15 ∧ b = 15 ∧ c = 15 ∧ d = 15 :=
  ⟨(nib3_opWord a b c d).symm.trans (congrArg nib3 h), (nib2_opWord a b c d).symm.trans (congrArg nib2 h),
    (nib1_opWord a b c d).symm.trans (congrArg nib1 h), (nib0_opWord a b c d).symm.trans (congrArg nib0 h)⟩

/-- A load or store: one row for each form of its address. -/
theorem MemRows.decode_encMem {f : MemAddr → BitVec 4 → Instr} {short n3 absOp relOp : BitVec 4} {ww : BitVec 2}
    {esc neg : Word} (h : MemRows f short n3 ww absOp relOp esc neg) (data : BitVec 4) {a : MemAddr} (ha : a.wf = true)
    (hres : short = 15 → storbWf data a = true) (rest : List Word) :
    decodeWords (encMem short n3 ww absOp relOp esc neg (ww ++ 0#2) data a ++ rest) = .ok (f a data) := by
  have long (k : BitVec 2) (mid base : BitVec 4) (w3 : Word) :
      decodeWords (esc :: opWord (ww ++ 0#2 + k.setWidth 4) mid data base :: w3 :: rest) =
        .ok (f (memAddrLong k (opWord (ww ++ k) mid data base) w3) data) := by
    rw [append_zero_add]
    exact h.long k mid data base w3 rest
  have disp4 {n2 n0 : BitVec 4} (hn : short = 15 → n2 = 15 → data = 15 → n0 = 15 → False) (more : List Word) :
      decodeWords (opWord short n2 data n0 :: more) = decodeDisp4 f (opWord short n2 data n0) more := by
    refine h.disp4 _ _ _ _ fun heq => ?_
    obtain ⟨h3, h2, h1, h0⟩ := opWord_eq_ffff heq
    exact hn h3 h2 h1 h0
  cases a with
  | disp4 p x =>
    have hx : x ≠ 14#4 ∧ x ≠ 15#4 := by simpa [MemAddr.wf] using ha
    exact (disp4 (fun _ h15 _ _ => hx.2 h15) _).trans (by simp [decodeDisp4, hx])
  | prp0 n => exact (disp4 (fun _ h15 _ _ => absurd h15 (by decide)) _).trans (by simp [decodeDisp4])
  | disp14 n d => exact (h.disp14 _ _ _ _).trans (by simp)
  | disp16 p d =>
    have hreserved (h15 : short = 15) : data = 15 → p = 15 → False := by
      rintro rfl rfl
      exact absurd (hres h15) (by simp [storbWf])
    exact (disp4 (fun h15 _ => hreserved h15) _).trans (by simp [decodeDisp4, with1])
  | disp20Reg r d => exact (h.long 0 _ _ _ _ _).trans (by simp [memAddrLong])
  | disp20Pair p d => exact (long 1 _ _ _).trans (by simp [memAddrLong])
  | disp20Index n d => exact (long 2 _ _ _).trans (by simp [memAddrLong])
  | negDisp20Reg r d => exact (h.neg false _ _ _ _ _).trans (by simp [negAddr])
  | negDisp20Pair p d =>
    have hope : (ww ++ 0#2 : BitVec 4) + 1 = ww ++ 1#2 := append_zero_add ww 1
    have hpair := h.neg true (hi20 d) data p (lo20 d) rest
    rw [if_pos rfl, ← hope] at hpair
    exact hpair.trans (by simp [negAddr])
  | abs20 x => exact (h.abs20 _ _ _ _).trans (by simp)
  | abs20Index r13 x => exact (h.abs20Index _ _ _ _ _).trans (by simp)
  | abs24 x => exact (long 3 _ _ _).trans (by simp [memAddrLong])

/-! ### Reserved encodings (R456, R457) -/

theorem reservedFirst_iff (w : Word) : reservedFirst w = true ↔
    (w.toNat ≤ 2 ∨ 8 ≤ w.toNat ∧ w.toNat ≤ 9) ∨
      (0x15 ≤ w.toNat ∧ w.toNat ≤ 0x17 ∨ 0x1A ≤ w.toNat ∧ w.toNat ≤ 0x1F) ∨
      (0x80 ≤ w.toNat ∧ w.toNat ≤ 0x8F) ∨ (0xE0 ≤ w.toNat ∧ w.toNat ≤ 0xFF) ∨
      (0x900 ≤ w.toNat ∧ w.toNat ≤ 0x97F) ∨ (0x8000 ≤ w.toNat ∧ w.toNat ≤ 0x80FF) ∨ w = 0xFFFF := by
  simp [reservedFirst, BitVec.le_def, or_assoc]

/-- A first word that is reserved whatever follows. -/
theorem decodeFirst_reserved {w : Word} (h : reservedFirst w = true) (rest : List Word) :
    decodeFirst w rest = .ok (.resUnd w 0) := by
  rcases (reservedFirst_iff w).mp h with hw | hw | hw | hw | hw | hw | rfl
  · have h3 : (nib3 w).toNat = 0 := by rw [toNat_nib3]; omega
    have h2 : (nib2 w).toNat = 0 := by rw [toNat_nib2]; omega
    have h1 : (nib1 w).toNat = 0 := by rw [toNat_nib1]; omega
    have h0 : (nib0 w).toNat = 0 ∨ (nib0 w).toNat = 1 ∨ (nib0 w).toNat = 2 ∨ (nib0 w).toNat = 8 ∨
        (nib0 w).toNat = 9 := by rw [toNat_nib0]; omega
    rcases h0 with h0 | h0 | h0 | h0 | h0 <;> simp [decodeFirst, decode0, decode00, decode000, h3, h2, h1, h0]
  · have h3 : (nib3 w).toNat = 0 := by rw [toNat_nib3]; omega
    have h2 : (nib2 w).toNat = 0 := by rw [toNat_nib2]; omega
    have h1 : (nib1 w).toNat = 1 := by rw [toNat_nib1]; omega
    have h0 : (nib0 w).toNat = 5 ∨ (nib0 w).toNat = 6 ∨ (nib0 w).toNat = 7 ∨ (nib0 w).toNat = 10 ∨
        (nib0 w).toNat = 11 ∨ (nib0 w).toNat = 12 ∨ (nib0 w).toNat = 13 ∨ (nib0 w).toNat = 14 ∨
        (nib0 w).toNat = 15 := by rw [toNat_nib0]; omega
    rcases h0 with h0 | h0 | h0 | h0 | h0 | h0 | h0 | h0 | h0 <;>
      simp [decodeFirst, decode0, decode00, decode001, h3, h2, h1, h0]
  · have h3 : (nib3 w).toNat = 0 := by rw [toNat_nib3]; omega
    have h2 : (nib2 w).toNat = 0 := by rw [toNat_nib2]; omega
    have h1 : (nib1 w).toNat = 8 := by rw [toNat_nib1]; omega
    simp [decodeFirst, decode0, decode00, h3, h2, h1]
  · have h3 : (nib3 w).toNat = 0 := by rw [toNat_nib3]; omega
    have h2 : (nib2 w).toNat = 0 := by rw [toNat_nib2]; omega
    have h1 : (nib1 w).toNat = 14 ∨ (nib1 w).toNat = 15 := by rw [toNat_nib1]; omega
    rcases h1 with h1 | h1 <;> simp [decodeFirst, decode0, decode00, h3, h2, h1]
  · have h3 : (nib3 w).toNat = 0 := by rw [toNat_nib3]; omega
    have h2 : (nib2 w).toNat = 9 := by rw [toNat_nib2]; omega
    have h1 : (nib1 w).toNat < 8 := by rw [toNat_nib1]; omega
    have htop : top1 (nib1 w) = false := by
      revert h1; generalize nib1 w = n; revert n; decide
    simp [decodeFirst, decode0, h3, h2, htop]
  · have h3 : (nib3 w).toNat = 8 := by rw [toNat_nib3]; omega
    have h2 : (nib2 w).toNat = 0 := by rw [toNat_nib2]; omega
    simp [decodeFirst, decodeMem, h3, h2]
  · rfl

/-- The reserved operations of the words 0x0018 and 0x0019. -/
theorem decode18_reserved : ∀ ope, negDispOpe ope = false → decode18 (opWord ope 0 0 0) 0 = .resUnd 0x0018 ope := by
  decide

theorem decode19_reserved : ∀ ope, negDispOpe ope = false → decode19 (opWord ope 0 0 0) 0 = .resUnd 0x0019 ope := by
  decide

theorem resUnd_roundTrips {first : Word} {ope : BitVec 4} (h : resUndWf first ope = true) :
    RoundTrips (.resUnd first ope) := by
  intro rest
  by_cases h18 : first = 0x0018
  · subst h18
    exact congrArg Except.ok (decode18_reserved ope (by simpa [resUndWf] using h))
  by_cases h19 : first = 0x0019
  · subst h19
    exact congrArg Except.ok (decode19_reserved ope (by simpa [resUndWf] using h))
  · have hfirst : reservedFirst first = true ∧ ope = 0 := by
      simpa [resUndWf, show ¬ first = 24#16 from h18, show ¬ first = 25#16 from h19] using h
    have hword : encode (.resUnd first ope) = [first] := if_neg (not_or.mpr ⟨h18, h19⟩)
    rw [hword, hfirst.2]
    exact decodeFirst_reserved hfirst.1 rest

/-- The reserved operations that do nothing, one fact for each escape word (R457). -/
theorem decode10_reserved : ∀ ope, resNopWf 0x0010 ope = true →
    decode10 (opWord ope 0 0 0) 0 = .resNop 0x0010 ope := by
  decide

theorem decode11_reserved : ∀ ope, resNopWf 0x0011 ope = true →
    decode11 (opWord ope 0 0 0) 0 = .resNop 0x0011 ope := by
  decide

theorem decode14_reserved : ∀ ope, resNopWf 0x0014 ope = true →
    decode14 (opWord ope 0 0 0) = .resNop 0x0014 ope := by
  decide

theorem resNop_roundTrips {first : Word} {ope : BitVec 4} (h : resNopWf first ope = true) :
    RoundTrips (.resNop first ope) := by
  intro rest
  have hfirst : first = 0x0010 ∨ first = 0x0011 ∨ first = 0x0014 := by
    simp only [resNopWf, Bool.or_eq_true, Bool.and_eq_true, beq_iff_eq] at h
    tauto
  rcases hfirst with rfl | rfl | rfl
  · exact congrArg Except.ok (decode10_reserved ope h)
  · exact congrArg Except.ok (decode11_reserved ope h)
  · exact congrArg Except.ok (decode14_reserved ope h)

/-! ### Every instruction -/

theorem cinv_roundTrips (o : CacheOpts) : RoundTrips (.cinv o) := by
  intro rest
  cases o <;> rfl

theorem jal_roundTrips (l : Link) (p : PairNum) : RoundTrips (.jal l p) := by
  intro rest
  cases l with
  | implied => simp [encode, decodeWords, decodeFirst, decode0, decode00, Instr.named]
  | pair q => simp [encode, decodeWords, with1, decode14, Instr.named]

theorem tbit_roundTrips (fromReg : Bool) (o : BitVec 4) (r : RegNum) : RoundTrips (.tbit fromReg o r) := by
  intro rest
  cases fromReg <;> simp [encode, decodeWords, decodeFirst, decode0, Instr.named]

/-- Settles O1: one row of the decoder for each form of each instruction. -/
theorem decodeEncode : Obligations.DecodeEncode := by
  intro i rest h
  cases i with
  | movb s d | movw s d | cmpb s d | cmpw s d =>
    exact decode_encSrc h d (fun x rest => by simp [decodeFirst, decode5])
      (fun r rest => by simp [decodeFirst, decode5]) rest
  | addb s d | addw s d | addcb s d | addcw s d | subb s d | subw s d | subcb s d | subcw s d =>
    exact decode_encSrc h d (fun x rest => by simp [decodeFirst, decode3])
      (fun r rest => by simp [decodeFirst, decode3]) rest
  | andb s d | andw s d | orb s d | orw s d | xorb s d | xorw s d | addub s d | adduw s d =>
    exact decode_encSrc h d (fun x rest => by simp [decodeFirst, decode2])
      (fun r rest => by simp [decodeFirst, decode2]) rest
  | mulb s d | mulw s d =>
    exact decode_encSrc h d (fun x rest => by simp [decodeFirst, decode6])
      (fun r rest => by simp [decodeFirst, decode6]) rest
  | movd s d => exact movd_roundTrips h d rest
  | addd s d => exact addd_roundTrips h d rest
  | cmpd s d => exact cmpd_roundTrips h d rest
  | subd s d | andd s d | ord s d | xord s d =>
    exact decode_encSrcL s d (fun rest => by simp [decodeFirst, decode0, decode00]) (fun p => by simp [decode14]) rest
  | movxb s d | movxw s d | movzb s d | movzw s d =>
    simp [encode, decodeWords, decodeFirst, decode5, Instr.named]
  | mulsw s d | muluw s d => simp [encode, decodeWords, decodeFirst, decode6, Instr.named]
  | mulsb s d | beq0b s j | beq0w s j | bne0b s j | bne0w s j | push r n g | pop r n g | popret r n g =>
    simp [encode, decodeWords, decodeFirst, decode0, Instr.named]
  | excp v | loadm n | loadmp n | storm n | stormp n =>
    simp [encode, decodeWords, decodeFirst, decode0, decode00, Instr.named]
  | macqw s1 s2 d | macuw s1 s2 d | macsw s1 s2 d | lpr s d | lprd s d | spr s d | sprd s d =>
    simp [encode, decodeWords, with1, decode14, Instr.named]
  | scond c d => exact decode_set c d rest
  | seq d => exact decode_set .eq d rest
  | sne d => exact decode_set .ne d rest
  | scs d => exact decode_set .cs d rest
  | scc d => exact decode_set .cc d rest
  | shi d => exact decode_set .hi d rest
  | sls d => exact decode_set .ls d rest
  | sgt d => exact decode_set .gt d rest
  | sle d => exact decode_set .le d rest
  | sfs d => exact decode_set .fs d rest
  | sfc d => exact decode_set .fc d rest
  | slo d => exact decode_set .lo d rest
  | shs d => exact decode_set .hs d rest
  | slt d => exact decode_set .lt d rest
  | sge d => exact decode_set .ge d rest
  | ashub c d => exact ashub_roundTrips c d rest
  | ashuw c d => exact ashuw_roundTrips c d rest
  | ashud c d => exact ashud_roundTrips c d rest
  | lshb c d => exact lshb_roundTrips c d rest
  | lshw c d => exact lshw_roundTrips c d rest
  | lshd c d => exact lshd_roundTrips c d rest
  | cbitb p a => exact cbit_rows.decode_encBitB p a rest
  | cbitw p a => exact cbit_rows.decode_encBitW p a rest
  | sbitb p a => exact sbit_rows.decode_encBitB p a rest
  | sbitw p a => exact sbit_rows.decode_encBitW p a rest
  | tbitb p a => exact tbit_rows.decode_encBitB p a rest
  | tbitw p a => exact tbit_rows.decode_encBitW p a rest
  | tbit fromReg o r => exact tbit_roundTrips fromReg o r rest
  | bcond c d => exact decode_encBranch c h rest
  | beq d => exact decode_encBranch .eq h rest
  | bne d => exact decode_encBranch .ne h rest
  | bcs d => exact decode_encBranch .cs h rest
  | bcc d => exact decode_encBranch .cc h rest
  | bhi d => exact decode_encBranch .hi h rest
  | bls d => exact decode_encBranch .ls h rest
  | bgt d => exact decode_encBranch .gt h rest
  | ble d => exact decode_encBranch .le h rest
  | bfs d => exact decode_encBranch .fs h rest
  | bfc d => exact decode_encBranch .fc h rest
  | blo d => exact decode_encBranch .lo h rest
  | bhs d => exact decode_encBranch .hs h rest
  | blt d => exact decode_encBranch .lt h rest
  | bge d => exact decode_encBranch .ge h rest
  | br d => exact decode_encBranch .always h rest
  | bal l d => exact bal_roundTrips l d rest
  | jcond c p => exact decode_jump c p rest
  | jeq p => exact decode_jump .eq p rest
  | jne p => exact decode_jump .ne p rest
  | jcs p => exact decode_jump .cs p rest
  | jcc p => exact decode_jump .cc p rest
  | jhi p => exact decode_jump .hi p rest
  | jls p => exact decode_jump .ls p rest
  | jgt p => exact decode_jump .gt p rest
  | jle p => exact decode_jump .le p rest
  | jfs p => exact decode_jump .fs p rest
  | jfc p => exact decode_jump .fc p rest
  | jlo p => exact decode_jump .lo p rest
  | jhs p => exact decode_jump .hs p rest
  | jlt p => exact decode_jump .lt p rest
  | jge p => exact decode_jump .ge p rest
  | jump p => exact decode_jump .always p rest
  | jusr p => exact decode_jump .uc p rest
  | jal l p => exact jal_roundTrips l p rest
  | loadb a d => exact loadb_rows.decode_encMem d h (fun h15 => absurd h15 (by decide)) rest
  | loadw a d => exact loadw_rows.decode_encMem d h (fun h15 => absurd h15 (by decide)) rest
  | loadd a d => exact loadd_rows.decode_encMem d h (fun h15 => absurd h15 (by decide)) rest
  | storb s a =>
    have hwf : a.wf = true ∧ storbWf s a = true := by simpa [Instr.wf] using h
    exact storb_rows.decode_encMem s hwf.1 (fun _ => hwf.2) rest
  | storw s a => exact storw_rows.decode_encMem s h (fun h15 => absurd h15 (by decide)) rest
  | stord s a => exact stord_rows.decode_encMem s h (fun h15 => absurd h15 (by decide)) rest
  | storbImm x a => exact storbImm_roundTrips x a rest
  | storwImm x a => exact storwImm_roundTrips x a rest
  | cinv o => exact cinv_roundTrips o rest
  | retx | di | ei | eiwait | wait | nop => rfl
  | resUnd first ope => exact resUnd_roundTrips h rest
  | resNop first ope => exact resNop_roundTrips h rest

end Sys2Proof.Proofs

/-! PROOFS. What the decoder reads (spec/30_encoding.md R120, R150, R151, R159): each first word reads a fixed number of
words, whatever they hold, and what it reads is well formed, in its own spelling and that many words long. -/

namespace Sys2Proof.Proofs

open Sys2Proof.Machine Sys2Proof.Laws

/-- What the decoder may answer: a well-formed instruction of `n` words in its own spelling. -/
structure Canonical (n : Nat) (i : Instr) : Prop where
  wf : i.wf = true
  named : i.named = i
  length : (encode i).length = n

/-- A reader of the words after the first: it looks at none, one or two of them. -/
inductive Reader : (List Word → Except DecodeError Instr) → Prop
  | one {i : Instr} (h : Canonical 1 i) : Reader (fun _ => .ok i)
  | two {f : Word → Instr} (h : ∀ w2, Canonical 2 (f w2)) : Reader (fun rest => with1 rest f)
  | three {f : Word → Word → Instr} (h : ∀ w2 w3, Canonical 3 (f w2 w3)) : Reader (fun rest => with2 rest f)

/-! ### What follows for every reader -/

/-- What is read is canonical and read again from its own words alone. -/
theorem Reader.canonical {read : List Word → Except DecodeError Instr} (h : Reader read) {ws : List Word}
    {i : Instr} (hi : read ws = .ok i) :
    ∃ n, n ≤ ws.length ∧ Canonical (n + 1) i ∧ ∀ rest, read (ws.take n ++ rest) = .ok i := by
  cases h with
  | one h =>
    obtain rfl := Except.ok.inj hi
    exact ⟨0, Nat.zero_le _, h, fun _ => rfl⟩
  | two h =>
    match ws, hi with
    | w2 :: more, hi =>
      obtain rfl := Except.ok.inj hi
      exact ⟨1, by simp, h w2, fun _ => rfl⟩
  | three h =>
    match ws, hi with
    | w2 :: w3 :: more, hi =>
      obtain rfl := Except.ok.inj hi
      exact ⟨2, by simp, h w2 w3, fun _ => rfl⟩

/-- Two words are enough. -/
theorem Reader.total {read : List Word → Except DecodeError Instr} (h : Reader read) (w2 w3 : Word) (rest : List Word) :
    ∃ i n, read (w2 :: w3 :: rest) = .ok i ∧ n ≤ 2 ∧ Canonical (n + 1) i := by
  cases h with
  | one h => exact ⟨_, 0, rfl, by decide, h⟩
  | two h => exact ⟨_, 1, rfl, by decide, h w2⟩
  | three h => exact ⟨_, 2, rfl, by decide, h w2 w3⟩

/-! ### When an answer is canonical -/

theorem Canonical.of_size {n : Nat} {i : Instr} (hwf : i.wf = true) (hnamed : i.named = i) (hsize : Size.Statement i)
    (hbytes : instrBytes i = 2 * n) : Canonical n i where
  wf := hwf
  named := hnamed
  length := Nat.eq_of_mul_eq_mul_left Nat.two_pos (hsize.trans hbytes)

/-- The named spelling of a general form (R166). -/
theorem Canonical.of_spelling {n : Nat} {i : Instr} (hwf : i.named.wf = true) (hspelling : Spelling.Statement i)
    (hlength : (encode i).length = n) : Canonical n i.named where
  wf := hwf
  named := hspelling.2
  length := hspelling.1 ▸ hlength

theorem canonical_namedSet (c : Cond) (r : RegNum) : Canonical 1 (namedSet c r) :=
  .of_spelling (i := .scond c r) (by cases c <;> rfl) (Spelling.scond c r) rfl

theorem canonical_namedJump (c : Cond) (p : PairNum) : Canonical 1 (namedJump c p) :=
  .of_spelling (i := .jcond c p) (by cases c <;> rfl) (Spelling.jcond c p) rfl

theorem canonical_namedBranch (c : Cond) {d : BranchDisp} (hd : d.wf = true) :
    Canonical (encBranch c d).length (namedBranch c d) :=
  .of_spelling (i := .bcond c d) (by cases c <;> exact hd) (Spelling.bcond c d) rfl

theorem canonical_resUnd {w : Word} (h : reservedFirst w = true) : Canonical 1 (.resUnd w 0) := by
  have h18 : ¬ (w = 0x0018 ∨ w = 0x0019) := by
    rintro (rfl | rfl) <;> exact absurd h (by decide)
  have hne : ¬ (w == 0x0018 || w == 0x0019) = true := by
    rwa [Bool.or_eq_true, beq_iff_eq, beq_iff_eq]
  have hwf : resUndWf w 0 = true := by
    rw [resUndWf, if_neg hne, h]
    rfl
  exact ⟨hwf, rfl, congrArg List.length (if_neg h18)⟩

theorem bitAddrBytes_bitAddrLong (k : BitVec 2) (w2 w3 : Word) : bitAddrBytes (bitAddrLong k w2 w3) = 2 * 3 := by
  unfold bitAddrLong
  split <;> rfl

theorem memAddrBytes_memAddrLong (k : BitVec 2) (w2 w3 : Word) : memAddrBytes (memAddrLong k w2 w3) = 2 * 3 := by
  unfold memAddrLong
  split <;> rfl

theorem wf_memAddrLong (k : BitVec 2) (w2 w3 : Word) : (memAddrLong k w2 w3).wf = true := by
  unfold memAddrLong
  split <;> rfl

theorem storbWf_memAddrLong (r : RegNum) (k : BitVec 2) (w2 w3 : Word) : storbWf r (memAddrLong k w2 w3) = true := by
  unfold memAddrLong
  split <;> rfl

/-! ### The escape words (R153 to R158) -/

theorem decode10_canonical (w2 w3 : Word) : Canonical 3 (decode10 w2 w3) := by
  unfold decode10
  split
  case h_1 htop =>
    dsimp only
    split
    · exact canonical_namedBranch _ (d := .disp25 _) rfl
    · exact ⟨rfl, rfl, rfl⟩
    case h_3 hzero htwo =>
      have hwf : ∀ x : BitVec 4, (top2 x).toNat = 0 → (low2 x).toNat ≠ 0 → (low2 x).toNat ≠ 2 →
          resNopWf 0x0010 x = true := by decide
      exact ⟨hwf _ htop hzero htwo, rfl, rfl⟩
  · exact .of_size rfl rfl (Size.cbitb _ _) (bitAddrBytes_bitAddrLong _ _ _)
  · exact .of_size rfl rfl (Size.sbitb _ _) (bitAddrBytes_bitAddrLong _ _ _)
  · exact .of_size rfl rfl (Size.tbitb _ _) (bitAddrBytes_bitAddrLong _ _ _)

theorem decode11_canonical (w2 w3 : Word) : Canonical 3 (decode11 w2 w3) := by
  unfold decode11
  split
  case h_1 htop =>
    have hwf : ∀ x : BitVec 4, (top2 x).toNat = 0 → resNopWf 0x0011 x = true := by decide
    exact ⟨hwf _ htop, rfl, rfl⟩
  · exact .of_size rfl rfl (Size.cbitw _ _) (bitAddrBytes_bitAddrLong _ _ _)
  · exact .of_size rfl rfl (Size.sbitw _ _) (bitAddrBytes_bitAddrLong _ _ _)
  · exact .of_size rfl rfl (Size.tbitw _ _) (bitAddrBytes_bitAddrLong _ _ _)

theorem decode12_canonical (w2 w3 : Word) : Canonical 3 (decode12 w2 w3) := by
  unfold decode12
  split
  · exact .of_size rfl rfl (Size.storbImm _ _) (bitAddrBytes_bitAddrLong _ _ _)
  · exact .of_size (wf_memAddrLong _ _ _) rfl (Size.loadb _ _) (memAddrBytes_memAddrLong _ _ _)
  · exact .of_size (wf_memAddrLong _ _ _) rfl (Size.loadd _ _) (memAddrBytes_memAddrLong _ _ _)
  · exact .of_size (wf_memAddrLong _ _ _) rfl (Size.loadw _ _) (memAddrBytes_memAddrLong _ _ _)

theorem decode13_canonical (w2 w3 : Word) : Canonical 3 (decode13 w2 w3) := by
  unfold decode13
  split
  · exact .of_size rfl rfl (Size.storwImm _ _) (bitAddrBytes_bitAddrLong _ _ _)
  · exact .of_size (Bool.and_eq_true_iff.mpr ⟨wf_memAddrLong _ _ _, storbWf_memAddrLong _ _ _ _⟩)
      rfl (Size.storb _ _) (memAddrBytes_memAddrLong _ _ _)
  · exact .of_size (wf_memAddrLong _ _ _) rfl (Size.stord _ _) (memAddrBytes_memAddrLong _ _ _)
  · exact .of_size (wf_memAddrLong _ _ _) rfl (Size.storw _ _) (memAddrBytes_memAddrLong _ _ _)

/-- The operations of the escape 0x0014 are those of its rows and the reserved ones (R157, R457). -/
theorem resNopWf_or_toNat : ∀ x : BitVec 4, resNopWf 0x0014 x = true ∨ x.toNat = 0 ∨ x.toNat = 1 ∨ x.toNat = 2 ∨
    x.toNat = 3 ∨ x.toNat = 8 ∨ x.toNat = 9 ∨ x.toNat = 10 ∨ x.toNat = 11 ∨ x.toNat = 12 ∨ x.toNat = 13 ∨
    x.toNat = 14 ∨ x.toNat = 15 := by
  decide

theorem decode14_canonical (w2 : Word) : Canonical 2 (decode14 w2) := by
  unfold decode14
  split
  case h_13 =>
    have hope := resNopWf_or_toNat (nib3 w2)
    exact ⟨show resNopWf 0x0014 (nib3 w2) = true by tauto, rfl, rfl⟩
  all_goals exact ⟨rfl, rfl, rfl⟩

/-- The operations of the escapes 0x0018 and 0x0019 are those of their rows and the reserved ones (R158). -/
theorem negDispOpe_or_toNat : ∀ x : BitVec 4, negDispOpe x = false ∨
    x.toNat = 4 ∨ x.toNat = 5 ∨ x.toNat = 8 ∨ x.toNat = 9 ∨ x.toNat = 12 ∨ x.toNat = 13 := by
  decide

theorem decode18_canonical (w2 w3 : Word) : Canonical 3 (decode18 w2 w3) := by
  unfold decode18
  split
  case h_7 =>
    have hope := negDispOpe_or_toNat (nib3 w2)
    exact ⟨congrArg (!·) (show negDispOpe (nib3 w2) = false by tauto), rfl, rfl⟩
  all_goals exact ⟨rfl, rfl, rfl⟩

theorem decode19_canonical (w2 w3 : Word) : Canonical 3 (decode19 w2 w3) := by
  unfold decode19
  split
  case h_7 =>
    have hope := negDispOpe_or_toNat (nib3 w2)
    exact ⟨congrArg (!·) (show negDispOpe (nib3 w2) = false by tauto), rfl, rfl⟩
  all_goals exact ⟨rfl, rfl, rfl⟩

/-! ### Readers of the forms that several instructions share -/

theorem Reader.ite {p : Prop} [Decidable p] {f g : List Word → Except DecodeError Instr} (hf : p → Reader f)
    (hg : ¬ p → Reader g) : Reader (fun rest => if p then f rest else g rest) := by
  by_cases h : p
  · simpa only [if_pos h] using hf h
  · simpa only [if_neg h] using hg h

/-- A source row: the escape 11 is never read as an imm4 (R131). -/
theorem reader_srcImm {s : BitVec 4} {f : Src → Instr}
    (h : ∀ (x : Src) (n : Nat), x.wf = true → srcBytes x = 2 * n → Canonical n (f x)) :
    Reader (fun rest => srcImm s rest f) :=
  .ite (fun _ => .two fun w => h (.imm16 w) 2 rfl rfl) (fun hs => .one (h (.imm4 s) 1 (by simpa [Src.wf] using hs) rfl))

/-! ### The pages of the opcode map (R151) -/

theorem decode000_canonical {w1 : Word} (hw : w1.toNat < 16) : Canonical 1 (decode000 w1) := by
  have h0 : (nib0 w1).toNat = w1.toNat := by rw [toNat_nib0, Nat.mod_eq_of_lt hw]
  have hres (h : w1.toNat ≤ 2 ∨ 8 ≤ w1.toNat ∧ w1.toNat ≤ 9) : Canonical 1 (.resUnd w1 0) :=
    canonical_resUnd ((reservedFirst_iff w1).mpr (.inl h))
  unfold decode000
  rw [h0]
  generalize w1.toNat = n at hw hres
  match n with
  | 0 | 1 | 2 | 8 | 9 => exact hres (by decide)
  | 3 | 4 | 5 | 6 | 7 | 10 | 11 | 12 | 13 | 14 | 15 => exact ⟨rfl, rfl, rfl⟩
  | n + 16 => exact absurd hw (by omega)

theorem decode001_reader {w1 : Word} (hlow : 0x10 ≤ w1.toNat) (hhigh : w1.toNat < 0x20) : Reader (decode001 w1) := by
  have h0 : (nib0 w1).toNat = w1.toNat - 0x10 := by rw [toNat_nib0]; omega
  unfold decode001
  generalize hn : (nib0 w1).toNat = n
  have hres (h : 5 ≤ n ∧ n ≤ 7 ∨ 10 ≤ n) : Reader (fun _ => .ok (.resUnd w1 0)) :=
    .one (canonical_resUnd ((reservedFirst_iff w1).mpr (.inr (.inl (by omega)))))
  match n with
  | 0 => exact .three decode10_canonical
  | 1 => exact .three decode11_canonical
  | 2 => exact .three decode12_canonical
  | 3 => exact .three decode13_canonical
  | 4 => exact .two decode14_canonical
  | 8 => exact .three decode18_canonical
  | 9 => exact .three decode19_canonical
  | 5 | 6 | 7 => exact hres (by decide)
  | n + 10 => exact hres (.inr (Nat.le_add_left _ _))

theorem decode00_reader {w1 : Word} (hw : w1.toNat < 0x100) : Reader (decode00 w1) := by
  unfold decode00
  generalize h1 : (nib1 w1).toNat = n
  rw [toNat_nib1] at h1
  have hres (h : n = 8 ∨ 14 ≤ n) : Reader (fun _ => .ok (.resUnd w1 0)) :=
    .one (canonical_resUnd ((reservedFirst_iff w1).mpr (by omega)))
  match n with
  | 0 => exact .one (decode000_canonical (by omega))
  | 1 => exact decode001_reader (by omega) (by omega)
  | 2 | 3 | 4 | 5 | 6 | 7 | 9 => exact .three fun w2 w3 => ⟨rfl, rfl, rfl⟩
  | 8 => exact hres (.inl rfl)
  | 10 | 11 => exact .one (by split <;> exact ⟨rfl, rfl, rfl⟩)
  | 12 | 13 => exact .one ⟨rfl, rfl, rfl⟩
  | n + 14 => exact hres (.inr (Nat.le_add_left _ _))

theorem decode0_reader {w1 : Word} (hw : w1.toNat < 0x1000) : Reader (decode0 w1) := by
  unfold decode0
  generalize h2 : (nib2 w1).toNat = n
  rw [toNat_nib2] at h2
  match n with
  | 0 => exact decode00_reader (by omega)
  | 4 | 5 => exact .two fun w2 => ⟨rfl, rfl, rfl⟩
  | 8 => exact .one (canonical_namedSet _ _)
  | 9 =>
    have hlow : ∀ x : BitVec 4, top1 x = false → x.toNat < 8 := by decide
    refine .one ?_
    split
    · exact ⟨rfl, rfl, rfl⟩
    · next htop =>
      have h1 := hlow _ (eq_false_of_ne_true htop)
      rw [toNat_nib1] at h1
      exact canonical_resUnd ((reservedFirst_iff w1).mpr (by omega))
  | 10 => exact .one (canonical_namedJump _ _)
  | 1 | 2 | 3 | 6 | 7 | 11 | 12 | 13 | 14 | n + 15 => exact .one ⟨rfl, rfl, rfl⟩

theorem decode1_reader (w1 : Word) : Reader (decode1 w1) := by
  refine .ite (fun _ => .two fun w2 => canonical_namedBranch _ (d := .disp17 _) rfl)
    (fun h => .one (canonical_namedBranch _ (d := .disp9 _) ?_))
  have hescape : ∀ x y : BitVec 4, ¬ (x = 8 ∧ y = 0) → BranchDisp.wf (.disp9 (x ++ y)) = true := by decide
  exact hescape _ _ h

theorem decode2_reader (w1 : Word) : Reader (decode2 w1) := by
  unfold decode2
  generalize (nib2 w1).toNat = n
  match n with
  | 0 => exact reader_srcImm fun x n hx h => .of_size hx rfl (Size.andb x _) h
  | 2 => exact reader_srcImm fun x n hx h => .of_size hx rfl (Size.andw x _) h
  | 4 => exact reader_srcImm fun x n hx h => .of_size hx rfl (Size.orb x _) h
  | 6 => exact reader_srcImm fun x n hx h => .of_size hx rfl (Size.orw x _) h
  | 8 => exact reader_srcImm fun x n hx h => .of_size hx rfl (Size.xorb x _) h
  | 10 => exact reader_srcImm fun x n hx h => .of_size hx rfl (Size.xorw x _) h
  | 12 => exact reader_srcImm fun x n hx h => .of_size hx rfl (Size.addub x _) h
  | 14 => exact reader_srcImm fun x n hx h => .of_size hx rfl (Size.adduw x _) h
  | 1 | 3 | 5 | 7 | 9 | 11 | 13 | n + 15 => exact .one ⟨rfl, rfl, rfl⟩

theorem decode3_reader (w1 : Word) : Reader (decode3 w1) := by
  unfold decode3
  generalize (nib2 w1).toNat = n
  match n with
  | 0 => exact reader_srcImm fun x n hx h => .of_size hx rfl (Size.addb x _) h
  | 2 => exact reader_srcImm fun x n hx h => .of_size hx rfl (Size.addw x _) h
  | 4 => exact reader_srcImm fun x n hx h => .of_size hx rfl (Size.addcb x _) h
  | 6 => exact reader_srcImm fun x n hx h => .of_size hx rfl (Size.addcw x _) h
  | 8 => exact reader_srcImm fun x n hx h => .of_size hx rfl (Size.subb x _) h
  | 10 => exact reader_srcImm fun x n hx h => .of_size hx rfl (Size.subw x _) h
  | 12 => exact reader_srcImm fun x n hx h => .of_size hx rfl (Size.subcb x _) h
  | 14 => exact reader_srcImm fun x n hx h => .of_size hx rfl (Size.subcw x _) h
  | 1 | 3 | 5 | 7 | 9 | 11 | 13 | n + 15 => exact .one ⟨rfl, rfl, rfl⟩

theorem decode4_canonical (w1 : Word) : Canonical 1 (decode4 w1) := by
  unfold decode4
  dsimp only
  split
  case h_1 => split <;> exact ⟨rfl, rfl, rfl⟩
  all_goals exact ⟨rfl, rfl, rfl⟩

theorem decode5_reader (w1 : Word) : Reader (decode5 w1) := by
  unfold decode5
  generalize (nib2 w1).toNat = n
  match n with
  | 0 => exact reader_srcImm fun x n hx h => .of_size hx rfl (Size.cmpb x _) h
  | 2 => exact reader_srcImm fun x n hx h => .of_size hx rfl (Size.cmpw x _) h
  | 4 => exact .ite (fun _ => .two fun w => ⟨rfl, rfl, rfl⟩) fun hs => .one ⟨bne_iff_ne.mpr hs, rfl, rfl⟩
  | 6 => exact .ite (fun _ => .two fun w => ⟨rfl, rfl, rfl⟩) fun hs => .one ⟨bne_iff_ne.mpr hs, rfl, rfl⟩
  | 8 => exact reader_srcImm fun x n hx h => .of_size hx rfl (Size.movb x _) h
  | 10 => exact reader_srcImm fun x n hx h => .of_size hx rfl (Size.movw x _) h
  | 1 | 3 | 5 | 7 | 9 | 11 | 12 | 13 | 14 | n + 15 => exact .one ⟨rfl, rfl, rfl⟩

/-- The rows that CBIT, SBIT and TBIT share (R308). -/
theorem decodeBit_reader {b : BitVec 3 → BitAddr → Instr} {w : BitVec 4 → BitAddr → Instr}
    (hb : ∀ p a n, bitAddrBytes a = 2 * n → Canonical n (b p a))
    (hw : ∀ p a n, bitAddrBytes a = 2 * n → Canonical n (w p a)) (k : BitVec 3) (w1 : Word) :
    Reader (decodeBit b w k w1) := by
  unfold decodeBit
  generalize k.toNat = n
  match n with
  | 0 => exact .two fun w2 => hb _ _ 2 rfl
  | 1 | 4 | 5 => exact .two fun w2 => hw _ _ 2 rfl
  | 2 =>
    dsimp only
    generalize (top2 (nib1 w1)).toNat = m
    match m with
    | 2 => exact .two fun w2 => hb _ _ 2 rfl
    | 3 => exact .two fun w2 => hw _ _ 2 rfl
    | 0 | 1 | m + 4 => exact .one (hb _ _ 1 rfl)
  | 3 => exact .two fun w2 => hb _ _ 2 (by split <;> rfl)
  | 6 => exact .one (hw _ _ 1 rfl)
  | n + 7 => exact .two fun w2 => hw _ _ 2 rfl

theorem decode6_reader (w1 : Word) : Reader (decode6 w1) := by
  unfold decode6
  generalize (nib2 w1).toNat = n
  match n with
  | 0 => exact .ite (fun _ => .two fun w => ⟨rfl, rfl, rfl⟩) fun hs => .one ⟨bne_iff_ne.mpr hs, rfl, rfl⟩
  | 4 => exact reader_srcImm fun x n hx h => .of_size hx rfl (Size.mulb x _) h
  | 6 => exact reader_srcImm fun x n hx h => .of_size hx rfl (Size.mulw x _) h
  | 1 | 2 | 3 | 5 | 7 => exact .one ⟨rfl, rfl, rfl⟩
  | n + 8 =>
    exact decodeBit_reader (fun p a _ h => .of_size rfl rfl (Size.cbitb p a) h)
      (fun p a _ h => .of_size rfl rfl (Size.cbitw p a) h) _ _

theorem decode7_reader (w1 : Word) : Reader (decode7 w1) :=
  .ite
    (fun _ => decodeBit_reader (fun p a _ h => .of_size rfl rfl (Size.tbitb p a) h)
      (fun p a _ h => .of_size rfl rfl (Size.tbitw p a) h) _ _)
    (fun _ => decodeBit_reader (fun p a _ h => .of_size rfl rfl (Size.sbitb p a) h)
      (fun p a _ h => .of_size rfl rfl (Size.sbitw p a) h) _ _)

/-- A load or store, whatever its address, but for the reserved word of STORB (R160). -/
def TransferCanonical (f : MemAddr → BitVec 4 → Instr) : Prop :=
  ∀ a r n, a.wf = true → storbWf r a = true → memAddrBytes a = 2 * n → Canonical n (f a r)

theorem decodeMem_reader {imm : BitVec 4 → BitAddr → Instr} {b w d : MemAddr → BitVec 4 → Instr}
    (himm : ∀ x a n, bitAddrBytes a = 2 * n → Canonical n (imm x a)) (hb : TransferCanonical b)
    (hw : TransferCanonical w) (hd : TransferCanonical d) {w1 : Word}
    (hres : (nib2 w1).toNat = 0 → Canonical 1 (.resUnd w1 0)) : Reader (decodeMem imm b w d w1) := by
  have h2 := (nib2 w1).isLt
  unfold decodeMem
  generalize (nib2 w1).toNat = n at h2 hres
  match n with
  | 0 => exact .one (hres rfl)
  | 1 | 3 | 4 | 5 => exact .two fun w2 => himm _ _ 2 rfl
  | 2 => exact .one (himm _ _ 1 rfl)
  | 6 =>
    dsimp only
    generalize (top2 (nib1 w1)).toNat = m
    match m with
    | 0 => exact .two fun w2 => himm _ _ 2 rfl
    | 1 => exact .two fun w2 => hb _ _ 2 rfl rfl rfl
    | 2 => exact .two fun w2 => hd _ _ 2 rfl rfl rfl
    | m + 3 => exact .two fun w2 => hw _ _ 2 rfl rfl rfl
  | 8 | 10 | 11 => exact .two fun w2 => hb _ _ 2 rfl rfl rfl
  | 9 | 14 | 15 => exact .two fun w2 => hw _ _ 2 rfl rfl rfl
  | 7 | 12 | 13 => exact .two fun w2 => hd _ _ 2 rfl rfl rfl
  | n + 16 => exact absurd h2 (by omega)

/-- The disp4 rows: the escapes 14 and 15 are never read as a disp4 (R136). -/
theorem decodeDisp4_reader {f : MemAddr → BitVec 4 → Instr} (hf : TransferCanonical f) {w1 : Word}
    (h16 : nib2 w1 = 15 → ∀ w2, Canonical 2 (f (.disp16 (nib0 w1) w2) (nib1 w1))) : Reader (decodeDisp4 f w1) :=
  .ite (fun h15 => .two (h16 h15)) fun h15 =>
    .ite (fun _ => .one (hf _ _ 1 rfl rfl rfl)) fun h14 =>
      .one (hf _ _ 1 (by simpa [MemAddr.wf] using ⟨h14, h15⟩) rfl rfl)

theorem loadb_canonical : TransferCanonical .loadb := fun a r _ ha _ h => .of_size ha rfl (Size.loadb a r) h
theorem loadw_canonical : TransferCanonical .loadw := fun a r _ ha _ h => .of_size ha rfl (Size.loadw a r) h
theorem loadd_canonical : TransferCanonical .loadd := fun a r _ ha _ h => .of_size ha rfl (Size.loadd a r) h
theorem storw_canonical : TransferCanonical (fun a r => .storw r a) :=
  fun a r _ ha _ h => .of_size ha rfl (Size.storw r a) h
theorem stord_canonical : TransferCanonical (fun a r => .stord r a) :=
  fun a r _ ha _ h => .of_size ha rfl (Size.stord r a) h
theorem storb_canonical : TransferCanonical (fun a r => .storb r a) :=
  fun a r _ ha hr h => .of_size (Bool.and_eq_true_iff.mpr ⟨ha, hr⟩) rfl (Size.storb r a) h

/-- Every first word (R151). -/
theorem decodeFirst_reader (w1 : Word) : Reader (decodeFirst w1) := by
  unfold decodeFirst
  generalize h3 : (nib3 w1).toNat = n
  rw [toNat_nib3] at h3
  match n with
  | 0 => exact decode0_reader (by omega)
  | 1 => exact decode1_reader w1
  | 2 => exact decode2_reader w1
  | 3 => exact decode3_reader w1
  | 4 => exact .one (decode4_canonical w1)
  | 5 => exact decode5_reader w1
  | 6 => exact decode6_reader w1
  | 7 => exact decode7_reader w1
  | 8 =>
    refine decodeMem_reader (fun x a _ h => .of_size rfl rfl (Size.storbImm x a) h) loadb_canonical loadw_canonical
      loadd_canonical fun h2 => canonical_resUnd ((reservedFirst_iff w1).mpr ?_)
    rw [toNat_nib2] at h2
    omega
  | 9 => exact decodeDisp4_reader loadw_canonical fun _ _ => ⟨rfl, rfl, rfl⟩
  | 10 => exact decodeDisp4_reader loadd_canonical fun _ _ => ⟨rfl, rfl, rfl⟩
  | 11 => exact decodeDisp4_reader loadb_canonical fun _ _ => ⟨rfl, rfl, rfl⟩
  | 12 =>
    exact .ite (fun _ => .two fun w2 => ⟨rfl, rfl, rfl⟩) fun h =>
      decodeMem_reader (fun x a _ h => .of_size rfl rfl (Size.storwImm x a) h) storb_canonical storw_canonical
        stord_canonical fun h2 => absurd (BitVec.eq_of_toNat_eq h2) h
  | 13 => exact decodeDisp4_reader storw_canonical fun _ _ => ⟨rfl, rfl, rfl⟩
  | 14 => exact decodeDisp4_reader stord_canonical fun _ _ => ⟨rfl, rfl, rfl⟩
  | n + 15 =>
    refine .ite (fun h => .one ?_) fun h => decodeDisp4_reader storb_canonical fun h2 w2 => ?_
    · subst h
      exact canonical_resUnd rfl
    · have hreserved : storbWf (nib1 w1) (.disp16 (nib0 w1) w2) = true := by
        by_contra hwf
        have hlow : nib1 w1 = 15 ∧ nib0 w1 = 15 := by simpa [storbWf] using hwf
        have hpage : nib3 w1 = 15 :=
          BitVec.eq_of_toNat_eq (show (nib3 w1).toNat = 15 by rw [toNat_nib3]; omega)
        rw [← opWord_nibs w1, hpage, h2, hlow.1, hlow.2] at h
        exact h rfl
      exact storb_canonical _ _ 2 rfl hreserved rfl

/-! ### What three words hold, and which words are read -/

/-- Settles O2: a first word's reader looks at no word beyond the instruction. -/
theorem decodeReads : Obligations.DecodeReads := by
  unfold Obligations.DecodeReads
  intro ws rest i hi
  cases ws with
  | nil => exact nomatch hi
  | cons w1 more =>
    obtain ⟨n, hn, hcanonical, hread⟩ := (decodeFirst_reader w1).canonical hi
    rw [hcanonical.length]
    exact ⟨hcanonical.wf, hcanonical.named, Nat.succ_le_succ hn, hread rest⟩

/-- Settles O3: a first word's reader looks at two more words at most. -/
theorem decodeTotal : Obligations.DecodeTotal := by
  unfold Obligations.DecodeTotal
  intro w1 w2 w3 rest
  obtain ⟨i, n, hread, hn, hcanonical⟩ := (decodeFirst_reader w1).total w2 w3 rest
  have hlength := hcanonical.length
  exact ⟨i, hread, by omega, by omega⟩

end Sys2Proof.Proofs

/-! PROOFS. Operand values and transfer lists (spec/30_encoding.md R131 to R142, spec/40_moves.md R207, spec/44_shifts.md
R289, spec/47_jumps_linkage.md R347, R348). -/

namespace Sys2Proof.Proofs

open Sys2Proof.Machine Sys2Proof.Laws

/-! ### Operand values (R131, R142, R207) -/

theorem toNat_imm4Value {w : Nat} (hw : 4 ≤ w) {f : BitVec 4} (hf : f ≠ 9) : (imm4Value w f).toNat = f.toNat := by
  rw [imm4Value, if_neg hf]
  exact BitVec.toNat_setWidth_of_le hw

theorem toInt_imm4Value_nine {w : Nat} (hw : 1 < w) : (imm4Value w 9).toInt = -1 := by
  have hpow : (2 : Int) ^ 1 ≤ 2 ^ (w - 1) := by
    exact_mod_cast Nat.pow_le_pow_right Nat.two_pos (Nat.le_sub_one_of_lt hw)
  rw [imm4Value, if_pos rfl]
  exact BitVec.toInt_ofInt_eq_self (by omega) (by omega) (by omega)

theorem regCount_eq (s : State) (r : RegNum) : s.regCount r = ((s.reg r).setWidth 8).toInt := by
  rw [BitVec.setWidth_eq_extractLsb' (by decide)]
  rfl

/-- The counts of a `w`-bit field, to the left and to the right (R142; log entry 12). -/
theorem count_field (s : State) {w : Nat} (n : BitVec w) :
    s.count (.left n) = n.toNat ∧ s.count (.right n) = (n.toNat : Int) - 2 ^ w ∧
      s.rightCount (.right n) = (n.toNat : Int) - 2 ^ w :=
  ⟨rfl, rfl, rfl⟩

/-- Settles O27: the value of each form, at the width of each operation. -/
theorem operandValues : Obligations.OperandValues := by
  unfold Obligations.OperandValues
  intro s f w g v r p
  have hsign : (w.signExtend 32).toInt = w.toInt := BitVec.toInt_signExtend_of_le (by decide)
  have hlow : (w.extractLsb' 0 8).toNat = w.toNat % 256 := by simp
  have hcount := regCount_eq s r
  refine ⟨fun hf => ⟨?_, ?_, ?_, ?_⟩, ⟨?_, ?_, ?_, ?_⟩, ⟨hlow, rfl, hsign, hsign⟩, ?_, rfl, rfl, rfl,
    ⟨toNat_regB s r, rfl, rfl, rfl, rfl⟩, count_field s, count_field s, count_field s,
    ⟨hcount, hcount, hcount, hcount, hcount, hcount⟩, fun _ => rfl, rfl, fun _ => rfl⟩
  · exact toNat_imm4Value (by decide) hf
  · exact toNat_imm4Value (by decide) hf
  · exact toNat_imm4Value (by decide) hf
  · exact toNat_imm4Value (by decide) hf
  · exact toInt_imm4Value_nine (by decide)
  · exact toInt_imm4Value_nine (by decide)
  · exact toInt_imm4Value_nine (by decide)
  · exact toInt_imm4Value_nine (by decide)
  · exact BitVec.toNat_setWidth_of_le (by decide)

/-! ### Transfer lists (R347, R348) -/

/-- With CFG.SR 1 a walk takes one register after another. -/
theorem walkSlots_short (w : Nat) : ∀ n : RegNum,
    walkSlots true n w = (List.range w).map fun k => ⟨n + BitVec.ofNat 4 k, false⟩ := by
  induction w with
  | zero => exact fun n => rfl
  | succ w ih =>
    intro n
    have hstep : walkSlots true n (w + 1) = ⟨n, false⟩ :: walkSlots true (n + 1) w := by cases w <;> rfl
    have hshift (k : Nat) : n + 1#4 + BitVec.ofNat 4 k = n + BitVec.ofNat 4 (k + 1) := by
      rw [BitVec.add_assoc, BitVec.ofNat_add, BitVec.add_comm (BitVec.ofNat 4 k)]
    simp [hstep, ih, List.range_succ_eq_map, hshift]

/-- With CFG.SR 0 a valid walk takes 16-bit registers up to R11, then a low and a high half in turn. -/
theorem walkSlots_long : ∀ (count : BitVec 3) (n : RegNum), stackValid false count n = true →
    walkSlots false n (count.toNat + 1) = (List.range (count.toNat + 1)).map fun k =>
      if n.toNat + k < 12 then ⟨n + BitVec.ofNat 4 k, false⟩
      else if n.toNat < 12 then ⟨BitVec.ofNat 4 (12 + (n.toNat + k - 12) / 2), (n.toNat + k - 12) % 2 == 1⟩
      else ⟨n + BitVec.ofNat 4 (k / 2), k % 2 == 1⟩ := by
  decide

/-- The table of R348 for CFG.SR 1: the walk ends before register 15. -/
theorem stackValid_short_iff : ∀ (count : BitVec 3) (n : RegNum),
    stackValid true count n = true ↔ count.toNat + 1 + n.toNat ≤ 15 := by
  decide

/-- The table of R348 for CFG.SR 0. -/
theorem stackValid_long_iff : ∀ (count : BitVec 3) (n : RegNum),
    stackValid false count n = true ↔ n.toNat ≤ 10 ∨ n.toNat = 11 ∧ count.toNat + 1 ≤ 7 ∨
      n.toNat = 12 ∧ count.toNat + 1 ≤ 6 ∨ n.toNat = 13 ∧ count.toNat + 1 ≤ 4 ∨
      n.toNat = 14 ∧ count.toNat + 1 ≤ 2 := by
  decide

/-- Settles O29: the walk of each mode, and after it the two halves of the implied RA operand. -/
theorem stackLists : Obligations.StackLists := by
  unfold Obligations.StackLists
  refine fun ra count n => ⟨stackValid_short_iff count n, stackValid_long_iff count n, ?_, fun hvalid => ?_⟩
  · rw [← walkSlots_short]
    rfl
  · rw [← walkSlots_long count n hvalid]
    rfl

end Sys2Proof.Proofs

/-! PROOFS. The moves (spec/40_moves.md R200 to R207): each writes its value by `setReg` or `setPair` and moves on. And
the words of the spec's examples, read back by the round trip of the encoder. -/

namespace Sys2Proof.Proofs

open Sys2Proof.Machine Sys2Proof.Laws

/-! ### Registers written and the PC moved on (R22, R23, R345) -/

/-- An update of the register file alone keeps the PSR, and the rest as `RegisterFrame` has it. -/
theorem regsWritten_advance {w : List Slot} {s u : State} (n : Nat) (hkept : RegsKept w s u)
    (heq : u = { s with regs := u.regs }) : (u.advance n).psr = s.psr ∧ RegisterFrame w n s (u.advance n) := by
  have hpsr : u.psr = s.psr := by rw [heq]
  exact ⟨hpsr, registerFrame_advance n hkept (by rw [heq])⟩

theorem setReg_advance_spec (s : State) (d : RegNum) (v : Word) (n : Nat) :
    ((s.setReg d v).advance n).reg d = v ∧ ((s.setReg d v).advance n).psr = s.psr ∧
      RegisterFrame [⟨d, false⟩] n s ((s.setReg d v).advance n) := by
  obtain ⟨hread, hkept, heq⟩ := setReg_spec s d v
  exact ⟨(reg_congr rfl rfl d).trans hread, regsWritten_advance n hkept heq⟩

theorem setRegB_advance_spec (s : State) (d : RegNum) (v : Byte) (n : Nat) :
    LowByte d v.toNat s ((s.setRegB d v).advance n) ∧ ((s.setRegB d v).advance n).psr = s.psr ∧
      RegisterFrame [⟨d, false⟩] n s ((s.setRegB d v).advance n) := by
  obtain ⟨-, hkept, heq⟩ := setRegB_spec s d v
  have hreg : ((s.setRegB d v).advance n).reg d = (s.setRegB d v).reg d := reg_congr rfl rfl d
  have hlow := lowByte_setRegB s d v
  rw [LowByte, ← hreg] at hlow
  exact ⟨hlow, regsWritten_advance n hkept heq⟩

theorem setPair_advance_spec (s : State) (d : PairNum) (v : DWord) (n : Nat) :
    ((s.setPair d v).advance n).pair d = v ∧ ((s.setPair d v).advance n).psr = s.psr ∧
      RegisterFrame (s.pairSlots d) n s ((s.setPair d v).advance n) := by
  obtain ⟨hread, hkept, heq⟩ := setPair_spec s d v
  exact ⟨(pair_congr rfl rfl rfl d).trans hread, regsWritten_advance n hkept heq⟩

/-! ### Moves (R200 to R206) -/

theorem toInt_signExtend_regB (s : State) (r : RegNum) :
    ((s.regB r).signExtend 16).toInt = ((s.reg r).setWidth 8).toInt := by
  rw [BitVec.toInt_signExtend_of_le (by decide), BitVec.setWidth_eq_extractLsb' (by decide)]
  rfl

theorem toNat_setWidth_regB (s : State) (r : RegNum) :
    ((s.regB r).setWidth 16).toNat = (s.reg r).toNat % 256 := by
  rw [BitVec.toNat_setWidth_of_le (by decide), toNat_regB]

/-- Settles O30: each is one `setRegB` or `setReg`, of the source or of its low byte extended. -/
theorem movesToRegisters : Obligations.MovesToRegisters := by
  unfold Obligations.MovesToRegisters
  intro s src r d
  obtain ⟨hsigned, hpsrX, hframeX⟩ := setReg_advance_spec s d ((s.regB r).signExtend 16) 2
  obtain ⟨hunsigned, hpsrZ, hframeZ⟩ := setReg_advance_spec s d ((s.regB r).setWidth 16) 2
  refine ⟨⟨_, rfl, setRegB_advance_spec s d _ _⟩, ⟨_, rfl, setReg_advance_spec s d _ _⟩,
    ⟨_, rfl, ?_, hpsrX, hframeX⟩, ⟨_, rfl, ?_, hpsrZ, hframeZ⟩⟩
  · rw [hsigned, toInt_signExtend_regB]
  · rw [hunsigned, toNat_setWidth_regB]

/-- Settles O31: each is one `setPair`, of the source or of the word extended. -/
theorem movesToPairs : Obligations.MovesToPairs := by
  unfold Obligations.MovesToPairs
  intro s src r d
  obtain ⟨hsigned, hpsrX, hframeX⟩ := setPair_advance_spec s d ((s.reg r).signExtend 32) 2
  obtain ⟨hunsigned, hpsrZ, hframeZ⟩ := setPair_advance_spec s d ((s.reg r).setWidth 32) 2
  refine ⟨⟨_, rfl, setPair_advance_spec s d _ _⟩, ⟨_, rfl, ?_, hpsrX, hframeX⟩, ⟨_, rfl, ?_, hpsrZ, hframeZ⟩⟩
  · rw [hsigned, BitVec.toInt_signExtend_of_le (by decide)]
  · rw [hunsigned, BitVec.toNat_setWidth_of_le (by decide)]

/-! ### Words of the examples (R120, R150) -/

/-- The words of a well-formed instruction in the decoder's own spelling are read as that instruction. -/
theorem decodeWords_of_encode {i : Instr} {ws : List Word} (hwords : encode i = ws) (hwf : i.wf = true)
    (hnamed : i.named = i) : decodeWords ws = .ok i := by
  have hread := decodeEncode i [] hwf
  rwa [List.append_nil, hwords, hnamed] at hread

/-- Settles O4: each list of words is what the encoder writes for the instruction beside it. -/
theorem decodesWrittenWords : Obligations.DecodesWrittenWords := by
  unfold Obligations.DecodesWrittenWords
  refine ⟨?_, ?_, ?_, ?_, ?_, ?_, ?_, ?_, ?_, ?_, ?_, ?_, ?_, ?_, ?_⟩
  all_goals exact decodeWords_of_encode rfl rfl rfl

end Sys2Proof.Proofs

/-! PROOFS. Integer arithmetic (spec/41_integer_arithmetic.md R215 to R239): the results and flags are those of
`addWith`, `subWith`, the products and the saturations; each is written by `setRegB`, `setReg` or `setPair`. -/

namespace Sys2Proof.Proofs

open Sys2Proof.Machine Sys2Proof.Laws

/-! ### A result written with its carry and overflow (R215, R216) -/

section FlaggedResults

theorem reg_setCF_advance (u : State) (c f : Bool) (n : Nat) (d : RegNum) :
    ((u.setCF c f).advance n).reg d = u.reg d :=
  reg_congr rfl rfl d

theorem pair_setCF_advance (u : State) (c f : Bool) (n : Nat) (d : PairNum) :
    ((u.setCF c f).advance n).pair d = u.pair d :=
  pair_congr rfl rfl rfl d

/-- After registers, C and F are written and the PC moved on: no other bit of the PSR changed, and the rest is as
`RegisterFrame` has it. -/
theorem flagsWritten_advance {l : List Slot} {s u : State} (c f : Bool) (n : Nat) (hkept : RegsKept l s u)
    (heq : u = { s with regs := u.regs }) :
    ((u.setCF c f).advance n).psr = { s.psr with c := c, f := f } ∧
      RegisterFrame l n s ((u.setCF c f).advance n) := by
  have hpsr : u.psr = s.psr := by rw [heq]
  refine ⟨by rw [advance_psr, setCF_psr, hpsr], registerFrame_advance n (regsKept_congr hkept rfl rfl) ?_⟩
  rw [heq]
  rfl

/- A relation `P` between the value of a result, the PSR before and the PSR after carries over from the computed
result to the state that holds it: `SumOf` and `DifferenceOf` of the operands are such relations. -/
variable (s : State) (n : Nat) {P : Nat → Psr → Psr → Prop}

theorem flaggedByte_advance (d : RegNum) {r : Machine.Sum 8}
    (hr : P r.res.toNat s.psr { s.psr with c := r.c, f := r.f }) :
    ∃ t : State, (.next (((s.setRegB d r.res).setCF r.c r.f).advance n) : Result) = .next t ∧
      ∃ v : Nat, LowByte d v s t ∧ P v s.psr t.psr ∧ RegisterFrame [⟨d, false⟩] n s t := by
  obtain ⟨-, hkept, heq⟩ := setRegB_spec s d r.res
  obtain ⟨hpsr, hframe⟩ := flagsWritten_advance r.c r.f n hkept heq
  refine ⟨_, rfl, r.res.toNat, ?_, hpsr ▸ hr, hframe⟩
  rw [LowByte, reg_setCF_advance]
  exact lowByte_setRegB s d r.res

theorem flaggedWord_advance (d : RegNum) {r : Machine.Sum 16}
    (hr : P r.res.toNat s.psr { s.psr with c := r.c, f := r.f }) :
    ∃ t : State, (.next (((s.setReg d r.res).setCF r.c r.f).advance n) : Result) = .next t ∧
      P (t.reg d).toNat s.psr t.psr ∧ RegisterFrame [⟨d, false⟩] n s t := by
  obtain ⟨hread, hkept, heq⟩ := setReg_spec s d r.res
  obtain ⟨hpsr, hframe⟩ := flagsWritten_advance r.c r.f n hkept heq
  refine ⟨_, rfl, ?_, hframe⟩
  rw [hpsr, reg_setCF_advance, hread]
  exact hr

theorem flaggedPair_advance (d : PairNum) {r : Machine.Sum 32}
    (hr : P r.res.toNat s.psr { s.psr with c := r.c, f := r.f }) :
    ∃ t : State, (.next (((s.setPair d r.res).setCF r.c r.f).advance n) : Result) = .next t ∧
      P (t.pair d).toNat s.psr t.psr ∧ RegisterFrame (s.pairSlots d) n s t := by
  obtain ⟨hread, hkept, heq⟩ := setPair_spec s d r.res
  obtain ⟨hpsr, hframe⟩ := flagsWritten_advance r.c r.f n hkept heq
  refine ⟨_, rfl, ?_, hframe⟩
  rw [hpsr, pair_setCF_advance, hread]
  exact hr

end FlaggedResults

/-! ### Additions and subtractions (R220 to R231) -/

/-- Settles O32: each writes the result and the flags of `addWith`, in its own width. -/
theorem additionsWithFlags : Obligations.AdditionsWithFlags := by
  unfold Obligations.AdditionsWithFlags
  intro s src srcD d p
  exact ⟨flaggedByte_advance s _ d (addWith_spec (s.regB d) (s.srcB src) false s.psr),
    flaggedWord_advance s _ d (addWith_spec (s.reg d) (s.srcW src) false s.psr),
    flaggedPair_advance s _ p (addWith_spec (s.pair p) (s.srcD srcD) false s.psr),
    flaggedByte_advance s _ d (addWith_spec (s.regB d) (s.srcB src) s.psr.c s.psr),
    flaggedWord_advance s _ d (addWith_spec (s.reg d) (s.srcW src) s.psr.c s.psr)⟩

/-- Settles O33: each writes the result and the flags of `subWith`, in its own width. -/
theorem subtractionsWithFlags : Obligations.SubtractionsWithFlags := by
  unfold Obligations.SubtractionsWithFlags
  intro s src srcL d p
  exact ⟨flaggedByte_advance s _ d (subWith_spec (s.regB d) (s.srcB src) false s.psr),
    flaggedWord_advance s _ d (subWith_spec (s.reg d) (s.srcW src) false s.psr),
    flaggedPair_advance s _ p (subWith_spec (s.pair p) (s.srcL srcL) false s.psr),
    flaggedByte_advance s _ d (subWith_spec (s.regB d) (s.srcB src) s.psr.c s.psr),
    flaggedWord_advance s _ d (subWith_spec (s.reg d) (s.srcW src) s.psr.c s.psr)⟩

/-- Settles O34: the sum is that of `BitVec`, and only its register is written. -/
theorem additionsWithoutFlags : Obligations.AdditionsWithoutFlags := by
  unfold Obligations.AdditionsWithoutFlags
  intro s src d
  obtain ⟨hbyte, hframeB⟩ := setRegB_advance_spec s d (s.regB d + s.srcB src) (srcBytes src)
  obtain ⟨hword, hframeW⟩ := setReg_advance_spec s d (s.reg d + s.srcW src) (srcBytes src)
  refine ⟨⟨_, rfl, ?_, hframeB⟩, ⟨_, rfl, ?_, hframeW⟩⟩
  · rwa [BitVec.toNat_add, toNat_regB] at hbyte
  · rw [hword, BitVec.toNat_add]

/-! ### Products (R232 to R236) -/

/-- The low bits of a product do not depend on signedness (R232, R233). -/
theorem toNat_ofInt_mul_toInt {w : Nat} (a b : BitVec w) :
    (BitVec.ofInt w (a.toInt * b.toInt)).toNat = a.toNat * b.toNat % 2 ^ w := by
  rw [BitVec.ofInt_mul, BitVec.ofInt_toInt, BitVec.ofInt_toInt, BitVec.toNat_mul]

/-- A signed product fits twice the width of its factors (R234, R235). -/
theorem toInt_ofInt_mul_toInt {w : Nat} (hw : 0 < w) (a b : BitVec w) :
    (BitVec.ofInt (w * 2) (a.toInt * b.toInt)).toInt = a.toInt * b.toInt := by
  have hlow : -2 ^ (w * 2 - 2) ≤ a.toInt * b.toInt := BitVec.le_toInt_mul_toInt
  have hhigh : a.toInt * b.toInt ≤ 2 ^ (w * 2 - 2) := BitVec.toInt_mul_toInt_le
  have hroom : (2 : Int) ^ (w * 2 - 2) < 2 ^ (w * 2 - 1) := Int.pow_lt_pow_of_lt (by decide) (by omega)
  exact BitVec.toInt_ofInt_eq_self (by omega) (by omega) (by omega)

/-- An unsigned product fits twice the width of its factors (R236). -/
theorem toNat_ofNat_mul_toNat {w : Nat} (a b : BitVec w) :
    (BitVec.ofNat (w * 2) (a.toNat * b.toNat)).toNat = a.toNat * b.toNat := by
  rw [BitVec.toNat_ofNat, Nat.mod_eq_of_lt BitVec.toNat_mul_toNat_lt]

theorem regB_eq_setWidth (s : State) (r : RegNum) : s.regB r = (s.reg r).setWidth 8 :=
  (BitVec.setWidth_eq_extractLsb' (by decide)).symm

theorem pairLow_eq_setWidth (s : State) (p : PairNum) : s.pairLow p = (s.pair p).setWidth 16 :=
  (BitVec.setWidth_eq_extractLsb' (by decide)).symm

/-- Settles O35: each writes its product, cut to the width of the factors or whole in twice that width. -/
theorem products : Obligations.Products := by
  unfold Obligations.Products
  intro s src r d p
  obtain ⟨hmulb, hframeB⟩ :=
    setRegB_advance_spec s d (BitVec.ofInt 8 ((s.regB d).toInt * (s.srcB src).toInt)) (srcBytes src)
  obtain ⟨hmulw, hframeW⟩ :=
    setReg_advance_spec s d (BitVec.ofInt 16 ((s.reg d).toInt * (s.srcW src).toInt)) (srcBytes src)
  obtain ⟨hmulsb, hframeSB⟩ := setReg_advance_spec s d (BitVec.ofInt 16 ((s.regB r).toInt * (s.regB d).toInt)) 2
  obtain ⟨hmulsw, hframeSW⟩ := setPair_advance_spec s p (BitVec.ofInt 32 ((s.reg r).toInt * (s.pairLow p).toInt)) 2
  obtain ⟨hmuluw, hframeUW⟩ := setPair_advance_spec s p (BitVec.ofNat 32 ((s.reg r).toNat * (s.pairLow p).toNat)) 2
  refine ⟨⟨_, rfl, ?_, hframeB⟩, ⟨_, rfl, ?_, hframeW⟩, ⟨_, rfl, ?_, hframeSB⟩, ⟨_, rfl, ?_, hframeSW⟩,
    ⟨_, rfl, ?_, hframeUW⟩⟩
  · rw [toNat_ofInt_mul_toInt, toNat_regB] at hmulb
    rwa [← Nat.mod_mul_mod]
  · rw [hmulw]
    exact toNat_ofInt_mul_toInt _ _
  · rw [hmulsb, toInt_ofInt_mul_toInt (w := 8) (by decide), regB_eq_setWidth, regB_eq_setWidth]
  · rw [hmulsw, toInt_ofInt_mul_toInt (w := 16) (by decide), pairLow_eq_setWidth]
  · rw [hmuluw, toNat_ofNat_mul_toNat (w := 16), pairLow_eq_setWidth, BitVec.toNat_setWidth]

/-! ### Multiply and accumulate (R217, R218, R237 to R239) -/

/-- With the MAC unit, what holds of the value holds of the pair. -/
theorem withMac_of_present {s : State} (hm : s.config.macPresent = true) (p : PairNum) {v : DWord} {P : DWord → Prop}
    (hv : P v) :
    ∃ t : State, s.withMac p v = .next t ∧ P (t.pair p) ∧ t.psr = s.psr ∧ RegisterFrame (s.pairSlots p) 4 s t := by
  obtain ⟨hread, hframe⟩ := setPair_advance_spec s p v 4
  exact ⟨_, if_pos hm, hread.symm ▸ hv, hframe⟩

theorem withMac_of_absent {s : State} (hm : s.config.macPresent = false) (p : PairNum) (v : DWord) :
    s.withMac p v = .next (s.enter .und s.pc) :=
  if_neg (by rw [hm]; decide)

/-- Settles O36: each is one `withMac` of a saturated sum; MACQW saturates the doubled product before it. -/
theorem multiplyAccumulates : Obligations.MultiplyAccumulates := by
  unfold Obligations.MultiplyAccumulates
  intro s a b p clamp
  have hclamp (x : Int) : (BitVec.ofInt 32 (satS32 x)).toInt = clamp x := (toInt_satS32 x).trans (satS32_eq x)
  refine ⟨fun hm => ⟨?_, ?_, ?_⟩, fun hm i hi => ?_⟩
  · exact withMac_of_present hm p (P := fun v => v.toInt = _) (hclamp _)
  · exact withMac_of_present hm p (P := fun v => v.toNat = _) (toNat_satU32 _)
  · refine withMac_of_present hm p (P := fun v => v.toInt = _) ((hclamp _).trans ?_)
    rw [satS32_eq, Int.mul_assoc]
  · simp only [List.mem_cons, List.not_mem_nil, or_false] at hi
    rcases hi with rfl | rfl | rfl
    all_goals exact withMac_of_absent hm p _

end Sys2Proof.Proofs

/-! PROOFS. AND, OR and exclusive OR (spec/43_logical_boolean.md R270 to R278): a value known bit by bit, written by
`setRegB`, `setReg` or `setPair`, shows those bits in the register or pair it is written to. -/

namespace Sys2Proof.Proofs

open Sys2Proof.Machine Sys2Proof.Laws

/-! ### Bits of RB[n] (R22) -/

theorem getLsbD_regB (s : State) (d : RegNum) (k : Nat) :
    (s.regB d).getLsbD k = (decide (k < 8) && (s.reg d).getLsbD k) := by
  rw [regB_eq_setWidth, BitVec.getLsbD_setWidth]

/-- A byte write sets bits 7:0 and leaves bits 15:8. -/
theorem getLsbD_reg_setRegB (s : State) (d : RegNum) (v : Byte) (k : Nat) :
    ((s.setRegB d v).reg d).getLsbD k = if k < 8 then v.getLsbD k else (s.reg d).getLsbD k := by
  rw [(setRegB_spec s d v).1, BitVec.getLsbD_append]
  split
  · rfl
  next hk =>
    have hhigh : 8 + (k - 8) = k := by omega
    rw [BitVec.getLsbD_extractLsb', hhigh]
    by_cases hk16 : k < 16
    · have hin : k - 8 < 8 := by omega
      rw [decide_eq_true hin, Bool.true_and]
    · rw [BitVec.getLsbD_of_ge _ _ (by omega), Bool.and_false]

/-! ### A result known bit by bit (R270 to R278) -/

section BitwiseResults

variable {s : State} {op : Bool → Bool → Bool}

theorem bitwise_setRegB_advance {d : RegNum} {v b : Byte} (n : Nat)
    (hv : ∀ k : Nat, v.getLsbD k = op ((s.regB d).getLsbD k) (b.getLsbD k)) :
    ∃ t : State, (.next ((s.setRegB d v).advance n) : Result) = .next t ∧
      (∀ k : Nat, (t.reg d).getLsbD k = if k < 8 then op ((s.reg d).getLsbD k) (b.getLsbD k)
        else (s.reg d).getLsbD k) ∧ t.psr = s.psr ∧ RegisterFrame [⟨d, false⟩] n s t := by
  refine ⟨_, rfl, fun k => ?_, (setRegB_advance_spec s d v n).2⟩
  have hreg : ((s.setRegB d v).advance n).reg d = (s.setRegB d v).reg d := reg_congr rfl rfl d
  rw [hreg, getLsbD_reg_setRegB]
  refine ite_congr rfl (fun hk => ?_) fun _ => rfl
  rw [hv, getLsbD_regB, decide_eq_true hk, Bool.true_and]

theorem bitwise_setReg_advance {d : RegNum} {v b : Word} (n : Nat)
    (hv : ∀ k : Nat, v.getLsbD k = op ((s.reg d).getLsbD k) (b.getLsbD k)) :
    ∃ t : State, (.next ((s.setReg d v).advance n) : Result) = .next t ∧
      (∀ k : Nat, (t.reg d).getLsbD k = op ((s.reg d).getLsbD k) (b.getLsbD k)) ∧ t.psr = s.psr ∧
      RegisterFrame [⟨d, false⟩] n s t := by
  obtain ⟨hread, hframe⟩ := setReg_advance_spec s d v n
  exact ⟨_, rfl, hread.symm ▸ hv, hframe⟩

theorem bitwise_setPair_advance {p : PairNum} {v b : DWord} (n : Nat)
    (hv : ∀ k : Nat, v.getLsbD k = op ((s.pair p).getLsbD k) (b.getLsbD k)) :
    ∃ t : State, (.next ((s.setPair p v).advance n) : Result) = .next t ∧
      (∀ k : Nat, (t.pair p).getLsbD k = op ((s.pair p).getLsbD k) (b.getLsbD k)) ∧ t.psr = s.psr ∧
      RegisterFrame (s.pairSlots p) n s t := by
  obtain ⟨hread, hframe⟩ := setPair_advance_spec s p v n
  exact ⟨_, rfl, hread.symm ▸ hv, hframe⟩

end BitwiseResults

/-- Settles O38: AND, OR and exclusive OR, each written as a byte, a word and a double-word. -/
theorem logicOperations : Obligations.LogicOperations := by
  unfold Obligations.LogicOperations
  intro s src srcL d p
  have hand {w : Nat} (x y : BitVec w) (k : Nat) : (x &&& y).getLsbD k = and (x.getLsbD k) (y.getLsbD k) :=
    BitVec.getLsbD_and
  have hor {w : Nat} (x y : BitVec w) (k : Nat) : (x ||| y).getLsbD k = or (x.getLsbD k) (y.getLsbD k) :=
    BitVec.getLsbD_or
  have hxor {w : Nat} (x y : BitVec w) (k : Nat) : (x ^^^ y).getLsbD k = xor (x.getLsbD k) (y.getLsbD k) :=
    BitVec.getLsbD_xor
  exact ⟨bitwise_setRegB_advance _ (hand _ _), bitwise_setReg_advance _ (hand _ _),
    bitwise_setPair_advance _ (hand _ _),
    bitwise_setRegB_advance _ (hor _ _), bitwise_setReg_advance _ (hor _ _),
    bitwise_setPair_advance _ (hor _ _),
    bitwise_setRegB_advance _ (hxor _ _), bitwise_setReg_advance _ (hxor _ _),
    bitwise_setPair_advance _ (hxor _ _)⟩

end Sys2Proof.Proofs

/-! PROOFS. The shifts (spec/44_shifts.md R288 to R295): the value is that of `shiftBy`, or a free one; it is written by
`setRegB`, `setReg` or `setPair`, and beside it and the PC at most the count of draws moves on. -/

namespace Sys2Proof.Proofs

open Sys2Proof.Machine Sys2Proof.Laws

/-! ### The shifted value (R288) -/

/-- `r` is the value shifted right by `k` bits, as a number: the signed value divided, rounding down, where the shift is
arithmetic, the unsigned one where it is logical (R288). -/
def RightShifted {w : Nat} (arith : Bool) (v : BitVec w) (k r : Nat) : Prop :=
  match arith with
  | true => (BitVec.ofNat w r).toInt = v.toInt / 2 ^ k
  | false => r = v.toNat / 2 ^ k

section ShiftedValue

variable (s : State) {w : Nat} (arith : Bool) (v : BitVec w) {c : Int}

theorem toNat_shifted_left (hc : 0 ≤ c) (hmax : c ≤ (w : Int) - 1) :
    (s.shifted arith v c).toNat = v.toNat * 2 ^ c.toNat % 2 ^ w := by
  rw [State.shifted, shiftBy_left arith v c hc hmax, Option.getD_some, BitVec.toNat_ofNat]

theorem rightShifted_shifted (hmin : 1 - (w : Int) ≤ c) (hc : c < 0) :
    RightShifted arith v (-c).toNat (s.shifted arith v c).toNat := by
  rw [State.shifted, shiftBy_right arith v c hc hmin, Option.getD_some]
  cases arith with
  | true =>
    change (BitVec.ofNat w (BitVec.ofInt w _).toNat).toInt = _
    rw [BitVec.ofNat_toNat, BitVec.setWidth_eq, toInt_shiftRight]
  | false =>
    have hfits : v.toNat / 2 ^ (-c).toNat < 2 ^ w := Nat.lt_of_le_of_lt (Nat.div_le_self _ _) v.isLt
    exact (BitVec.toNat_ofNat _ _).trans (Nat.mod_eq_of_lt hfits)

end ShiftedValue

/-! ### The value written (R22, R23, R345; log entry 1) -/

section ShiftWritten

theorem drewShift_eq (u : State) (w : Nat) (c : Int) :
    u.drewShift w c = { u with draws := (u.drewShift w c).draws } := by
  unfold State.drewShift
  split <;> rfl

@[simp] theorem drewShift_regs (u : State) (w : Nat) (c : Int) : (u.drewShift w c).regs = u.regs := by
  rw [drewShift_eq]

@[simp] theorem drewShift_cfg (u : State) (w : Nat) (c : Int) : (u.drewShift w c).cfg = u.cfg := by
  rw [drewShift_eq]

theorem reg_drewShift_advance (u : State) (w : Nat) (c : Int) (n : Nat) (d : RegNum) :
    ((u.drewShift w c).advance n).reg d = u.reg d :=
  reg_congr (drewShift_regs u w c) (congrArg Psr.u (drewShift_psr u w c)) d

theorem pair_drewShift_advance (u : State) (w : Nat) (c : Int) (n : Nat) (p : PairNum) :
    ((u.drewShift w c).advance n).pair p = u.pair p :=
  pair_congr (drewShift_regs u w c) (congrArg Psr.u (drewShift_psr u w c)) (congrArg Cfg.sr (drewShift_cfg u w c)) p

/-- After registers are written, a free value drawn or not makes no difference to the PSR and the frame. -/
theorem drawnAfter_advance {l : List Slot} {s u : State} (w : Nat) (c : Int) (n : Nat) (hkept : RegsKept l s u)
    (heq : u = { s with regs := u.regs }) :
    ((u.drewShift w c).advance n).psr = s.psr ∧ RegisterFrame l n s ((u.drewShift w c).advance n) := by
  have hpsr : u.psr = s.psr := by rw [heq]
  have hdrawn : u.drewShift w c =
      { s with regs := (u.drewShift w c).regs, psr := (u.drewShift w c).psr, draws := (u.drewShift w c).draws } := by
    rw [drewShift_regs, drewShift_psr, hpsr, drewShift_eq, heq]
  have hregs : RegsKept l s (u.drewShift w c) :=
    regsKept_congr hkept (drewShift_regs u w c) (congrArg Psr.u (drewShift_psr u w c))
  exact ⟨(drewShift_psr u w c).trans hpsr, registerFrame_advance n hregs hdrawn⟩

variable (s : State) (d : RegNum) (p : PairNum) (c : Int) (n : Nat)

theorem setRegB_drewShift_advance_spec (v : Byte) :
    LowByte d v.toNat s (((s.setRegB d v).drewShift 8 c).advance n) ∧
      (((s.setRegB d v).drewShift 8 c).advance n).psr = s.psr ∧
      RegisterFrame [⟨d, false⟩] n s (((s.setRegB d v).drewShift 8 c).advance n) := by
  obtain ⟨-, hkept, heq⟩ := setRegB_spec s d v
  refine ⟨?_, drawnAfter_advance 8 c n hkept heq⟩
  rw [LowByte, reg_drewShift_advance]
  exact lowByte_setRegB s d v

theorem setReg_drewShift_advance_spec (v : Word) :
    (((s.setReg d v).drewShift 16 c).advance n).reg d = v ∧
      (((s.setReg d v).drewShift 16 c).advance n).psr = s.psr ∧
      RegisterFrame [⟨d, false⟩] n s (((s.setReg d v).drewShift 16 c).advance n) := by
  obtain ⟨hread, hkept, heq⟩ := setReg_spec s d v
  exact ⟨(reg_drewShift_advance _ 16 c n d).trans hread, drawnAfter_advance 16 c n hkept heq⟩

theorem setPair_drewShift_advance_spec (v : DWord) :
    (((s.setPair p v).drewShift 32 c).advance n).pair p = v ∧
      (((s.setPair p v).drewShift 32 c).advance n).psr = s.psr ∧
      RegisterFrame (s.pairSlots p) n s (((s.setPair p v).drewShift 32 c).advance n) := by
  obtain ⟨hread, hkept, heq⟩ := setPair_spec s p v
  exact ⟨(pair_drewShift_advance _ 32 c n p).trans hread, drawnAfter_advance 32 c n hkept heq⟩

end ShiftWritten

/-! ### A count in range (R288, R290 to R295) -/

section InRange

variable (s : State) (d : RegNum) (p : PairNum) (arith : Bool) (c : Int)

theorem byteShift_inRange (hmin : -7 ≤ c) (hmax : c ≤ 7) :
    ∃ t : State, (.next (((s.setRegB d (s.shifted arith (s.regB d) c)).drewShift 8 c).advance 2) : Result) = .next t ∧
      ∃ r : Nat, LowByte d r s t ∧ (0 ≤ c → r = (s.regB d).toNat * 2 ^ c.toNat % 2 ^ 8) ∧
      (c < 0 → RightShifted arith (s.regB d) (-c).toNat r) ∧ t.psr = s.psr ∧ RegisterFrame [⟨d, false⟩] 2 s t := by
  obtain ⟨hlow, hframe⟩ := setRegB_drewShift_advance_spec s d c 2 (s.shifted arith (s.regB d) c)
  exact ⟨_, rfl, _, hlow, fun hc => toNat_shifted_left s arith _ hc (by omega),
    rightShifted_shifted s arith _ (by omega), hframe⟩

theorem wordShift_inRange (hmin : -15 ≤ c) (hmax : c ≤ 15) :
    ∃ t : State, (.next (((s.setReg d (s.shifted arith (s.reg d) c)).drewShift 16 c).advance 2) : Result) = .next t ∧
      (0 ≤ c → (t.reg d).toNat = (s.reg d).toNat * 2 ^ c.toNat % 2 ^ 16) ∧
      (c < 0 → RightShifted arith (s.reg d) (-c).toNat (t.reg d).toNat) ∧
      t.psr = s.psr ∧ RegisterFrame [⟨d, false⟩] 2 s t := by
  obtain ⟨hread, hframe⟩ := setReg_drewShift_advance_spec s d c 2 (s.shifted arith (s.reg d) c)
  refine ⟨_, rfl, ?_, ?_, hframe⟩ <;> rw [hread]
  · exact fun hc => toNat_shifted_left s arith _ hc (by omega)
  · exact rightShifted_shifted s arith _ (by omega)

theorem pairShift_inRange (hmin : -31 ≤ c) (hmax : c ≤ 31) :
    ∃ t : State, (.next (((s.setPair p (s.shifted arith (s.pair p) c)).drewShift 32 c).advance 2) : Result) = .next t ∧
      (0 ≤ c → (t.pair p).toNat = (s.pair p).toNat * 2 ^ c.toNat % 2 ^ 32) ∧
      (c < 0 → RightShifted arith (s.pair p) (-c).toNat (t.pair p).toNat) ∧
      t.psr = s.psr ∧ RegisterFrame (s.pairSlots p) 2 s t := by
  obtain ⟨hread, hframe⟩ := setPair_drewShift_advance_spec s p c 2 (s.shifted arith (s.pair p) c)
  refine ⟨_, rfl, ?_, ?_, hframe⟩ <;> rw [hread]
  · exact fun hc => toNat_shifted_left s arith _ hc (by omega)
  · exact rightShifted_shifted s arith _ (by omega)

end InRange

/-- Settles O40: ASHU and LSH at each width are one lemma, in its arithmetic and in its logical reading. -/
theorem shiftsInRange : Obligations.ShiftsInRange := by
  unfold Obligations.ShiftsInRange
  intro s d p
  exact ⟨fun n => byteShift_inRange s d true (s.count n), fun n => wordShift_inRange s d true (s.count n),
    fun n => pairShift_inRange s p true (s.count n), fun n => byteShift_inRange s d false (s.rightCount n),
    fun n => wordShift_inRange s d false (s.rightCount n), fun n => pairShift_inRange s p false (s.rightCount n)⟩

/-! ### A count out of range (R288, D27) -/

/-- A byte write leaves bits 15:8, whatever the byte (R22). -/
theorem highByte_of_lowByte {d : RegNum} {r : Nat} {s t : State} (h : LowByte d r s t) :
    (t.reg d).toNat / 256 = (s.reg d).toNat / 256 := by
  obtain ⟨hbyte, hreg⟩ := h
  omega

/-- Settles O41: what is written beside the value does not depend on the value, so a free one changes nothing else. -/
theorem shiftsOutOfRange : Obligations.ShiftsOutOfRange := by
  unfold Obligations.ShiftsOutOfRange
  intro s d p
  have hbyte (c : Int) (v : Byte) := (setRegB_drewShift_advance_spec s d c 2 v).imp_left highByte_of_lowByte
  have hword (c : Int) (v : Word) := (setReg_drewShift_advance_spec s d c 2 v).right
  have hpair (c : Int) (v : DWord) := (setPair_drewShift_advance_spec s p c 2 v).right
  exact ⟨fun _ _ => ⟨_, rfl, hbyte _ _⟩, fun _ _ => ⟨_, rfl, hword _ _⟩, fun _ _ => ⟨_, rfl, hpair _ _⟩,
    fun _ _ => ⟨_, rfl, hbyte _ _⟩, fun _ _ => ⟨_, rfl, hword _ _⟩, fun _ _ => ⟨_, rfl, hpair _ _⟩⟩

end Sys2Proof.Proofs

/-! PROOFS. LPR and LPRD in user mode (spec/46_processor_register.md R328, R330, R331): both are the UND entry at their
own address (spec/60_exceptions.md R510, R527). Of an entry's accesses only the two of its frame write memory, the
double-word last, so that what holds of a store holds of it (R518). -/

namespace Sys2Proof.Proofs

open Sys2Proof.Machine Sys2Proof.Laws

/-! ### The return address in the frame of an entry (R510, R518) -/

/-- A code address is kept shifted right by one, and its bits 31:23 are zero (R346, D36). -/
theorem toNat_linkVal (a : Addr) : (linkVal a).toNat = a.toNat / 2 := by
  have ha := a.isLt
  unfold linkVal
  rw [toNat_join, BitVec.extractLsb'_toNat, Nat.shiftRight_eq_div_pow]
  simp only [BitVec.toNat_ofNat]
  omega

theorem acknowledge_mem (s : State) (x : Exc) : (s.acknowledge x).mem = s.mem := by rw [acknowledge_eq]

theorem dispatch_mem (s : State) (x : Exc) : (s.dispatch x).mem = s.mem := by rw [dispatch_eq]

/-- The frame's double-word is the last store of an entry: what follows it only reads. -/
theorem enter_mem (s : State) (x : Exc) (ret : Addr) : ∃ u : State, u.config = s.config ∧
    (s.enter x ret).mem = (u.storeD ((s.isp.toNat : Int) - 6) (linkVal ret)).mem := by
  unfold State.enter State.serialize
  simp only [dispatch_mem, acknowledge_mem]
  unfold State.pushFrame State.storeW
  split <;> exact ⟨_, by rw [storeBytes_spec]; rfl, rfl⟩

/-- A store reads back as written, and what is RAM depends on the chip alone. -/
theorem enter_bytesStored (s : State) (x : Exc) (ret : Addr) :
    BytesStored ((s.isp.toNat : Int) - 6) 4 (ret.toNat / 2) s (s.enter x ret) := by
  intro hl k hk hram
  obtain ⟨u, hconfig, hmem⟩ := enter_mem s x ret
  obtain ⟨hstored, -⟩ := stored_storeD u ((s.isp.toNat : Int) - 6) (linkVal ret) 0
  rw [hmem, ← toNat_linkVal]
  exact hstored hl k hk ((isRam_congr hconfig _).trans hram)

/-! ### The privileged loads (R328) -/

theorem exec_lpr_user {s : State} (hu : s.psr.u = true) (r : RegNum) (n : ProcRegNum) :
    exec (.lpr r n) s = .next (s.enter .und s.pc) :=
  if_pos hu

theorem exec_lprd_user {s : State} (hu : s.psr.u = true) (p : PairNum) (n : ProcRegNum) :
    exec (.lprd p n) s = .next (s.enter .und s.pc) :=
  if_pos hu

/-- Settles O45: neither instruction gets past the test of PSR.U, and what is claimed holds of every entry. -/
theorem privilegedLoads : Obligations.PrivilegedLoads := by
  unfold Obligations.PrivilegedLoads
  intro s r p n hu i hi
  have hexec : exec i s = .next (s.enter .und s.pc) := by
    obtain rfl | rfl := List.mem_pair.mp hi
    · exact exec_lpr_user hu r n
    · exact exec_lprd_user hu p n
  have hkept := enter_registersKept s .und s.pc
  have hregs : (s.enter .und s.pc).regs = s.regs := by rw [enter_eq]
  have huser : (s.enter .und s.pc).psr.u = false := by rw [enter_psr]; rfl
  exact ⟨_, hexec, rfl, hregs, hkept.cfg, hkept.intbase, hkept.dbg.bank, huser, enter_bytesStored s .und s.pc⟩

end Sys2Proof.Proofs

/-! PROOFS. The forward branches on a register compared with 0, the instructions that trap, and the return from an
exception (spec/47_jumps_linkage.md R353 to R356, R361, R362, spec/49_miscellaneous.md R456, spec/60_exceptions.md R510,
R515, R516, R523 to R527, R574). That a return undoes an entry follows from the two stores of the frame: they lie apart,
so both read back as written. -/

namespace Sys2Proof.Proofs

open Sys2Proof.Machine Sys2Proof.Laws

/-! ### Compare and branch (R353 to R356) -/

theorem forwardIf_spec (s : State) (taken : Bool) (j : BitVec 4) :
    BranchedTo (taken = true) (s.pc.toNat + 2 * (j.toNat + 1)) 2 s (s.forwardIf taken j) := by
  cases taken
  · obtain ⟨hadv, honly⟩ := advance_spec s 2
    exact ⟨honly, fun h => absurd h Bool.false_ne_true, fun _ => hadv⟩
  · obtain ⟨hwent, honly⟩ := setPc_spec s (s.pc.toNat + 2 * (j.toNat + 1))
    exact ⟨honly, fun _ => hwent, fun h => absurd rfl h⟩

/-- Settles O48: every mnemonic is `forwardIf` of its test. -/
theorem compareBranches : Obligations.CompareBranches := by
  unfold Obligations.CompareBranches
  intro s r j i taken h
  obtain ⟨c, hexec, hc⟩ := exec_forwardIf h
  exact ⟨_, hexec, branchedTo_congr hc (forwardIf_spec s c j)⟩

/-! ### Instructions that trap (R361, R456) -/

theorem exec_excp_bpt (s : State) : exec (.excp 8) s =
    if s.config.hwDebugModule then .refused .hardwareDebugMode else .next (s.enter .bpt s.pc) := rfl

/-- A vector that names no trap takes UND (R361, R527). -/
theorem exec_excp_other {v : BitVec 4} (h5 : v ≠ 5) (h6 : v ≠ 6) (h7 : v ≠ 7) (h8 : v ≠ 8) (s : State) :
    exec (.excp v) s = .next (s.enter .und s.pc) := by
  have hne : ∀ {n : BitVec 4}, v ≠ n → v.toNat ≠ n.toNat := fun h e => h (BitVec.eq_of_toNat_eq e)
  change execExcp v s = _
  unfold execExcp
  split
  next h => exact absurd h (hne h5)
  next h => exact absurd h (hne h6)
  next h => exact absurd h (hne h7)
  next h => exact absurd h (hne h8)
  next => rfl

/-- Settles O51: each named vector by itself, every other together, and BPT by what the chip has. -/
theorem trapInstructions : Obligations.TrapInstructions := by
  unfold Obligations.TrapInstructions
  refine fun s v w ope => ⟨?_, ?_, ?_, ?_, ?_, fun h5 h6 h7 h8 => exec_excp_other h5 h6 h7 h8 s, rfl⟩
  · rintro rfl; rfl
  · rintro rfl; rfl
  · rintro rfl; rfl
  · rintro rfl hw
    rw [exec_excp_bpt, hw]
    rfl
  · rintro rfl hw
    rw [exec_excp_bpt, hw]
    rfl

/-! ### The PSR a word names (R30, R362) -/

/-- The constant bits 4 and 8 apart, a word holds the PSR it names. -/
theorem psrAt_psrOfWord (w : Word) : PsrAt false (psrOfWord w) (w &&& 0xFEEF) := by
  unfold PsrAt psrOfWord
  simp only [BitVec.getLsbD_and]
  simp

/-- A word that holds a PSR names it. -/
theorem psrOfWord_of_psrAt {p : Psr} {w : Word} (h : PsrAt false p w) : psrOfWord w = p := by
  obtain ⟨hc, ht, hl, hu, -, hf, hz, hn, -, he, hp, hi⟩ := h
  unfold psrOfWord
  rw [hc, ht rfl, hl, hu, hf, hz, hn, he, hp rfl, hi]

/-! ### The two reads of RETX (R362) -/

/-- A read before it leaves what memory holds of a word. -/
theorem loaded_loadW_noteRead (s : State) (b : Int) (n : Nat) (a : Int) :
    BytesLoaded a 2 ((s.noteRead b n).loadW a).toNat s :=
  loaded_congr (loaded_loadW (s.noteRead b n) a) (fun _ => by rw [noteRead_mem]) (noteRead_config s b n).symm

theorem returnFrom_pc (s : State) : s.returnFrom.pc = jumpTarget (s.loadD s.isp.toNat) := by rw [returnFrom_eq]

theorem returnFrom_psr (s : State) :
    s.returnFrom.psr = psrOfWord ((s.noteRead s.isp.toNat 4).loadW (s.isp.toNat + 4)) := by rw [returnFrom_eq]

theorem returnFrom_isp (s : State) : s.returnFrom.isp.toNat = (s.isp.toNat + 6) % 2 ^ 24 := by
  rw [returnFrom_eq]
  exact BitVec.toNat_add s.isp 6

theorem returnFrom_iadPending (s : State) (a : Int) (h : (s.isp.toNat : Int) = a) :
    s.returnFrom.iadPending = ((s.noteRead a 4).noteRead (a + 4) 2).iadPending := by
  unfold State.returnFrom
  rw [h]
  rfl

/-- The second read ends above the first, so it is illegal wherever the first is. -/
theorem returnFrom_iad (s : State) :
    s.returnFrom.iadPending = true ↔ s.iadPending = true ∨ 2 ^ 24 < s.isp.toNat + 6 := by
  rw [returnFrom_iadPending s _ rfl, noteRead_iad, noteRead_iad, or_assoc]
  refine or_congr Iff.rfl ?_
  unfold Addressable
  omega

/-- With no debug condition enabled neither read leaves a trace (R562). -/
theorem returnFrom_dbg_off (s : State) (h : Undebugged s) : s.returnFrom.dbg = s.dbg := by
  obtain ⟨-, -, -, hdbg, -⟩ := accessKept_trans (accessKept_noteRead s s.isp.toNat 4) (accessKept_noteRead _ _ 2)
  rw [returnFrom_dbg s _ rfl, hdbg h]

/-- Settles O52: `returnFrom` reads the double-word and the word, and `returnFrom_eq` says what it leaves. -/
theorem returnFromException : Obligations.ReturnFromException := by
  unfold Obligations.ReturnFromException
  intro s
  refine ⟨s.returnFrom, rfl, ⟨_, _, loaded_loadD s s.isp.toNat, ?_, loaded_loadW_noteRead s s.isp.toNat 4 _, ?_⟩,
    returnFrom_isp s, ?_, ?_, ?_, ?_, returnFrom_dbg_off s, ?_, ?_, ?_, ?_, returnFrom_iad s⟩
  · rw [returnFrom_pc, toNat_jumpTarget]
  · rw [returnFrom_psr]
    exact psrAt_psrOfWord _
  all_goals rw [returnFrom_eq]

/-! ### The frame an entry leaves (R510) -/

/-- The state whose PSR an entry saves: TRC clears P first. -/
def savedState (s : State) (x : Exc) : State :=
  if x = .trc then { s with psr := { s.psr with p := false } } else s

theorem savedState_psr (s : State) (x : Exc) :
    (savedState s x).psr = if x = .trc then { s.psr with p := false } else s.psr := by
  unfold savedState
  split <;> rfl

theorem savedState_isp (s : State) (x : Exc) : (savedState s x).isp = s.isp := by
  unfold savedState
  split <;> rfl

theorem savedState_config (s : State) (x : Exc) : (savedState s x).config = s.config := by
  unfold savedState
  split <;> rfl

/-- The memory after an entry is that of its frame: what follows only reads. -/
theorem enter_frame_mem (s : State) (x : Exc) (ret : Addr) :
    (s.enter x ret).mem = ((savedState s x).pushFrame ret).mem := by
  unfold State.enter State.serialize
  simp only [dispatch_mem, acknowledge_mem]
  rfl

/-- Bytes stored stay as they are under a change that lies above or below them. -/
theorem bytesStored_kept {s u t : State} {a b : Int} {m n v : Nat} (h : BytesStored a m v s u)
    (hkept : MemoryKeptOutside b n u t) (hapart : a + m ≤ b ∨ b + n ≤ a) : BytesStored a m v s t := by
  intro hl k hk hram
  have hlow : 0 ≤ a := hl.1
  rw [hkept _ (by omega)]
  exact h hl k hk hram

/-- The PSR is stored above the return address, which is stored after it. -/
theorem enter_psrStored (s : State) (x : Exc) (ret : Addr) :
    BytesStored ((s.isp.toNat : Int) - 6 + 4) 2 (savedState s x).psrRead.toNat s (s.enter x ret) := by
  have hisp := savedState_isp s x
  have hconfig := savedState_config s x
  have hmem := enter_frame_mem s x ret
  generalize savedState s x = p at hisp hconfig hmem
  obtain ⟨hpsr, -⟩ := stored_storeW (p.drew 1) ((s.isp.toNat : Int) - 6 + 4) (v := p.psrRead) rfl 0
  obtain ⟨-, -, hkept, -⟩ := stored_storeD ((p.drew 1).storeW ((s.isp.toNat : Int) - 6 + 4) p.psrRead)
    ((s.isp.toNat : Int) - 6) (linkVal ret) 0
  have hboth := bytesStored_kept hpsr hkept (by omega)
  intro hl k hk hram
  rw [hmem, ← hboth hl k hk ((isRam_congr hconfig _).trans hram)]
  unfold State.pushFrame
  rw [hisp]
  rfl

/-- What was stored in RAM is what a later read answers. -/
theorem loaded_eq_stored {s t : State} {a : Int} {n v w : Nat} (hs : BytesStored a n v s t) (hw : BytesLoaded a n w t)
    (hc : t.config = s.config) (hl : Addressable a n) (hram : ∀ k : Nat, k < n → s.isRam (a.toNat + k) = true)
    (hvn : v < 256 ^ n) (hwn : w < 256 ^ n) : w = v := by
  have hdev : ∀ k : Nat, k < n → t.isDevice (a.toNat + k) = false := fun k hk =>
    (isDevice_congr hc _).trans (not_isDevice_of_isRam s (hram k hk))
  rw [littleEndian_of_loaded hw hl hdev hwn, littleEndian_of_stored hs hl hram, Nat.mod_eq_of_lt hvn]

/-! ### An entry and its return (R510, R515) -/

/-- A code address comes back from its link value (R346). -/
theorem jumpTarget_linkVal {a : Addr} (h : a.getLsbD 0 = false) : jumpTarget (linkVal a) = a := by
  apply BitVec.eq_of_toNat_eq
  have ha := a.isLt
  rw [even_iff] at h
  rw [toNat_jumpTarget, toNat_linkVal]
  omega

theorem enter_config (s : State) (x : Exc) (ret : Addr) : (s.enter x ret).config = s.config := by rw [enter_eq]

/-- With room below it ISP does not wrap. -/
theorem enter_isp {s : State} (h : 6 ≤ s.isp.toNat) (x : Exc) (ret : Addr) :
    ((s.enter x ret).isp.toNat : Int) = (s.isp.toNat : Int) - 6 := by
  have hlt := s.isp.isLt
  rw [enter_eq]
  change ((BitVec.ofInt 24 ((s.isp.toNat : Int) - 6)).toNat : Int) = _
  rw [BitVec.toNat_ofInt]
  omega

section Return

variable {s : State} (h6 : 6 ≤ s.isp.toNat) (hram : ∀ k : Nat, k < 6 → s.isRam (s.isp.toNat - 6 + k) = true)

include h6 hram

theorem enter_return_pc (x : Exc) {ret : Addr} (hret : ret.getLsbD 0 = false) :
    (s.enter x ret).returnFrom.pc = ret := by
  have hlt := s.isp.isLt
  have hstored := enter_bytesStored s x ret
  rw [← toNat_linkVal] at hstored
  have hload : (s.enter x ret).loadD ((s.isp.toNat : Int) - 6) = linkVal ret :=
    BitVec.eq_of_toNat_eq (loaded_eq_stored hstored (loaded_loadD _ _) (enter_config s x ret) ⟨by omega, by omega⟩
      (fun k hk => by convert hram k (by omega) using 2; omega) (BitVec.isLt _) (BitVec.isLt _))
  rw [returnFrom_pc, enter_isp h6, hload, jumpTarget_linkVal hret]

theorem enter_return_psr (hw : s.config.hwDebugModule = false) (x : Exc) (ret : Addr) :
    (s.enter x ret).returnFrom.psr = (savedState s x).psr := by
  have hlt := s.isp.isLt
  have hload : ((s.enter x ret).noteRead ((s.isp.toNat : Int) - 6) 4).loadW ((s.isp.toNat : Int) - 6 + 4) =
      (savedState s x).psrRead :=
    BitVec.eq_of_toNat_eq (loaded_eq_stored (enter_psrStored s x ret) (loaded_loadW_noteRead _ _ _ _)
      (enter_config s x ret) ⟨by omega, by omega⟩ (fun k hk => by convert hram (k + 4) (by omega) using 2; omega)
      (BitVec.isLt _) (BitVec.isLt _))
  have hread := psrAt_psrRead (savedState s x)
  rw [savedState_config, hw] at hread
  rw [returnFrom_psr, enter_isp h6, hload]
  exact psrOfWord_of_psrAt hread

end Return

/-- Settles O19: the frame reads back as the entry wrote it, and neither changes what is not in it. -/
theorem entryThenReturn : Obligations.EntryThenReturn := by
  unfold Obligations.EntryThenReturn
  intro s x ret h6 hret hw hram
  refine ⟨(s.enter x ret).returnFrom, rfl, enter_return_pc h6 hram x hret, ?_, ?_, ?_, ?_, ?_, ?_⟩
  · rw [enter_return_psr h6 hram hw, savedState_psr]
  · apply BitVec.eq_of_toNat_eq
    have hlt := s.isp.isLt
    have hisp := enter_isp h6 x ret
    rw [returnFrom_isp]
    omega
  all_goals rw [returnFrom_eq, enter_eq]

end Sys2Proof.Proofs

/-! PROOFS. What taking an exception leaves (spec/60_exceptions.md R510, R511, R513, R514, R516, R518): its two stores
and no other write memory, and its three kinds of access alone make IAD pending. -/

namespace Sys2Proof.Proofs

open Sys2Proof.Machine Sys2Proof.Laws

/-! ### An entry in two parts: the frame, then the reads -/

/-- The state of an entry once the frame is written and the PSR cleared, before its reads (R510, R511). -/
def framed (s : State) (x : Exc) (ret : Addr) : State :=
  { (savedState s x).pushFrame ret with psr := x.psrAfter ((savedState s x).pushFrame ret).psr }

theorem enter_framed (s : State) (x : Exc) (ret : Addr) :
    s.enter x ret = { ((framed s x ret).acknowledge x).dispatch x with waiting := false }.serialize := rfl

/-- TRC clears P, and nothing else that the frame or the reads use. -/
theorem savedState_fields (s : State) (x : Exc) :
    (savedState s x).intbase = s.intbase ∧ (savedState s x).cfg = s.cfg ∧ (savedState s x).dbg = s.dbg ∧
      (savedState s x).iadPending = s.iadPending ∧ (savedState s x).mem = s.mem := by
  unfold savedState
  split <;> exact ⟨rfl, rfl, rfl, rfl, rfl⟩

theorem framed_intbase (s : State) (x : Exc) (ret : Addr) : (framed s x ret).intbase = s.intbase := by
  obtain ⟨h, -⟩ := savedState_fields s x
  unfold framed
  rw [pushFrame_eq]
  exact h

theorem framed_cfg (s : State) (x : Exc) (ret : Addr) : (framed s x ret).cfg = s.cfg := by
  obtain ⟨-, h, -⟩ := savedState_fields s x
  unfold framed
  rw [pushFrame_eq]
  exact h

/-- The comparators may clear EFB at the stores of the frame; the bits that choose the dispatch stay. -/
theorem framed_debugKept (s : State) (x : Exc) (ret : Addr) : DebugKept s.dbg (framed s x ret).dbg := by
  obtain ⟨-, -, hdbg, -⟩ := savedState_fields s x
  obtain ⟨_, u, hu, hpush⟩ := pushFrame_changes (.refl (savedState s x)) ret
  have hkept := hu.frame.dbg
  rw [hdbg] at hkept
  unfold framed
  rw [hpush]
  exact hkept

/-! ### The bytes outside the frame (R518) -/

/-- A store of `n` bytes at `a` reaches the byte at `y`: the access is legal, and RAM is there. -/
def Reaches (a : Int) (n : Nat) (s : State) (y : Nat) : Prop :=
  Addressable a n ∧ a.toNat ≤ y ∧ y < a.toNat + n ∧ s.isRam y = true

theorem Reaches.of_config {a : Int} {n y : Nat} {s t : State} (hc : t.config = s.config) (h : Reaches a n t y) :
    Reaches a n s y := by
  unfold Reaches at h ⊢
  rwa [isRam_congr hc y] at h

/-- A byte that neither store of the frame reaches stays. -/
theorem enter_byte_kept {s : State} {y : Nat} (hpsr : ¬ Reaches ((s.isp.toNat : Int) - 6 + 4) 2 s y)
    (hpc : ¬ Reaches ((s.isp.toNat : Int) - 6) 4 s y) (x : Exc) (ret : Addr) :
    (s.enter x ret).mem.byte y = s.mem.byte y := by
  have hisp := savedState_isp s x
  have hconfig := savedState_config s x
  obtain ⟨-, -, -, -, hmem⟩ := savedState_fields s x
  rw [enter_frame_mem]
  generalize savedState s x = p at hisp hconfig hmem
  have hword : ((p.drew 1).storeW ((s.isp.toNat : Int) - 6 + 4) p.psrRead).mem.byte y = s.mem.byte y := by
    rw [← hmem]
    exact byte_storeBytes_kept fun h => hpsr (Reaches.of_config hconfig h)
  have hchip : ((p.drew 1).storeW ((s.isp.toNat : Int) - 6 + 4) p.psrRead).config = s.config :=
    (storeBytes_config (p.drew 1) _ _).trans hconfig
  unfold State.pushFrame
  rw [hisp, ← hword]
  exact byte_storeBytes_kept fun h => hpc (Reaches.of_config hchip h)

/-! ### IAD pending after an entry (R516) -/

theorem storeBytes_iad (s : State) (a : Int) (bs : List Byte) :
    (s.storeBytes a bs).iadPending = true ↔ s.iadPending = true ∨ ¬ Addressable a bs.length := by
  rw [storeBytes_spec, ← legal_addressable]
  simp

/-- ISP is a 24-bit address, so a frame is illegal at its low end alone. -/
theorem pushFrame_iad (s : State) (ret : Addr) :
    (s.pushFrame ret).iadPending = true ↔ s.iadPending = true ∨ s.isp.toNat < 6 := by
  have hlt := s.isp.isLt
  have hsp : (¬ Addressable ((s.isp.toNat : Int) - 6 + 4) 2 ∨ ¬ Addressable ((s.isp.toNat : Int) - 6) 4) ↔
      s.isp.toNat < 6 := by
    unfold Addressable
    omega
  rw [← hsp, ← or_assoc]
  exact (storeBytes_iad _ _ _).trans (or_congr_left (storeBytes_iad _ _ _))

theorem framed_iad (s : State) (x : Exc) (ret : Addr) :
    (framed s x ret).iadPending = true ↔ s.iadPending = true ∨ s.isp.toNat < 6 := by
  obtain ⟨-, -, -, hiad, -⟩ := savedState_fields s x
  have h := pushFrame_iad (savedState s x) ret
  rwa [savedState_isp, hiad] at h

/-- Every acknowledge read is at one of six fixed addresses in the address space (R514, R521). -/
theorem ackAddr_addressable {x : Exc} {c : DebugCtl} {a : Int} (h : x.ackAddr c = some a) : Addressable a 1 := by
  have hrange : (0xFFFC00 : Int) ≤ a ∧ a ≤ 0xFFFF00 := by
    cases x <;> simp only [Exc.ackAddr, reduceCtorEq, Option.some.injEq, Option.ite_none_right_eq_some] at h <;> omega
  unfold Addressable
  omega

theorem acknowledge_iad (s : State) (x : Exc) : (s.acknowledge x).iadPending = true ↔ s.iadPending = true := by
  unfold State.acknowledge
  split
  next a h => exact (noteRead_iad s a 1).trans (or_iff_left fun hbad => hbad (ackAddr_addressable h))
  next => exact Iff.rfl

/-! ### The dispatch (R513, R514) -/

/-- The bytes of a dispatch-table entry (R513). -/
def entryBytes (s : State) (x : Exc) : Nat := if x.alternate s.dbg.ctl || s.cfg.ed then 4 else 2

/-- How many bits of a dispatch-table entry count (R513, D19). -/
def entryBits (s : State) (x : Exc) : Nat := if x.alternate s.dbg.ctl || s.cfg.ed then 23 else 16

theorem entry_alternate {s : State} {x : Exc} (h : x.alternate s.dbg.ctl = true) :
    entryAddress s x = (4 * x.vector : Nat) ∧ entryBytes s x = 4 ∧ entryBits s x = 23 := by
  unfold entryAddress entryBytes entryBits
  rw [h]
  exact ⟨rfl, rfl, rfl⟩

theorem entry_double {s : State} {x : Exc} (h : ¬ x.alternate s.dbg.ctl = true) (hed : s.cfg.ed = true) :
    entryAddress s x = (s.intbase.toNat + 4 * x.vector : Nat) ∧ entryBytes s x = 4 ∧ entryBits s x = 23 := by
  unfold entryAddress entryBytes entryBits
  rw [Bool.eq_false_iff.2 h, hed]
  exact ⟨rfl, rfl, rfl⟩

theorem entry_word {s : State} {x : Exc} (h : ¬ x.alternate s.dbg.ctl = true) (hed : s.cfg.ed = false) :
    entryAddress s x = (s.intbase.toNat + 2 * x.vector : Nat) ∧ entryBytes s x = 2 ∧ entryBits s x = 16 := by
  unfold entryAddress entryBytes entryBits
  rw [Bool.eq_false_iff.2 h, hed]
  exact ⟨rfl, rfl, rfl⟩

theorem dispatchEntry_eq (s : State) (x : Exc) :
    s.dispatchEntry x = (entryAddress s x, x.alternate s.dbg.ctl || s.cfg.ed) := by
  unfold State.dispatchEntry entryAddress
  cases x.alternate s.dbg.ctl
  · cases s.cfg.ed <;> rfl
  · simp

/-- A double-word entry is read by MemRead(a, 4), a word entry by MemRead(a, 2); the PC is twice what counts of it. -/
theorem dispatch_pc (s : State) (x : Exc) : ∃ e : Nat,
    BytesLoaded (entryAddress s x) (entryBytes s x) e s ∧
      (s.dispatch x).pc.toNat = 2 * (e % 2 ^ entryBits s x) := by
  unfold State.dispatch entryBytes entryBits
  rw [dispatchEntry_eq]
  cases x.alternate s.dbg.ctl || s.cfg.ed
  · refine ⟨_, loaded_loadW s _, ?_⟩
    have hlt := (s.loadW (entryAddress s x)).isLt
    change (0#7 ++ s.loadW (entryAddress s x) ++ 0#1).toNat = 2 * (_ % 2 ^ 16)
    rw [toNat_join, toNat_join]
    simp only [BitVec.toNat_ofNat]
    omega
  · exact ⟨_, loaded_loadD s _, toNat_jumpTarget _⟩

theorem dispatch_iad (s : State) (x : Exc) :
    (s.dispatch x).iadPending = true ↔
      s.iadPending = true ∨ ¬ Addressable (entryAddress s x) (entryBytes s x) := by
  unfold State.dispatch entryBytes
  rw [dispatchEntry_eq]
  cases x.alternate s.dbg.ctl || s.cfg.ed
  · exact noteRead_iad s _ 2
  · exact noteRead_iad s _ 4

/-- The state an entry dispatches in, with the registers of the dispatch as before the entry. -/
theorem dispatch_of_enter (s : State) (x : Exc) (ret : Addr) : ∃ v : State,
    (s.enter x ret).pc = (v.dispatch x).pc ∧ (s.enter x ret).iadPending = (v.dispatch x).iadPending ∧
      (s.enter x ret).mem = v.mem ∧ (s.enter x ret).config = v.config ∧
      (v.iadPending = true ↔ s.iadPending = true ∨ s.isp.toNat < 6) ∧
      x.alternate v.dbg.ctl = x.alternate s.dbg.ctl ∧ v.cfg = s.cfg ∧ v.intbase = s.intbase := by
  have hack := local_acknowledge (framed s x ret) x
  have hctl := ((framed_debugKept s x ret).trans hack.dbg).ctl
  refine ⟨(framed s x ret).acknowledge x, rfl, rfl, dispatch_mem _ x, ?_, ?_, ?_, ?_, ?_⟩
  · rw [enter_framed, dispatch_eq]
    rfl
  · exact (acknowledge_iad _ x).trans (framed_iad s x ret)
  · rw [hctl, Exc.alternate_efb]
  · exact hack.cfg.trans (framed_cfg s x ret)
  · exact hack.intbase.trans (framed_intbase s x ret)

theorem entry_congr {s v : State} {x : Exc} (halt : x.alternate v.dbg.ctl = x.alternate s.dbg.ctl)
    (hcfg : v.cfg = s.cfg) (hint : v.intbase = s.intbase) :
    entryAddress v x = entryAddress s x ∧ entryBytes v x = entryBytes s x ∧ entryBits v x = entryBits s x := by
  unfold entryAddress entryBytes entryBits
  rw [halt, hcfg, hint]
  exact ⟨rfl, rfl, rfl⟩

/-- The PC after an entry, by the entry's address in the registers before it (R510, R513). -/
theorem enter_pc (s : State) (x : Exc) (ret : Addr) : ∃ e : Nat,
    BytesLoaded (entryAddress s x) (entryBytes s x) e (s.enter x ret) ∧
      (s.enter x ret).pc.toNat = 2 * (e % 2 ^ entryBits s x) := by
  obtain ⟨v, hpc, -, hmem, hconfig, -, halt, hcfg, hint⟩ := dispatch_of_enter s x ret
  obtain ⟨hentry, hbytes, hbits⟩ := entry_congr halt hcfg hint
  obtain ⟨e, hload, hvalue⟩ := dispatch_pc v x
  rw [hentry, hbytes] at hload
  rw [hbits] at hvalue
  exact ⟨e, loaded_congr hload (fun _ => by rw [hmem]) hconfig, by rw [hpc]; exact hvalue⟩

/-- What makes IAD pending in an entry (R516). -/
theorem enter_iad (s : State) (x : Exc) (ret : Addr) :
    (s.enter x ret).iadPending = true ↔
      s.iadPending = true ∨ s.isp.toNat < 6 ∨ ¬ Addressable (entryAddress s x) (entryBytes s x) := by
  obtain ⟨v, -, hiad, -, -, hframe, halt, hcfg, hint⟩ := dispatch_of_enter s x ret
  obtain ⟨hentry, hbytes, -⟩ := entry_congr halt hcfg hint
  rw [hiad, dispatch_iad, hframe, hentry, hbytes, or_assoc]

/-! ### What an entry leaves of the rest (R511) -/

theorem accessKept_acknowledge (s : State) (x : Exc) : AccessKept s (s.acknowledge x) := by
  unfold State.acknowledge
  split
  · exact accessKept_noteRead s _ 1
  · exact ⟨rfl, rfl, rfl, fun _ => rfl, rfl, rfl, rfl, rfl⟩

theorem accessKept_dispatch (s : State) (x : Exc) : AccessKept s (s.dispatch x) := by
  unfold State.dispatch
  simp only
  split
  · exact accessKept_noteRead s _ 4
  · exact accessKept_noteRead s _ 2

theorem storeBytes_dbg_off {s : State} (h : Undebugged s) (a : Int) (bs : List Byte) :
    (s.storeBytes a bs).dbg = s.dbg := by
  rw [storeBytes_spec, noteAccess_off s h]

/-- With no condition enabled the stores of the frame leave the debug unit (R562). -/
theorem framed_dbg_off {s : State} (h : Undebugged s) (x : Exc) (ret : Addr) : (framed s x ret).dbg = s.dbg := by
  obtain ⟨-, -, hdbg, -⟩ := savedState_fields s x
  have hoff : Undebugged ((savedState s x).drew 1) := by
    unfold Undebugged
    rw [drew_dbg, hdbg]
    exact h
  have hword := storeBytes_dbg_off hoff ((savedState s x).isp.toNat - 6 + 4) (wordBytes (savedState s x).psrRead)
  have hboth := storeBytes_dbg_off (s := (((savedState s x).drew 1).storeW ((savedState s x).isp.toNat - 6 + 4)
    (savedState s x).psrRead)) (by
      unfold Undebugged
      rw [State.storeW, hword]
      exact hoff) ((savedState s x).isp.toNat - 6) (dwordBytes (linkVal ret))
  exact (hboth.trans hword).trans hdbg

theorem enter_dbg_off {s : State} (h : Undebugged s) (x : Exc) (ret : Addr) : (s.enter x ret).dbg = s.dbg := by
  have hframe := framed_dbg_off h x ret
  obtain ⟨-, -, -, hreads, -⟩ := accessKept_trans (accessKept_acknowledge (framed s x ret) x)
    (accessKept_dispatch _ x)
  rw [← hframe]
  refine hreads ?_
  unfold Undebugged
  rw [hframe]
  exact h

theorem enter_restKept (s : State) (x : Exc) (ret : Addr) :
    (s.enter x ret).waiting = false ∧ (s.enter x ret).regs = s.regs ∧ (s.enter x ret).intbase = s.intbase ∧
      (s.enter x ret).cfg = s.cfg ∧ (s.enter x ret).eLag = s.eLag ∧ (s.enter x ret).inputs = s.inputs ∧
      (s.enter x ret).config = s.config := by
  rw [enter_eq]
  exact ⟨rfl, rfl, rfl, rfl, rfl, rfl, rfl⟩

/-- The exceptions that clear PSR.I (R511). -/
theorem clearsI_iff (x : Exc) :
    x.clearsI = false ↔ x ≠ .nmi ∧ (∀ v : Byte, x ≠ .int v) ∧ x ≠ .ise ∧ x ≠ .dbg := by
  cases x <;> simp [Exc.clearsI]

/-- The memory an entry leaves: outside its frame, where the double-word is not written, and where nothing is. -/
theorem enter_memoryKept (s : State) (x : Exc) (ret : Addr) :
    NotRamKept s (s.enter x ret) ∧ MemoryKeptOutside ((s.isp.toNat : Int) - 6) 6 s (s.enter x ret) ∧
      ((s.isp.toNat : Int) - 6 < 0 → MemoryKeptOutside ((s.isp.toNat : Int) - 6 + 4) 2 s (s.enter x ret)) ∧
      ((s.isp.toNat : Int) - 6 + 4 < 0 → ∀ y : Nat, (s.enter x ret).mem.byte y = s.mem.byte y) := by
  refine ⟨fun y hrom => ?_, fun y hout => ?_, fun hneg y hout => ?_, fun hneg y => ?_⟩
  · have hnot : ∀ a n, ¬ Reaches a n s y := fun _ _ ⟨_, _, _, hram⟩ => Bool.false_ne_true (hrom.symm.trans hram)
    exact enter_byte_kept (hnot _ _) (hnot _ _) x ret
  all_goals
    refine enter_byte_kept ?_ ?_ x ret
    all_goals
      unfold Reaches Addressable
      omega

/-- Settles O17: two stores and the clearing of the PSR; the reads after them write no memory. -/
theorem entryFrame : Obligations.EntryFrame := by
  unfold Obligations.EntryFrame
  intro s x ret t sp
  have hisp : (t.isp.toNat : Int) = sp % 2 ^ 24 := by
    change ((s.enter x ret).isp.toNat : Int) = _
    rw [enter_eq]
    change ((BitVec.ofInt 24 sp).toNat : Int) = _
    rw [BitVec.toNat_ofInt]
    omega
  have hsaved := psrAt_psrRead (savedState s x)
  rw [savedState_config, savedState_psr] at hsaved
  obtain ⟨hrom, houtside, hword, hnone⟩ := enter_memoryKept s x ret
  have hiad : sp < 0 → t.iadPending = true := fun hneg => (enter_iad s x ret).2 (.inr (.inl (by omega)))
  have hpsr : t.psr = x.psrAfter s.psr := enter_psr s x ret
  have hi : t.psr.i = true ↔ s.psr.i = true ∧ x.clearsI = false := by
    rw [hpsr]
    simp [Exc.psrAfter]
  obtain ⟨hwait, hregs, hintbase, hcfg, hlag, hinputs, hconfig⟩ := enter_restKept s x ret
  exact ⟨hisp, enter_bytesStored s x ret, ⟨_, hsaved, enter_psrStored s x ret⟩, hrom, houtside, hword, hnone, hiad,
    hpsr ▸ rfl, hi.trans (and_congr_right fun _ => clearsI_iff x), hwait, hregs, hintbase, hcfg, hlag, hinputs, hconfig,
    fun hoff => enter_dbg_off hoff x ret⟩

/-- The exceptions by their vector number (R501). -/
theorem vector_table {x : Exc} {v : Nat}
    (h : (x, v) ∈ [(Exc.nmi, 1), (.svc, 5), (.dvz, 6), (.flg, 7), (.bpt, 8), (.trc, 9), (.und, 10), (.iad, 12),
      (.dbg, 14), (.ise, 15)] ∨ ∃ b : Byte, x = .int b ∧ v = b.toNat) : v = x.vector ∧ v < 256 := by
  obtain h | ⟨b, rfl, rfl⟩ := h
  · simp only [List.mem_cons, Prod.mk.injEq, List.not_mem_nil, or_false] at h
    obtain ⟨rfl, rfl⟩ | ⟨rfl, rfl⟩ | ⟨rfl, rfl⟩ | ⟨rfl, rfl⟩ | ⟨rfl, rfl⟩ | ⟨rfl, rfl⟩ | ⟨rfl, rfl⟩ | ⟨rfl, rfl⟩ |
      ⟨rfl, rfl⟩ | ⟨rfl, rfl⟩ := h
    all_goals exact ⟨rfl, by decide⟩
  · exact ⟨rfl, b.isLt⟩

/-- When the dispatch is the alternate one (R514). -/
theorem alternate_iff (x : Exc) (c : DebugCtl) :
    x.alternate c = true ↔ (x = .bpt ∧ c.abpt = true) ∨ (x = .trc ∧ c.atrc = true) ∨
      (x = .dbg ∧ c.adbg = true) ∨ (x = .ise ∧ c.aise = true) := by
  cases x <;> simp [Exc.alternate]

/-- Settles O18: the address and the width of the table's entry are those of the registers before the entry. -/
theorem entryDispatch : Obligations.EntryDispatch := by
  unfold Obligations.EntryDispatch
  intro s x ret v hv t alt
  obtain ⟨rfl, hv⟩ := vector_table hv
  have halt : alt ↔ x.alternate s.dbg.ctl = true := (alternate_iff x s.dbg.ctl).symm
  obtain ⟨e, hload, hpc⟩ := enter_pc s x ret
  have hat : ∀ {a n w : Nat}, entryAddress s x = a ∧ entryBytes s x = n ∧ entryBits s x = w →
      ∃ e : Nat, BytesLoaded a n e t ∧ t.pc.toNat = 2 * (e % 2 ^ w) := by
    rintro a n w ⟨ha, rfl, rfl⟩
    exact ⟨e, ha ▸ hload, hpc⟩
  refine ⟨fun h => hat (entry_alternate (halt.1 h)), fun h hed => hat (entry_double (mt halt.2 h) hed),
    fun h hed => hat (entry_word (mt halt.2 h) hed), (enter_iad s x ret).trans (or_congr_right (or_congr_right ?_))⟩
  have hlegal : ∀ {a n w : Nat}, entryAddress s x = a ∧ entryBytes s x = n ∧ entryBits s x = w →
      (¬ Addressable (entryAddress s x) (entryBytes s x) ↔ 2 ^ 24 < a + n) := by
    rintro a n w ⟨ha, rfl, -⟩
    rw [ha]
    unfold Addressable
    omega
  by_cases h : alt
  · rw [hlegal (entry_alternate (halt.1 h))]
    simp only [h, not_true_eq_false, false_and, or_false, iff_false]
    omega
  · cases hed : s.cfg.ed
    · rw [hlegal (entry_word (mt halt.2 h) hed)]
      simp [h]
    · rw [hlegal (entry_double (mt halt.2 h) hed)]
      simp [h]

end Sys2Proof.Proofs

/-! PROOFS. The order of the boundary (spec/60_exceptions.md R530): a pending DBG trap, a pending IAD trap, the
interrupts, the wait, the trace trap, and then the instruction the words at the PC decode to (R505, R537). -/

namespace Sys2Proof.Proofs

open Sys2Proof.Machine Sys2Proof.Laws

/-! ### Traps pending (R530, R531) -/

/-- The state before the checks: of what was, the inputs, IAD, the latency and the count of draws can change. -/
theorem takeInputs_endLag_fields (s : State) : ∃ d : Nat,
    s.takeInputs.endLag = { s.afterInputs with
      iadPending := s.iadPending || (s.config.extIad && s.nextInputs.extIad), eLag := none, draws := d } := by
  refine ⟨s.takeInputs.endLag.draws, ?_⟩
  unfold State.takeInputs
  cases s.config.extIad && s.nextInputs.extIad
  · rw [Bool.or_false]
    rfl
  · rw [Bool.or_true]
    rfl

theorem checks_dbg {u : State} (hr : u.maskedRange = false) (hp : u.dbg.pending = true)
    (hw : u.config.hwDebugModule = false) (inp : Inputs) (e : Bool) :
    u.checks inp e = .next (State.enter { u with dbg := { u.dbg with pending := false } } .dbg u.pc) := by
  unfold State.checks State.enterDbg
  rw [hr, hp]
  simp only [hw, Bool.false_eq_true, if_false, if_true]

theorem checks_iad {u : State} (hr : u.maskedRange = false) (hp : u.dbg.pending = false) (hi : u.iadPending = true)
    (inp : Inputs) (e : Bool) :
    u.checks inp e = .next (State.enter { u with iadPending := false } .iad u.pc) := by
  unfold State.checks
  rw [hr, hp, hi]
  rfl

/-- Settles O20: lines 1 and 2 of R530 stand ahead of every other check. -/
theorem pendingTrapsFirst : Obligations.PendingTrapsFirst := by
  unfold Obligations.PendingTrapsFirst
  intro s hpc hreset hrange bad
  obtain ⟨d, hchecked⟩ := takeInputs_endLag_fields s
  rw [step_checks hpc hreset, hchecked]
  have hdbg := checks_dbg (u := { s.afterInputs with iadPending := bad, eLag := none, draws := d }) hrange
  have hiad := checks_iad (u := { s.afterInputs with iadPending := bad, eLag := none, draws := d }) hrange
  exact ⟨d, fun hp hw => hdbg hp hw _ _, fun hp hbad => hiad hp hbad _ _⟩

/-! ### Interrupts, the wait and the trace trap (R530, R534) -/

section Lines

variable {u : State} {inp : Inputs} {e : Bool}

theorem afterChecks_nmi (hn : inp.nmi = true) : u.afterChecks inp e = .next (u.enter .nmi u.pc) :=
  if_pos hn

/-- An acknowledge byte that is no vector is outside the model (R522; log entry 26). -/
theorem afterChecks_int_refused (hn : inp.nmi = false) (hint : inp.int = true) (hi : u.psr.i = true)
    (hack : inp.ack.toNat < 16 ∨ 127 < inp.ack.toNat) : u.afterChecks inp true = .refused .vectorOutOfRange := by
  have hrange : (16 ≤ inp.ack && inp.ack ≤ 127) = false := by
    rw [Bool.and_eq_false_iff, decide_eq_false_iff_not, decide_eq_false_iff_not, BitVec.not_le, BitVec.not_le]
    exact hack
  unfold State.afterChecks State.enterInt
  rw [hn, hint, hi, hrange]
  rfl

/-- With neither an NMI nor an accepted maskable request the lines from the ISE request on decide. -/
theorem afterChecks_unmasked (hn : inp.nmi = false) (hm : (inp.int && u.psr.i && e) = false) :
    u.afterChecks inp e =
      if inp.ise then .next (u.enter .ise u.pc)
      else if u.waiting then .next u
      else if u.psr.p && !u.config.hwDebugModule then .next (u.enter .trc u.pc)
      else u.runInstr := by
  unfold State.afterChecks
  rw [hn, hm]
  rfl

end Lines

/-- The inputs of a calm boundary taken leave no latency to end. -/
theorem afterInputs_endLag {s : State} (h : s.eLag = none) : s.afterInputs.endLag = s.afterInputs := by
  unfold State.endLag State.afterInputs
  rw [h]
  rfl

/-- A calm boundary reaches line 4 of R530 with nothing changed but the inputs. -/
theorem step_calm {s : State} (h : Calm s) : step s = s.afterInputs.afterChecks s.nextInputs s.psr.e := by
  obtain ⟨hpc, hreset, hext, hbrkl, hpend, hiad, hlag, hoff⟩ := h
  rw [step_checks hpc hreset, takeInputs_endLag_eq hext, afterInputs_endLag hlag, effectiveE_of_none hlag]
  exact checks_calm (u := s.afterInputs) hoff hpend hiad hbrkl s.psr.e

/-- Settles O21: lines 4 to 6 of R530 in their order. -/
theorem interruptsAccepted : Obligations.InterruptsAccepted := by
  unfold Obligations.InterruptsAccepted
  intro s hcalm
  rw [step_calm hcalm]
  refine ⟨afterChecks_nmi, fun hn hint hi he => ?_, fun hn hmasked hise => ?_⟩
  · rw [he]
    exact ⟨afterChecks_int (u := s.afterInputs) hn hint hi, afterChecks_int_refused (u := s.afterInputs) hn hint hi⟩
  · have hm : (s.nextInputs.int && s.afterInputs.psr.i && s.psr.e) = false := by
      change (s.nextInputs.int && s.psr.i && s.psr.e) = false
      obtain h | h | h := hmasked <;> simp [h]
    rw [afterChecks_unmasked hn hm, if_pos hise]
    rfl

/-- A calm boundary without a request (R530). -/
theorem step_unrequested {s : State} (hcalm : Calm s) (hn : s.nextInputs.nmi = false) (hint : s.nextInputs.int = false)
    (hise : s.nextInputs.ise = false) :
    step s = if s.waiting then .next s.afterInputs
      else if s.psr.p && !s.config.hwDebugModule then .next (s.afterInputs.enter .trc s.pc)
      else s.afterInputs.runInstr := by
  rw [step_calm hcalm, afterChecks_unmasked hn (by rw [hint, Bool.false_and, Bool.false_and]), hise]
  rfl

/-- Settles O23: lines 7 and 8 of R530. -/
theorem waitAndTrace : Obligations.WaitAndTrace := by
  unfold Obligations.WaitAndTrace
  intro s hcalm hn hint hise
  rw [step_unrequested hcalm hn hint hise]
  refine ⟨fun hw => if_pos hw, fun hw hp hm => ?_⟩
  rw [hw, hp, hm]
  rfl

/-! ### The instruction at the PC (R505, R530, R537) -/

/-- A byte that was not overwritten and is not a device's is fetched as memory holds it (R621). -/
theorem fetchByte_known {s : State} {a : Nat} (ho : s.staleBytes a = []) (hd : s.isDevice a = false) (k : Nat) :
    s.fetchByte a k = s.mem.byte a := by
  unfold State.fetchByte
  rw [hd, ho]
  rfl

theorem fetchWord_known {s : State} (h : CodeKnown s) {k : Nat} (hk : k < 3) :
    s.fetchWord k = if s.pc.toNat + 2 * k + 2 ≤ 2 ^ 24 then some (s.mem.word (s.pc.toNat + 2 * k)) else none := by
  obtain ⟨hlow, hlowdev⟩ := h (2 * k) (by omega)
  obtain ⟨hhigh, hhighdev⟩ := h (2 * k + 1) (by omega)
  unfold State.fetchWord Memory.word
  simp only
  rw [fetchByte_known hlow hlowdev, fetchByte_known (a := s.pc.toNat + 2 * k + 1) hhigh hhighdev]

/-- Known words are fetched as memory holds them. -/
theorem fetchWords_known {s : State} (h : CodeKnown s) : s.fetchWords = s.codeWords := by
  unfold State.fetchWords State.codeWords
  rw [fetchWord_known h (k := 0) (by decide), fetchWord_known h (k := 1) (by decide),
    fetchWord_known h (k := 2) (by decide), show List.range 3 = [0, 1, 2] from rfl]
  simp only [List.filter_cons, List.filter_nil, decide_eq_true_eq]
  split <;> split <;> split <;> rfl

/-- No byte of a known fetch is free. -/
theorem fetchDraws_known {s : State} (h : CodeKnown s) : s.fetchDraws = 0 := by
  refine if_pos (List.all_eq_true.2 fun k hk => ?_)
  obtain ⟨hold, hdev⟩ := h k (by simp only [List.mem_cons, List.not_mem_nil, or_false] at hk; omega)
  rw [hold, hdev]
  rfl

/-- Known words are decoded and run with no free value drawn (R505, R537). -/
theorem runInstr_known {s : State} (h : CodeKnown s) :
    (∀ i : Instr, decodeWords s.codeWords = .ok i → s.runInstr = exec i s.start) ∧
      (∀ e : DecodeError, decodeWords s.codeWords = .error e → s.runInstr = .next (s.enter .iad s.pc)) := by
  unfold State.runInstr
  rw [fetchWords_known h, fetchDraws_known h]
  constructor
  · intro i hi
    rw [hi]
    rfl
  · intro e he
    rw [he]
    rfl

/-- With no condition enabled no breakpoint mask is used up at the start of an instruction (R566). -/
theorem afterStart_off {b : DebugBank} (h0 : b.dcrl.getLsbD 7 = false) (h1 : b.dcrl.getLsbD 15 = false) (a : Addr) :
    b.afterStart a = b := by
  unfold DebugBank.afterStart
  rw [off_pcHits b h0 h1]
  simp

theorem mapBanks_eq_self {d : DebugUnit} {f : DebugBank → DebugBank} (h : ∀ b, f (d.get b) = d.get b)
    (last : BitVec 2) : d.mapBanks last f = d := by
  have h0 : f d.bank0 = d.bank0 := h 0
  have h1 : f d.bank1 = d.bank1 := h 1
  have h2 : f d.bank2 = d.bank2 := h 2
  have h3 : f d.bank3 = d.bank3 := h 3
  unfold DebugUnit.mapBanks
  rw [h0, h1, h2, h3, ite_self, ite_self, ite_self]

theorem start_off {s : State} (h : Undebugged s) :
    s.start = { s with psr := if s.config.hwDebugModule then s.psr else { s.psr with p := s.psr.t } } := by
  unfold State.start
  rw [mapBanks_eq_self fun b => afterStart_off (h b).1 (h b).2 s.pc]

/-- A quiet boundary runs the instruction at the PC (R530). -/
theorem step_quiet {s : State} (h : Quiet s) : step s = s.afterInputs.runInstr := by
  obtain ⟨hcalm, hn, hint, hise, hwait, hp⟩ := h
  rw [step_unrequested hcalm hn hint hise, hwait, hp]
  rfl

/-- Settles O7: with nothing asked of the boundary its last lines fetch, decode and run. -/
theorem stepRunsDecoded : Obligations.StepRunsDecoded := by
  unfold Obligations.StepRunsDecoded
  intro s hquiet hknown
  have ⟨⟨_, _, _, _, _, _, _, hoff⟩, _⟩ := hquiet
  obtain ⟨hok, herror⟩ := runInstr_known (s := s.afterInputs) hknown
  rw [step_quiet hquiet]
  refine ⟨fun i hi => ?_, fun e he => herror e he⟩
  rw [hok i hi, start_off (s := s.afterInputs) hoff]
  rfl

end Sys2Proof.Proofs

/-! PROOFS. The tag check of R530 in the terms of the statements (spec/60_exceptions.md R561 to R568, R577): what each
bank records of a PC match, that a bank which hit sees no access of the entry, and what the start of an instruction
uses up. -/

namespace Sys2Proof.Proofs

open Sys2Proof.Machine Sys2Proof.Laws

/-! ### One bank (R561 to R566) -/

theorem pcOn_iff (b : DebugBank) (ch : Bool) : b.pcOn ch = true ↔ b.OnPc ch := by
  unfold DebugBank.pcOn DebugBank.OnPc DebugBank.dcrBit
  cases ch <;> simp

theorem pcHitCh_iff (b : DebugBank) (ch : Bool) (a : Addr) :
    b.pcHitCh ch a = true ↔ b.OnPc ch ∧ b.At ch a.toNat := by
  rw [DebugBank.pcHitCh, Bool.and_eq_true, pcOn_iff, matches_iff]

/-- The hits of a PC (R561, R564, R565). -/
theorem pcHits_iff (b : DebugBank) (a : Addr) :
    ((b.pcHits a).1 = true ↔ b.Hit b.OnPc a.toNat false) ∧ ((b.pcHits a).2 = true ↔ b.Hit b.OnPc a.toNat true) := by
  unfold DebugBank.pcHits DebugBank.hits DebugBank.Hit DebugBank.esq DebugBank.ear DebugBank.inRange
  cases b.dcrl.getLsbD 10 <;> cases b.dcrl.getLsbD 2 <;>
    simp [pcHitCh_iff, pcOn_iff, BitVec.le_def, and_comm, and_assoc]

theorem anyPcHit_iff (b : DebugBank) (a : Addr) :
    ((b.pcHits a).1 || (b.pcHits a).2) = true ↔ b.AnyHit b.OnPc a.toNat := by
  rw [Bool.or_eq_true, (pcHits_iff b a).1, (pcHits_iff b a).2]
  rfl

/-- The breakpoint mask suppresses a trap in either channel (R566). -/
theorem tagHits_iff (b : DebugBank) (a : Addr) :
    ((b.tagHits a).1 = true ↔ b.bpMask = false ∧ b.Hit b.OnPc a.toNat false) ∧
      ((b.tagHits a).2 = true ↔ b.bpMask = false ∧ b.Hit b.OnPc a.toNat true) := by
  rw [← (pcHits_iff b a).1, ← (pcHits_iff b a).2]
  unfold DebugBank.tagHits
  cases b.bpMask <;> simp

theorem anyTagHit_iff (b : DebugBank) (a : Addr) :
    ((b.tagHits a).1 || (b.tagHits a).2) = true ↔ b.bpMask = false ∧ b.AnyHit b.OnPc a.toNat := by
  rw [Bool.or_eq_true, (tagHits_iff b a).1, (tagHits_iff b a).2, ← and_or_left]
  rfl

/-- A status bit set by a hit. -/
theorem getLsbD_ite_bit {bits : BitVec 7} {j : Nat} (h : ∀ i : Nat, bits.getLsbD i = decide (i = j)) (hit : Bool)
    (k : Nat) : (if hit then bits else 0).getLsbD k = true ↔ k = j ∧ hit = true := by
  cases hit <;> simp [h]

/-- What the tag check records in a bank (R561, R565, R568). -/
theorem afterTag_recorded (b : DebugBank) (a : Addr) :
    DebugBank.Recorded b.OnPc a.toNat b.bpMask 0 4 b (b.afterTag a) := by
  obtain ⟨h0, h1⟩ := tagHits_iff b a
  have hany := anyTagHit_iff b a
  have hdcr : (b.afterTag a).dcrl = if (b.tagHits a).1 || (b.tagHits a).2 then b.dcrl &&& 0x7F7F else b.dcrl := rfl
  have hdsr : (b.afterTag a).dsr =
      b.dsr ||| (if (b.tagHits a).1 then 0x01 else 0) ||| (if (b.tagHits a).2 then 0x10 else 0) := rfl
  have hseq : (b.afterTag a).seqArmed = if b.dcrl.getLsbD 10 then
      (b.seqArmed || b.pcHitCh false a) && !(b.tagHits a).2 else b.seqArmed := rfl
  have hbit : ∀ (bits : BitVec 7) (j : Nat), j < 7 → (∀ i : Nat, i < 7 → bits.getLsbD i = decide (i = j)) →
      ∀ i : Nat, bits.getLsbD i = decide (i = j) := by
    intro bits j hj h i
    by_cases hi : i < 7
    · exact h i hi
    · rw [BitVec.getLsbD_of_ge _ _ (by omega)]
      exact (decide_eq_false (by omega)).symm
  refine ⟨fun hm hh => ?_, fun hnone => ?_, fun k => ?_, rfl, rfl, ?_⟩
  · rw [hdcr, if_pos (hany.2 ⟨hm, hh⟩)]
  · rw [hdcr, if_neg]
    rw [hany]
    rintro ⟨hm, hh⟩
    exact hnone.elim (fun h => Bool.false_ne_true (hm.symm.trans h)) fun h => h hh
  · rw [hdsr, BitVec.getLsbD_or, BitVec.getLsbD_or, Bool.or_eq_true, Bool.or_eq_true,
      getLsbD_ite_bit (hbit 0x01 0 (by decide) (by decide)), getLsbD_ite_bit (hbit 0x10 4 (by decide) (by decide)), h0,
      h1, or_assoc]
    refine or_congr_right ?_
    tauto
  · rw [hseq, ← h1, ← pcHitCh_iff]
    cases b.dcrl.getLsbD 10 <;> simp

theorem afterTag_bpMask (b : DebugBank) (a : Addr) :
    (b.afterTag a).bpMask = true ↔ b.bpMask = true ∨ b.AnyHit b.OnPc a.toNat := by
  have h : (b.afterTag a).bpMask = (b.bpMask || ((b.tagHits a).1 || (b.tagHits a).2)) := Bool.or_assoc _ _ _
  rw [h, Bool.or_eq_true, anyTagHit_iff]
  cases b.bpMask <;> simp

theorem afterStart_bpMask (b : DebugBank) (a : Addr) :
    (b.afterStart a).bpMask = true ↔ b.bpMask = true ∧ ¬ b.AnyHit b.OnPc a.toNat := by
  rw [← anyPcHit_iff, Bool.not_eq_true]
  simp [DebugBank.afterStart]

/-! ### The debug unit (R567, R577) -/

/-- The hits of the tag check are those the statements speak of. -/
theorem tagHit_iff (s : State) :
    s.dbg.tagHit s.config.lastBank s.pc s.nextInputs.brkl = true ↔ Tagged s := by
  unfold DebugUnit.tagHit Tagged
  rw [Bool.or_eq_true, Bool.and_eq_true, anyBank_iff]
  simp only [anyTagHit_iff]

/-- A bank after the tag check: the external line tags bank 0 alone (R567). -/
theorem afterTag_get (d : DebugUnit) (last : BitVec 2) (a : Addr) (brkl : Bool) (b : BitVec 2) :
    (d.afterTag last a brkl).get b =
      if b ≤ last then
        if b = 0 ∧ d.ctl.efb = true ∧ brkl = true then ((d.get b).afterTag a).tagged else (d.get b).afterTag a
      else d.get b := by
  have hget := mapBanks_get d last (fun x => x.afterTag a) b
  have hzero : (0 : BitVec 2) ≤ last := by simp [BitVec.le_def]
  by_cases hb : b = 0
  · subst hb
    rw [if_pos hzero]
    change (if (d.ctl.efb && brkl) = true then _ else _) = _
    simp only [Bool.and_eq_true, true_and]
    rfl
  · rw [if_neg (c := b = 0 ∧ d.ctl.efb = true ∧ brkl = true) fun h => hb h.1, ← hget]
    obtain rfl | rfl | rfl | rfl := bank_cases b
    · exact absurd rfl hb
    all_goals rfl

/-! ### A bank that hit sees no access of the entry (R562, R568) -/

theorem bank_ext {x y : DebugBank} (hdcr : y.dcrl = x.dcrl) (hdsr : y.dsr = x.dsr) (h0 : y.car0 = x.car0)
    (h1 : y.car1 = x.car1) (hmask : y.bpMask = x.bpMask) (hseq : y.seqArmed = x.seqArmed) : y = x := by
  cases x
  cases y
  simp only [DebugBank.mk.injEq]
  exact ⟨hdcr, hdsr, h0, h1, hmask, hseq⟩

/-- Both channels of a bank are off (R39). -/
def BankOff (x : DebugBank) : Prop := x.dcrl.getLsbD 7 = false ∧ x.dcrl.getLsbD 15 = false

theorem not_onData_of_off {x : DebugBank} (h : BankOff x) (w ch : Bool) : ¬ x.OnData w ch := by
  rw [← dataOn_iff, off_data x h.1 h.2]
  exact Bool.false_ne_true

theorem not_hit_of_not_on {x : DebugBank} {on : Bool → Prop} (h : ∀ ch, ¬ on ch) (a : Nat) (ch : Bool) :
    ¬ x.Hit on a ch := by
  unfold DebugBank.Hit
  split
  · exact fun hit => h _ hit.2.2.1
  · split
    · exact fun hit => h _ hit.2.1
    · exact fun hit => h _ hit.1

/-- A bank whose channels do not look records nothing. -/
theorem recorded_not_on {x y : DebugBank} {on : Bool → Prop} {a i j : Nat} {masked : Bool}
    (h : DebugBank.Recorded on a masked i j x y) (hon : ∀ ch, ¬ on ch) (hmask : y.bpMask = x.bpMask) : y = x := by
  obtain ⟨-, hdcr, hdsr, h0, h1, hseq⟩ := h
  have hnone := not_hit_of_not_on (x := x) hon a
  refine bank_ext (hdcr (.inr fun hit => hit.elim (hnone false) (hnone true))) ?_ h0 h1 hmask ?_
  · refine BitVec.eq_of_getLsbD_eq fun k _ => Bool.eq_iff_iff.2 ((hdsr k).trans (or_iff_left ?_))
    rintro ⟨-, ⟨-, hit⟩ | ⟨-, hit⟩⟩
    · exact hnone false hit
    · exact hnone true hit
  · rw [Bool.eq_iff_iff, hseq]
    split
    · simp [hnone true, hon false]
    · exact Iff.rfl

theorem saw_get_off {last : BitVec 2} {x : Int × Bool} {d e : DebugUnit} (h : DebugUnit.Saw last x d e)
    {b : BitVec 2} (hoff : BankOff (d.get b)) : e.get b = d.get b := by
  obtain ⟨hin, hout⟩ := h
  by_cases hx : 0 ≤ x.1 ∧ x.1 < 2 ^ 24
  · obtain ⟨hseen, hunseen, -⟩ := hin hx
    by_cases hb : b ≤ last
    · obtain ⟨hmask, hrec⟩ := hseen b hb
      exact recorded_not_on hrec (not_onData_of_off hoff x.2) hmask
    · exact hunseen b (BitVec.not_le.1 hb)
  · rw [hout hx]

theorem sawAll_get_off {last : BitVec 2} {l : List (Int × Bool)} {b : BitVec 2} : ∀ {d e : DebugUnit},
    DebugUnit.SawAll last l d e → BankOff (d.get b) → e.get b = d.get b := by
  induction l with
  | nil =>
    intro d e h _
    rw [show e = d from h]
  | cons x rest ih =>
    rintro d e ⟨m, hm, hrest⟩ hoff
    have hfirst := saw_get_off hm hoff
    exact (ih hrest (hfirst ▸ hoff)).trans hfirst

/-- No access sets EFB (R568). -/
theorem sawAll_efb {last : BitVec 2} {l : List (Int × Bool)} : ∀ {d e : DebugUnit},
    DebugUnit.SawAll last l d e → d.ctl.efb = false → e.ctl.efb = false := by
  induction l with
  | nil =>
    intro d e h hd
    rwa [show e = d from h]
  | cons x rest ih =>
    rintro d e ⟨m, ⟨hin, hout⟩, hrest⟩ hd
    refine ih hrest ?_
    by_cases hx : 0 ≤ x.1 ∧ x.1 < 2 ^ 24
    · obtain ⟨-, -, -, -, -, hefb⟩ := hin hx
      rw [← Bool.not_eq_true, hefb, hd]
      simp
    · rwa [hout hx]

theorem enter_get_off {u : State} {b : BitVec 2} (h : BankOff (u.dbg.get b)) (x : Exc) (ret : Addr) :
    (u.enter x ret).dbg.get b = u.dbg.get b :=
  sawAll_get_off (enter_sawAll u x ret) h

theorem enter_ctl_of_efb {u : State} (h : u.dbg.ctl.efb = false) (x : Exc) (ret : Addr) :
    (u.enter x ret).dbg.ctl = u.dbg.ctl := by
  have hefb := sawAll_efb (enter_sawAll u x ret) h
  rw [(enter_debugKept u x ret).ctl, hefb, ← h]

/-! ### The boundary (R530) -/

section Boundary

variable {s : State}

/-- The state after the tag check: the debug unit apart it is as the boundary took its inputs. -/
theorem atFetch_eq (h : AtTagCheck s) :
    s.atFetch = { s.afterInputs.endLag with dbg := s.dbg.afterTag s.config.lastBank s.pc s.nextInputs.brkl } := by
  obtain ⟨-, -, hext, -, -, hwait, -⟩ := h
  unfold State.atFetch
  rw [takeInputs_endLag_eq hext]
  exact if_neg (Bool.eq_false_iff.1 hwait)

theorem checks_tag {u : State} (hr : u.maskedRange = false) (hp : u.dbg.pending = false) (hi : u.iadPending = false)
    (hwait : u.waiting = false) (inp : Inputs) (e : Bool) :
    u.checks inp e = if u.dbg.tagHit u.config.lastBank u.pc inp.brkl then (u.afterTag inp).enterDbg
      else (u.afterTag inp).afterChecks inp e := by
  unfold State.checks State.tagged
  rw [hr, hp, hi, hwait]
  rfl

/-- Line 3 of R530. -/
theorem step_atTagCheck (h : AtTagCheck s) :
    step s = if s.dbg.tagHit s.config.lastBank s.pc s.nextInputs.brkl then s.atFetch.enterDbg
      else s.atFetch.afterChecks s.nextInputs s.effectiveE := by
  obtain ⟨hpc, hreset, hext, hpend, hiad, hwait, hrange, -⟩ := h
  have hchecks := checks_tag (u := s.afterInputs.endLag) hrange hpend hiad hwait s.nextInputs s.effectiveE
  rw [step_checks hpc hreset, State.atFetch, takeInputs_endLag_eq hext, hchecks]
  rfl

/-- A tag takes the DBG trap with the PC saved (R533). -/
theorem step_tagged (h : AtTagCheck s) (ht : Tagged s) : step s = .next (s.atFetch.enter .dbg s.pc) := by
  rw [step_atTagCheck h, if_pos ((tagHit_iff s).2 ht), atFetch_eq h]
  obtain ⟨-, -, -, -, -, -, -, hw⟩ := h
  exact if_neg (Bool.eq_false_iff.1 hw)

theorem afterChecks_run {u : State} {inp : Inputs} {e : Bool} (hn : inp.nmi = false) (hint : inp.int = false)
    (hise : inp.ise = false) (hwait : u.waiting = false) (hp : u.psr.p = false) : u.afterChecks inp e = u.runInstr := by
  rw [afterChecks_unmasked hn (by rw [hint, Bool.false_and, Bool.false_and]), hise, hwait, hp]
  rfl

/-- Without a tag, a request or a trace the instruction runs (R530). -/
theorem step_untagged (h : AtTagCheck s) (ht : ¬ Tagged s) (hn : s.nextInputs.nmi = false)
    (hint : s.nextInputs.int = false) (hise : s.nextInputs.ise = false) (hp : s.psr.p = false) :
    step s = s.atFetch.runInstr := by
  have hfields := atFetch_eq h
  rw [step_atTagCheck h, if_neg (mt (tagHit_iff s).1 ht)]
  obtain ⟨-, -, -, -, -, hwait, -⟩ := h
  exact afterChecks_run hn hint hise (by rw [hfields]; exact hwait) (by rw [hfields]; exact hp)

/-- EFB after the tag check: a tag clears it (R568). -/
theorem atFetch_ctl (h : AtTagCheck s) : s.atFetch.dbg.ctl = { s.dbg.ctl with
    efb := s.dbg.ctl.efb && !s.dbg.tagHit s.config.lastBank s.pc s.nextInputs.brkl } := by
  rw [atFetch_eq h]
  rfl

theorem atFetch_get (h : AtTagCheck s) (b : BitVec 2) : s.atFetch.dbg.get b =
    if b ≤ s.config.lastBank then
      if b = 0 ∧ s.dbg.ctl.efb = true ∧ s.nextInputs.brkl = true then ((s.dbg.get b).afterTag s.pc).tagged
      else (s.dbg.get b).afterTag s.pc
    else s.dbg.get b := by
  rw [atFetch_eq h]
  exact afterTag_get s.dbg s.config.lastBank s.pc s.nextInputs.brkl b

theorem low_masked_off (v : Word) : (v &&& 0x7F7F).getLsbD 7 = false ∧ (v &&& 0x7F7F).getLsbD 15 = false := by
  constructor <;> rw [BitVec.getLsbD_and] <;> exact Bool.and_false _

/-- A bank that hit, tagged by the external line besides or not, is off after the tag check (R568). -/
theorem atFetch_bankOff (h : AtTagCheck s) {b : BitVec 2} (hb : b ≤ s.config.lastBank)
    (hm : (s.dbg.get b).bpMask = false) (hhit : (s.dbg.get b).AnyHit (s.dbg.get b).OnPc s.pc.toNat) :
    BankOff (s.atFetch.dbg.get b) := by
  obtain ⟨hdcr, -⟩ := afterTag_recorded (s.dbg.get b) s.pc
  rw [atFetch_get h, if_pos hb]
  unfold BankOff
  split
  · exact low_masked_off _
  · rw [hdcr hm hhit]
    exact low_masked_off _

/-- Without a tag a bank's mask stays at the tag check (R566). -/
theorem untagged_get (h : AtTagCheck s) (ht : ¬ Tagged s) {b : BitVec 2} (hb : b ≤ s.config.lastBank) :
    s.atFetch.dbg.get b = (s.dbg.get b).afterTag s.pc ∧
      (((s.dbg.get b).afterTag s.pc).bpMask = true ↔ (s.dbg.get b).bpMask = true) := by
  have hline : ¬ (s.dbg.ctl.efb = true ∧ s.nextInputs.brkl = true) := fun hl => ht (.inr hl)
  refine ⟨?_, (afterTag_bpMask _ _).trans (or_iff_left_of_imp fun hhit => ?_)⟩
  · rw [atFetch_get h, if_pos hb, if_neg fun hl => hline hl.2]
  · by_contra hm
    exact ht (.inl ⟨b, hb, Bool.eq_false_iff.2 hm, hhit⟩)

/-! ### The start of the instruction (R505, R566) -/

theorem atFetch_config (h : AtTagCheck s) : s.atFetch.config = s.config := by
  rw [atFetch_eq h]
  rfl

theorem atFetch_pc (h : AtTagCheck s) : s.atFetch.pc = s.pc := by
  rw [atFetch_eq h]
  rfl

/-- The tag check leaves the words at the PC and what a fetch may see of them. -/
theorem atFetch_known (h : AtTagCheck s) (hknown : CodeKnown s) :
    CodeKnown s.atFetch ∧ s.atFetch.codeWords = s.codeWords := by
  rw [atFetch_eq h]
  exact ⟨hknown, rfl⟩

theorem atFetch_start_get (h : AtTagCheck s) (b : BitVec 2) : s.atFetch.start.dbg.get b =
    if b ≤ s.config.lastBank then (s.atFetch.dbg.get b).afterStart s.pc else s.atFetch.dbg.get b := by
  rw [start_dbg, atFetch_config h, atFetch_pc h]
  exact mapBanks_get s.atFetch.dbg s.config.lastBank (fun x => x.afterStart s.pc) b

/-- The state an instruction starts in: the debug unit apart, T copied to P and nothing else changed. -/
theorem atFetch_start_eq (h : AtTagCheck s) (hlag : s.eLag = none) : s.atFetch.start =
    { s.afterInputs with dbg := s.atFetch.start.dbg, psr := { s.psr with p := s.psr.t } } := by
  have hfields := atFetch_eq h
  rw [afterInputs_endLag hlag] at hfields
  have hpsr : s.atFetch.start.psr = { s.psr with p := s.psr.t } := by
    obtain ⟨-, -, -, -, -, -, -, hw⟩ := id h
    rw [start_psr, atFetch_config h, hw, hfields]
    rfl
  have hstart : s.atFetch.start = { s.atFetch with psr := s.atFetch.start.psr, dbg := s.atFetch.start.dbg } := rfl
  rw [hpsr] at hstart
  generalize s.atFetch.start = u at hstart ⊢
  rw [hstart, hfields]

/-- Known words at an untagged PC are run from there (R505, R530). -/
theorem step_untagged_known (h : AtTagCheck s) (ht : ¬ Tagged s) (hn : s.nextInputs.nmi = false)
    (hint : s.nextInputs.int = false) (hise : s.nextInputs.ise = false) (hp : s.psr.p = false) (hknown : CodeKnown s)
    {i : Instr} (hi : decodeWords s.codeWords = .ok i) : step s = exec i s.atFetch.start := by
  obtain ⟨hfetch, hwords⟩ := atFetch_known h hknown
  obtain ⟨hrun, -⟩ := runInstr_known hfetch
  rw [step_untagged h ht hn hint hise hp]
  exact hrun i (hwords ▸ hi)

theorem atFetch_bank (h : AtTagCheck s) : s.atFetch.dbg.bank = s.dbg.bank := by
  rw [atFetch_eq h]
  rfl

theorem atFetch_pending (h : AtTagCheck s) : s.atFetch.dbg.pending = false := by
  rw [atFetch_eq h]
  obtain ⟨-, -, -, hpend, -⟩ := h
  exact hpend

/-- The tag check and the start of an instruction look at the implemented banks alone (R577). -/
theorem atFetch_get_absent (h : AtTagCheck s) {b : BitVec 2} (hb : s.config.lastBank < b) :
    s.atFetch.dbg.get b = s.dbg.get b := by
  rw [atFetch_get h, if_neg (BitVec.not_le.2 hb)]

end Boundary

/-- Settles O25: the check takes the trap where a bank or the line tags, and else leaves the instruction to run. -/
theorem pcBreakpoint : Obligations.PcBreakpoint := by
  unfold Obligations.PcBreakpoint
  intro s h
  have hctl := atFetch_ctl h
  constructor
  · intro ht
    rw [(tagHit_iff s).2 ht, Bool.not_true, Bool.and_false] at hctl
    have hefb : s.atFetch.dbg.ctl.efb = false := by rw [hctl]
    have heq : s.atFetch = { s.afterInputs with
        dbg := s.atFetch.dbg, eLag := none, draws := s.atFetch.draws } := by
      rw [atFetch_eq h]
      rfl
    refine ⟨s.atFetch, _, step_tagged h ht, rfl, heq, atFetch_bank h, atFetch_pending h, hctl,
      enter_ctl_of_efb hefb .dbg s.pc, fun b hb => atFetch_get_absent h hb, fun b hb =>
      ⟨(s.dbg.get b).afterTag s.pc, afterTag_recorded _ _, afterTag_bpMask _ _, ?_, fun hm hhit => ?_⟩⟩
    · rw [atFetch_get h, if_pos hb]
    · exact enter_get_off (atFetch_bankOff h hb hm hhit) _ _
  · intro ht hn hint hise hp hlag hknown i hi
    rw [Bool.eq_false_iff.2 (mt (tagHit_iff s).1 ht), Bool.not_false, Bool.and_true] at hctl
    refine ⟨s.atFetch.start, step_untagged_known h ht hn hint hise hp hknown hi, atFetch_start_eq h hlag,
      atFetch_bank h, atFetch_pending h, hctl, fun b hb => ?_, fun b hb => ?_⟩
    · rw [atFetch_start_get h, if_neg (BitVec.not_le.2 hb), atFetch_get_absent h hb]
    · obtain ⟨htag, hmask⟩ := untagged_get h ht hb
      rw [atFetch_start_get h, if_pos hb, htag]
      exact ⟨afterTag_recorded _ _, (afterStart_bpMask _ _).trans (and_congr_left' hmask)⟩

end Sys2Proof.Proofs

/-! PROOFS. Reset (spec/70_reset_and_hazards.md R600 to R602, R606): the state after a power-up reset, and what a reset
input leaves of any state: the PC it captures, the halves of it that R0 and R1 hold, and the debug unit. -/

namespace Sys2Proof.Proofs

open Sys2Proof.Machine Sys2Proof.Laws

/-! ### The state after reset (R601) -/

/-- Every bank of the debug unit is in its reset state after reset. -/
theorem reset_get (b : BitVec 2) : State.reset.dbg.get b = .reset := by
  obtain rfl | rfl | rfl | rfl := bank_cases b <;> rfl

/-- Settles O5: each field holds the value `State.reset` gives it, the banks by `reset_get`. -/
theorem resetState : Obligations.ResetState := by
  unfold Obligations.ResetState
  refine ⟨rfl, rfl, rfl, rfl, fun b => ?_, rfl, rfl, rfl, rfl, rfl⟩
  rw [reset_get]
  exact ⟨rfl, rfl, rfl, rfl⟩

/-! ### The captured PC (R602) -/

/-- The address R602 lets a reset capture: that of the instruction at the PC, of the next one in sequence, or of the one
it goes to. -/
theorem capturedPc_cases (s : State) (choice : Nat) :
    s.capturedPc choice = s.pc ∨ ∃ i : Instr, decodeWords s.fetchWords = .ok i ∧
      (s.capturedPc choice = s.pc + BitVec.ofNat 24 (instrBytes i) ∨
        ∃ u : State, exec i s = .next u ∧ s.capturedPc choice = u.pc) := by
  unfold State.capturedPc
  cases hi : decodeWords s.fetchWords with
  | error => exact .inl rfl
  | ok i =>
    dsimp only
    split
    · exact .inl rfl
    · exact .inr ⟨i, rfl, .inl rfl⟩
    · cases hu : exec i s with
      | next u => exact .inr ⟨i, rfl, .inr ⟨u, hu, rfl⟩⟩
      | fault | refused => exact .inl rfl

/-- Bits 16:1 of an address, as R0 holds them. -/
theorem toNat_capturedLow (a : Addr) : (a.extractLsb' 1 16).toNat = a.toNat / 2 % 65536 := by
  rw [BitVec.extractLsb'_toNat, Nat.shiftRight_eq_div_pow]

/-- Bits 23:17 of an address, as R1 holds them. -/
theorem toNat_capturedHigh (a : Addr) : (0#9 ++ a.extractLsb' 17 7).toNat = a.toNat / 131072 := by
  have := a.isLt
  rw [toNat_join, BitVec.extractLsb'_toNat, Nat.shiftRight_eq_div_pow]
  simp only [BitVec.toNat_ofNat]
  omega

/-! ### What a reset input leaves (R600, R601) -/

/-- A bank after a reset input: the CARs are free, and DCR and DSR are kept by the hardware debug module alone (R576). -/
theorem resetDebug_get (s : State) (b : BitVec 2) : ∃ car0 car1 : Addr, s.resetDebug.get b =
    { dcrl := if s.config.hwDebugModule then (s.dbg.get b).dcrl else 0
      dsr := if s.config.hwDebugModule then (s.dbg.get b).dsr else 0
      car0, car1, bpMask := false, seqArmed := false } := by
  obtain rfl | rfl | rfl | rfl := bank_cases b <;> exact ⟨_, _, rfl⟩

/-- Without the hardware debug module DBS, DCR and DSR are 0. -/
theorem resetDebug_cleared {s : State} (hw : s.config.hwDebugModule = false) :
    s.resetDebug.bank = 0 ∧ s.resetDebug.ctl = ⟨false, false, false, false, false, false⟩ ∧
      ∀ b : BitVec 2, (s.resetDebug.get b).dcrl = 0 ∧ (s.resetDebug.get b).dsr = 0 := by
  have hoff : ¬ s.config.hwDebugModule = true := by rw [hw]; exact Bool.false_ne_true
  refine ⟨if_neg hoff, if_neg hoff, fun b => ?_⟩
  obtain ⟨_, _, hget⟩ := resetDebug_get s b
  rw [hget]
  exact ⟨if_neg hoff, if_neg hoff⟩

/-- No breakpoint is masked and no complex one is armed. -/
theorem resetDebug_unmasked (s : State) (b : BitVec 2) :
    (s.resetDebug.get b).bpMask = false ∧ (s.resetDebug.get b).seqArmed = false := by
  obtain ⟨_, _, hget⟩ := resetDebug_get s b
  rw [hget]
  exact ⟨rfl, rfl⟩

/-- A reset input stands ahead of every check of the boundary (R530, R600). -/
theorem step_resetInput {s : State} (hpc : s.pc.getLsbD 0 = false) (hr : s.nextInputs.reset = true) :
    step s = .next s.afterInputs.resetInput := by
  unfold step State.boundary
  rw [hpc, hr]
  rfl

/-- Settles O6: the step is `resetInput`, and what it captures is one of the three addresses of `capturedPc_cases`. -/
theorem resetInputEvent : Obligations.ResetInputEvent := by
  unfold Obligations.ResetInputEvent
  intro s hpc hr
  refine ⟨s.afterInputs.resetInput, (s.afterInputs.drew 32).capturedPc (s.afterInputs.free 32 0).toNat,
    step_resetInput hpc hr, rfl, rfl, rfl, resetDebug_cleared (s := s.afterInputs), resetDebug_unmasked s.afterInputs,
    rfl, rfl, rfl, rfl, rfl, ⟨s.afterInputs.dropIcache.stale.prefetch, rfl, mem_dropIcache_prefetch s.afterInputs⟩,
    toNat_capturedLow _, toNat_capturedHigh _, psrAt_psrRead (s.afterInputs.drew 1), capturedPc_cases _ _⟩

end Sys2Proof.Proofs
